-- ==== Sys2Proof/Word.lean ====
section
/-! DEFINITION. The words the part moves, the number of an agent, and one value for each agent. -/

namespace Sys2Proof

/-- A byte (00_scope 6.2). -/
abbrev Byte := BitVec 8

/-- A two-byte field: handles, session numbers (R179). -/
abbrev Half := BitVec 16

/-- A word of 32 bits (00_scope 6.2). -/
abbrev Word := BitVec 32

/-- An epoch, a 32-bit number (R28). -/
abbrev Epoch := BitVec 32

/-- An agent, named by its port number 0 to 3 (00_scope 3.3). -/
abbrev Agent := Fin 4

/-- One value for each of the four agents. -/
structure PerAgent (α : Type) where
  a0 : α
  a1 : α
  a2 : α
  a3 : α
deriving DecidableEq, Repr

/-- The same value for every agent. -/
def PerAgent.all {α : Type} (x : α) : PerAgent α := ⟨x, x, x, x⟩

/-- The value of agent `n`. -/
def PerAgent.get {α : Type} (p : PerAgent α) (n : Agent) : α :=
  match n.val with
  | 0 => p.a0
  | 1 => p.a1
  | 2 => p.a2
  | _ => p.a3

/-- `p` with the value of agent `n` replaced by `x`. -/
def PerAgent.set {α : Type} (p : PerAgent α) (n : Agent) (x : α) : PerAgent α :=
  match n.val with
  | 0 => { p with a0 := x }
  | 1 => { p with a1 := x }
  | 2 => { p with a2 := x }
  | _ => { p with a3 := x }

/-- The agents in ascending number. -/
def agents : List Agent := [0, 1, 2, 3]

end Sys2Proof
end

