-- ==== Sys2Proof/Config.lean ====
section
/-! DEFINITION. What the part fixes once (geometry, limits of the TREF measurement, identification) and the
free values: orders the spec leaves open. -/

namespace Sys2Proof.Config

/-- R1: the record table has 2048 slots. -/
def slots : Nat := 2048

/-- Shortest in-band TREF interval, 990 µs, in nanoseconds (Table 47; the unit is log 7). -/
def bandLow : Nat := 990000

/-- Longest in-band TREF interval, 1010 µs, in nanoseconds (Table 47). -/
def bandHigh : Nat := 1010000

/-- The missing-pulse limit, 1500 µs, in nanoseconds (R130, Table 47). -/
def pulseLimit : Nat := 1500000

/-- R137: the divider's span, 1000 µs, in nanoseconds. -/
def dividerSpan : Nat := 1000000

/-- R165: the I2C target address of the management port. -/
def managementTarget : BitVec 7 := 0x3A

/-- Vendor code (R167). -/
def vendorCode : Half := 0x5E7A

/-- Part code (R167). -/
def partCode : Half := 0x4160

/-- Revision (R167). -/
def revision : Byte := 0x01

/-- FREE VALUE (log 3): of several expiries of one record that are due at one tick, which is taken first.
R66 allows either order. The value is read modulo the number of due expiries. -/
opaque expiryOrder : Nat → Nat

/-- FREE VALUE (log 4): whether the monitor takes the change to UNSAFE before the table takes the same tick
(R134 allows either order). -/
opaque limitFirst : Nat → Bool

end Sys2Proof.Config
end

