-- ==== Sys2Proof/Syntax.lean ====
section
/-! DEFINITION. The commands of the part: one constructor of `Instr` for each row of spec/opcode_table.json,
with the operands the spec's text gives the row. -/

namespace Sys2Proof

/-- The sixteen agent requests (Table 58). -/
inductive Request where
  | join | leave | claim | upgrade | downgrade | renew | renewSet | release
  | lookup | read | write | holdings | notices | time | standby | wake
deriving DecidableEq, Repr

/-- When a transaction began (log 9). A port judges a transaction by the port state at the falling edge of
CS_n (R145, R146); that state differs from the present one in the last two cases only. -/
inductive TransactionStart where
  /-- the port state has not changed since the falling edge of CS_n -/
  | atPresent
  /-- the port was WORKING at the falling edge of CS_n; a response may have been made since (R152) -/
  | whileWorking
  /-- a reset was taken since the falling edge of CS_n: ignored until CS_n rises (R163, R164). `bits` of its bits had
  been shifted when the first reset since the port's previous transaction was taken (0 if it began after that one);
  `working`: it began in WORKING, and the response was made before that reset (log 10). -/
  | beforeReset (working : Bool) (bits : Nat)
deriving DecidableEq, Repr

/-- What a request's transaction holds beside its frame: when it began, and how many whole bytes follow the
frame check byte (they are not part of the frame, R153, but they count for the collection, R150). -/
structure Transfer where
  start : TransactionStart
  extra : Nat
deriving DecidableEq, Repr

/-- How a run of a read transfer begins (R165, log 13). -/
inductive ReadStart where
  /-- the read transfer in progress goes on -/
  | continued
  /-- a new read transfer, from the pointer as it stands -/
  | standing
  /-- a new read transfer, the register address set for it by a write transfer of the address byte alone -/
  | addressed (a : Byte)
deriving DecidableEq, Repr

/-- The run begins with a START. -/
def ReadStart.isNew : ReadStart → Bool
  | .continued => false
  | .standing | .addressed _ => true

/-- A run of bytes of one read transfer of the management port (R165, log 13): `count` whole bytes. -/
structure ReadRun where
  start : ReadStart
  count : Nat
deriving DecidableEq, Repr

/-- A byte on the management port's bus whose acknowledge is a target's to give (R165). -/
inductive BusByte where
  /-- the byte after a START: a target address and the direction -/
  | target (read : Bool)
  /-- a whole byte of a write transfer: the register address, or a byte written at the register `register` -/
  | registerAddress (register : Byte)
  | written (register value : Byte)
deriving DecidableEq, Repr

/-- The commands. A request carries its agent, its transfer and its body bytes (Table 73). -/
inductive Instr where
  -- agent requests (Table 58)
  | join (n : Agent) (t : Transfer) (body : List Byte)
  | leave (n : Agent) (t : Transfer) (body : List Byte)
  | claim (n : Agent) (t : Transfer) (body : List Byte)
  | upgrade (n : Agent) (t : Transfer) (body : List Byte)
  | downgrade (n : Agent) (t : Transfer) (body : List Byte)
  | renew (n : Agent) (t : Transfer) (body : List Byte)
  | renewSet (n : Agent) (t : Transfer) (body : List Byte)
  | release (n : Agent) (t : Transfer) (body : List Byte)
  | lookup (n : Agent) (t : Transfer) (body : List Byte)
  | read (n : Agent) (t : Transfer) (body : List Byte)
  | write (n : Agent) (t : Transfer) (body : List Byte)
  | holdings (n : Agent) (t : Transfer) (body : List Byte)
  | notices (n : Agent) (t : Transfer) (body : List Byte)
  | time (n : Agent) (t : Transfer) (body : List Byte)
  | standby (n : Agent) (t : Transfer) (body : List Byte)
  | wake (n : Agent) (t : Transfer) (body : List Byte)
  -- port events (Chapter 9)
  /-- R155: a transaction of `total` whole bytes whose first byte in is 00h. -/
  | fetchOnlyTransaction (n : Agent) (start : TransactionStart) (total : Nat)
  /-- R149, R150: a transaction of `total` whole bytes, the first not 00h, that carries a dropped request. -/
  | requestDropped (n : Agent) (start : TransactionStart) (total : Nat)
  /-- R153: a transaction whose bytes in are a request frame with a frame error. -/
  | badFrame (n : Agent) (start : TransactionStart) (bytes : List Byte)
  /-- R156 check 2: a valid frame with an unknown request code. -/
  | badRequest (n : Agent) (t : Transfer) (code : Byte) (body : List Byte)
  /-- R152: the response of port `n` is made. -/
  | responseMade (n : Agent)
  -- mailbox requests (Table 64); their fields stand in the request field registers (R173)
  | set
  | define
  | retire
  | mark
  | seed
  | inspect
  | evict
  | softReset
  /-- R173: a request code that names no mailbox request. -/
  | mailboxBadRequest (code : Byte)
  -- registers
  /-- R168: a run of a read transfer in which the STATUS byte is taken. -/
  | statusRead (run : ReadRun)
  /-- R174: a run of a read transfer in which the result byte is taken. -/
  | resultRead (run : ReadRun)
  /-- R165: `address` is the transfer's register address byte, if it was sent just now; `data` the byte
  written after it, if any. -/
  | registerWrite (address : Option Byte) (data : Option Byte)
  -- resets (R21)
  | powerOnReset
  | pinReset
  | resetEnd
  | sweepComplete
  -- time base monitor (Chapter 8)
  /-- R130: a rising edge on TREF, `ns` nanoseconds of oscillator time after the monitor's latest event: a pulse, a
  missing-pulse event, a divider tick or a start of the divider (log 7). -/
  | trefPulse (ns : Nat)
  | missingPulse
  | dividerTick
  -- parts of a tick (log 2)
  | leaseExpiry (slot : Nat) (n : Agent)
  | waitExpiry (slot : Nat) (n : Agent)
  | upgradeWaitExpiry (slot : Nat) (n : Agent)
  | standbyExpiry (n : Agent)
  | creationEntryLeaves (n : Agent)
  | holdoverLimitReached
deriving DecidableEq, Repr

end Sys2Proof
end

