-- ==== Sys2Proof/Machine/Frames.lean ====
section
/-! DEFINITION. Bit and byte order, the two check computations, the request codes and the request frame
(R3, R145, R153, R154, R179, R180, Table 70, Table 72, Table 76). -/

namespace Sys2Proof.Machine

/-- R179: a two-byte field, most significant byte first. -/
def be16 (v : Half) : List Byte := [v.extractLsb' 8 8, v.extractLsb' 0 8]

/-- R179: a four-byte field, most significant byte first. -/
def be32 (v : Word) : List Byte :=
  [v.extractLsb' 24 8, v.extractLsb' 16 8, v.extractLsb' 8 8, v.extractLsb' 0 8]

/-- R179: a count sent in two bytes. -/
def count16 (v : Nat) : List Byte := be16 (BitVec.ofNat 16 v)

/-- A count sent in one byte. -/
def byteOf (v : Nat) : Byte := BitVec.ofNat 8 v

/-- R179: a yes/no field. -/
def yesNo (b : Bool) : Byte := if b then 0x01 else 0x00

/-- The two-byte field that begins at place `i`. -/
def halfAt (l : List Byte) (i : Nat) : Half := l.getD i 0 ++ l.getD (i + 1) 0

/-- The four-byte field that begins at place `i`. -/
def wordAt (l : List Byte) (i : Nat) : Word :=
  l.getD i 0 ++ l.getD (i + 1) 0 ++ l.getD (i + 2) 0 ++ l.getD (i + 3) 0

/-- R145: the byte of eight bits in the order they were sampled, most significant first. -/
def byteOfBits (bits : List Bool) : Byte := bits.foldl (fun b x => (b <<< 1) ||| (if x then 1 else 0)) 0

/-- R145: the whole bytes of a transaction's bits, counted from its start; the bits of a final byte that is not whole
are discarded. -/
def wholeBytes : List Bool → List Byte
  | a :: b :: c :: d :: e :: f :: g :: h :: rest => byteOfBits [a, b, c, d, e, f, g, h] :: wholeBytes rest
  | _ => []

/-- R145: bit `k` of bytes shifted out one after another, most significant bit of each first. -/
def bitOf (bytes : List Byte) (k : Nat) : Bool := (bytes.getD (k / 8) 0).getLsbD (7 - k % 8)

/-- The places of a byte's bits, most significant first. -/
def bitPlaces : List Nat := [7, 6, 5, 4, 3, 2, 1, 0]

/-- R3: one bit into the key hash. -/
def hashBit (r : Half) (b : Bool) : Half :=
  if b != r.msb then (r <<< 1) ^^^ 0x1021 else r <<< 1

/-- R3: one key byte into the key hash, most significant bit first. -/
def hashByte (r : Half) (x : Byte) : Half := bitPlaces.foldl (fun r i => hashBit r (x.getLsbD i)) r

/-- R3: the key hash. -/
def keyHash (key : List Byte) : Half := key.foldl hashByte 0xFFFF

/-- R154: one bit into the frame check. -/
def checkBit (r : Byte) (b : Bool) : Byte :=
  if b != r.msb then (r <<< 1) ^^^ 0x07 else r <<< 1

/-- R154: one byte into the frame check, most significant bit first. -/
def checkByte (r : Byte) (x : Byte) : Byte := bitPlaces.foldl (fun r i => checkBit r (x.getLsbD i)) r

/-- R154: the frame check over the bytes of a frame that precede it. -/
def frameCheck (bytes : List Byte) : Byte := bytes.foldl checkByte 0x00

/-- The code of a request (Table 72). -/
def requestCode : Request → Byte
  | .join => 0x01 | .leave => 0x02
  | .claim => 0x10 | .upgrade => 0x11 | .downgrade => 0x12 | .renew => 0x13
  | .renewSet => 0x14 | .release => 0x15
  | .lookup => 0x20 | .read => 0x21 | .write => 0x22
  | .holdings => 0x30 | .notices => 0x31 | .time => 0x32
  | .standby => 0x40 | .wake => 0x41

/-- The sixteen requests. -/
def requests : List Request :=
  [.join, .leave, .claim, .upgrade, .downgrade, .renew, .renewSet, .release,
   .lookup, .read, .write, .holdings, .notices, .time, .standby, .wake]

/-- The request a code names; none for an unknown code (R156 check 2). -/
def requestOfCode (c : Byte) : Option Request := requests.find? (fun k => requestCode k == c)

/-- The codes of the eight mailbox requests (Table 76). -/
def mailboxCodes : List Byte := [0x01, 0x02, 0x03, 0x04, 0x05, 0x06, 0x07, 0x08]

/-- R180, Table 70: the request frame of a code and a body. -/
def requestFrame (code : Byte) (body : List Byte) : List Byte :=
  let head := code :: byteOf body.length :: body
  head ++ [frameCheck head]

/-- R153: reads a frame's code, its body and the number of whole bytes after its check byte out of the bytes
a transaction shifted in; none is a frame error. -/
def parseFrame (bytes : List Byte) : Option (Byte × List Byte × Nat) :=
  match bytes with
  | code :: len :: rest =>
    let l := len.toNat
    if 48 < l then none
    else if rest.length < l + 1 then none
    else if rest.getD l 0 = frameCheck (code :: len :: rest.take l) then
      some (code, rest.take l, rest.length - (l + 1))
    else none
  | _ => none

end Sys2Proof.Machine
end

