-- ==== Sys2Proof/WellFormed.lean ====
section
/-! DEFINITION. Which commands the outside can give: the checks that do not depend on the part's state. -/

namespace Sys2Proof

/-- R153: a request body that a frame without a frame error can carry. -/
def wellFormedBody (body : List Byte) : Bool := decide (body.length ≤ 48)

/-- The byte addresses a read run takes, when its start is known (R165: the pointer advances from FFh to 00h). -/
def ReadRun.covers (run : ReadRun) (register : Byte) : Bool :=
  match run.start with
  | .addressed a => decide ((register - a).toNat < run.count)
  | .continued | .standing => decide (0 < run.count)

/-- A command the outside can give. -/
def Instr.wellFormed : Instr → Bool
  | .join _ _ b | .leave _ _ b | .claim _ _ b | .upgrade _ _ b | .downgrade _ _ b | .renew _ _ b
  | .renewSet _ _ b | .release _ _ b | .lookup _ _ b | .read _ _ b | .write _ _ b | .holdings _ _ b
  | .notices _ _ b | .time _ _ b | .standby _ _ b | .wake _ _ b => wellFormedBody b
  | .fetchOnlyTransaction _ _ total => decide (0 < total)
  | .requestDropped _ _ total => decide (0 < total)
  | .badFrame _ _ bytes => decide (bytes ≠ []) && bytes.headD 0 != 0 && (Machine.parseFrame bytes).isNone
  | .badRequest _ _ code body => code != 0 && (Machine.requestOfCode code).isNone && wellFormedBody body
  | .responseMade _ => true
  | .set | .define | .retire | .mark | .seed | .inspect | .evict | .softReset => true
  | .mailboxBadRequest code => !Machine.mailboxCodes.contains code
  | .statusRead run => run.covers 0x05
  | .resultRead run => run.covers 0x74
  | .registerWrite address data => address.isSome || data.isSome
  | .powerOnReset | .pinReset | .resetEnd | .sweepComplete => true
  | .trefPulse _ | .missingPulse | .dividerTick => true
  | .leaseExpiry slot _ | .waitExpiry slot _ | .upgradeWaitExpiry slot _ => decide (slot < Config.slots)
  | .standbyExpiry _ | .creationEntryLeaves _ | .holdoverLimitReached => true

end Sys2Proof
end

