-- ==== Sys2Proof/Decode.lean ====
section
/-! DEFINITION. Reading commands out of bits. No row of spec/opcode_table.json gives bits, so no word spells a
command (log 19); an agent port's bytes do, by Chapters 9 and 11. -/

namespace Sys2Proof

/-- The command a word spells by the opcode table's bits: none, since no row gives bits (log 19). -/
def decodeTableWord (_nbits _w : Nat) : Option Instr := none

/-- The command of a request whose frame has been read. -/
def requestCommand (k : Request) (n : Agent) (t : Transfer) (body : List Byte) : Instr :=
  match k with
  | .join => .join n t body
  | .leave => .leave n t body
  | .claim => .claim n t body
  | .upgrade => .upgrade n t body
  | .downgrade => .downgrade n t body
  | .renew => .renew n t body
  | .renewSet => .renewSet n t body
  | .release => .release n t body
  | .lookup => .lookup n t body
  | .read => .read n t body
  | .write => .write n t body
  | .holdings => .holdings n t body
  | .notices => .notices n t body
  | .time => .time n t body
  | .standby => .standby n t body
  | .wake => .wake n t body

/-- The command that a transaction's whole bytes in spell on port `n` (R148, R153, R155, R156 checks 1 and 2);
none for a transaction with no whole byte, which has no effect (R148). Whether a request is taken or dropped is
decided by the port's state, in the command's meaning. -/
def decodeTransaction (n : Agent) (start : TransactionStart) (bytes : List Byte) : Option Instr :=
  match bytes with
  | [] => none
  | b :: _ =>
    if b = 0 then some (.fetchOnlyTransaction n start bytes.length)
    else match Machine.parseFrame bytes with
      | none => some (.badFrame n start bytes)
      | some (code, body, extra) =>
        match Machine.requestOfCode code with
        | none => some (.badRequest n ⟨start, extra⟩ code body)
        | some k => some (requestCommand k n ⟨start, extra⟩ body)

/-- The command that the bits sampled on SDI_n in one transaction spell (R145): by its whole bytes. -/
def decodeBits (n : Agent) (start : TransactionStart) (bits : List Bool) : Option Instr :=
  decodeTransaction n start (Machine.wholeBytes bits)

end Sys2Proof
end

