-- ==== Sys2Proof/Machine/State.lean ====
section
/-! DEFINITION. The state of the part, block by block, its value after reset, and the reasons a step can stop. -/

namespace Sys2Proof.Machine

/-! ### Names of states, modes and kinds (Table 69) -/

/-- Mode of a lease (R24). -/
inductive Mode where
  | shared | exclusive
deriving DecidableEq, Repr

/-- Status of a holder entry (R24). -/
inductive HolderStatus where
  | running | kept
deriving DecidableEq, Repr

/-- Kind of a queued claim (R50). -/
inductive ClaimKind where
  | shared | exclusive | upgrade
deriving DecidableEq, Repr

/-- Kind of a notice (Table 31). -/
inductive NoticeKind where
  | granted | waitExpired | expired | revoked | cancelled
deriving DecidableEq, Repr

/-- State of an agent (R98). -/
inductive AgentState where
  | unjoined | active | standby | evicted
deriving DecidableEq, Repr

/-- State of the time base monitor (R129). -/
inductive TimeState where
  | acquiring | locked | drift | holdover | unsafeTime | freeRun
deriving DecidableEq, Repr

/-- State of the record table (R21). -/
inductive TableState where
  | initializing | ready
deriving DecidableEq, Repr

/-- State of the mailbox (R172). -/
inductive MailboxState where
  | empty | busy | done
deriving DecidableEq, Repr

/-- The DERATE codes (Table 13). -/
inductive Derate where
  | half | fiveEighths | threeQuarters | sevenEighths
deriving DecidableEq, Repr

/-- The TIME_SOURCE values (R129). -/
inductive TimeSource where
  | reference | internal
deriving DecidableEq, Repr

/-- The monitor's last pulse (Table 46), with the oscillator time since it in nanoseconds, as it stood at the
monitor's latest event (log 7). -/
inductive LastPulse where
  | absent
  | present (since : Nat)
deriving DecidableEq, Repr

/-- The internal divider (Table 46), with its position: the oscillator time in nanoseconds since it last started or
ticked, as it stood at the monitor's latest event (log 7). -/
inductive Divider where
  | stopped
  | running (position : Nat)
deriving DecidableEq, Repr

/-- Reported state of a slot (R7, Table 9). -/
inductive Reported where
  | vacant | idle | shared | draining | exclusive
deriving DecidableEq, Repr

/-- The caller's standing in a LOOKUP answer (Table 10). -/
inductive Standing where
  | none | shared | exclusive | queued | upgrading
deriving DecidableEq, Repr

/-- Status of a HOLDINGS entry (Table 39, Table 69). -/
inductive HoldingStatus where
  | running | kept | queued | upgrading
deriving DecidableEq, Repr

/-- The refusal codes of responses (Table 72, 40h to 5Dh), but for THROTTLED, which carries a value. -/
inductive RefusalCode where
  | badFrame | badRequest | badField | notReady | notJoined | evicted | inStandby
  | timeUnsafe | noSuchKey | noSuchLease | conflict | alreadyHeld | tableFull | quota
  | upgradeConflict | notExclusive | staleEpoch | epochExhausted | standbyRefused | notShared
deriving DecidableEq, Repr

/-- The mailbox results (Table 77); "no result" is the absence of one. -/
inductive MailboxResult where
  | ok | badValue | agentsActive | exists_ | noSuchKey | tableFull | recordBusy | notReady | badRequest
deriving DecidableEq, Repr

/-! ### The record table (Chapters 1 to 4) -/

/-- A holder entry (R24, Table 12). While a tick is being taken, remaining 0 marks a lease whose expiry is
due in that tick (log 2). -/
structure Holder where
  agent : Agent
  mode : Mode
  status : HolderStatus
  remaining : Nat
  granted : Nat
  epoch : Option Epoch
deriving DecidableEq, Repr

/-- A queued claim (R50, Table 18). While a tick is being taken, wait 0 marks a claim whose wait expiry is due
in that tick (log 2). -/
structure Claim where
  agent : Agent
  kind : ClaimKind
  requested : Nat
  wait : Nat
deriving DecidableEq, Repr

/-- A record (R5, Table 8). -/
structure Record where
  key : List Byte
  persistent : Bool
  lastEpoch : Epoch
  value : List Word
  holders : List Holder
  queue : List Claim
deriving DecidableEq, Repr

/-! ### The notice table (Chapter 5) -/

/-- A notice (R86, Table 30). -/
structure Notice where
  kind : NoticeKind
  gen : Nat
  lifetime : Option Nat
  epoch : Option Epoch
deriving DecidableEq, Repr

/-! ### The session unit (Chapters 6 and 7) -/

/-- A standby record (R116). While a tick is being taken, countdown 0 marks a standby expiry that is due. -/
structure Standby where
  kept : Nat
  countdown : Nat
deriving DecidableEq, Repr

/-- What the session unit holds for one agent (R98, Table 35). -/
structure Session where
  state : AgentState
  number : Half
  leaseCount : Nat
  window : List Nat
  standby : Option Standby
  lapsed : Bool
deriving DecidableEq, Repr

/-! ### The time base monitor (Chapter 8) -/

/-- The time base monitor (R129, Table 46). -/
structure Monitor where
  timeState : TimeState
  lastPulse : LastPulse
  good : Nat
  elapsed : Nat
  divider : Divider
  agentFlags : PerAgent Bool
  managementFlag : Bool
deriving DecidableEq, Repr

/-! ### Answers and responses (Chapters 9 and 11) -/

/-- The fields of a LOOKUP answer (Table 10). -/
structure LookupAnswer where
  state : Reported
  handle : Option Half
  persistent : Bool
  holderCount : Nat
  exclusive : Option Agent
  queueLength : Nat
  firstKind : Option ClaimKind
  lastEpoch : Epoch
  standing : Standing
  freeWays : Nat
deriving DecidableEq, Repr

/-- A HOLDINGS entry (Table 39). -/
structure Holding where
  handle : Half
  mode : ClaimKind
  status : HoldingStatus
  remaining : Nat
  epoch : Option Epoch
deriving DecidableEq, Repr

/-- A NOTICES entry (R92). -/
structure NoticeEntry where
  handle : Half
  kind : NoticeKind
  lifetime : Option Nat
  epoch : Option Epoch
deriving DecidableEq, Repr

/-- What a response says: its code and the fields of its body (R160, R181, Table 74). -/
inductive Answer where
  | ok
  | okJoin (number : Half) (quota defaultLife minLife maxLife : Nat) (timeState : TimeState)
  | granted (handle : Half) (mode : Mode) (lifetime : Nat) (epoch : Option Epoch)
  | queued (handle : Half) (position wait : Nat)
  | okRenew (lifetime : Nat)
  | okRenewSet (lifetime count : Nat)
  | okLookup (a : LookupAnswer)
  | okRead (handle : Half) (state : Reported) (lastEpoch : Epoch) (start count : Nat) (words : List Word)
  | okWrite (remaining : Nat)
  | okHoldings (next : Half) (entries : List Holding)
  | okNotices (more : Bool) (entries : List NoticeEntry)
  | okTime (timeState : TimeState) (derating : Bool) (derate : Derate) (good elapsed : Nat)
  | okStandby (kept left countdown : Nat)
  | okWake (resumed : Nat) (lapsed : Bool)
  | throttled (ticks : Nat)
  | refused (code : RefusalCode)
deriving DecidableEq, Repr

/-- A response: its answer and its header (R158, Table 57). -/
structure Response where
  answer : Answer
  notice : Bool
  timeChange : Bool
  overrun : Bool
  lapsed : Bool
  sessionLow : Byte
deriving DecidableEq, Repr

/-! ### The agent ports (Chapter 9) -/

/-- State of an agent port (R147). In WORKING the response being made waits with its OVERRUN flag not yet set
(R158); in READY the response slot holds the response. -/
inductive PortState where
  | idle
  | working (r : Response)
  | ready (r : Response)
deriving DecidableEq, Repr

/-- An agent port (Table 53). `sdo` records the whole bytes that the latest transaction shifted out (log 9). `cut` is
the port state in which the first reset since the latest transaction found the port: what a transaction in progress
was then shifting (R164, log 10); `none` when no reset has been taken since. -/
structure Port where
  state : PortState
  overrun : Bool
  sdo : List Byte
  cut : Option PortState
deriving DecidableEq, Repr

/-! ### The management port (Chapter 10) -/

/-- The settings store (R169, Table 62). -/
structure Settings where
  defaultLife : Nat
  minLife : Nat
  maxLife : Nat
  derate : Derate
  createBurst : Nat
  createSpan : Nat
  quota : PerAgent Nat
  standbyMax : Nat
  holdoverMax : Nat
  timeSource : TimeSource
deriving DecidableEq, Repr

/-- An INSPECT summary (R175, Table 65): the record as it stood, with its handle and its bucket's free ways. -/
structure Summary where
  handle : Half
  freeWays : Nat
  record : Record
deriving DecidableEq, Repr

/-- What the pin SDO_n shows (R145). -/
inductive Line where
  /-- high impedance -/
  | released
  | driven (bit : Bool)
deriving DecidableEq, Repr

/-- The management port (R165, R166, R172 to R175). `fields` are the request field registers 34h to 72h,
`output = none` is the empty summary; `listening`: a START has been seen since the last reset ended; the two
latches belong to the read transfer in progress; `readOut` records the bytes of the latest read run (log 13). -/
structure Management where
  pointer : Byte
  listening : Bool
  mailbox : MailboxState
  fields : List Byte
  code : Byte
  result : Option MailboxResult
  output : Option Summary
  fieldLatch : Option (Nat × List Byte)
  outputLatch : Option (List Byte)
  readOut : List Byte
deriving DecidableEq, Repr

/-! ### The whole part -/

/-- The state of the part. `records` are the occupied slots in rising order; `generations` the slots whose
generation is not 0; `cells` each agent's occupied notice cells; `choices` counts the free orders used (log 3);
`pending` are the commands that wait, first in, first out. -/
structure State where
  held : Bool
  table : TableState
  records : List (Nat × Record)
  generations : List (Nat × Nat)
  epochSource : Epoch
  sessions : PerAgent Session
  sessionCounter : Half
  cells : PerAgent (List (Nat × Notice))
  monitor : Monitor
  ports : PerAgent Port
  settings : Settings
  management : Management
  choices : Nat
  pending : List Instr
deriving DecidableEq, Repr

/-! ### Values after reset -/

/-- An agent without a session and with nothing held (Table 43, Table 44). -/
def Session.reset : Session :=
  { state := .unjoined, number := 0, leaseCount := 0, window := [], standby := none, lapsed := false }

/-- The monitor while a reset is held: as after the reset, with the divider not yet started (R144, Table 51). -/
def Monitor.resetHeld : Monitor :=
  { timeState := .acquiring, lastPulse := .absent, good := 0, elapsed := 0, divider := .stopped,
    agentFlags := PerAgent.all false, managementFlag := false }

/-- A port after a power-on or pin reset (Table 59). -/
def Port.reset : Port := { state := .idle, overrun := false, sdo := [], cut := none }

/-- The defaults of Table 62. -/
def Settings.reset : Settings :=
  { defaultLife := 5000, minLife := 50, maxLife := 30000, derate := .threeQuarters, createBurst := 4,
    createSpan := 100, quota := PerAgent.all 512, standbyMax := 20000, holdoverMax := 2000,
    timeSource := .reference }

/-- The management port after a power-on or pin reset (Table 66). -/
def Management.reset : Management :=
  { pointer := 0, listening := false, mailbox := .empty, fields := List.replicate 63 0, code := 0,
    result := none, output := none, fieldLatch := none, outputLatch := none, readOut := [] }

/-- The part while a power-on or pin reset is held (R21, R23, R30, R95, R115, R128, R144, R163, R178). -/
def State.resetHeld : State :=
  { held := true, table := .initializing, records := [], generations := [], epochSource := 0,
    sessions := PerAgent.all Session.reset, sessionCounter := 0, cells := PerAgent.all [],
    monitor := Monitor.resetHeld, ports := PerAgent.all Port.reset, settings := Settings.reset,
    management := Management.reset, choices := 0, pending := [] }

/-- The part right after the end of a power-on reset: the sweep has begun and the divider runs (R21, R144). -/
def State.reset : State :=
  { State.resetHeld with held := false, monitor := { Monitor.resetHeld with divider := .running 0 } }

/-! ### Reasons a step can stop -/

/-- Faults: none. The spec names no condition that stops the part (log 6). -/
inductive Fault where
deriving DecidableEq, Repr

/-- Refusals. -/
inductive Refusal where
  /-- raised by `exec` for a command that has no meaning yet; safe: nothing is claimed of it. -/
  | notModelled (mnemonic : String)
deriving DecidableEq, Repr

end Sys2Proof.Machine
end

