-- ==== Sys2Proof/Machine/Codes.lean ====
section
/-! DEFINITION. Numeric codes and byte layouts of fields, entries, response bodies and the output area
(Chapter 11: R179 to R181, Tables 69, 71, 72, 74, 75, 77, 80). -/

namespace Sys2Proof.Machine

/-! ### Table 69 -/

def Mode.code : Mode → Byte
  | .shared => 0x01 | .exclusive => 0x02

def ClaimKind.code : ClaimKind → Byte
  | .shared => 0x01 | .exclusive => 0x02 | .upgrade => 0x03

def HolderStatus.code : HolderStatus → Byte
  | .running => 0x01 | .kept => 0x02

def HoldingStatus.code : HoldingStatus → Byte
  | .running => 0x01 | .kept => 0x02 | .queued => 0x03 | .upgrading => 0x04

def Reported.code : Reported → Byte
  | .vacant => 0x00 | .idle => 0x01 | .shared => 0x02 | .draining => 0x03 | .exclusive => 0x04

def Standing.code : Standing → Byte
  | .none => 0x00 | .shared => 0x01 | .exclusive => 0x02 | .queued => 0x03 | .upgrading => 0x04

def TimeState.code : TimeState → Byte
  | .acquiring => 0x00 | .locked => 0x01 | .drift => 0x02 | .holdover => 0x03 | .unsafeTime => 0x04
  | .freeRun => 0x05

def NoticeKind.code : NoticeKind → Byte
  | .granted => 0x01 | .waitExpired => 0x02 | .expired => 0x03 | .revoked => 0x04 | .cancelled => 0x05

def AgentState.code : AgentState → Byte
  | .unjoined => 0x00 | .active => 0x01 | .standby => 0x02 | .evicted => 0x03

def MailboxState.code : MailboxState → Byte
  | .empty => 0 | .busy => 1 | .done => 2

def Derate.code : Derate → Nat
  | .half => 0 | .fiveEighths => 1 | .threeQuarters => 2 | .sevenEighths => 3

/-- The DERATE setting a value names; none outside 0..3. -/
def Derate.ofCode : Nat → Option Derate
  | 0 => some .half | 1 => some .fiveEighths | 2 => some .threeQuarters | 3 => some .sevenEighths
  | _ => none

def TimeSource.code : TimeSource → Nat
  | .reference => 0 | .internal => 1

/-- The TIME_SOURCE setting a value names; none outside 0..1. -/
def TimeSource.ofCode : Nat → Option TimeSource
  | 0 => some .reference | 1 => some .internal
  | _ => none

/-- The mode a CLAIM's mode byte names; none is BAD_FIELD (R32). -/
def Mode.ofCode (b : Byte) : Option Mode :=
  if b = 0x01 then some .shared else if b = 0x02 then some .exclusive else none

/-- Table 77. -/
def MailboxResult.code : MailboxResult → Byte
  | .ok => 0x00 | .badValue => 0x01 | .agentsActive => 0x02 | .exists_ => 0x03 | .noSuchKey => 0x04
  | .tableFull => 0x05 | .recordBusy => 0x06 | .notReady => 0x07 | .badRequest => 0x08

/-- The result register's byte; FFh is "no result" (Table 77). -/
def resultByte : Option MailboxResult → Byte
  | some r => r.code
  | none => 0xFF

/-! ### Table 72: response codes -/

def RefusalCode.code : RefusalCode → Byte
  | .badFrame => 0x40 | .badRequest => 0x41 | .badField => 0x42 | .notReady => 0x43 | .notJoined => 0x44
  | .evicted => 0x45 | .inStandby => 0x46 | .timeUnsafe => 0x50 | .noSuchKey => 0x51 | .noSuchLease => 0x52
  | .conflict => 0x53 | .alreadyHeld => 0x54 | .tableFull => 0x55 | .quota => 0x56
  | .upgradeConflict => 0x58 | .notExclusive => 0x59 | .staleEpoch => 0x5A | .epochExhausted => 0x5B
  | .standbyRefused => 0x5C | .notShared => 0x5D

/-- The response code of an answer. -/
def Answer.code : Answer → Byte
  | .granted .. => 0x01
  | .queued .. => 0x02
  | .throttled _ => 0x57
  | .refused c => c.code
  | _ => 0x00

/-! ### Table 74 and Table 75: bodies -/

/-- R179: an absent epoch is sent as zero. -/
def epochField (e : Option Epoch) : List Byte := be32 (e.getD 0)

/-- Table 75, HOLDINGS entry. -/
def Holding.bytes (h : Holding) : List Byte :=
  be16 h.handle ++ [h.mode.code, h.status.code] ++ count16 h.remaining ++ epochField h.epoch

/-- Table 75, NOTICES entry. -/
def NoticeEntry.bytes (e : NoticeEntry) : List Byte :=
  be16 e.handle ++ [e.kind.code] ++ count16 (e.lifetime.getD 0) ++ epochField e.epoch

/-- The LOOKUP body (Table 74); an absent exclusive holder is FFh, every other absent field zero (R179). -/
def LookupAnswer.bytes (a : LookupAnswer) : List Byte :=
  [a.state.code] ++ be16 (a.handle.getD 0) ++
  [yesNo a.persistent, byteOf a.holderCount,
   match a.exclusive with | some n => byteOf n.val | none => 0xFF,
   byteOf a.queueLength,
   match a.firstKind with | some k => k.code | none => 0x00] ++
  be32 a.lastEpoch ++ [a.standing.code, byteOf a.freeWays]

/-- The body of a response (R181, Table 74). -/
def Answer.body : Answer → List Byte
  | .ok => []
  | .okJoin number quota dl mn mx ts =>
    be16 number ++ count16 quota ++ count16 dl ++ count16 mn ++ count16 mx ++ [ts.code]
  | .granted h m life e => be16 h ++ [m.code] ++ count16 life ++ epochField e
  | .queued h position wait => be16 h ++ [byteOf position] ++ count16 wait
  | .okRenew life => count16 life
  | .okRenewSet life count => count16 life ++ count16 count
  | .okLookup a => a.bytes
  | .okRead h st e start count words =>
    be16 h ++ [st.code] ++ be32 e ++ [byteOf start, byteOf count] ++ words.flatMap be32
  | .okWrite remaining => count16 remaining
  | .okHoldings next es => be16 next ++ [byteOf es.length] ++ es.flatMap Holding.bytes
  | .okNotices more es => [yesNo more, byteOf es.length] ++ es.flatMap NoticeEntry.bytes
  | .okTime ts d k good elapsed =>
    [ts.code, yesNo d, byteOf k.code, byteOf good] ++ count16 elapsed
  | .okStandby kept left countdown => count16 kept ++ count16 left ++ count16 countdown
  | .okWake resumed lapsed => count16 resumed ++ [yesNo lapsed]
  | .throttled ticks => count16 ticks
  | .refused _ => []

/-- The flags byte of a response (R180): bit 0 NOTICE, bit 1 TIMECHG, bit 2 OVERRUN, bit 3 LAPSED. -/
def Response.flags (r : Response) : Byte :=
  byteOf ((if r.notice then 1 else 0) + (if r.timeChange then 2 else 0)
    + (if r.overrun then 4 else 0) + (if r.lapsed then 8 else 0))

/-- The response frame (R180, Table 71). -/
def Response.frame (r : Response) : List Byte :=
  let body := r.answer.body
  let head := [r.answer.code, r.flags, r.sessionLow, byteOf body.length] ++ body
  head ++ [frameCheck head]

/-! ### Table 80: the output area -/

/-- R179, R175: a key in its 24-byte field, padded with 00h. -/
def keyField (key : List Byte) : List Byte := (List.range 24).map fun i => key.getD i 0

/-- A holder place of 11 bytes; a place beyond the holder count reads 00h. -/
def holderPlace : Option Holder → List Byte
  | some h => [byteOf h.agent.val, h.mode.code, h.status.code] ++ count16 h.remaining ++ count16 h.granted
      ++ epochField h.epoch
  | none => List.replicate 11 0

/-- A claim place of 6 bytes; a place beyond the queue length reads 00h. -/
def claimPlace : Option Claim → List Byte
  | some c => [byteOf c.agent.val, c.kind.code] ++ count16 c.requested ++ count16 c.wait
  | none => List.replicate 6 0

end Sys2Proof.Machine
end

