-- ==== Sys2Proof/Machine/Operands.lean ====
section
/-! DEFINITION. The fields of request bodies (R179, R180, Table 73), handles (R11), keys and their home bucket
(R1, R2, R4), partition masks, and the request field registers of the mailbox (R182, Table 79).
A request parser answers none where the request's body length, a reserved byte or an enumerated field is wrong:
BAD_FIELD. -/

namespace Sys2Proof.Machine

/-! ### Handles -/

/-- R11: generation × 2048 + slot index. -/
def handleOf (gen slot : Nat) : Half := BitVec.ofNat 16 (gen * 2048 + slot)

/-- R11: the slot a handle names. -/
def handleSlot (h : Half) : Nat := h.toNat % 2048

/-- R11: the generation a handle names. -/
def handleGen (h : Half) : Nat := h.toNat / 2048

/-! ### Keys, buckets and partitions -/

/-- R2: a key length the part takes, 1 to 24. -/
def keyLengthOk (len : Nat) : Bool := decide (1 ≤ len) && decide (len ≤ 24)

/-- R4: the partition of a key. -/
def homePartition (key : List Byte) : Nat := (keyHash key).toNat % 8

/-- R4: the bucket of a key within its partition. -/
def homeBucket (key : List Byte) : Nat := (keyHash key).toNat / 8 % 64

/-- R1, R4: the four slots of a key's home bucket, way 0 first. -/
def homeSlots (key : List Byte) : List Nat :=
  let first := homePartition key * 256 + homeBucket key * 4
  [first, first + 1, first + 2, first + 3]

/-- R1: whether a partition mask selects the partition of a slot. -/
def maskSelects (mask : Byte) (slot : Nat) : Bool := mask.getLsbD (slot / 256)

/-! ### Value words -/

/-- R80: each word whose mask bit is 1 is replaced, every other word kept. -/
def maskWords (mask : Byte) (new old : List Word) : List Word :=
  (List.range 8).map fun w => if mask.getLsbD w then new.getD w 0 else old.getD w 0

/-- R77: `count` words from word `start`, word 0 after word 7. -/
def readWords (value : List Word) (start count : Nat) : List Word :=
  (List.range count).map fun i => value.getD ((start + i) % 8) 0

/-- The eight value words that begin at place `i` of a body or field area. -/
def eightWords (l : List Byte) (i : Nat) : List Word := (List.range 8).map fun w => wordAt l (i + 4 * w)

/-! ### Request bodies -/

/-- The fields of a CLAIM (R32). -/
structure ClaimFields where
  mode : Mode
  requested : Nat
  wait : Nat
  key : List Byte
deriving DecidableEq, Repr

def parseClaim (b : List Byte) : Option ClaimFields :=
  match Mode.ofCode (b.getD 0 0) with
  | none => none
  | some m =>
    let len := (b.getD 6 0).toNat
    if b.length = 31 ∧ b.getD 1 0 = 0 ∧ keyLengthOk len = true then
      some { mode := m, requested := (halfAt b 2).toNat, wait := (halfAt b 4).toNat,
             key := (b.drop 7).take len }
    else none

/-- The fields of an UPGRADE (R58). -/
structure UpgradeFields where
  handle : Half
  requested : Nat
  wait : Nat
deriving DecidableEq, Repr

def parseUpgrade (b : List Byte) : Option UpgradeFields :=
  if b.length = 7 ∧ b.getD 6 0 = 0 then
    some { handle := halfAt b 0, requested := (halfAt b 2).toNat, wait := (halfAt b 4).toNat }
  else none

/-- The handle of a DOWNGRADE or RELEASE (R44, R46). -/
def parseHandle (b : List Byte) : Option Half :=
  if b.length = 2 then some (halfAt b 0) else none

/-- The handle and the requested lifetime of a RENEW (R42). -/
def parseRenew (b : List Byte) : Option (Half × Nat) :=
  if b.length = 5 ∧ b.getD 4 0 = 0 then some (halfAt b 0, (halfAt b 2).toNat) else none

/-- The partition mask and the requested lifetime of a RENEW_SET; a mask of 00h is BAD_FIELD (R43). -/
def parseRenewSet (b : List Byte) : Option (Byte × Nat) :=
  if b.length = 4 ∧ b.getD 0 0 ≠ 0 ∧ b.getD 1 0 = 0 then some (b.getD 0 0, (halfAt b 2).toNat) else none

/-- The key of a LOOKUP (R19). -/
def parseLookup (b : List Byte) : Option (List Byte) :=
  let len := (b.getD 1 0).toNat
  if b.length = 26 ∧ b.getD 0 0 = 0 ∧ keyLengthOk len = true then some ((b.drop 2).take len) else none

/-- The start word, the count and the key of a READ (R76). -/
def parseRead (b : List Byte) : Option (Nat × Nat × List Byte) :=
  let start := (b.getD 0 0).toNat
  let count := (b.getD 1 0).toNat
  let len := (b.getD 3 0).toNat
  if b.length = 28 ∧ start ≤ 7 ∧ 1 ≤ count ∧ count ≤ 8 ∧ b.getD 2 0 = 0 ∧ keyLengthOk len = true then
    some (start, count, (b.drop 4).take len)
  else none

/-- The fields of a WRITE (R79). -/
structure WriteFields where
  handle : Half
  epoch : Epoch
  mask : Byte
  words : List Word
deriving DecidableEq, Repr

def parseWrite (b : List Byte) : Option WriteFields :=
  if b.length = 40 ∧ b.getD 7 0 = 0 then
    some { handle := halfAt b 0, epoch := wordAt b 2, mask := b.getD 6 0, words := eightWords b 8 }
  else none

/-- The cursor of a HOLDINGS; above 2047 is BAD_FIELD (R112). -/
def parseHoldings (b : List Byte) : Option Nat :=
  let cursor := (halfAt b 0).toNat
  if b.length = 3 ∧ cursor ≤ 2047 ∧ b.getD 2 0 = 0 then some cursor else none

/-- The keep mask and the duration of a STANDBY; a mask of 00h or a duration of 0 is BAD_FIELD (R117). -/
def parseStandby (b : List Byte) : Option (Byte × Nat) :=
  let duration := (halfAt b 2).toNat
  if b.length = 4 ∧ b.getD 0 0 ≠ 0 ∧ b.getD 1 0 = 0 ∧ duration ≠ 0 then some (b.getD 0 0, duration) else none

/-! ### Request field registers (34h to 72h) -/

/-- The byte of the request field register at window address `a`. -/
def Management.field (m : Management) (a : Nat) : Byte := m.fields.getD (a - 0x34) 0

def Management.settingId (m : Management) : Byte := m.field 0x34
def Management.settingValue (m : Management) : Nat := (halfAt m.fields 1).toNat
def Management.agentNumber (m : Management) : Byte := m.field 0x37
def Management.persistence (m : Management) : Byte := m.field 0x38
def Management.wordMask (m : Management) : Byte := m.field 0x39
def Management.keyLength (m : Management) : Nat := (m.field 0x3A).toNat
def Management.key (m : Management) : List Byte := (List.range m.keyLength).map fun i => m.field (0x3B + i)
def Management.words (m : Management) : List Word := eightWords m.fields 31

/-- R2: the key of a mailbox request; none is BAD_VALUE. -/
def Management.validKey (m : Management) : Option (List Byte) :=
  if keyLengthOk m.keyLength = true then some m.key else none

/-- The field registers with the byte at window address `a` replaced. -/
def storeField (fields : List Byte) (a : Nat) (v : Byte) : List Byte :=
  (List.range 63).map fun i => if i = a - 0x34 then v else fields.getD i 0

/-- The settings of Table 78. -/
inductive Setting where
  | defaultLife | minLife | maxLife | derate | createBurst | createSpan | standbyMax | holdoverMax
  | timeSource | quota (n : Agent)
deriving DecidableEq, Repr

/-- The setting an identifier names; none outside 01h..0Dh (Table 78). -/
def Setting.ofId (b : Byte) : Option Setting :=
  match b.toNat with
  | 1 => some .defaultLife | 2 => some .minLife | 3 => some .maxLife | 4 => some .derate
  | 5 => some .createBurst | 6 => some .createSpan | 7 => some .standbyMax | 8 => some .holdoverMax
  | 9 => some .timeSource | 10 => some (.quota 0) | 11 => some (.quota 1) | 12 => some (.quota 2)
  | 13 => some (.quota 3)
  | _ => none

end Sys2Proof.Machine
end

