-- ==== Sys2Proof/Machine/Sparse.lean ====
section
/-! DEFINITION. Sparse tables: a list of (index, value) pairs with strictly rising indices. The record table,
the generations and the notice cells are kept in this one form, so that equal tables are equal lists. -/

namespace Sys2Proof.Machine.Sparse

/-- The value at index `i`, if the table lists one. -/
def find {α : Type} (i : Nat) : List (Nat × α) → Option α
  | [] => none
  | (j, x) :: rest => if i = j then some x else find i rest

/-- The table with `x` at index `i`. -/
def put {α : Type} (i : Nat) (x : α) : List (Nat × α) → List (Nat × α)
  | [] => [(i, x)]
  | (j, y) :: rest =>
    if i < j then (i, x) :: (j, y) :: rest
    else if i = j then (i, x) :: rest
    else (j, y) :: put i x rest

/-- The table with nothing at index `i`. -/
def drop {α : Type} (i : Nat) : List (Nat × α) → List (Nat × α)
  | [] => []
  | (j, y) :: rest => if i = j then rest else (j, y) :: drop i rest

/-- The indices listed. -/
def keys {α : Type} (t : List (Nat × α)) : List Nat := t.map Prod.fst

/-- The canonical form: strictly rising indices below `bound`. -/
def wf {α : Type} (bound : Nat) : List (Nat × α) → Bool
  | [] => true
  | (i, _) :: rest => decide (i < bound) && (rest.all fun p => decide (i < p.1)) && wf bound rest

end Sys2Proof.Machine.Sparse
end

