-- ==== Sys2Proof/Machine/Flags.lean ====
section
/-! DEFINITION. Conditions, flags and lines computed from the state: permission and derating (Table 49),
exhaustion (R29), withholding (R31), compatibility (R25, Table 19), reported state (Table 9), response flags
(Table 57), ATTN_n (R161), MATTN_n (R177), the STATUS byte (R168). -/

namespace Sys2Proof.Machine

/-! ### Time state -/

/-- R31, Table 49: grants, upgrades and renewals are permitted. -/
def TimeState.permits : TimeState → Bool
  | .locked | .drift | .holdover | .freeRun => true
  | .acquiring | .unsafeTime => false

/-- Table 49: derating is in force. -/
def TimeState.derates : TimeState → Bool
  | .drift | .holdover | .freeRun => true
  | .acquiring | .locked | .unsafeTime => false

/-- R140: a change of time state that is a grant resumption. -/
def TimeState.resumes (old new : TimeState) : Bool := !old.permits && new.permits

/-- Table 13: the DERATE factor in eighths. -/
def Derate.eighths : Derate → Nat
  | .half => 4 | .fiveEighths => 5 | .threeQuarters => 6 | .sevenEighths => 7

/-- R26 step 2: clamp into MIN_LIFE..MAX_LIFE. -/
def clampLife (st : Settings) (v : Nat) : Nat :=
  if v < st.minLife then st.minLife else if st.maxLife < v then st.maxLife else v

/-- R26: the lifetime of a grant or renewal. -/
def lifetime (st : Settings) (ts : TimeState) (requested : Nat) : Nat :=
  let wanted := if requested = 0 then st.defaultLife else requested
  let clamped := clampLife st wanted
  let derated := if ts.derates then clamped * st.derate.eighths / 8 else clamped
  if derated = 0 then 1 else derated

/-! ### Epochs -/

/-- R29: the epoch source is exhausted once it has issued FFFFFFFFh. -/
def exhausted (source : Epoch) : Bool := source == 0xFFFFFFFF

/-- R31: a grant is withheld; `takesEpoch` for EXCLUSIVE and UPGRADE. -/
def withheld (ts : TimeState) (source : Epoch) (takesEpoch : Bool) : Bool :=
  !ts.permits || (takesEpoch && exhausted source)

/-- R34, R36, R58: the refusal that names withholding as the obstacle. -/
def withheldCode (ts : TimeState) : RefusalCode :=
  if ts.permits then .epochExhausted else .timeUnsafe

def Mode.takesEpoch : Mode → Bool
  | .shared => false | .exclusive => true

def ClaimKind.takesEpoch : ClaimKind → Bool
  | .shared => false | .exclusive | .upgrade => true

def Mode.kind : Mode → ClaimKind
  | .shared => .shared | .exclusive => .exclusive

/-! ### Records -/

/-- The agent's holder entry in a record. -/
def Record.holder (r : Record) (n : Agent) : Option Holder := r.holders.find? (fun h => h.agent == n)

/-- The agent's queued claim in a record. -/
def Record.claim (r : Record) (n : Agent) : Option Claim := r.queue.find? (fun c => c.agent == n)

def Record.holds (r : Record) (n : Agent) : Bool := (r.holder n).isSome
def Record.waits (r : Record) (n : Agent) : Bool := (r.claim n).isSome

/-- The agent has a part in the record: a lease or a queued claim (R38). -/
def Record.hasPart (r : Record) (n : Agent) : Bool := r.holds n || r.waits n

/-- R9: no holders and no queued claims. -/
def Record.empty (r : Record) : Bool := r.holders.isEmpty && r.queue.isEmpty

/-- Some holder is EXCLUSIVE. -/
def Record.exclusiveHeld (r : Record) : Bool := r.holders.any (fun h => h.mode == .exclusive)

/-- R25: a grant in mode `m` is compatible with the record's holders. -/
def Record.compatible (r : Record) : Mode → Bool
  | .shared => !r.exclusiveHeld
  | .exclusive => r.holders.isEmpty

/-- R25: an upgrade grant is compatible when its agent is the record's only holder. -/
def Record.onlyHolder (r : Record) (n : Agent) : Bool := (r.holders.map fun h => h.agent) == [n]

/-- Table 19: the compatibility of a queued claim that is first. -/
def Record.claimCompatible (r : Record) (c : Claim) : Bool :=
  match c.kind with
  | .shared => r.compatible .shared
  | .exclusive => r.compatible .exclusive
  | .upgrade => r.onlyHolder c.agent

/-- R7, Table 9: the reported state of an occupied slot. -/
def Record.reported (r : Record) : Reported :=
  if r.exclusiveHeld then .exclusive
  else if r.holders.isEmpty then .idle
  else match r.queue with
    | [] => .shared
    | c :: _ => if c.kind == .shared then .shared else .draining

/-- Table 10: the caller's standing. -/
def Record.standing (r : Record) (n : Agent) : Standing :=
  match r.holder n, r.claim n with
  | some h, none => if h.mode == .exclusive then .exclusive else .shared
  | some h, some _ => if h.mode == .exclusive then .exclusive else .upgrading
  | none, some _ => .queued
  | none, none => .none

/-! ### Sessions -/

/-- ACTIVE or STANDBY. -/
def AgentState.joined : AgentState → Bool
  | .active | .standby => true
  | .unjoined | .evicted => false

/-- R107, Table 37: the refusal of a request by the agent's state; none admits it. -/
def admission (k : Request) (st : AgentState) : Option RefusalCode :=
  match st, k with
  | _, .join | _, .time => none
  | .unjoined, _ => some .notJoined
  | .evicted, _ => some .evicted
  | .active, _ => none
  | .standby, .leave | .standby, .notices | .standby, .wake => none
  | .standby, _ => some .inStandby

/-- R114: the session byte of a response header. -/
def Session.low (a : Session) : Byte := if a.state.joined then a.number.extractLsb' 0 8 else 0x00

/-! ### Lines and the STATUS byte -/

/-- R90: an agent's pending count. -/
def State.pendingCount (s : State) (n : Agent) : Nat := (s.cells.get n).length

def PortState.isReady : PortState → Bool
  | .ready _ => true
  | _ => false

/-- R161: ATTN_n is asserted. -/
def State.attn (s : State) (n : Agent) : Bool :=
  (s.ports.get n).state.isReady || decide (0 < s.pendingCount n) || s.monitor.agentFlags.get n

/-- R177: MATTN_n is asserted. -/
def State.mattn (s : State) : Bool :=
  s.management.mailbox == .done || s.monitor.managementFlag

/-- R168, Table 79: the STATUS byte. -/
def State.statusByte (s : State) : Byte :=
  byteOf ((if s.table = .ready then 1 else 0) + (if s.monitor.managementFlag then 2 else 0)
    + (if exhausted s.epochSource then 4 else 0)) ||| (s.management.mailbox.code <<< 4)

/-- R158: a response decided in the state after its request's effects, its OVERRUN flag not yet set. -/
def State.respond (s : State) (n : Agent) (a : Answer) : Response :=
  { answer := a, notice := decide (0 < s.pendingCount n), timeChange := s.monitor.agentFlags.get n,
    overrun := false, lapsed := (s.sessions.get n).lapsed, sessionLow := (s.sessions.get n).low }

end Sys2Proof.Machine
end

