-- ==== Sys2Proof/Machine/Ops.lean ====
section
/-! DEFINITION. The named operations over the state that the commands share: access to slots, generations,
sessions, cells and ports; the notice table's posting (R88); the grant check (R55 to R57); leaving a record;
retirement (R16); changes of time state and grant resumption (R72, R141); the transaction of a port
(R145 to R151) and the acceptance of a request (R156). -/

namespace Sys2Proof.Machine

/-! ### Access to one home of state each -/

def State.session (s : State) (n : Agent) : Session := s.sessions.get n

def State.setSession (s : State) (n : Agent) (a : Session) : State :=
  { s with sessions := s.sessions.set n a }

def State.port (s : State) (n : Agent) : Port := s.ports.get n

def State.setPort (s : State) (n : Agent) (p : Port) : State := { s with ports := s.ports.set n p }

def State.setCells (s : State) (n : Agent) (c : List (Nat × Notice)) : State :=
  { s with cells := s.cells.set n c }

def State.setMonitor (s : State) (m : Monitor) : State := { s with monitor := m }

def State.setManagement (s : State) (m : Management) : State := { s with management := m }

/-- The record in a slot; none for a VACANT slot. -/
def State.record (s : State) (slot : Nat) : Option Record := Sparse.find slot s.records

def State.putRecord (s : State) (slot : Nat) (r : Record) : State :=
  { s with records := Sparse.put slot r s.records }

/-- R10: the generation of a slot. -/
def State.generation (s : State) (slot : Nat) : Nat := (Sparse.find slot s.generations).getD 0

/-- A slot's generation set; 0 is not listed. -/
def setGeneration (gens : List (Nat × Nat)) (slot gen : Nat) : List (Nat × Nat) :=
  if gen = 0 then Sparse.drop slot gens else Sparse.put slot gen gens

/-- R10, R16 steps 2 and 4 to 6: the slot becomes VACANT and its generation advances modulo 32. -/
def State.vacate (s : State) (slot : Nat) : State :=
  { s with records := Sparse.drop slot s.records,
           generations := setGeneration s.generations slot ((s.generation slot + 1) % 32) }

/-- R11: the handle of a slot's present occupancy. -/
def State.handle (s : State) (slot : Nat) : Half := handleOf (s.generation slot) slot

/-- R11: the slot and the record that a handle names, when it is honoured. -/
def State.honoured (s : State) (h : Half) : Option (Nat × Record) :=
  match s.record (handleSlot h) with
  | some r => if s.generation (handleSlot h) = handleGen h then some (handleSlot h, r) else none
  | none => none

/-- Looks for a key among the occupied ways of a list of slots. -/
def State.findAmong (s : State) (key : List Byte) : List Nat → Option (Nat × Record)
  | [] => none
  | slot :: rest =>
    match s.record slot with
    | some r => if r.key = key then some (slot, r) else s.findAmong key rest
    | none => s.findAmong key rest

/-- R4: the slot and the record of a present key. -/
def State.findKey (s : State) (key : List Byte) : Option (Nat × Record) := s.findAmong key (homeSlots key)

/-- The VACANT ways of a key's home bucket, lowest first. -/
def State.vacantWays (s : State) (key : List Byte) : List Nat :=
  (homeSlots key).filter fun slot => (s.record slot).isNone

/-- Table 10: the number of VACANT ways in a key's home bucket. -/
def State.freeWays (s : State) (key : List Byte) : Nat := (s.vacantWays key).length

/-- R5: a record as a creation makes it. -/
def newRecord (key : List Byte) (persistent : Bool) : Record :=
  { key := key, persistent := persistent, lastEpoch := 0, value := List.replicate 8 0, holders := [],
    queue := [] }

/-! ### Lease counts (R38) -/

/-- The agent gains a part in a record. -/
def State.gainPart (s : State) (n : Agent) : State :=
  let a := s.session n
  s.setSession n { a with leaseCount := a.leaseCount + 1 }

/-- The agent loses its last part in a record. -/
def State.losePart (s : State) (n : Agent) : State :=
  let a := s.session n
  s.setSession n { a with leaseCount := a.leaseCount - 1 }

/-- R125: a kept lease leaves the agent's kept set. -/
def State.loseKept (s : State) (n : Agent) : State :=
  let a := s.session n
  s.setSession n { a with standby := a.standby.map fun b => { b with kept := b.kept - 1 } }

/-! ### Notices (R88, R89) -/

/-- Writes a notice into the agent's cell for the slot, replacing any older one. -/
def State.post (s : State) (slot : Nat) (n : Agent) (x : Notice) : State :=
  s.setCells n (Sparse.put slot x (s.cells.get n))

/-- Posts a notice without lifetime and epoch, at the slot's current generation (R87). -/
def State.postPlain (s : State) (slot : Nat) (n : Agent) (k : NoticeKind) : State :=
  s.post slot n { kind := k, gen := s.generation slot, lifetime := none, epoch := none }

/-! ### Holders and queues -/

/-- R6: a holder entry joins at the place its agent number gives. -/
def insertHolder (h : Holder) : List Holder → List Holder
  | [] => [h]
  | g :: rest => if h.agent.val < g.agent.val then h :: g :: rest else g :: insertHolder h rest

/-- The holder entry of a grant (R24). -/
def newHolder (n : Agent) (m : Mode) (life : Nat) (e : Option Epoch) : Holder :=
  { agent := n, mode := m, status := .running, remaining := life, granted := life, epoch := e }

/-- The agent's holder entry changed by `f`. -/
def Record.mapHolder (r : Record) (n : Agent) (f : Holder → Holder) : Record :=
  { r with holders := r.holders.map fun h => if h.agent == n then f h else h }

/-- The agent's queued claim removed. -/
def Record.dropClaim (r : Record) (n : Agent) : Record :=
  { r with queue := r.queue.filter fun c => c.agent != n }

/-- The agent's holder entry removed. -/
def Record.dropHolder (r : Record) (n : Agent) : Record :=
  { r with holders := r.holders.filter fun h => h.agent != n }

/-- The agent's holder entry and queued claim removed together (R47). -/
def Record.dropAgent (r : Record) (n : Agent) : Record := (r.dropHolder n).dropClaim n

/-- R57 step 3, R59: the entry of a granted upgrade. -/
def upgraded (life : Nat) (e : Epoch) (h : Holder) : Holder :=
  { h with mode := .exclusive, remaining := life, granted := life, epoch := some e }

/-! ### The grant check (R55 to R57) -/

/-- What a grant check reads beside the record and the epoch source. -/
structure GrantEnv where
  settings : Settings
  timeState : TimeState
  gen : Nat
deriving DecidableEq, Repr

/-- R56: the first claim is compatible and not withheld. -/
def grantable (env : GrantEnv) (source : Epoch) (r : Record) (c : Claim) : Bool :=
  r.claimCompatible c && !withheld env.timeState source c.kind.takesEpoch

/-- R57: the first claim `c` of a record granted; the record, the epoch source and the GRANTED notice after it. -/
def grantFirst (env : GrantEnv) (source : Epoch) (r : Record) (c : Claim) (rest : List Claim) :
    Record × Epoch × Notice :=
  let life := lifetime env.settings env.timeState c.requested
  let fresh := source + 1
  match c.kind with
  | .shared =>
    ({ r with queue := rest, holders := insertHolder (newHolder c.agent .shared life none) r.holders },
     source, { kind := .granted, gen := env.gen, lifetime := some life, epoch := none })
  | .exclusive =>
    ({ r with queue := rest, lastEpoch := fresh,
              holders := insertHolder (newHolder c.agent .exclusive life (some fresh)) r.holders },
     fresh, { kind := .granted, gen := env.gen, lifetime := some life, epoch := some fresh })
  | .upgrade =>
    ({ (r.mapHolder c.agent (upgraded life fresh)) with queue := rest, lastEpoch := fresh },
     fresh, { kind := .granted, gen := env.gen, lifetime := some life, epoch := some fresh })

/-- R56: grants from the front, at most `fuel` claims; the record, the epoch source and the notices in order. -/
def grantRun (env : GrantEnv) : Nat → Epoch → Record → Record × Epoch × List (Agent × Notice)
  | 0, source, r => (r, source, [])
  | fuel + 1, source, r =>
    match r.queue with
    | [] => (r, source, [])
    | c :: rest =>
      if grantable env source r c then
        let g := grantFirst env source r c rest
        let more := grantRun env fuel g.2.1 g.1
        (more.1, more.2.1, (c.agent, g.2.2) :: more.2.2)
      else (r, source, [])

def State.grantEnv (s : State) (slot : Nat) : GrantEnv :=
  { settings := s.settings, timeState := s.monitor.timeState, gen := s.generation slot }

/-- R55, R56: the grant check of the record in a slot. Each grant removes a claim, so the queue's length is
enough fuel. -/
def State.grantCheck (s : State) (slot : Nat) : State :=
  match s.record slot with
  | none => s
  | some r =>
    let g := grantRun (s.grantEnv slot) r.queue.length s.epochSource r
    let s1 := { s.putRecord slot g.1 with epochSource := g.2.1 }
    g.2.2.foldl (fun t p => t.post slot p.1 p.2) s1

/-- R72: every occupied record's grant check, in ascending slot order. -/
def State.grantAll (s : State) : State := (Sparse.keys s.records).foldl State.grantCheck s

/-! ### Leaving a record and retirement -/

/-- R16: the retirement step, after its notices: removes the record, lowers the count of each agent with a part
in it and each kept set, and vacates the slot. -/
def State.retire (s : State) (slot : Nat) : State :=
  match s.record slot with
  | none => s
  | some r =>
    let s1 := (agents.filter r.hasPart).foldl State.losePart s
    let s2 := ((r.holders.filter fun h => h.status == .kept).map fun h => h.agent).foldl State.loseKept s1
    s2.vacate slot

/-- R9: an empty transient record is retired, as the last part of the event that emptied it. -/
def State.retireIfEmpty (s : State) (slot : Nat) : State :=
  match s.record slot with
  | none => s
  | some r => if !r.persistent && r.empty then s.retire slot else s

/-- An agent's whole part in a record leaves: R40, R44, R64, R67 and R104 with or without a notice. -/
def State.leaveRecord (s : State) (slot : Nat) (n : Agent) (notice : Option NoticeKind) : State :=
  match s.record slot with
  | none => s
  | some r =>
    let s1 := s.putRecord slot (r.dropAgent n)
    let s2 := match notice with
      | none => s1
      | some k => s1.postPlain slot n k
    ((s2.losePart n).grantCheck slot).retireIfEmpty slot

/-- The occupied slots in which an agent has a part, ascending. -/
def State.partSlots (s : State) (n : Agent) : List Nat :=
  Sparse.keys (s.records.filter fun p => p.2.hasPart n)

/-- R104: the agent is removed from every record, in ascending slot order, without a notice to it. -/
def State.removeAgent (s : State) (n : Agent) : State :=
  (s.partSlots n).foldl (fun t slot => t.leaveRecord slot n none) s

/-! ### Sessions -/

/-- R103 steps 1 to 4: the agent's part in the table, its cells, its window, its standby record and its LAPSED
flag are cleared; its lease count is 0 (Table 16). -/
def State.endSession (s : State) (n : Agent) : State :=
  let s1 := (s.removeAgent n).setCells n []
  s1.setSession n
    { s1.session n with leaseCount := 0, window := [], standby := none, lapsed := false }

/-- R122: every KEPT entry of an agent returns to RUNNING. -/
def resumeHolder (n : Agent) (h : Holder) : Holder :=
  if h.agent = n ∧ h.status = .kept then { h with status := .running } else h

/-- R122: resumption. -/
def State.resumeStandby (s : State) (n : Agent) : State :=
  let s1 := { s with
    records := s.records.map fun (p : Nat × Record) =>
      (p.1, { p.2 with holders := p.2.holders.map (resumeHolder n) }) }
  s1.setSession n { s1.session n with standby := none, state := .active }

/-! ### Changes of time state (R140 to R142) -/

/-- R141: the flag of every ACTIVE or STANDBY agent is set; the others stand. -/
def State.flagsSet (s : State) : PerAgent Bool :=
  let f := fun n => s.monitor.agentFlags.get n || (s.session n).state.joined
  ⟨f 0, f 1, f 2, f 3⟩

/-- R137: the divider of a time state: stopped in LOCKED, started afresh in every other. -/
def TimeState.divider : TimeState → Divider
  | .locked => .stopped
  | _ => .running 0

/-- A change of time state: `m` is the monitor with the new state and counts. The divider starts or stops (R137),
the flags are set (R141, R142), and a change that resumes grants runs every grant check (R140, R72). -/
def State.changeTime (s : State) (m : Monitor) : State :=
  let s1 := s.setMonitor
    { m with divider := m.timeState.divider, agentFlags := s.flagsSet, managementFlag := true }
  if s.monitor.timeState.resumes m.timeState then s1.grantAll else s1

/-! ### The transaction of a port (R145 to R151, R163, R164) -/

/-- R146: the bytes that a transaction of `total` whole bytes begun in this port state shifts out. -/
def PortState.shifts (p : PortState) (total : Nat) : List Byte :=
  match p with
  | .idle => List.replicate total 0x00
  | .working _ => List.replicate total 0xFF
  | .ready r => (r.frame ++ List.replicate total 0x00).take total

/-- R163, R164: the first `bits` bits stand, every later bit is 0 (log 10). -/
def cutAfter : Nat → List Byte → List Byte
  | _, [] => []
  | bits, b :: rest => (b &&& ~~~((0xFF : Byte) >>> bits)) :: cutAfter (bits - 8) rest

/-- R164: what a transaction in progress at the first reset since the port's latest transaction was shifting. -/
def Port.wasShifting (p : Port) (working : Bool) (total : Nat) : List Byte :=
  match p.cut, working with
  | some (.ready _), true => List.replicate total 0xFF
  | some q, _ => q.shifts total
  | none, _ => List.replicate total 0x00

/-- R146, R163, R164: the bytes that a transaction of `total` whole bytes shifts out. -/
def Port.shifts (p : Port) (held : Bool) (start : TransactionStart) (total : Nat) : List Byte :=
  match start with
  | .beforeReset working bits => cutAfter bits (p.wasShifting working total)
  | .whileWorking => List.replicate total (if held then 0x00 else 0xFF)
  | .atPresent => if held then List.replicate total 0x00 else p.state.shifts total

/-- R145: the pin SDO_n when `bit` bits of a transaction have been shifted, by the level of CS_n: driven while CS_n is
low, from the transaction's first bit on, and released while it is high. -/
def State.sdoLine (s : State) (n : Agent) (start : TransactionStart) (csHigh : Bool) (bit : Nat) : Line :=
  if csHigh then .released else .driven (bitOf ((s.port n).shifts s.held start (bit / 8 + 1)) bit)

/-- Records the bytes a transaction shifted out. No reset has been taken since the transaction's end. -/
def State.shifted (s : State) (n : Agent) (bytes : List Byte) : State :=
  s.setPort n { s.port n with sdo := bytes, cut := none }

/-- R149, R150, R159: the bytes in are dropped; a request among them sets OVERRUN. -/
def State.dropped (s : State) (n : Agent) (isRequest : Bool) : State :=
  if isRequest then s.setPort n { s.port n with overrun := true } else s

/-- A transaction of `total` whole bytes on port `n`. `isRequest`: its first byte is not 00h. `take` is what the
port does with the bytes in when it judges them as in IDLE (R148), after the collection (R150, R151). -/
def State.transact (s : State) (n : Agent) (start : TransactionStart) (total : Nat) (isRequest : Bool)
    (take : State → State) : State :=
  let s1 := s.shifted n ((s.port n).shifts s.held start total)
  if s.held then s1
  else match start with
    | .beforeReset _ _ => s1
    | .whileWorking =>
      match (s.port n).state with
      | .idle => s
      | _ => s1.dropped n isRequest
    | .atPresent =>
      match (s.port n).state with
      | .idle => take s1
      | .working _ => s1.dropped n isRequest
      | .ready r =>
        if r.frame.length ≤ total then take (s1.setPort n { s1.port n with state := .idle })
        else s1.dropped n isRequest

/-- What a reset leaves noted of a port: the state in which the first reset since its latest transaction found it. -/
def Port.cutAt (p : Port) : Option PortState :=
  match p.cut with
  | some q => some q
  | none => some p.state

/-- R148, R158: the port enters WORKING with the response decided now. -/
def State.answer (s : State) (n : Agent) (a : Answer) : State :=
  s.setPort n { s.port n with state := .working (s.respond n a) }

/-- R156 checks 3 to 5, taken as one step: the request's rule runs when the table state and the agent's
standing let it; the response is decided in the state after it. -/
def State.accept (s : State) (k : Request) (n : Agent) (rule : State → State × Answer) : State :=
  if s.table = .initializing ∧ k ≠ .time then s.answer n (.refused .notReady)
  else match admission k (s.session n).state with
    | some c => s.answer n (.refused c)
    | none => (rule s).1.answer n (rule s).2

end Sys2Proof.Machine
end

