-- ==== Sys2Proof/Machine/Tick.lean ====
section
/-! DEFINITION. The lease clock tick (R39, R63, R110, R121, R134, R138) and its parts: lease, wait, upgrade wait
and standby expiry, a creation window entry that leaves, the holdover limit. A tick lowers every count at once;
a count it takes to 0 marks a part that is due in that tick. The parts due are taken by their own commands, in the
order the queue gives, and whatever is still due is taken before the next other command (log 2, log 5). -/

namespace Sys2Proof.Machine

/-! ### The countdowns of a tick -/

/-- R39: a RUNNING lease falls by one; a KEPT one is not counted down. -/
def tickHolder (h : Holder) : Holder :=
  match h.status with
  | .running => { h with remaining := h.remaining - 1 }
  | .kept => h

/-- R63: every queued claim's wait falls by one. -/
def tickClaim (c : Claim) : Claim := { c with wait := c.wait - 1 }

def tickRecord (r : Record) : Record :=
  { r with holders := r.holders.map tickHolder, queue := r.queue.map tickClaim }

/-- R110, R121: window entries age by one, a standby countdown falls by one. -/
def tickSession (a : Session) : Session :=
  { a with window := a.window.map (· + 1),
           standby := a.standby.map fun b => { b with countdown := b.countdown - 1 } }

/-- R134: the holdover elapsed count rises by one in HOLDOVER and UNSAFE and stops at 65535. -/
def tickMonitor (m : Monitor) : Monitor :=
  match m.timeState with
  | .holdover | .unsafeTime => { m with elapsed := min (m.elapsed + 1) 65535 }
  | _ => m

/-- R138: a tick reaches the table, the sessions and the monitor. -/
def State.tick (s : State) : State :=
  { s with records := s.records.map fun (p : Nat × Record) => (p.1, tickRecord p.2),
           sessions := ⟨tickSession s.sessions.a0, tickSession s.sessions.a1, tickSession s.sessions.a2,
                        tickSession s.sessions.a3⟩,
           monitor := tickMonitor s.monitor }

/-! ### The parts of a tick -/

/-- A lease whose expiry is due. -/
def Holder.due (h : Holder) : Bool := h.status == .running && h.remaining == 0

/-- A claim whose wait expiry is due. -/
def Claim.due (c : Claim) : Bool := c.wait == 0

/-- R40: the lease of an agent expires. -/
def State.expireLease (s : State) (slot : Nat) (n : Agent) : State := s.leaveRecord slot n (some .expired)

/-- R64: the wait of a queued SHARED or EXCLUSIVE claim expires. -/
def State.expireWait (s : State) (slot : Nat) (n : Agent) : State := s.leaveRecord slot n (some .waitExpired)

/-- R65: the wait of a queued UPGRADE expires; the lease stays. -/
def State.expireUpgrade (s : State) (slot : Nat) (n : Agent) : State :=
  match s.record slot with
  | none => s
  | some r => ((s.putRecord slot (r.dropClaim n)).postPlain slot n .waitExpired).grantCheck slot

/-- R124: a standby expires. -/
def State.expireStandby (s : State) (n : Agent) : State :=
  let s1 := s.resumeStandby n
  s1.setSession n { s1.session n with lapsed := true }

/-- R134: HOLDOVER changes to UNSAFE. -/
def State.reachLimit (s : State) : State := s.changeTime { s.monitor with timeState := .unsafeTime }

/-- The expiries of one record that are due. -/
inductive DuePart where
  | lease (n : Agent)
  | wait (n : Agent)
  | upgradeWait (n : Agent)
deriving DecidableEq, Repr

def Record.dueParts (r : Record) : List DuePart :=
  ((r.holders.filter Holder.due).map fun h => .lease h.agent) ++
  ((r.queue.filter Claim.due).map fun c => if c.kind = .upgrade then .upgradeWait c.agent else .wait c.agent)

/-- The expiries due in a slot. -/
def State.dueParts (s : State) (slot : Nat) : List DuePart :=
  match s.record slot with
  | none => []
  | some r => r.dueParts

def State.takePart (s : State) (slot : Nat) : DuePart → State
  | .lease n => s.expireLease slot n
  | .wait n => s.expireWait slot n
  | .upgradeWait n => s.expireUpgrade slot n

/-- Takes the expiries due in one record, one after another. Where several are due the free value
`Config.expiryOrder` says which comes first (R66, log 3). -/
def State.settleRecord (slot : Nat) : Nat → State → State
  | 0, s => s
  | fuel + 1, s =>
    match s.dueParts slot with
    | [] => s
    | [p] => State.settleRecord slot fuel (s.takePart slot p)
    | p :: q :: rest =>
      let i := Config.expiryOrder s.choices % (rest.length + 2)
      let s1 := { s with choices := s.choices + 1 }
      State.settleRecord slot fuel (s1.takePart slot ((p :: q :: rest).getD i p))

/-- The slots with an expiry due, ascending. -/
def State.dueSlots (s : State) : List Nat :=
  Sparse.keys (s.records.filter fun p => !p.2.dueParts.isEmpty)

/-- The expiries due in the given slots, record by record in the list's order. Each expiry removes a holder or a
claim, so the number due is enough fuel. -/
def State.settleSlots (s : State) (slots : List Nat) : State :=
  slots.foldl (fun t slot => State.settleRecord slot (t.dueParts slot).length t) s

/-- R39: the expiries due in the table, in ascending slot order. -/
def State.settleTable (s : State) : State := s.settleSlots s.dueSlots

/-- The expiries due in the slots below `slot`, in ascending slot order. -/
def State.settleBelow (s : State) (slot : Nat) : State :=
  s.settleSlots (s.dueSlots.filter fun i => decide (i < slot))

/-- R134: the tick that makes the elapsed count equal HOLDOVER_MAX has been counted. -/
def State.limitDue (s : State) : Bool :=
  s.monitor.timeState == .holdover && decide (s.settings.holdoverMax ≤ s.monitor.elapsed)

def State.settleMonitor (s : State) : State := if s.limitDue then s.reachLimit else s

/-- R124: the agent's standby expiry is due. -/
def State.standbyDue (s : State) (n : Agent) : Bool :=
  (s.session n).state == .standby &&
  (match (s.session n).standby with | some b => b.countdown == 0 | none => false)

/-- R110: an entry's age has reached CREATE_SPAN. -/
def State.entryDue (s : State) (n : Agent) : Bool :=
  (s.session n).window.any fun age => decide (s.settings.createSpan ≤ age)

/-- R110: the entries whose age has reached CREATE_SPAN leave. -/
def State.ageOut (s : State) (n : Agent) : State :=
  let a := s.session n
  s.setSession n { a with window := a.window.filter fun age => decide (age < s.settings.createSpan) }

def State.settleSession (s : State) (n : Agent) : State :=
  let s1 := if s.standbyDue n then s.expireStandby n else s
  if s1.entryDue n then s1.ageOut n else s1

/-- Some part of the tick being taken is still due. -/
def State.tickPending (s : State) : Bool :=
  !s.dueSlots.isEmpty || s.limitDue || agents.any fun n => s.standbyDue n || s.entryDue n

/-- Takes every part still due in the table and the monitor. Where both have one, the free value
`Config.limitFirst` says which comes first (R134, log 4). -/
def State.settleCore (s : State) : State :=
  if s.limitDue && !s.dueSlots.isEmpty then
    let s0 := { s with choices := s.choices + 1 }
    if Config.limitFirst s.choices then s0.settleMonitor.settleTable
    else s0.settleTable.settleMonitor
  else s.settleTable.settleMonitor

/-- Takes every part still due. -/
def State.settle (s : State) : State := agents.foldl State.settleSession s.settleCore

/-- Takes every part still due but a standby expiry of agent `n`: what comes before a WAKE of `n`, since R124 lets
that WAKE come before the expiry of the same tick (log 5). -/
def State.settleForWake (s : State) (n : Agent) : State :=
  let s1 := (agents.filter fun m => m != n).foldl State.settleSession s.settleCore
  if s1.entryDue n then s1.ageOut n else s1

/-! ### The commands that take one part (log 2, log 6) -/

/-- LEASE_EXPIRY (R40): the lease's expiry is taken if it is due; lower slots come first (R39). -/
def execLeaseExpiry (slot : Nat) (n : Agent) (s : State) : Host.Outcome State Fault Refusal :=
  let s1 := s.settleBelow slot
  .next (if .lease n ∈ s1.dueParts slot then s1.expireLease slot n else s1)

/-- WAIT_EXPIRY (R64): the wait expiry of a SHARED or EXCLUSIVE claim is taken if it is due. -/
def execWaitExpiry (slot : Nat) (n : Agent) (s : State) : Host.Outcome State Fault Refusal :=
  let s1 := s.settleBelow slot
  .next (if .wait n ∈ s1.dueParts slot then s1.expireWait slot n else s1)

/-- UPGRADE_WAIT_EXPIRY (R65): the wait expiry of a queued UPGRADE is taken if it is due. -/
def execUpgradeWaitExpiry (slot : Nat) (n : Agent) (s : State) : Host.Outcome State Fault Refusal :=
  let s1 := s.settleBelow slot
  .next (if .upgradeWait n ∈ s1.dueParts slot then s1.expireUpgrade slot n else s1)

/-- STANDBY_EXPIRY (R124): the standby expiry is taken if it is due. -/
def execStandbyExpiry (n : Agent) (s : State) : Host.Outcome State Fault Refusal :=
  .next (if s.standbyDue n then s.expireStandby n else s)

/-- CREATION_ENTRY_LEAVES (R110): the oldest entry leaves if its age has reached CREATE_SPAN. -/
def execCreationEntryLeaves (n : Agent) (s : State) : Host.Outcome State Fault Refusal :=
  let a := s.session n
  .next (s.setSession n { a with window := a.window.eraseP fun age => decide (s.settings.createSpan ≤ age) })

/-- HOLDOVER_LIMIT_REACHED (R134): the change to UNSAFE is taken if it is due. -/
def execHoldoverLimitReached (s : State) : Host.Outcome State Fault Refusal := .next s.settleMonitor

end Sys2Proof.Machine
end

