-- ==== Sys2Proof/Machine/Sessions.lean ====
section
/-! DEFINITION. The agent requests about sessions, notices, time and standby: JOIN, LEAVE, NOTICES, TIME, STANDBY,
WAKE (Chapters 5 to 8), and the one shape every agent request has. A rule answers the state after the request and
what is answered. -/

namespace Sys2Proof.Machine

/-- The parts of a tick that are taken before a request of agent `n`: all still due (log 5), but that the agent's
standby expiry may come after its WAKE (R124). -/
def State.settleFor (s : State) (k : Request) (n : Agent) : State :=
  match k with
  | .wake => s.settleForWake n
  | _ => s.settle

/-- An agent request: the parts of a tick still due come first, then the port's transaction (R148 to R151), then the
acceptance and the request's own rule (R156). A frame is 3 bytes and its body (R153). -/
def State.request (s : State) (k : Request) (n : Agent) (t : Transfer) (body : List Byte)
    (rule : State → State × Answer) : State :=
  (s.settleFor k n).transact n t.start (3 + body.length + t.extra) true fun u => u.accept k n rule

/-! ### JOIN and LEAVE -/

/-- R100: the next session number. -/
def nextSession (counter : Half) : Half := if counter = 0xFFFF then 1 else counter + 1

/-- R101 steps 3 to 5. -/
def State.startSession (s : State) (n : Agent) : State :=
  let number := nextSession s.sessionCounter
  let s1 := { s with sessionCounter := number,
                     monitor := { s.monitor with agentFlags := s.monitor.agentFlags.set n false } }
  s1.setSession n { s1.session n with number := number, lapsed := false, state := .active }

/-- R101 steps 1 and 2. -/
def State.clearStanding (s : State) (n : Agent) : State :=
  let s1 := s.setCells n []
  s1.setSession n { s1.session n with window := [], standby := none, leaseCount := 0 }

/-- The fields of a JOIN answer (R101), in force when the JOIN is taken. -/
def State.joinAnswer (s : State) (n : Agent) : Answer :=
  .okJoin (s.session n).number (s.settings.quota.get n) s.settings.defaultLife s.settings.minLife
    s.settings.maxLife s.monitor.timeState

/-- R101, R102. -/
def joinRule (n : Agent) (body : List Byte) (s : State) : State × Answer :=
  if body ≠ [] then (s, .refused .badField)
  else
    let s1 := if (s.session n).state.joined then s.endSession n else s.clearStanding n
    let s2 := s1.startSession n
    (s2, s2.joinAnswer n)

/-- R103. -/
def leaveRule (n : Agent) (body : List Byte) (s : State) : State × Answer :=
  if body ≠ [] then (s, .refused .badField)
  else
    let s1 := s.endSession n
    (s1.setSession n { s1.session n with number := 0, state := .unjoined }, .ok)

/-! ### NOTICES and TIME -/

/-- R87, R92: the entry of a cell. -/
def noticeEntry (p : Nat × Notice) : NoticeEntry :=
  { handle := handleOf p.2.gen p.1, kind := p.2.kind, lifetime := p.2.lifetime, epoch := p.2.epoch }

/-- R91. -/
def noticesRule (n : Agent) (body : List Byte) (s : State) : State × Answer :=
  if body ≠ [] then (s, .refused .badField)
  else
    let cells := s.cells.get n
    let rest := cells.drop 6
    (s.setCells n rest, .okNotices (!rest.isEmpty) ((cells.take 6).map noticeEntry))

/-- R143. -/
def timeRule (n : Agent) (body : List Byte) (s : State) : State × Answer :=
  if body ≠ [] then (s, .refused .badField)
  else
    let m := s.monitor
    let a : Answer := .okTime m.timeState m.timeState.derates s.settings.derate m.good m.elapsed
    if (s.session n).state.joined then (s.setMonitor { m with agentFlags := m.agentFlags.set n false }, a)
    else (s, a)

/-! ### STANDBY and WAKE -/

/-- What a standby entry has counted: leases kept, records left. -/
structure EntryCount where
  kept : Nat
  left : Nat
deriving DecidableEq, Repr

/-- R118 step 5: a RUNNING entry of the agent becomes KEPT. -/
def keepHolder (h : Holder) : Holder := { h with status := .kept }

/-- R118 steps 1 to 5 at one record. -/
def State.enterStandbyAt (n : Agent) (mask : Byte) (p : State × EntryCount) (slot : Nat) : State × EntryCount :=
  let s := p.1
  match s.record slot with
  | none => p
  | some r =>
    let release := r.holds n && !maskSelects mask slot
    let r1 := r.dropClaim n
    let r2 := if release then r1.dropHolder n else r1
    let removed := r.waits n || release
    let gone := removed && !r2.holds n
    let s1 := s.putRecord slot r2
    let s2 := if gone then s1.losePart n else s1
    let s3 := if removed then (s2.grantCheck slot).retireIfEmpty slot else s2
    let s4 := if r2.holds n then
        match s3.record slot with
        | some r3 => s3.putRecord slot (r3.mapHolder n keepHolder)
        | none => s3
      else s3
    (s4, { kept := if r2.holds n then p.2.kept + 1 else p.2.kept,
           left := if gone then p.2.left + 1 else p.2.left })

/-- R118. -/
def State.enterStandby (s : State) (n : Agent) (mask : Byte) (duration : Nat) : State × EntryCount :=
  let p := (s.partSlots n).foldl (State.enterStandbyAt n mask) (s, { kept := 0, left := 0 })
  (p.1.setSession n
    { p.1.session n with state := .standby, standby := some { kept := p.2.kept, countdown := duration } }, p.2)

/-- R117. -/
def standbyRule (n : Agent) (body : List Byte) (s : State) : State × Answer :=
  match parseStandby body with
  | none => (s, .refused .badField)
  | some (mask, duration) =>
    if s.settings.standbyMax = 0 then (s, .refused .standbyRefused)
    else if s.settings.standbyMax < duration then (s, .refused .standbyRefused)
    else
      let p := s.enterStandby n mask duration
      (p.1, .okStandby p.2.kept p.2.left duration)

/-- R123. -/
def wakeRule (n : Agent) (body : List Byte) (s : State) : State × Answer :=
  if body ≠ [] then (s, .refused .badField)
  else
    let a := s.session n
    match a.state with
    | .standby =>
      (s.resumeStandby n, .okWake (match a.standby with | some b => b.kept | none => 0) a.lapsed)
    | _ => (s.setSession n { a with lapsed := false }, .okWake 0 a.lapsed)

/-! ### The commands -/

def execJoin (n : Agent) (t : Transfer) (body : List Byte) (s : State) : Host.Outcome State Fault Refusal :=
  .next (s.request .join n t body (joinRule n body))

def execLeave (n : Agent) (t : Transfer) (body : List Byte) (s : State) : Host.Outcome State Fault Refusal :=
  .next (s.request .leave n t body (leaveRule n body))

def execNotices (n : Agent) (t : Transfer) (body : List Byte) (s : State) : Host.Outcome State Fault Refusal :=
  .next (s.request .notices n t body (noticesRule n body))

def execTime (n : Agent) (t : Transfer) (body : List Byte) (s : State) : Host.Outcome State Fault Refusal :=
  .next (s.request .time n t body (timeRule n body))

def execStandby (n : Agent) (t : Transfer) (body : List Byte) (s : State) : Host.Outcome State Fault Refusal :=
  .next (s.request .standby n t body (standbyRule n body))

def execWake (n : Agent) (t : Transfer) (body : List Byte) (s : State) : Host.Outcome State Fault Refusal :=
  .next (s.request .wake n t body (wakeRule n body))

end Sys2Proof.Machine
end

