-- ==== Sys2Proof/Machine/Leases.lean ====
section
/-! DEFINITION. The agent requests about leases: CLAIM, UPGRADE, DOWNGRADE, RENEW, RENEW_SET, RELEASE
(Chapters 2 and 3). -/

namespace Sys2Proof.Machine

/-! ### CLAIM -/

/-- R35: an immediate grant to `n` on the record in a slot, and its answer. -/
def State.grantNow (s : State) (slot : Nat) (r : Record) (n : Agent) (m : Mode) (requested : Nat) :
    State × Answer :=
  let life := lifetime s.settings s.monitor.timeState requested
  let fresh := s.epochSource + 1
  match m with
  | .shared =>
    let r1 := { r with holders := insertHolder (newHolder n .shared life none) r.holders }
    ((s.putRecord slot r1).gainPart n, .granted (s.handle slot) .shared life none)
  | .exclusive =>
    let r1 := { r with lastEpoch := fresh,
                       holders := insertHolder (newHolder n .exclusive life (some fresh)) r.holders }
    ({ (s.putRecord slot r1).gainPart n with epochSource := fresh },
     .granted (s.handle slot) .exclusive life (some fresh))

/-- R34: the refusal of a present-key CLAIM with wait 0. -/
def State.claimObstacle (s : State) (r : Record) (m : Mode) : RefusalCode :=
  if !r.compatible m || !r.queue.isEmpty then .conflict else withheldCode s.monitor.timeState

/-- R53: the claim joins the end of the queue. -/
def State.enqueue (s : State) (slot : Nat) (r : Record) (n : Agent) (q : ClaimFields) : State × Answer :=
  let c : Claim := { agent := n, kind := q.mode.kind, requested := q.requested, wait := q.wait }
  ((s.putRecord slot { r with queue := r.queue ++ [c] }).gainPart n,
   .queued (s.handle slot) (r.queue.length + 1) q.wait)

/-- R33: the present-key path. -/
def State.claimPresent (s : State) (slot : Nat) (r : Record) (n : Agent) (q : ClaimFields) : State × Answer :=
  if r.hasPart n then (s, .refused .alreadyHeld)
  else if (s.session n).leaseCount = s.settings.quota.get n then (s, .refused .quota)
  else if r.queue.isEmpty && r.compatible q.mode
      && !withheld s.monitor.timeState s.epochSource q.mode.takesEpoch then
    s.grantNow slot r n q.mode q.requested
  else if q.wait = 0 then (s, .refused (s.claimObstacle r q.mode))
  else s.enqueue slot r n q

/-- R110: a creation adds an entry of age 0 at the end of the window. -/
def State.addCreation (s : State) (n : Agent) : State :=
  let a := s.session n
  s.setSession n { a with window := a.window ++ [0] }

/-- R36: the absent-key path. -/
def State.claimAbsent (s : State) (n : Agent) (q : ClaimFields) : State × Answer :=
  if withheld s.monitor.timeState s.epochSource q.mode.takesEpoch then
    (s, .refused (withheldCode s.monitor.timeState))
  else if (s.session n).leaseCount = s.settings.quota.get n then (s, .refused .quota)
  else match s.vacantWays q.key with
    | [] => (s, .refused .tableFull)
    | slot :: _ =>
      if (s.session n).window.length = s.settings.createBurst then
        (s, .throttled (s.settings.createSpan - (s.session n).window.headD 0))
      else (s.addCreation n).grantNow slot (newRecord q.key false) n q.mode q.requested

/-- R32. -/
def claimRule (n : Agent) (body : List Byte) (s : State) : State × Answer :=
  match parseClaim body with
  | none => (s, .refused .badField)
  | some q =>
    match s.findKey q.key with
    | some (slot, r) => s.claimPresent slot r n q
    | none => s.claimAbsent n q

/-! ### UPGRADE and DOWNGRADE -/

/-- R59: an immediate upgrade grant, and its answer. -/
def State.upgradeNow (s : State) (slot : Nat) (r : Record) (n : Agent) (requested : Nat) : State × Answer :=
  let life := lifetime s.settings s.monitor.timeState requested
  let fresh := s.epochSource + 1
  let r1 := { r.mapHolder n (upgraded life fresh) with lastEpoch := fresh }
  ({ s.putRecord slot r1 with epochSource := fresh }, .granted (s.handle slot) .exclusive life (some fresh))

/-- R60: the upgrade is placed at the front of the queue. -/
def State.enqueueUpgrade (s : State) (slot : Nat) (r : Record) (n : Agent) (q : UpgradeFields) :
    State × Answer :=
  let c : Claim := { agent := n, kind := .upgrade, requested := q.requested, wait := q.wait }
  (s.putRecord slot { r with queue := c :: r.queue }, .queued (s.handle slot) 1 q.wait)

/-- Some UPGRADE claim is queued in the record. -/
def Record.upgradeQueued (r : Record) : Bool := r.queue.any fun c => c.kind == .upgrade

/-- R58 tests 4 to 9, for a caller whose holder entry is `h`. -/
def State.upgradeHeld (s : State) (slot : Nat) (r : Record) (h : Holder) (n : Agent) (q : UpgradeFields) :
    State × Answer :=
  if h.mode = .exclusive then (s, .refused .notShared)
  else if r.waits n then (s, .refused .alreadyHeld)
  else if r.upgradeQueued then (s, .refused .upgradeConflict)
  else if r.onlyHolder n && !withheld s.monitor.timeState s.epochSource true then
    s.upgradeNow slot r n q.requested
  else if q.wait = 0 then
    (s, .refused (if !r.onlyHolder n then .conflict else withheldCode s.monitor.timeState))
  else s.enqueueUpgrade slot r n q

/-- R58. -/
def upgradeRule (n : Agent) (body : List Byte) (s : State) : State × Answer :=
  match parseUpgrade body with
  | none => (s, .refused .badField)
  | some q =>
    match s.honoured q.handle with
    | none => (s, .refused .noSuchLease)
    | some (slot, r) =>
      match r.holder n with
      | none => (s, .refused .noSuchLease)
      | some h => s.upgradeHeld slot r h n q

/-- R46: the entry of a downgraded lease. -/
def downgraded (h : Holder) : Holder := { h with mode := .shared, epoch := none }

/-- R46. -/
def downgradeRule (n : Agent) (body : List Byte) (s : State) : State × Answer :=
  match parseHandle body with
  | none => (s, .refused .badField)
  | some hd =>
    match s.honoured hd with
    | none => (s, .refused .noSuchLease)
    | some (slot, r) =>
      match r.holder n with
      | none => (s, .refused .noSuchLease)
      | some h =>
        if h.mode = .shared then (s, .refused .notExclusive)
        else ((s.putRecord slot (r.mapHolder n downgraded)).grantCheck slot, .ok)

/-! ### RENEW and RENEW_SET -/

/-- R42: the entry of a renewed lease. -/
def renewed (life : Nat) (h : Holder) : Holder := { h with remaining := life, granted := life }

/-- R42. -/
def renewRule (n : Agent) (body : List Byte) (s : State) : State × Answer :=
  match parseRenew body with
  | none => (s, .refused .badField)
  | some (hd, requested) =>
    match s.honoured hd with
    | none => (s, .refused .noSuchLease)
    | some (slot, r) =>
      if !r.holds n then (s, .refused .noSuchLease)
      else if !s.monitor.timeState.permits then (s, .refused .timeUnsafe)
      else
        let life := lifetime s.settings s.monitor.timeState requested
        (s.putRecord slot (r.mapHolder n (renewed life)), .okRenew life)

/-- R43: a holder entry that a RENEW_SET of agent `n` reaches, in a selected partition. -/
def renewable (n : Agent) (h : Holder) : Bool := h.agent == n && h.status == .running

/-- R43: a record after a RENEW_SET of agent `n`. -/
def renewRecord (n : Agent) (mask : Byte) (life : Nat) (p : Nat × Record) : Nat × Record :=
  if maskSelects mask p.1 then
    (p.1, { p.2 with holders := p.2.holders.map fun h => if renewable n h then renewed life h else h })
  else p

/-- R43: how many leases a RENEW_SET of agent `n` renews. -/
def State.renewCount (s : State) (n : Agent) (mask : Byte) : Nat :=
  (s.records.filter fun p => maskSelects mask p.1 && p.2.holders.any (renewable n)).length

/-- R43. -/
def renewSetRule (n : Agent) (body : List Byte) (s : State) : State × Answer :=
  match parseRenewSet body with
  | none => (s, .refused .badField)
  | some (mask, requested) =>
    if !s.monitor.timeState.permits then (s, .refused .timeUnsafe)
    else
      let life := lifetime s.settings s.monitor.timeState requested
      ({ s with records := s.records.map (renewRecord n mask life) }, .okRenewSet life (s.renewCount n mask))

/-! ### RELEASE -/

/-- R44 (a lease, with or without a queued UPGRADE) and R67 (a queued claim alone): the caller's whole part
leaves the record without a notice. -/
def releaseRule (n : Agent) (body : List Byte) (s : State) : State × Answer :=
  match parseHandle body with
  | none => (s, .refused .badField)
  | some hd =>
    match s.honoured hd with
    | none => (s, .refused .noSuchLease)
    | some (slot, r) =>
      if r.hasPart n then (s.leaveRecord slot n none, .ok) else (s, .refused .noSuchLease)

/-! ### The commands -/

def execClaim (n : Agent) (t : Transfer) (body : List Byte) (s : State) : Host.Outcome State Fault Refusal :=
  .next (s.request .claim n t body (claimRule n body))

def execUpgrade (n : Agent) (t : Transfer) (body : List Byte) (s : State) : Host.Outcome State Fault Refusal :=
  .next (s.request .upgrade n t body (upgradeRule n body))

def execDowngrade (n : Agent) (t : Transfer) (body : List Byte) (s : State) : Host.Outcome State Fault Refusal :=
  .next (s.request .downgrade n t body (downgradeRule n body))

def execRenew (n : Agent) (t : Transfer) (body : List Byte) (s : State) : Host.Outcome State Fault Refusal :=
  .next (s.request .renew n t body (renewRule n body))

def execRenewSet (n : Agent) (t : Transfer) (body : List Byte) (s : State) : Host.Outcome State Fault Refusal :=
  .next (s.request .renewSet n t body (renewSetRule n body))

def execRelease (n : Agent) (t : Transfer) (body : List Byte) (s : State) : Host.Outcome State Fault Refusal :=
  .next (s.request .release n t body (releaseRule n body))

end Sys2Proof.Machine
end

