-- ==== Sys2Proof/Machine/Values.lean ====
section
/-! DEFINITION. The agent requests that report or change records: LOOKUP (R19), READ (R76), WRITE (R79),
HOLDINGS (R112). -/

namespace Sys2Proof.Machine

/-- Table 10, present key. -/
def State.lookupPresent (s : State) (slot : Nat) (r : Record) (n : Agent) : LookupAnswer :=
  { state := r.reported, handle := some (s.handle slot), persistent := r.persistent,
    holderCount := r.holders.length,
    exclusive := (r.holders.find? fun h => h.mode == .exclusive).map fun h => h.agent,
    queueLength := r.queue.length, firstKind := r.queue.head?.map fun c => c.kind, lastEpoch := r.lastEpoch,
    standing := r.standing n, freeWays := s.freeWays r.key }

/-- Table 10, absent key. -/
def State.lookupAbsent (s : State) (key : List Byte) : LookupAnswer :=
  { state := .vacant, handle := none, persistent := false, holderCount := 0, exclusive := none,
    queueLength := 0, firstKind := none, lastEpoch := 0, standing := .none, freeWays := s.freeWays key }

/-- R19. -/
def lookupRule (n : Agent) (body : List Byte) (s : State) : State × Answer :=
  match parseLookup body with
  | none => (s, .refused .badField)
  | some key =>
    match s.findKey key with
    | some (slot, r) => (s, .okLookup (s.lookupPresent slot r n))
    | none => (s, .okLookup (s.lookupAbsent key))

/-- R76, R77. -/
def readRule (_n : Agent) (body : List Byte) (s : State) : State × Answer :=
  match parseRead body with
  | none => (s, .refused .badField)
  | some (start, count, key) =>
    match s.findKey key with
    | none => (s, .refused .noSuchKey)
    | some (slot, r) =>
      (s, .okRead (s.handle slot) r.reported r.lastEpoch start count (readWords r.value start count))

/-- R79 tests 4 to 6 and R80, for a caller whose holder entry is `h`. -/
def State.writeHeld (s : State) (slot : Nat) (r : Record) (h : Holder) (q : WriteFields) : State × Answer :=
  if h.mode = .shared then (s, .refused .notExclusive)
  else if h.epoch ≠ some q.epoch then (s, .refused .staleEpoch)
  else (s.putRecord slot { r with value := maskWords q.mask q.words r.value }, .okWrite h.remaining)

/-- R79. -/
def writeRule (n : Agent) (body : List Byte) (s : State) : State × Answer :=
  match parseWrite body with
  | none => (s, .refused .badField)
  | some q =>
    match s.honoured q.handle with
    | none => (s, .refused .noSuchLease)
    | some (slot, r) =>
      match r.holder n with
      | none => (s, .refused .noSuchLease)
      | some h => s.writeHeld slot r h q

/-- Table 39: the entry of the caller's part in a record; none if it has none. -/
def State.holding (s : State) (n : Agent) (p : Nat × Record) : Option Holding :=
  let handle := s.handle p.1
  match p.2.holder n, p.2.claim n with
  | some h, none =>
    some { handle := handle, mode := h.mode.kind,
           status := (match h.status with | .running => .running | .kept => .kept),
           remaining := h.remaining, epoch := h.epoch }
  | some h, some _ =>
    some { handle := handle, mode := h.mode.kind, status := .upgrading, remaining := h.remaining,
           epoch := h.epoch }
  | none, some c =>
    some { handle := handle, mode := c.kind, status := .queued, remaining := c.wait, epoch := none }
  | none, none => none

/-- R112. -/
def holdingsRule (n : Agent) (body : List Byte) (s : State) : State × Answer :=
  match parseHoldings body with
  | none => (s, .refused .badField)
  | some cursor =>
    let from_ := s.records.filter fun p => decide (cursor ≤ p.1) && p.2.hasPart n
    let shown := from_.take 5
    let next : Half := match from_.drop 5, shown.getLast? with
      | _ :: _, some p => BitVec.ofNat 16 (p.1 + 1)
      | _, _ => 0xFFFF
    (s, .okHoldings next (shown.filterMap (s.holding n)))

def execLookup (n : Agent) (t : Transfer) (body : List Byte) (s : State) : Host.Outcome State Fault Refusal :=
  .next (s.request .lookup n t body (lookupRule n body))

def execRead (n : Agent) (t : Transfer) (body : List Byte) (s : State) : Host.Outcome State Fault Refusal :=
  .next (s.request .read n t body (readRule n body))

def execWrite (n : Agent) (t : Transfer) (body : List Byte) (s : State) : Host.Outcome State Fault Refusal :=
  .next (s.request .write n t body (writeRule n body))

def execHoldings (n : Agent) (t : Transfer) (body : List Byte) (s : State) : Host.Outcome State Fault Refusal :=
  .next (s.request .holdings n t body (holdingsRule n body))

end Sys2Proof.Machine
end

