-- ==== Sys2Proof/Machine/Ports.lean ====
section
/-! DEFINITION. The port events that are no request: FETCH_ONLY_TRANSACTION (R155), REQUEST_DROPPED (R149, R150),
BAD_FRAME (R153), BAD_REQUEST (R156), RESPONSE_MADE (R152). -/

namespace Sys2Proof.Machine

/-- R149, R150: a request transaction of `total` whole bytes is dropped in this state. -/
def State.drops (s : State) (n : Agent) (start : TransactionStart) (total : Nat) : Bool :=
  !s.held &&
  match start, (s.port n).state with
  | .whileWorking, .working _ | .whileWorking, .ready _ | .atPresent, .working _ => true
  | .atPresent, .ready r => decide (total < r.frame.length)
  | _, _ => false

/-- R152, R158, R159: the response goes into the slot with the OVERRUN flag, which is cleared. -/
def State.makeResponse (s : State) (n : Agent) : State :=
  match (s.port n).state with
  | .working r =>
    s.setPort n { s.port n with state := .ready { r with overrun := (s.port n).overrun }, overrun := false }
  | _ => s

/-- FETCH_ONLY_TRANSACTION: collects a waiting response or shifts out filler. -/
def execFetchOnlyTransaction (n : Agent) (start : TransactionStart) (total : Nat) (s : State) :
    Host.Outcome State Fault Refusal :=
  .next (s.settle.transact n start total false id)

/-- REQUEST_DROPPED: sets OVERRUN where the request is dropped; elsewhere the event does not arise (log 6). -/
def execRequestDropped (n : Agent) (start : TransactionStart) (total : Nat) (s : State) :
    Host.Outcome State Fault Refusal :=
  let s1 := s.settle
  .next (if s1.drops n start total then s1.transact n start total true id else s1)

/-- BAD_FRAME: the port makes the response itself; nothing is passed on. -/
def execBadFrame (n : Agent) (start : TransactionStart) (bytes : List Byte) (s : State) :
    Host.Outcome State Fault Refusal :=
  .next (s.settle.transact n start bytes.length true fun u => u.answer n (.refused .badFrame))

/-- BAD_REQUEST: answered in every table state and every agent state. -/
def execBadRequest (n : Agent) (t : Transfer) (_code : Byte) (body : List Byte) (s : State) :
    Host.Outcome State Fault Refusal :=
  .next (s.settle.transact n t.start (3 + body.length + t.extra) true fun u =>
    u.answer n (.refused .badRequest))

/-- RESPONSE_MADE: WORKING becomes READY; in another port state the event does not arise (log 6). -/
def execResponseMade (n : Agent) (s : State) : Host.Outcome State Fault Refusal :=
  .next (s.settle.makeResponse n)

end Sys2Proof.Machine
end

