-- ==== Sys2Proof/Machine/Mailbox.lean ====
section
/-! DEFINITION. The mailbox requests SET, DEFINE, RETIRE, MARK, SEED, INSPECT, EVICT and SOFT_RESET, and an unknown
code (Chapter 10, R15, R17, R18, R83, R105). A rule answers the state after the request, its result and, for
INSPECT, its summary. -/

namespace Sys2Proof.Machine

/-- What a mailbox rule gives. -/
structure Completion where
  after : State
  result : MailboxResult
  output : Option Summary

/-- A completion with the empty summary (R174). -/
def State.done (s : State) (r : MailboxResult) : Completion := { after := s, result := r, output := none }

/-! ### Starting, taking and completing -/

/-- R172: the write of the request code at 73h starts a request; the pointer advances to 74h. -/
def Management.started (m : Management) (code : Byte) : Management :=
  { m with listening := true, pointer := 0x74, mailbox := .busy, code := code, result := none,
           fieldLatch := none, outputLatch := none }

/-- R165, R172: the write of a request code while BUSY is ignored; the pointer advances. -/
def Management.codeIgnored (m : Management) : Management :=
  { m with listening := true, pointer := 0x74, fieldLatch := none, outputLatch := none }

/-- R174: the result and the output area are written, and the mailbox is DONE. -/
def Management.completed (m : Management) (r : MailboxResult) (o : Option Summary) : Management :=
  { m with mailbox := .done, result := some r, output := o }

/-- The request is taken by its owner as one step, and completes within it (R172). -/
def State.takeRequest (s : State) (rule : State → Completion) : State :=
  let c := rule s
  c.after.setManagement (c.after.management.completed c.result c.output)

/-- A mailbox request of a code (log 11): in BUSY with this code, the taking; in EMPTY or DONE, the start and the
taking; in BUSY with another code, a write that is ignored. While a reset is held nothing is acknowledged. -/
def State.mailboxRequest (s : State) (code : Byte) (rule : State → Completion) : State :=
  let u := s.settle
  if u.held then u
  else match u.management.mailbox with
    | .busy =>
      if u.management.code = code then u.takeRequest rule else u.setManagement u.management.codeIgnored
    | _ => (u.setManagement (u.management.started code)).takeRequest rule

/-! ### SET (R170, R171) -/

/-- R170 test 2: the settings with one value changed; none for a value outside the setting's range. -/
def Settings.change (st : Settings) : Setting → Nat → Option Settings
  | .defaultLife, v => if st.minLife ≤ v ∧ v ≤ st.maxLife then some { st with defaultLife := v } else none
  | .minLife, v =>
    if 1 ≤ v ∧ v ≤ 65535 ∧ v ≤ st.defaultLife then some { st with minLife := v } else none
  | .maxLife, v =>
    if 1 ≤ v ∧ v ≤ 65535 ∧ st.defaultLife ≤ v then some { st with maxLife := v } else none
  | .derate, v => (Derate.ofCode v).map fun d => { st with derate := d }
  | .createBurst, v => if 1 ≤ v ∧ v ≤ 8 then some { st with createBurst := v } else none
  | .createSpan, v => if 1 ≤ v ∧ v ≤ 65535 then some { st with createSpan := v } else none
  | .standbyMax, v => if v ≤ 65535 then some { st with standbyMax := v } else none
  | .holdoverMax, v => if 1 ≤ v ∧ v ≤ 65535 then some { st with holdoverMax := v } else none
  | .timeSource, v => (TimeSource.ofCode v).map fun x => { st with timeSource := x }
  | .quota n, v => if v ≤ 2048 then some { st with quota := st.quota.set n v } else none

/-- Some agent is ACTIVE or STANDBY. -/
def State.anyJoined (s : State) : Bool := agents.any fun n => (s.session n).state.joined

/-- R170 tests 3 and 4: the setting may not change while these agents are joined. -/
def State.settingLocked (s : State) : Setting → Bool
  | .createBurst | .createSpan => s.anyJoined
  | .quota n => (s.session n).state.joined
  | _ => false

/-- R136: the monitor after a change of TIME_SOURCE. -/
def Monitor.sourced (m : Monitor) (x : TimeSource) : Monitor :=
  { m with timeState := (match x with | .internal => .freeRun | .reference => .acquiring),
           lastPulse := .absent, good := 0, elapsed := 0 }

/-- R171: what a performed SET does beyond the store; `old` are the settings before it. -/
def State.afterSet (s : State) (old : Settings) : Setting → State
  | .holdoverMax => s.settleMonitor
  | .timeSource =>
    if s.settings.timeSource = old.timeSource then s
    else s.changeTime (s.monitor.sourced s.settings.timeSource)
  | _ => s

/-- R170. -/
def setRule (s : State) : Completion :=
  match Setting.ofId s.management.settingId with
  | none => s.done .badValue
  | some k =>
    match s.settings.change k s.management.settingValue with
    | none => s.done .badValue
    | some st =>
      if s.settingLocked k then s.done .agentsActive
      else State.done (({ s with settings := st } : State).afterSet s.settings k) .ok

/-! ### The requests that name a key -/

/-- R2, R22: the key length is tested first, then the table state; `rule` decides the rest. -/
def State.keyed (s : State) (rule : List Byte → Completion) : Completion :=
  match s.management.validKey with
  | none => s.done .badValue
  | some key => if s.table = .initializing then s.done .notReady else rule key

/-- R15. -/
def defineRule (s : State) : Completion :=
  s.keyed fun key =>
    match s.findKey key with
    | some _ => s.done .exists_
    | none =>
      match s.vacantWays key with
      | [] => s.done .tableFull
      | slot :: _ => State.done (s.putRecord slot (newRecord key true)) .ok

/-- R17: the notice an agent with a part in a retired record receives. -/
def retireNotice (r : Record) (n : Agent) : NoticeKind := if r.holds n then .revoked else .cancelled

/-- R17. -/
def retireRule (s : State) : Completion :=
  s.keyed fun key =>
    match s.findKey key with
    | none => s.done .noSuchKey
    | some (slot, r) =>
      let s1 := (agents.filter r.hasPart).foldl (fun t n => t.postPlain slot n (retireNotice r n)) s
      State.done (s1.retire slot) .ok

/-- The persistence a MARK sets; none for a field that is neither on nor off. -/
def Management.persistent (m : Management) : Option Bool :=
  if m.persistence = 0x00 then some false else if m.persistence = 0x01 then some true else none

/-- R18, the cases of a present record. -/
def State.markRecord (s : State) (slot : Nat) (r : Record) (on : Bool) : State :=
  if on then s.putRecord slot { r with persistent := true }
  else if r.persistent && r.empty then s.retire slot
  else s.putRecord slot { r with persistent := false }

/-- R18. -/
def markRule (s : State) : Completion :=
  match s.management.persistent with
  | none => s.done .badValue
  | some on =>
    s.keyed fun key =>
      match s.findKey key with
      | none => s.done .noSuchKey
      | some (slot, r) => State.done (s.markRecord slot r on) .ok

/-- R83. -/
def seedRule (s : State) : Completion :=
  s.keyed fun key =>
    match s.findKey key with
    | none => s.done .noSuchKey
    | some (slot, r) =>
      if !r.holders.isEmpty then s.done .recordBusy
      else
        let value := maskWords s.management.wordMask s.management.words r.value
        State.done (s.putRecord slot { r with value := value }) .ok

/-- R175. -/
def inspectRule (s : State) : Completion :=
  s.keyed fun key =>
    match s.findKey key with
    | none => s.done .noSuchKey
    | some (slot, r) =>
      { after := s, result := .ok,
        output := some { handle := s.handle slot, freeWays := s.freeWays r.key, record := r } }

/-! ### EVICT and SOFT_RESET -/

/-- R105: an eviction. -/
def State.evictAgent (s : State) (n : Agent) : State :=
  let s1 := s.endSession n
  s1.setSession n { s1.session n with number := 0, state := .evicted }

/-- R105. -/
def evictRule (s : State) : Completion :=
  let number := s.management.agentNumber.toNat
  if h : number < 4 then
    let n : Agent := ⟨number, h⟩
    if s.table = .initializing then s.done .notReady
    else if (s.session n).state.joined then State.done (s.evictAgent n) .ok
    else s.done .ok
  else s.done .badValue

/-- R164: a port after a SOFT_RESET. -/
def Port.softReset (p : Port) : Port := { p with state := .idle, overrun := false, cut := p.cutAt }

/-- R176: the effects on every block but the time base monitor and the management port. -/
def State.softReset (s : State) : State :=
  { s with table := .initializing, records := [], generations := [],
           sessions := PerAgent.all Session.reset, cells := PerAgent.all [],
           ports := ⟨s.ports.a0.softReset, s.ports.a1.softReset, s.ports.a2.softReset, s.ports.a3.softReset⟩ }

/-- R176. -/
def softResetRule (s : State) : Completion := State.done s.softReset .ok

/-! ### The commands -/

def execSet (s : State) : Host.Outcome State Fault Refusal := .next (s.mailboxRequest 0x01 setRule)

def execDefine (s : State) : Host.Outcome State Fault Refusal := .next (s.mailboxRequest 0x02 defineRule)

def execRetire (s : State) : Host.Outcome State Fault Refusal := .next (s.mailboxRequest 0x03 retireRule)

def execMark (s : State) : Host.Outcome State Fault Refusal := .next (s.mailboxRequest 0x04 markRule)

def execSeed (s : State) : Host.Outcome State Fault Refusal := .next (s.mailboxRequest 0x05 seedRule)

def execInspect (s : State) : Host.Outcome State Fault Refusal := .next (s.mailboxRequest 0x06 inspectRule)

def execEvict (s : State) : Host.Outcome State Fault Refusal := .next (s.mailboxRequest 0x07 evictRule)

/-- SOFT_RESET is taken when its code byte is taken (R176); written while BUSY it is ignored (log 12). -/
def execSoftReset (s : State) : Host.Outcome State Fault Refusal :=
  let u := s.settle
  .next (
    if u.held then u
    else match u.management.mailbox with
      | .busy => u.setManagement u.management.codeIgnored
      | _ => (u.setManagement (u.management.started 0x08)).takeRequest softResetRule)

/-- MAILBOX_BAD_REQUEST: a code that names no request completes with BAD_REQUEST and changes nothing else. -/
def execMailboxBadRequest (code : Byte) (s : State) : Host.Outcome State Fault Refusal :=
  .next (s.mailboxRequest code fun u => u.done .badRequest)

end Sys2Proof.Machine
end

