-- ==== Sys2Proof/Machine/Window.lean ====
section
/-! DEFINITION. The register window (R165 to R168, R174, R182, Tables 61, 79, 80): its 256 bytes, the taking of a
byte read with its latches and effects, the taking of a byte written; STATUS_READ, RESULT_READ, REGISTER_WRITE. -/

namespace Sys2Proof.Machine

/-! ### The bytes of the window -/

/-- Table 80: the 136 bytes of the output area. -/
def summaryBytes : Option Summary → List Byte
  | none => List.replicate 136 0
  | some x =>
    let r := x.record
    [r.reported.code] ++ be16 x.handle ++ [yesNo r.persistent, byteOf x.freeWays, byteOf r.key.length]
      ++ keyField r.key ++ be32 r.lastEpoch ++ (List.range 8).flatMap (fun w => be32 (r.value.getD w 0))
      ++ [byteOf r.holders.length, byteOf r.queue.length]
      ++ (List.range 4).flatMap (fun k => holderPlace r.holders[k]?)
      ++ (List.range 4).flatMap (fun k => claimPlace r.queue[k]?)

/-- Table 79: an agent's view, 4 bytes. -/
def agentView (a : Session) : List Byte := [a.state.code] ++ count16 a.leaseCount ++ [0x00]

/-- Table 78, Table 79: the settings views, in order of identifier. -/
def settingsView (st : Settings) : List Byte :=
  [st.defaultLife, st.minLife, st.maxLife, st.derate.code, st.createBurst, st.createSpan, st.standbyMax,
   st.holdoverMax, st.timeSource.code, st.quota.get 0, st.quota.get 1, st.quota.get 2, st.quota.get 3].flatMap
    count16

/-- Table 79: the request fields as they read, 34h to 72h: the bytes written, but that places of the key field from the
key length up are padding and read 00h (R179, log 23). -/
def Management.fieldsView (m : Management) : List Byte :=
  (List.range 63).map fun i => if 7 + m.keyLength ≤ i ∧ i < 31 then 0x00 else m.fields.getD i 0

/-- Table 79: the window as it stands, byte by byte from 00h. -/
def State.window (s : State) : List Byte :=
  be16 Config.vendorCode ++ be16 Config.partCode ++ [Config.revision, s.statusByte, s.monitor.timeState.code, 0x00]
    ++ agents.flatMap (fun n => agentView (s.session n))
    ++ settingsView s.settings ++ [0x00, 0x00]
    ++ s.management.fieldsView
    ++ [s.management.code, resultByte s.management.result, 0x00, 0x00, 0x00]
    ++ summaryBytes s.management.output

/-- The byte at a window address as it stands. -/
def State.windowByte (s : State) (a : Nat) : Byte := s.window.getD a 0

/-! ### Taking a byte read -/

/-- R182: the multi-byte fields that are latched whole, as first address and length. -/
def latchedFields : List (Nat × Nat) :=
  [(0x00, 2), (0x02, 2), (0x08, 3), (0x0C, 3), (0x10, 3), (0x14, 3)]
    ++ (List.range 13).map (fun i => (0x18 + 2 * i, 2))
    ++ [(0x35, 2), (0x3B, 24)] ++ (List.range 8).map (fun w => (0x53 + 4 * w, 4))

/-- The latched field an address lies in. -/
def fieldOf (a : Nat) : Option (Nat × Nat) :=
  latchedFields.find? fun f => decide (f.1 ≤ a) && decide (a < f.1 + f.2)

/-- R166: the byte read at window address `a`, and the management port with its latches after it. -/
def State.latchedByte (s : State) (a : Nat) : Byte × Management :=
  let m := s.management
  if 0x78 ≤ a then
    let area := m.outputLatch.getD (summaryBytes m.output)
    (area.getD (a - 0x78) 0, { m with outputLatch := some area })
  else match fieldOf a with
    | none => (s.windowByte a, m)
    | some (first, len) =>
      if a = first then
        let bytes := (s.window.drop first).take len
        (bytes.getD 0 0, { m with fieldLatch := some (first, bytes) })
      else match m.fieldLatch with
        | some (base, bytes) =>
          if base = first then (bytes.getD (a - first) 0, m) else (s.windowByte a, m)
        | none => (s.windowByte a, m)

/-- R168, R174: what the taking of a byte read at `a` does: a STATUS byte clears the management time-change flag,
a result byte in DONE returns the mailbox to EMPTY. -/
def State.readEffect (s : State) (a : Nat) : State :=
  if a = 0x05 then s.setMonitor { s.monitor with managementFlag := false }
  else if a = 0x74 ∧ s.management.mailbox = .done then
    s.setManagement { s.management with mailbox := .empty }
  else s

/-- R165: one byte is read at the pointer, and the pointer advances. The byte joins `readOut`. -/
def State.readTake (s : State) : State :=
  let a := s.management.pointer.toNat
  let p := s.latchedByte a
  let s1 := s.setManagement { p.2 with pointer := s.management.pointer + 1, readOut := p.2.readOut ++ [p.1] }
  s1.readEffect a

/-- `count` bytes, one after another. -/
def State.readMany : Nat → State → State
  | 0, s => s
  | k + 1, s => State.readMany k s.readTake

/-- R165: the port takes part in a transfer addressed to it: while no reset is held and once it has seen a START since
the last one, be it the transfer's own, seen just now (`newStart`). -/
def State.takesPart (s : State) (newStart : Bool) : Bool := !s.held && (newStart || s.management.listening)

/-- R165: whether the port acknowledges a byte of a transfer to the target address `target`: its own address in both
directions and every whole byte written, whatever register it is written to and whatever that register does with it.
No rule reads the acknowledge: it is a view (log 14). -/
def State.acknowledges (s : State) (target : BitVec 7) (newStart : Bool) (_ : BusByte) : Bool :=
  target == Config.managementTarget && s.takesPart newStart

/-- R165, R166: a new transfer: a START is seen, and the latches of the one before are discarded. -/
def Management.newTransfer (m : Management) : Management :=
  { m with listening := true, fieldLatch := none, outputLatch := none }

/-- R165: the beginning of a read run (log 13). -/
def Management.beginRead (m : Management) : ReadStart → Management
  | .continued => { m with readOut := [] }
  | .standing => { m.newTransfer with readOut := [] }
  | .addressed a => { m.newTransfer with pointer := a, readOut := [] }

/-- R165: a run of a read transfer. -/
def State.readRun (s : State) (run : ReadRun) : State :=
  let u := s.settle
  if u.takesPart run.start.isNew then
    State.readMany run.count (u.setManagement (u.management.beginRead run.start))
  else u

/-! ### Taking a byte written -/

/-- R165, R172: the byte `v` is written at the pointer, which advances. -/
def State.writeTake (s : State) (v : Byte) : State :=
  let m := s.management
  let a := m.pointer.toNat
  let advanced := { m with pointer := m.pointer + 1 }
  if m.mailbox = .busy then s.setManagement advanced
  else if 0x34 ≤ a ∧ a ≤ 0x72 then s.setManagement { advanced with fields := storeField m.fields a v }
  else if a = 0x73 then
    let u := s.setManagement (advanced.started v)
    if v = 0x08 then u.takeRequest softResetRule else u
  else s.setManagement advanced

/-- R165: a transfer's register address byte, if it was sent just now. -/
def Management.addressed (m : Management) : Option Byte → Management
  | some a => { m.newTransfer with pointer := a }
  | none => m

/-- R165: the address byte and the byte written after it, if any. -/
def State.writeRun (s : State) (address data : Option Byte) : State :=
  let u := s.settle
  if u.takesPart address.isSome then
    let w := u.setManagement (u.management.addressed address)
    match data with
    | none => w
    | some v => w.writeTake v
  else u

/-! ### The commands -/

/-- STATUS_READ. -/
def execStatusRead (run : ReadRun) (s : State) : Host.Outcome State Fault Refusal := .next (s.readRun run)

/-- RESULT_READ. -/
def execResultRead (run : ReadRun) (s : State) : Host.Outcome State Fault Refusal := .next (s.readRun run)

/-- REGISTER_WRITE. -/
def execRegisterWrite (address data : Option Byte) (s : State) : Host.Outcome State Fault Refusal :=
  .next (s.writeRun address data)

end Sys2Proof.Machine
end

