-- ==== Sys2Proof/Machine/TimeBase.lean ====
section
/-! DEFINITION. The time base monitor's events TREF_PULSE, MISSING_PULSE and DIVIDER_TICK (R130 to R137), and the
resets POWER_ON_RESET, PIN_RESET, RESET_END and SWEEP_COMPLETE (R21, R144). -/

namespace Sys2Proof.Machine

/-- The band of a measured interval (Table 47). -/
inductive Band where
  | inBand | drift
deriving DecidableEq, Repr

/-- R130, Table 47, for an interval of at most 1500 µs, in nanoseconds. -/
def bandOf (interval : Nat) : Band :=
  if Config.bandLow ≤ interval ∧ interval ≤ Config.bandHigh then .inBand else .drift

/-! ### Oscillator time (R130, R137, log 7)

The two times of Table 46 are kept as they stood at the monitor's latest event: a pulse, a missing-pulse event, a
divider tick or a start of the divider. Each event says how much oscillator time has passed since then. Neither time
goes on above the limit at which its own event is due. -/

/-- The time since the last pulse after `ns` more. -/
def LastPulse.advance (p : LastPulse) (ns : Nat) : LastPulse :=
  match p with
  | .absent => .absent
  | .present since => .present (min (since + ns) Config.pulseLimit)

/-- The divider's position after `ns` more. -/
def Divider.advance (d : Divider) (ns : Nat) : Divider :=
  match d with
  | .stopped => .stopped
  | .running position => .running (min (position + ns) Config.dividerSpan)

def Monitor.advance (m : Monitor) (ns : Nat) : Monitor :=
  { m with lastPulse := m.lastPulse.advance ns, divider := m.divider.advance ns }

/-- The oscillator time from the monitor's latest event to the missing-pulse event. -/
def LastPulse.left : LastPulse → Nat
  | .absent => 0
  | .present since => Config.pulseLimit - since

/-! ### Pulses and missing pulses -/

/-- R131, R133: an in-band interval counted towards LOCKED; `m` is the monitor with the new last pulse. -/
def State.countGood (s : State) (m : Monitor) : State :=
  if m.good + 1 = 8 then s.changeTime { m with timeState := .locked, good := 8 }
  else s.setMonitor { m with good := m.good + 1 }

/-- R131 to R133: a classified interval; the pulse that ended it begins the next one (R130). -/
def State.interval (s : State) (b : Band) : State :=
  let m := { s.monitor with lastPulse := .present 0 }
  match m.timeState, b with
  | .acquiring, .inBand | .drift, .inBand => s.countGood m
  | .acquiring, .drift | .drift, .drift => s.setMonitor { m with good := 0 }
  | .locked, .inBand => (s.setMonitor m).tick
  | .locked, .drift => s.changeTime { m with timeState := .drift, good := 0 }
  | _, _ => s

/-- R130 to R133: a missing-pulse event, 1500 µs after the last pulse, which becomes absent. -/
def State.missing (s : State) : State :=
  let m := { s.monitor.advance s.monitor.lastPulse.left with lastPulse := .absent }
  match m.timeState with
  | .acquiring => s.setMonitor { m with good := 0 }
  | .locked | .drift => s.changeTime { m with timeState := .holdover, good := 0, elapsed := 0 }
  | _ => s.setMonitor m

/-- R130, R134: a pulse that ends no interval becomes the last pulse; in HOLDOVER and UNSAFE it starts the
acquisition. -/
def State.firstPulse (s : State) : State :=
  let m := { s.monitor with lastPulse := .present 0 }
  match m.timeState with
  | .holdover | .unsafeTime => s.changeTime { m with timeState := .acquiring, good := 0, elapsed := 0 }
  | _ => s.setMonitor m

/-- R130, R134: a pulse on TREF while TIME_SOURCE is REFERENCE, `ns` after the monitor's latest event. A pulse later
than the limit comes after the missing-pulse event (log 8). -/
def State.pulse (s : State) (ns : Nat) : State :=
  let u := s.setMonitor (s.monitor.advance ns)
  match s.monitor.timeState, s.monitor.lastPulse with
  | .holdover, _ | .unsafeTime, _ | _, .absent => u.firstPulse
  | _, .present since =>
    if Config.pulseLimit < since + ns then u.missing.firstPulse else u.interval (bandOf (since + ns))

/-- TREF is measured: TIME_SOURCE is REFERENCE (R130) and no reset is held (R144). -/
def State.measuring (s : State) : Bool := !s.held && s.settings.timeSource == .reference

/-- TREF_PULSE. -/
def execTrefPulse (ns : Nat) (s : State) : Host.Outcome State Fault Refusal :=
  let u := s.settle
  .next (if u.measuring then u.pulse ns else u)

def LastPulse.isPresent : LastPulse → Bool
  | .present _ => true
  | .absent => false

/-- MISSING_PULSE: taken while a last pulse is present; otherwise the event does not arise (R130, log 6). -/
def execMissingPulse (s : State) : Host.Outcome State Fault Refusal :=
  let u := s.settle
  .next (if u.measuring && u.monitor.lastPulse.isPresent then u.missing else u)

/-- R137: the divider reaches its span: it goes on from 0, and the tick is taken. -/
def State.dividerTick (s : State) (position : Nat) : State :=
  (s.setMonitor { s.monitor with
    lastPulse := s.monitor.lastPulse.advance (Config.dividerSpan - position), divider := .running 0 }).tick

/-- DIVIDER_TICK: a tick while the divider runs; a stopped divider produces none (R137, log 6). -/
def execDividerTick (s : State) : Host.Outcome State Fault Refusal :=
  let u := s.settle
  .next (if u.held then u
    else match u.monitor.divider with
      | .running position => u.dividerTick position
      | .stopped => u)

/-! ### Resets -/

/-- R21, R144, R163, R178: a power-on or pin reset is held. The queue and the model's own counter stand. -/
def State.holdReset (s : State) : State :=
  { State.resetHeld with choices := s.choices, pending := s.pending }

/-- R21, R144: the reset ends; the sweep begins and the divider starts. -/
def State.endReset (s : State) : State :=
  { s with held := false, monitor := { s.monitor with divider := .running 0 } }

/-- R21: the sweep has set every slot VACANT at generation 0; the table is READY. -/
def State.sweep (s : State) : State := { s with table := .ready, records := [], generations := [] }

/-- POWER_ON_RESET: before it the part had no power, and no transaction was in progress. -/
def execPowerOnReset (s : State) : Host.Outcome State Fault Refusal := .next s.holdReset

/-- R163: a port while a pin reset is held; it keeps what a transaction in progress was shifting. -/
def Port.pinReset (p : Port) : Port := { Port.reset with cut := p.cutAt }

/-- PIN_RESET: a transaction may be in progress (R163). -/
def execPinReset (s : State) : Host.Outcome State Fault Refusal :=
  .next { s.holdReset with
    ports := ⟨s.ports.a0.pinReset, s.ports.a1.pinReset, s.ports.a2.pinReset, s.ports.a3.pinReset⟩ }

/-- RESET_END: with no reset held the event does not arise (log 6). -/
def execResetEnd (s : State) : Host.Outcome State Fault Refusal :=
  let u := s.settle
  .next (if u.held then u.endReset else u)

/-- SWEEP_COMPLETE: taken while a sweep is in progress; a held reset has begun none (R21, log 6). -/
def execSweepComplete (s : State) : Host.Outcome State Fault Refusal :=
  let u := s.settle
  .next (if !u.held && u.table == .initializing then u.sweep else u)

end Sys2Proof.Machine
end

