-- ==== Sys2Proof/Machine/Dispatch.lean ====
section
/-! DEFINITION. One arm for each command: its meaning. -/

namespace Sys2Proof.Machine

def exec (i : Instr) (s : State) : Host.Outcome State Fault Refusal :=
  match i with
  -- agent requests
  | .join n t body => Sys2Proof.Machine.execJoin n t body s
  | .leave n t body => Sys2Proof.Machine.execLeave n t body s
  | .claim n t body => Sys2Proof.Machine.execClaim n t body s
  | .upgrade n t body => Sys2Proof.Machine.execUpgrade n t body s
  | .downgrade n t body => Sys2Proof.Machine.execDowngrade n t body s
  | .renew n t body => Sys2Proof.Machine.execRenew n t body s
  | .renewSet n t body => Sys2Proof.Machine.execRenewSet n t body s
  | .release n t body => Sys2Proof.Machine.execRelease n t body s
  | .lookup n t body => Sys2Proof.Machine.execLookup n t body s
  | .read n t body => Sys2Proof.Machine.execRead n t body s
  | .write n t body => Sys2Proof.Machine.execWrite n t body s
  | .holdings n t body => Sys2Proof.Machine.execHoldings n t body s
  | .notices n t body => Sys2Proof.Machine.execNotices n t body s
  | .time n t body => Sys2Proof.Machine.execTime n t body s
  | .standby n t body => Sys2Proof.Machine.execStandby n t body s
  | .wake n t body => Sys2Proof.Machine.execWake n t body s
  -- port events
  | .fetchOnlyTransaction n start total => Sys2Proof.Machine.execFetchOnlyTransaction n start total s
  | .requestDropped n start total => Sys2Proof.Machine.execRequestDropped n start total s
  | .badFrame n start bytes => Sys2Proof.Machine.execBadFrame n start bytes s
  | .badRequest n t code body => Sys2Proof.Machine.execBadRequest n t code body s
  | .responseMade n => Sys2Proof.Machine.execResponseMade n s
  -- mailbox requests
  | .set => Sys2Proof.Machine.execSet s
  | .define => Sys2Proof.Machine.execDefine s
  | .retire => Sys2Proof.Machine.execRetire s
  | .mark => Sys2Proof.Machine.execMark s
  | .seed => Sys2Proof.Machine.execSeed s
  | .inspect => Sys2Proof.Machine.execInspect s
  | .evict => Sys2Proof.Machine.execEvict s
  | .softReset => Sys2Proof.Machine.execSoftReset s
  | .mailboxBadRequest code => Sys2Proof.Machine.execMailboxBadRequest code s
  -- registers
  | .statusRead run => Sys2Proof.Machine.execStatusRead run s
  | .resultRead run => Sys2Proof.Machine.execResultRead run s
  | .registerWrite address data => Sys2Proof.Machine.execRegisterWrite address data s
  -- resets
  | .powerOnReset => Sys2Proof.Machine.execPowerOnReset s
  | .pinReset => Sys2Proof.Machine.execPinReset s
  | .resetEnd => Sys2Proof.Machine.execResetEnd s
  | .sweepComplete => Sys2Proof.Machine.execSweepComplete s
  -- time base monitor
  | .trefPulse ns => Sys2Proof.Machine.execTrefPulse ns s
  | .missingPulse => Sys2Proof.Machine.execMissingPulse s
  | .dividerTick => Sys2Proof.Machine.execDividerTick s
  -- parts of a tick
  | .leaseExpiry slot n => Sys2Proof.Machine.execLeaseExpiry slot n s
  | .waitExpiry slot n => Sys2Proof.Machine.execWaitExpiry slot n s
  | .upgradeWaitExpiry slot n => Sys2Proof.Machine.execUpgradeWaitExpiry slot n s
  | .standbyExpiry n => Sys2Proof.Machine.execStandbyExpiry n s
  | .creationEntryLeaves n => Sys2Proof.Machine.execCreationEntryLeaves n s
  | .holdoverLimitReached => Sys2Proof.Machine.execHoldoverLimitReached s

end Sys2Proof.Machine
end

