-- ==== Sys2Proof/Safety.lean ====
section
/-! DEFINITION. What the claims speak of: the conditions under which a command is taken, and the invariants of the
part, each from the sentences of the manual it names. All are decidable. -/

namespace Sys2Proof

/-! ### Kinds of command -/

/-- The transfer of a request frame followed by `extra` bytes, begun in the present port state. -/
def Transfer.now (extra : Nat) : Transfer := { start := .atPresent, extra := extra }

/-- The length of a request's transaction (R153). -/
def requestLength (body : List Byte) (extra : Nat) : Nat := 3 + body.length + extra

/-- The command as a transaction that carries a request: its agent, when it began, how many whole bytes it
holds (R148, R153). -/
def Instr.carries : Instr → Option (Agent × TransactionStart × Nat)
  | .join n t b | .leave n t b | .claim n t b | .upgrade n t b | .downgrade n t b | .renew n t b
  | .renewSet n t b | .release n t b | .lookup n t b | .read n t b | .write n t b | .holdings n t b
  | .notices n t b | .time n t b | .standby n t b | .wake n t b | .badRequest n t _ b =>
    some (n, t.start, requestLength b t.extra)
  | .badFrame n start bytes => some (n, start, bytes.length)
  | _ => none

/-- A command that takes one part of a tick. -/
def Instr.tickPart : Instr → Bool
  | .leaseExpiry _ _ | .waitExpiry _ _ | .upgradeWaitExpiry _ _ | .standbyExpiry _ | .creationEntryLeaves _
  | .holdoverLimitReached => true
  | _ => false

/-- A power-on or pin reset. -/
def Instr.fullReset : Instr → Bool
  | .powerOnReset | .pinReset => true
  | _ => false

end Sys2Proof

namespace Sys2Proof.Machine

/-! ### When a command is taken -/

/-- No part of a tick is due: the present tick has been taken whole. -/
def State.quiet (s : State) : Bool := !s.tickPending

/-- Nothing of the present tick is due but perhaps agent `n`'s own standby expiry, which its WAKE may precede (R124). -/
def State.quietBut (s : State) (n : Agent) : Bool :=
  s.dueSlots.isEmpty && !s.limitDue && agents.all fun m => (m == n || !s.standbyDue m) && !s.entryDue m

/-- A transaction of `total` whole bytes that begins and ends in the present port state reaches the port's
judging of its bytes in: the port is IDLE, or READY with a response of at most `total` bytes (R148, R150, R151). -/
def State.portOpen (s : State) (n : Agent) (total : Nat) : Bool :=
  !s.held &&
  match (s.port n).state with
  | .idle => true
  | .working _ => false
  | .ready r => decide (r.frame.length ≤ total)

/-- The state after a transaction's bytes have been shifted and a waiting response collected (R146, R150). -/
def State.collected (s : State) (n : Agent) (total : Nat) : State :=
  s.setPort n { s.port n with state := .idle, sdo := (s.port n).state.shifts total, cut := none }

/-- The state in which a request sent now is taken: its transaction's bytes shifted, a waiting response
collected (R148, R151). -/
def State.asked (s : State) (n : Agent) (body : List Byte) (extra : Nat) : State :=
  s.collected n (requestLength body extra)

/-- A request sent now reaches the acceptance checks: no tick in progress, the port open. -/
def State.hears (s : State) (n : Agent) (body : List Byte) (extra : Nat) : Bool :=
  s.quiet && s.portOpen n (requestLength body extra)

/-- The conditions of an ordinary request of an ACTIVE agent: no tick in progress, the port open, the table READY. -/
def State.serves (s : State) (n : Agent) (body : List Byte) (extra : Nat) : Bool :=
  s.hears n body extra && s.table == .ready && (s.session n).state == .active

/-- The conditions of a mailbox request started now: no tick in progress, no reset held, the mailbox not BUSY. -/
def State.mailboxOpen (s : State) : Bool :=
  s.quiet && !s.held && s.management.mailbox != .busy

/-- The state in which a mailbox request started now is taken (R172). -/
def State.begun (s : State) (code : Byte) : State := s.setManagement (s.management.started code)

/-- The state after a mailbox request's completion (R174). -/
def State.completes (s : State) (r : MailboxResult) (o : Option Summary) : State :=
  s.setManagement (s.management.completed r o)

/-! ### Invariants of records -/

/-- Holder entries in ascending agent number, at most one per agent (R6). -/
def ascending : List Holder → Bool
  | [] => true
  | h :: rest => (rest.all fun g => decide (h.agent.val < g.agent.val)) && ascending rest

/-- R25: an exclusive holder is alone on its record. -/
def Record.exclusiveAlone (r : Record) : Bool := !r.exclusiveHeld || r.holders.length == 1

/-- R81 and R28: an EXCLUSIVE entry carries the record's last epoch, a SHARED entry none; the last epoch was
issued by the source. -/
def Record.fenced (source : Epoch) (r : Record) : Bool :=
  decide (r.lastEpoch.toNat ≤ source.toNat) &&
  r.holders.all fun h => match h.mode with
    | .exclusive => h.epoch == some r.lastEpoch
    | .shared => h.epoch == none

/-- R56: a first claim conflicts with the holders or is withheld. -/
def Record.blocked (ts : TimeState) (source : Epoch) (r : Record) : Bool :=
  match r.queue with
  | [] => true
  | c :: _ => !r.claimCompatible c || withheld ts source c.kind.takesEpoch

/-- R51: an agent has at most one claim in the queue; it has a lease beside it exactly when the claim is an
UPGRADE, which then stands first. -/
def Record.queueOrdered (r : Record) : Bool :=
  decide ((r.queue.map fun c => c.agent).Nodup) &&
  (r.queue.all fun c => (c.kind == .upgrade) == r.holds c.agent) &&
  (r.queue.drop 1).all fun c => c.kind != .upgrade

/-- R9: a transient record has a holder or a queued claim. -/
def Record.occupied (r : Record) : Bool := r.persistent || !r.empty

/-- R5, R75: a record's key and its eight value words. -/
def Record.shaped (r : Record) : Bool := keyLengthOk r.key.length && r.value.length == 8

/-! ### Invariants of the part -/

def State.everyRecord (s : State) (p : Record → Bool) : Bool := s.records.all fun x => p x.2

/-- R25 over the whole table. -/
def State.exclusivity (s : State) : Bool := s.everyRecord Record.exclusiveAlone

/-- R28, R81 over the whole table. -/
def State.fencing (s : State) : Bool := s.everyRecord (Record.fenced s.epochSource)

/-- R56 over the whole table. -/
def State.frontsBlocked (s : State) : Bool :=
  s.everyRecord (Record.blocked s.monitor.timeState s.epochSource)

/-- The canonical form of the sparse tables: slots 0..2047 strictly rising, generations 1..31 listed (R1, R10). -/
def State.canonical (s : State) : Bool :=
  Sparse.wf Config.slots s.records && Sparse.wf Config.slots s.generations &&
  (s.generations.all fun g => decide (1 ≤ g.2) && decide (g.2 < 32)) &&
  agents.all fun n => Sparse.wf Config.slots (s.cells.get n)

/-- R6, R51, R9, R5 over the whole table. -/
def State.recordsFormed (s : State) : Bool :=
  s.everyRecord fun r => ascending r.holders && r.queueOrdered && r.occupied && r.shaped

/-- R122: a KEPT lease has at least one tick remaining; it is not counted down (R39). -/
def State.keptAlive (s : State) : Bool :=
  s.everyRecord fun r => r.holders.all fun h => h.status != .kept || decide (1 ≤ h.remaining)

/-- R4: every occupied slot lies in the bucket its key hashes to, and no two occupied slots hold the same key. -/
def State.placed (s : State) : Bool :=
  (s.records.all fun p => (homeSlots p.2.key).contains p.1) &&
  decide ((s.records.map fun p => p.2.key).Nodup)

/-- R38: the number of records in which an agent has a part. -/
def State.partCount (s : State) (n : Agent) : Nat := (s.records.filter fun p => p.2.hasPart n).length

/-- R38 for every agent. -/
def State.counted (s : State) : Bool := agents.all fun n => (s.session n).leaseCount == s.partCount n

/-- R108: no lease count is above its quota. -/
def State.withinQuota (s : State) : Bool :=
  agents.all fun n => decide ((s.session n).leaseCount ≤ s.settings.quota.get n)

/-- R98: an agent that is UNJOINED or EVICTED has no lease, no claim, no window entry, no pending notice and no
standby record. -/
def State.outsidersEmpty (s : State) : Bool :=
  agents.all fun n => (s.session n).state.joined ||
    (s.partCount n == 0 && (s.session n).window.isEmpty && (s.cells.get n).isEmpty
      && (s.session n).standby.isNone)

/-- R116, R122: the leases of a STANDBY agent are KEPT, it has no claim and its kept-set remaining counts its
leases; every other agent's leases are RUNNING and it has no standby record. -/
def State.standbyKept (s : State) : Bool :=
  agents.all fun n =>
    match (s.session n).state with
    | .standby =>
      (s.everyRecord fun r => !r.waits n && r.holders.all fun h => h.agent != n || h.status == .kept) &&
      (match (s.session n).standby with
       | some b => b.kept == s.partCount n
       | none => false)
    | _ =>
      (s.everyRecord fun r => r.holders.all fun h => h.agent != n || h.status == .running) &&
      (s.session n).standby.isNone

/-- R169, Table 62: MIN_LIFE ≤ DEFAULT_LIFE ≤ MAX_LIFE, and every setting in its range. -/
def Settings.inRange (st : Settings) : Bool :=
  decide (1 ≤ st.minLife) && decide (st.minLife ≤ st.defaultLife) && decide (st.defaultLife ≤ st.maxLife) &&
  decide (st.maxLife ≤ 65535) && decide (1 ≤ st.createBurst) && decide (st.createBurst ≤ 8) &&
  decide (1 ≤ st.createSpan) && decide (st.createSpan ≤ 65535) && decide (st.standbyMax ≤ 65535) &&
  decide (1 ≤ st.holdoverMax) && decide (st.holdoverMax ≤ 65535) &&
  agents.all fun n => decide (st.quota.get n ≤ 2048)

/-- R129: FREE_RUN exactly while TIME_SOURCE is INTERNAL. -/
def State.sourceMatches (s : State) : Bool :=
  (s.settings.timeSource == .internal) == (s.monitor.timeState == .freeRun)

/-- R129, R130, R137, Table 46: the good-interval count is 8 in LOCKED, below 8 in ACQUIRING and DRIFT and 0
elsewhere; the elapsed count is 0 outside HOLDOVER and UNSAFE; out of reset the divider is stopped in LOCKED alone; its
position is at most 1000 µs; the time since a last pulse is at most 1500 µs, and LOCKED and DRIFT have one, HOLDOVER,
UNSAFE and FREE_RUN none. -/
def State.monitorFormed (s : State) : Bool :=
  (match s.monitor.timeState with
   | .locked => s.monitor.good == 8 && s.monitor.elapsed == 0
   | .acquiring | .drift => decide (s.monitor.good < 8) && s.monitor.elapsed == 0
   | .holdover | .unsafeTime => s.monitor.good == 0 && decide (s.monitor.elapsed ≤ 65535)
   | .freeRun => s.monitor.good == 0 && s.monitor.elapsed == 0) &&
  (match s.monitor.divider with
   | .stopped => s.held || s.monitor.timeState == .locked
   | .running position =>
     !(s.held || s.monitor.timeState == .locked) && decide (position ≤ Config.dividerSpan)) &&
  (match s.monitor.lastPulse with
   | .absent => s.monitor.timeState != .locked && s.monitor.timeState != .drift
   | .present since =>
     decide (since ≤ Config.pulseLimit) &&
       (s.monitor.timeState == .acquiring || s.monitor.timeState == .locked || s.monitor.timeState == .drift)) &&
  (!s.held || s.monitor.timeState == .acquiring)

/-- R22, R115: while the table is INITIALIZING it holds no record and no agent is joined. -/
def State.sweepEmpty (s : State) : Bool :=
  s.table == .ready || (s.records.isEmpty && s.generations.isEmpty && !s.anyJoined)

/-- R110: no window holds more than CREATE_BURST entries. -/
def State.windowsBounded (s : State) : Bool :=
  agents.all fun n => decide ((s.session n).window.length ≤ s.settings.createBurst)

end Sys2Proof.Machine
end

