-- ==== Sys2Proof/Certificates/Slice0/Obligations.lean ====
section
/-! DEFINITION. The statements for the provers. A result statement gives the whole next state, so it is also the
frame of its command: what the equation does not name stands as it was. `s.asked n body extra` is `s` with the
transaction's bytes shifted and a waiting response collected; `State.answer` puts the port in WORKING. -/

section
open Sys2Proof Sys2Proof.Machine

/-! ### The step -/

/-- The front command of the queue is taken, on the state with the queue's rest; an empty queue takes the parts of
a tick that are still due, and with none due changes nothing (the model's choice, logs 1 and 2). -/
def Obligations.StepRunsTheFrontCommand : Prop :=
  (∀ (c : Instr) (rest : List Instr) (s : State),
    step { s with pending := c :: rest } = exec c { s with pending := rest }) ∧
  ∀ s : State, s.pending = [] → step s = .next s.settle ∧ (s.quiet = true → step s = .next s)

/-- No command stops the part, and none touches the queue. Both are the model's choices: one queue of commands (log 1),
and an effect for events that cannot arise and for commands that cannot be given (logs 6, 22). -/
def Obligations.EveryCommandCompletesAndKeepsTheQueue : Prop :=
  ∀ (c : Instr) (s : State), ∃ t, exec c s = .next t ∧ t.pending = s.pending

/-! ### Resets -/

/-- R21, R23, R30, R95, R115, R128, R144, R163, R178: what a held power-on or pin reset leaves. The pin reset notes of
each port what a transaction in progress was shifting (`cut`, log 10), and is a power-on reset for the rest. -/
def Obligations.FullResetsHoldTheResetValues : Prop :=
  ∀ s : State, ∃ t u, exec .powerOnReset s = .next t ∧ exec .pinReset s = .next u ∧
    { u with ports := t.ports } = t ∧
    (∀ n : Agent, (t.port n).cut = none ∧ u.attn n = false ∧ u.port n = { t.port n with
      cut := (match (s.port n).cut with | some q => some q | none => some (s.port n).state) }) ∧
    t.held = true ∧ t.table = .initializing ∧ t.records = [] ∧
    t.epochSource = 0 ∧ exhausted t.epochSource = false ∧ t.sessionCounter = 0 ∧
    (∀ n : Agent, (t.session n).state = .unjoined ∧ (t.session n).number = 0 ∧ (t.session n).leaseCount = 0 ∧
      (t.session n).window = [] ∧ (t.session n).standby = none ∧ (t.session n).lapsed = false ∧
      t.cells.get n = [] ∧ (t.port n).state = .idle ∧ (t.port n).overrun = false ∧ t.attn n = false) ∧
    t.monitor.timeState = .acquiring ∧ t.monitor.lastPulse = .absent ∧ t.monitor.good = 0 ∧
    t.monitor.elapsed = 0 ∧ t.monitor.managementFlag = false ∧
    (∀ n : Agent, t.monitor.agentFlags.get n = false) ∧
    t.settings = { defaultLife := 5000, minLife := 50, maxLife := 30000, derate := .threeQuarters,
                   createBurst := 4, createSpan := 100, quota := PerAgent.all 512, standbyMax := 20000,
                   holdoverMax := 2000, timeSource := .reference } ∧
    t.management.pointer = 0 ∧ t.management.mailbox = .empty ∧ t.management.fields = List.replicate 63 0 ∧
    t.management.code = 0 ∧ t.management.result = none ∧ t.management.output = none ∧ t.mattn = false

/-- R21, R144: the reset ends with the divider started; the sweep's end makes the table READY with every slot
VACANT at generation 0. Events that cannot arise change nothing (the model's choice, log 6), and the state the model
starts from is the one at the end of a power-on reset (log 16). -/
def Obligations.ResetEndAndSweepOpenTheTable : Prop :=
  (∃ t, exec .powerOnReset State.reset = .next t ∧ exec .resetEnd t = .next State.reset) ∧
  ∀ s : State, s.quiet = true →
    (s.held = true → exec .resetEnd s =
      .next { s with held := false, monitor := { s.monitor with divider := .running 0 } }) ∧
    (s.held = false → exec .resetEnd s = .next s) ∧
    (s.held = false → s.table = .initializing → exec .sweepComplete s =
      .next { s with table := .ready, records := [], generations := [] }) ∧
    (s.held = true ∨ s.table = .ready → exec .sweepComplete s = .next s)

/-- R176, R30, R115, R144, R164, R178: SOFT_RESET, as a mailbox request and as the code byte 08h written at 73h, in a
transfer that sends the address now or in one that has brought the pointer there; written while the mailbox is BUSY it
is ignored. ATTN_n then follows the agent's time-change flag alone, and MATTN_n is
asserted; `cut` notes what a transaction in progress was shifting (log 10). -/
def Obligations.SoftResetKeepsEpochsSettingsAndTimeBase : Prop :=
  ∀ s : State, s.quiet = true → s.held = false →
    (s.management.mailbox ≠ .busy → ∃ t, exec .softReset s = .next t ∧
      exec (.registerWrite (some 0x73) (some 0x08)) s = .next t ∧
      (s.management.listening = true → s.management.pointer = 0x73 →
        exec (.registerWrite none (some 0x08)) s = .next t) ∧
      t.table = .initializing ∧ t.records = [] ∧ t.epochSource = s.epochSource ∧
      t.sessionCounter = s.sessionCounter ∧ t.settings = s.settings ∧ t.monitor = s.monitor ∧
      (∀ n : Agent, (t.session n).state = .unjoined ∧ (t.session n).number = 0 ∧ (t.session n).leaseCount = 0 ∧
        (t.session n).window = [] ∧ (t.session n).standby = none ∧ (t.session n).lapsed = false ∧
        t.cells.get n = [] ∧ t.attn n = s.monitor.agentFlags.get n ∧
        t.port n = { s.port n with
          state := .idle, overrun := false,
          cut := (match (s.port n).cut with | some q => some q | none => some (s.port n).state) }) ∧
      t.management.mailbox = .done ∧ t.management.result = some .ok ∧ t.management.output = none ∧
      t.management.fields = s.management.fields ∧ t.management.pointer = 0x74 ∧
      t.management.code = 0x08 ∧ t.mattn = true ∧ t.held = false) ∧
    (s.management.mailbox = .busy → exec .softReset s =
      .next (s.setManagement { s.management with
        listening := true, pointer := 0x74, fieldLatch := none, outputLatch := none }))

/-! ### Checks, frames, fields and handles -/

/-- R1, R4, R11: a key's home bucket is four consecutive slots of the table that begin at a multiple of 4, in the
partition its hash bits 2..0 name; a handle names its generation and its slot. With worked values of 1.2.1, 3.9, 9.3.1
and 11.2.1. R3, R154: the key hash and the frame check take in a byte bit by bit, most significant bit first, from FFFFh
and from 00h. -/
def Obligations.KeysHandlesAndFramesAreRead : Prop :=
  keyHash [0x31, 0x32, 0x33, 0x34, 0x35, 0x36, 0x37, 0x38, 0x39] = 0x29B1 ∧
  homeSlots [0x31, 0x32, 0x33, 0x34, 0x35, 0x36, 0x37, 0x38, 0x39] = [472, 473, 474, 475] ∧
  handleOf 3 1130 = 0x1C6A ∧
  decodeTransaction 2 .atPresent [0x32, 0x00, 0xD3] = some (.time 2 (Transfer.now 0) []) ∧
  decodeTransaction 3 .atPresent [0x01, 0x00, 0x15] = some (.join 3 (Transfer.now 0) []) ∧
  decodeTransaction 2 .atPresent [0x01, 0x00, 0x15, 0x00, 0x00] = some (.join 2 (Transfer.now 2) []) ∧
  parseClaim [0x02, 0x00, 0x00, 0x00, 0x03, 0xE8, 0x09, 0x31, 0x32, 0x33, 0x34, 0x35, 0x36, 0x37, 0x38, 0x39,
    0, 0, 0, 0, 0, 0, 0, 0, 0, 0, 0, 0, 0, 0, 0] =
    some { mode := .exclusive, requested := 0, wait := 1000,
           key := [0x31, 0x32, 0x33, 0x34, 0x35, 0x36, 0x37, 0x38, 0x39] } ∧
  (keyHash [] = 0xFFFF ∧ frameCheck [] = 0x00 ∧ ∀ (bytes : List Byte) (b : Byte),
    keyHash (bytes ++ [b]) = [7, 6, 5, 4, 3, 2, 1, 0].foldl (fun (r : Half) i =>
      if b.getLsbD i ≠ r.getLsbD 15 then (r <<< 1) ^^^ 0x1021 else r <<< 1) (keyHash bytes) ∧
    frameCheck (bytes ++ [b]) = [7, 6, 5, 4, 3, 2, 1, 0].foldl (fun (r : Byte) i =>
      if b.getLsbD i ≠ r.getLsbD 7 then (r <<< 1) ^^^ 0x07 else r <<< 1) (frameCheck bytes)) ∧
  (∀ key : List Byte, ∃ first, homeSlots key = [first, first + 1, first + 2, first + 3] ∧
    first % 4 = 0 ∧ first + 3 < 2048 ∧ first / 256 = (keyHash key).toNat % 8 ∧
    first % 256 / 4 = (keyHash key).toNat / 8 % 64) ∧
  ∀ gen slot : Nat, gen < 32 → slot < 2048 →
    handleSlot (handleOf gen slot) = slot ∧ handleGen (handleOf gen slot) = gen

/-- R154: the check over a whole frame, its check byte included, is 0, for request and for response frames. R158, R180:
a response is code, flags, session byte, body length, body and check, with NOTICE, TIMECHG, OVERRUN and LAPSED in bits
0 to 3 of its flags. Tables 69, 72, 74, 75: the codes and the bytes of every answer's body, each field most significant
byte first and absent ones 0, an absent exclusive holder FFh (R179). -/
def Obligations.CheckOverAWholeFrameIsZero : Prop :=
  let two := fun v : Nat => [BitVec.ofNat 8 (v / 256), BitVec.ofNat 8 v]
  let four := fun v : Word => [BitVec.ofNat 8 (v.toNat / 16777216), BitVec.ofNat 8 (v.toNat / 65536),
    BitVec.ofNat 8 (v.toNat / 256), BitVec.ofNat 8 v.toNat]
  let one := fun b : Bool => if b then (1 : Byte) else 0
  (∀ (code : Byte) (body : List Byte), frameCheck (requestFrame code body) = 0) ∧
  (∀ r : Response, frameCheck r.frame = 0 ∧ r.frame.length = 5 + r.answer.body.length ∧
    r.frame.dropLast =
      [r.answer.code, r.flags, r.sessionLow, BitVec.ofNat 8 r.answer.body.length] ++ r.answer.body ∧
    r.flags.getLsbD 0 = r.notice ∧ r.flags.getLsbD 1 = r.timeChange ∧ r.flags.getLsbD 2 = r.overrun ∧
    r.flags.getLsbD 3 = r.lapsed ∧ r.flags.toNat < 16) ∧
  [Mode.shared, .exclusive].map Mode.code = [1, 2] ∧
  [ClaimKind.shared, .exclusive, .upgrade].map ClaimKind.code = [1, 2, 3] ∧
  [HolderStatus.running, .kept].map HolderStatus.code = [1, 2] ∧
  [HoldingStatus.running, .kept, .queued, .upgrading].map HoldingStatus.code = [1, 2, 3, 4] ∧
  [Reported.vacant, .idle, .shared, .draining, .exclusive].map Reported.code = [0, 1, 2, 3, 4] ∧
  [Standing.none, .shared, .exclusive, .queued, .upgrading].map Standing.code = [0, 1, 2, 3, 4] ∧
  [TimeState.acquiring, .locked, .drift, .holdover, .unsafeTime, .freeRun].map TimeState.code = [0, 1, 2, 3, 4, 5] ∧
  [Derate.half, .fiveEighths, .threeQuarters, .sevenEighths].map Derate.code = [0, 1, 2, 3] ∧
  [NoticeKind.granted, .waitExpired, .expired, .revoked, .cancelled].map NoticeKind.code = [1, 2, 3, 4, 5] ∧
  [RefusalCode.badFrame, .badRequest, .badField, .notReady, .notJoined, .evicted, .inStandby, .timeUnsafe, .noSuchKey,
    .noSuchLease, .conflict, .alreadyHeld, .tableFull, .quota, .upgradeConflict, .notExclusive, .staleEpoch,
    .epochExhausted, .standbyRefused, .notShared].map (fun c => (Answer.refused c).code) =
    [0x40, 0x41, 0x42, 0x43, 0x44, 0x45, 0x46, 0x50, 0x51, 0x52, 0x53, 0x54, 0x55, 0x56, 0x58, 0x59, 0x5A, 0x5B, 0x5C,
      0x5D] ∧
  (∀ c : RefusalCode, (Answer.refused c).body = []) ∧
  (∀ a : Answer, (match a with
    | .ok => a.code = 0x00 ∧ a.body = []
    | .okJoin number quota dl mn mx ts => a.code = 0x00 ∧ a.body.length = 11 ∧
      a.body = two number.toNat ++ two quota ++ two dl ++ two mn ++ two mx ++ [ts.code]
    | .granted h m life e => a.code = 0x01 ∧ a.body.length = 9 ∧
      a.body = two h.toNat ++ [m.code] ++ two life ++ four (e.getD 0)
    | .queued h position wait => a.code = 0x02 ∧ a.body.length = 5 ∧
      a.body = two h.toNat ++ [BitVec.ofNat 8 position] ++ two wait
    | .okRenew life => a.code = 0x00 ∧ a.body = two life
    | .okRenewSet life count => a.code = 0x00 ∧ a.body = two life ++ two count
    | .okLookup x => a.code = 0x00 ∧ a.body.length = 14 ∧
      a.body = [x.state.code] ++ two (x.handle.getD 0).toNat ++ [one x.persistent, BitVec.ofNat 8 x.holderCount,
        (match x.exclusive with | some n => BitVec.ofNat 8 n.val | none => 0xFF), BitVec.ofNat 8 x.queueLength,
        (match x.firstKind with | some k => k.code | none => 0)] ++ four x.lastEpoch ++
        [x.standing.code, BitVec.ofNat 8 x.freeWays]
    | .okRead h st e start count words => a.code = 0x00 ∧ a.body.length = 9 + 4 * words.length ∧
      a.body = two h.toNat ++ [st.code] ++ four e ++ [BitVec.ofNat 8 start, BitVec.ofNat 8 count] ++ words.flatMap four
    | .okWrite remaining => a.code = 0x00 ∧ a.body = two remaining
    | .okHoldings next es => a.code = 0x00 ∧ a.body.length = 3 + 10 * es.length ∧
      a.body = two next.toNat ++ [BitVec.ofNat 8 es.length] ++ es.flatMap fun x =>
        two x.handle.toNat ++ [x.mode.code, x.status.code] ++ two x.remaining ++ four (x.epoch.getD 0)
    | .okNotices more es => a.code = 0x00 ∧ a.body.length = 2 + 9 * es.length ∧
      a.body = [one more, BitVec.ofNat 8 es.length] ++ es.flatMap fun x =>
        two x.handle.toNat ++ [x.kind.code] ++ two (x.lifetime.getD 0) ++ four (x.epoch.getD 0)
    | .okTime ts d k good elapsed => a.code = 0x00 ∧ a.body.length = 6 ∧
      a.body = [ts.code, one d, BitVec.ofNat 8 k.code, BitVec.ofNat 8 good] ++ two elapsed
    | .okStandby kept left countdown => a.code = 0x00 ∧ a.body = two kept ++ two left ++ two countdown
    | .okWake resumed lapsed => a.code = 0x00 ∧ a.body = two resumed ++ [one lapsed]
    | .throttled ticks => a.code = 0x57 ∧ a.body = two ticks
    | .refused _ => a.body = []))

/-- R148, R153, R180: the bytes of a request frame, with whatever follows them, are read as that request with
that body, for every request and every body of at most 48 bytes. Table 72: the sixteen request codes, each with its
command; no other code names a request. Table 70: the bytes of a request frame. -/
def Obligations.RequestFramesDecodeToTheirCommands : Prop :=
  let row := fun (k : Request) (code : Byte) (command : Agent → Transfer → List Byte → Instr) =>
    requestCode k = code ∧ requestOfCode code = some k ∧
    (∀ (n : Agent) (t : Transfer) (body : List Byte), requestCommand k n t body = command n t body) ∧
    ∀ (n : Agent) (start : TransactionStart) (body tail : List Byte), body.length ≤ 48 →
      decodeTransaction n start (requestFrame code body ++ tail) =
        some (command n { start := start, extra := tail.length } body)
  (∀ (k : Request) (n : Agent) (start : TransactionStart) (body tail : List Byte), body.length ≤ 48 →
    decodeTransaction n start (requestFrame (requestCode k) body ++ tail) =
      some (requestCommand k n { start := start, extra := tail.length } body)) ∧
  row .join 0x01 .join ∧ row .leave 0x02 .leave ∧ row .claim 0x10 .claim ∧ row .upgrade 0x11 .upgrade ∧
  row .downgrade 0x12 .downgrade ∧ row .renew 0x13 .renew ∧ row .renewSet 0x14 .renewSet ∧
  row .release 0x15 .release ∧ row .lookup 0x20 .lookup ∧ row .read 0x21 .read ∧ row .write 0x22 .write ∧
  row .holdings 0x30 .holdings ∧ row .notices 0x31 .notices ∧ row .time 0x32 .time ∧
  row .standby 0x40 .standby ∧ row .wake 0x41 .wake ∧
  (∀ code : Byte, code ∉ ([0x01, 0x02, 0x10, 0x11, 0x12, 0x13, 0x14, 0x15, 0x20, 0x21, 0x22, 0x30, 0x31, 0x32, 0x40,
    0x41] : List Byte) → requestOfCode code = none) ∧
  ∀ (code : Byte) (body : List Byte), requestFrame code body = code :: BitVec.ofNat 8 body.length :: body ++
    [frameCheck (code :: BitVec.ofNat 8 body.length :: body)]

/-- R148, R153, R155, R156: bytes that are no request frame of a known code. R145: the bits of a transaction make bytes
from its start, most significant bit first, and the bits of a final byte that is not whole are discarded. -/
def Obligations.OtherBytesDecodeToTheirEvents : Prop :=
  ∀ (n : Agent) (start : TransactionStart),
    decodeTransaction n start [] = none ∧
    (∀ bytes : List Byte, decodeTransaction n start (0x00 :: bytes) =
      some (.fetchOnlyTransaction n start (bytes.length + 1))) ∧
    (∀ (code : Byte) (body tail : List Byte), code ≠ 0 → requestOfCode code = none → body.length ≤ 48 →
      decodeTransaction n start (requestFrame code body ++ tail) =
        some (.badRequest n { start := start, extra := tail.length } code body)) ∧
    (∀ (code check : Byte) (body tail : List Byte), code ≠ 0 → body.length ≤ 48 →
      check ≠ frameCheck (code :: byteOf body.length :: body) →
      decodeTransaction n start (code :: byteOf body.length :: body ++ check :: tail) =
        some (.badFrame n start (code :: byteOf body.length :: body ++ check :: tail))) ∧
    (∀ (code len : Byte) (rest : List Byte), code ≠ 0 → (48 < len.toNat ∨ rest.length < len.toNat + 1) →
      decodeTransaction n start (code :: len :: rest) = some (.badFrame n start (code :: len :: rest))) ∧
    (∀ code : Byte, code ≠ 0 → decodeTransaction n start [code] = some (.badFrame n start [code])) ∧
    ∀ (bytes : List Byte) (loose : List Bool), loose.length < 8 →
      decodeBits n start ((bytes.flatMap fun b => [b.getLsbD 7, b.getLsbD 6, b.getLsbD 5, b.getLsbD 4, b.getLsbD 3,
        b.getLsbD 2, b.getLsbD 1, b.getLsbD 0]) ++ loose) = decodeTransaction n start bytes

/-- R179, R180, Table 73: each request's fields stand where the table puts them, most significant byte first. -/
def Obligations.RequestFieldsStandWhereTableSeventyThreePutsThem : Prop :=
  ∀ (h x y : Half) (e : Word) (b : Byte) (key pad : List Byte),
    1 ≤ key.length → key.length + pad.length = 24 →
    (∀ m : Mode, parseClaim ([m.code, 0] ++ be16 x ++ be16 y ++ [byteOf key.length] ++ key ++ pad) =
      some { mode := m, requested := x.toNat, wait := y.toNat, key := key }) ∧
    parseUpgrade (be16 h ++ be16 x ++ be16 y ++ [0]) =
      some { handle := h, requested := x.toNat, wait := y.toNat } ∧
    parseHandle (be16 h) = some h ∧
    parseRenew (be16 h ++ be16 x ++ [0]) = some (h, x.toNat) ∧
    (b ≠ 0 → parseRenewSet ([b, 0] ++ be16 x) = some (b, x.toNat)) ∧
    parseLookup ([0, byteOf key.length] ++ key ++ pad) = some key ∧
    (∀ start count : Byte, start.toNat ≤ 7 → 1 ≤ count.toNat → count.toNat ≤ 8 →
      parseRead ([start, count, 0, byteOf key.length] ++ key ++ pad) =
        some (start.toNat, count.toNat, key)) ∧
    (∀ w0 w1 w2 w3 w4 w5 w6 w7 : Word,
      parseWrite (be16 h ++ be32 e ++ [b, 0] ++ [w0, w1, w2, w3, w4, w5, w6, w7].flatMap be32) =
        some { handle := h, epoch := e, mask := b, words := [w0, w1, w2, w3, w4, w5, w6, w7] }) ∧
    (x.toNat ≤ 2047 → parseHoldings (be16 x ++ [0]) = some x.toNat) ∧
    (b ≠ 0 → x ≠ 0 → parseStandby ([b, 0] ++ be16 x) = some (b, x.toNat))

/-! ### The agent ports -/

/-- R149, R152: a transaction begun in WORKING shifts out FFh; if it carries bytes that are no fetch-only
transaction they are dropped with OVERRUN set. R163: while a reset is held a transaction shifts out 00h. R163, R164: one
begun before a reset shifts, bit by bit, what it was shifting up to the reset, and 0 after it; where the reset came and
what was being shifted is what the command and `cut` say (log 10, DEDUCED and unsafe). None of these does anything
else. The line SDO_n shows the bit. -/
def Obligations.TransactionsBegunInWorkingAreDropped : Prop :=
  let bit := fun (bytes : List Byte) (i : Nat) => (bytes.getD (i / 8) 0).getLsbD (7 - i % 8)
  let was := fun (p : Port) (working : Bool) (i : Nat) =>
    match p.cut, working with
    | none, _ | some .idle, _ => false
    | some (.working _), _ | some (.ready _), true => true
    | some (.ready r), false => bit r.frame i
  (∀ (s : State) (n : Agent) (start : TransactionStart) (total : Nat),
    s.quiet = true → s.held = false →
    ((start = .atPresent ∧ ∃ r, (s.port n).state = .working r) ∨
      (start = .whileWorking ∧ (s.port n).state ≠ .idle)) →
    (∀ c : Instr, c.carries = some (n, start, total) ∨ c = .requestDropped n start total → exec c s =
      .next (s.setPort n { s.port n with overrun := true, sdo := List.replicate total 0xFF, cut := none })) ∧
    exec (.fetchOnlyTransaction n start total) s =
      .next (s.setPort n { s.port n with sdo := List.replicate total 0xFF, cut := none }) ∧
    ∀ i : Nat, s.sdoLine n start false i = .driven true) ∧
  (∀ (s : State) (n : Agent) (start : TransactionStart) (total : Nat),
    s.quiet = true → s.held = true → start = .atPresent ∨ start = .whileWorking →
    (∀ c : Instr, c.carries = some (n, start, total) ∨ c = .fetchOnlyTransaction n start total → exec c s =
      .next (s.setPort n { s.port n with sdo := List.replicate total 0x00, cut := none })) ∧
    ∀ i : Nat, s.sdoLine n start false i = .driven false) ∧
  ∀ (s : State) (n : Agent) (working : Bool) (bits total : Nat), s.quiet = true →
    (∃ bytes : List Byte, bytes.length = total ∧
      (∀ i, i < 8 * total → bit bytes i = (decide (i < bits) && was (s.port n) working i)) ∧
      ∀ c : Instr, c.carries = some (n, .beforeReset working bits, total) ∨
        c = .fetchOnlyTransaction n (.beforeReset working bits) total → exec c s =
          .next (s.setPort n { s.port n with sdo := bytes, cut := none })) ∧
    ∀ i : Nat, s.sdoLine n (.beforeReset working bits) false i =
      .driven (decide (i < bits) && was (s.port n) working i)

/-- R146, R148, R150, R155: a fetch-only transaction begun in IDLE shifts out 00h, and one begun in READY with
room for the response collects it. A transaction begun in READY with fewer whole bytes than the response leaves it in
the slot, and a request in it is dropped with OVERRUN set. None of these does anything else. R145: SDO_n is released
while CS_n is high and shows the bytes, most significant bit first, while it is low. -/
def Obligations.TransactionsCollectOnlyWholeResponses : Prop :=
  (∀ (s : State) (n : Agent) (total : Nat), s.quiet = true → s.held = false →
    ((s.port n).state = .idle → exec (.fetchOnlyTransaction n .atPresent total) s =
      .next (s.setPort n { s.port n with sdo := List.replicate total 0x00, cut := none })) ∧
    ∀ r : Response, (s.port n).state = .ready r → r.frame.length ≤ total →
      exec (.fetchOnlyTransaction n .atPresent total) s =
        .next (s.setPort n { s.port n with
          state := .idle, sdo := r.frame ++ List.replicate (total - r.frame.length) 0x00, cut := none })) ∧
  (∀ (s : State) (n : Agent) (total : Nat) (r : Response),
    s.quiet = true → s.held = false → (s.port n).state = .ready r → total < r.frame.length →
    (∀ c : Instr, c.carries = some (n, .atPresent, total) ∨ c = .requestDropped n .atPresent total → exec c s =
      .next (s.setPort n { s.port n with overrun := true, sdo := r.frame.take total, cut := none })) ∧
    exec (.fetchOnlyTransaction n .atPresent total) s =
      .next (s.setPort n { s.port n with sdo := r.frame.take total, cut := none })) ∧
  (∀ (s : State) (n : Agent) (start : TransactionStart) (i : Nat), s.sdoLine n start true i = .released) ∧
  ∀ (s : State) (n : Agent) (i : Nat), s.held = false →
    ((s.port n).state = .idle → s.sdoLine n .atPresent false i = .driven false) ∧
    ∀ r : Response, (s.port n).state = .ready r →
      s.sdoLine n .atPresent false i = .driven ((r.frame.getD (i / 8) 0).getLsbD (7 - i % 8))

/-- R148, R151, R153, R156 checks 1 and 2: BAD_FRAME and BAD_REQUEST are answered in every table state and every
agent state, and change nothing but the port. R146, R148, R150, R151: when a request sent now is heard, and what its
own transaction shifts out: 00h, or the waiting response, which it collects, and 00h after it. -/
def Obligations.FrameErrorsAndUnknownCodesAreAnswered : Prop :=
  ∀ (s : State) (n : Agent),
    (∀ bytes : List Byte, s.quiet = true → s.portOpen n bytes.length = true →
      exec (.badFrame n .atPresent bytes) s =
        .next ((s.collected n bytes.length).answer n (.refused .badFrame))) ∧
    (∀ (extra : Nat) (code : Byte) (body : List Byte), s.hears n body extra = true →
      exec (.badRequest n (Transfer.now extra) code body) s =
        .next ((s.asked n body extra).answer n (.refused .badRequest))) ∧
    (∀ (body : List Byte) (extra : Nat), s.asked n body extra = s.collected n (3 + body.length + extra) ∧
      (s.hears n body extra = true ↔ s.quiet = true ∧ s.portOpen n (3 + body.length + extra) = true) ∧
      (s.serves n body extra = true ↔
        s.hears n body extra = true ∧ s.table = .ready ∧ (s.session n).state = .active)) ∧
    ∀ total : Nat,
      (s.portOpen n total = true ↔ s.held = false ∧
        ((s.port n).state = .idle ∨ ∃ r : Response, (s.port n).state = .ready r ∧ r.frame.length ≤ total)) ∧
      ((s.port n).state = .idle → s.collected n total = s.setPort n { s.port n with
        state := .idle, sdo := List.replicate total 0x00, cut := none }) ∧
      ∀ r : Response, (s.port n).state = .ready r → r.frame.length ≤ total →
        s.collected n total = s.setPort n { s.port n with
          state := .idle, sdo := r.frame ++ List.replicate (total - r.frame.length) 0x00, cut := none }

/-- R152, R158, R159: the response goes into the slot with the OVERRUN flag, which is cleared by its making. R158,
Table 57: the rest of a response's header is fixed when its request is decided. R161: what asserts ATTN_n. -/
def Obligations.MakingAResponseReportsOverrun : Prop :=
  ∀ (s : State) (n : Agent),
    (s.quiet = true →
      (∀ r : Response, (s.port n).state = .working r → exec (.responseMade n) s = .next (s.setPort n { s.port n with
        state := .ready { r with overrun := (s.port n).overrun }, overrun := false })) ∧
      ((∀ r : Response, (s.port n).state ≠ .working r) → exec (.responseMade n) s = .next s)) ∧
    (∀ a : Answer,
      let header : Response :=
        { answer := a, notice := decide (s.cells.get n ≠ []), timeChange := s.monitor.agentFlags.get n,
          overrun := false, lapsed := (s.session n).lapsed,
          sessionLow := (match (s.session n).state with
            | .active | .standby => BitVec.ofNat 8 (s.session n).number.toNat
            | .unjoined | .evicted => 0) }
      s.answer n a = s.setPort n { s.port n with state := .working header }) ∧
    (s.attn n = true ↔
      (∃ r, (s.port n).state = .ready r) ∨ s.cells.get n ≠ [] ∨ s.monitor.agentFlags.get n = true)

/-- R156 checks 3 and 4, R22, R107, Table 37: while the table is INITIALIZING every request but TIME is answered
NOT_READY; with the table READY a request that the agent's state does not admit gets the table's code. Nothing else
changes. -/
def Obligations.RequestsAreRefusedBeforeTheirRule : Prop :=
  ∀ (k : Request) (s : State) (n : Agent) (body : List Byte) (extra : Nat), s.hears n body extra = true →
    (s.table = .initializing → k ≠ .time → exec (requestCommand k n (Transfer.now extra) body) s =
      .next ((s.asked n body extra).answer n (.refused .notReady))) ∧
    (s.table = .ready → k ≠ .join → k ≠ .time →
      ((s.session n).state = .unjoined → exec (requestCommand k n (Transfer.now extra) body) s =
        .next ((s.asked n body extra).answer n (.refused .notJoined))) ∧
      ((s.session n).state = .evicted → exec (requestCommand k n (Transfer.now extra) body) s =
        .next ((s.asked n body extra).answer n (.refused .evicted))) ∧
      ((s.session n).state = .standby → k ≠ .leave → k ≠ .notices → k ≠ .wake →
        exec (requestCommand k n (Transfer.now extra) body) s =
          .next ((s.asked n body extra).answer n (.refused .inStandby))))

/-- R180, R156 check 5: a request whose fields are wrong is answered BAD_FIELD and changes nothing: any request of an
ACTIVE agent, a JOIN and a TIME of any agent, TIME in both table states, and LEAVE, NOTICES and WAKE in STANDBY. Table 73
and the requests' own rules: when a body's fields are wrong. -/
def Obligations.WrongFieldsAreAnsweredBadField : Prop :=
  (∀ (k : Request) (s : State) (n : Agent) (body : List Byte) (extra : Nat), s.serves n body extra = true →
    (match k with
     | .join | .leave | .notices | .time | .wake => body ≠ []
     | .claim => parseClaim body = none
     | .upgrade => parseUpgrade body = none
     | .downgrade | .release => parseHandle body = none
     | .renew => parseRenew body = none
     | .renewSet => parseRenewSet body = none
     | .lookup => parseLookup body = none
     | .read => parseRead body = none
     | .write => parseWrite body = none
     | .holdings => parseHoldings body = none
     | .standby => parseStandby body = none) →
    exec (requestCommand k n (Transfer.now extra) body) s =
      .next ((s.asked n body extra).answer n (.refused .badField))) ∧
  (∀ (s : State) (n : Agent) (body : List Byte) (extra : Nat) (k : Request), s.hears n body extra = true → body ≠ [] →
    (k = .time ∨ (k = .join ∧ s.table = .ready) ∨
      ((k = .leave ∨ k = .notices ∨ k = .wake) ∧ s.table = .ready ∧
        ((s.session n).state = .active ∨ (s.session n).state = .standby))) →
    exec (requestCommand k n (Transfer.now extra) body) s =
      .next ((s.asked n body extra).answer n (.refused .badField))) ∧
  ∀ b : List Byte,
    let badKey := fun i : Nat => b.getD i 0 = 0 ∨ 24 < (b.getD i 0).toNat
    (parseClaim b = none ↔ b.length ≠ 31 ∨ (b.getD 0 0 ≠ 1 ∧ b.getD 0 0 ≠ 2) ∨ b.getD 1 0 ≠ 0 ∨ badKey 6) ∧
    (parseUpgrade b = none ↔ b.length ≠ 7 ∨ b.getD 6 0 ≠ 0) ∧
    (parseHandle b = none ↔ b.length ≠ 2) ∧
    (parseRenew b = none ↔ b.length ≠ 5 ∨ b.getD 4 0 ≠ 0) ∧
    (parseRenewSet b = none ↔ b.length ≠ 4 ∨ b.getD 0 0 = 0 ∨ b.getD 1 0 ≠ 0) ∧
    (parseLookup b = none ↔ b.length ≠ 26 ∨ b.getD 0 0 ≠ 0 ∨ badKey 1) ∧
    (parseRead b = none ↔ b.length ≠ 28 ∨ 7 < (b.getD 0 0).toNat ∨ b.getD 1 0 = 0 ∨ 8 < (b.getD 1 0).toNat ∨
      b.getD 2 0 ≠ 0 ∨ badKey 3) ∧
    (parseWrite b = none ↔ b.length ≠ 40 ∨ b.getD 7 0 ≠ 0) ∧
    (parseHoldings b = none ↔
      b.length ≠ 3 ∨ 2047 < 256 * (b.getD 0 0).toNat + (b.getD 1 0).toNat ∨ b.getD 2 0 ≠ 0) ∧
    (parseStandby b = none ↔
      b.length ≠ 4 ∨ b.getD 0 0 = 0 ∨ b.getD 1 0 ≠ 0 ∨ (b.getD 2 0 = 0 ∧ b.getD 3 0 = 0))

/-- The frame of every agent request, in every state with no part of a tick due: the settings, the management port,
the table state, the other ports, the other agents' sessions and the monitor but for the caller's time-change flag
stand; the epoch source does not fall. -/
def Obligations.RequestsReachNoOtherPortOrSetting : Prop :=
  ∀ (k : Request) (s t : State) (n : Agent) (x : Transfer) (body : List Byte), s.quiet = true →
    exec (requestCommand k n x body) s = .next t →
    t.settings = s.settings ∧ t.management = s.management ∧ t.table = s.table ∧ t.held = s.held ∧
    t.choices = s.choices ∧ s.epochSource.toNat ≤ t.epochSource.toNat ∧
    (∀ m : Agent, m ≠ n → t.port m = s.port m ∧ t.monitor.agentFlags.get m = s.monitor.agentFlags.get m ∧
      t.session m = s.session m) ∧
    { t.monitor with agentFlags := s.monitor.agentFlags } = s.monitor

/-! ### Agent requests that report -/

/-- R19, Table 10: LOOKUP, of a present and of an absent key; it changes nothing but the port. R7, Table 9: the
reported state of a record. Table 10: the five standings of a caller. R6, R50: an agent's holder entry and queued claim
in a record. -/
def Obligations.LookupReportsAndChangesNothing : Prop :=
  (∀ (s : State) (n : Agent) (body key : List Byte) (extra : Nat), s.serves n body extra = true →
    parseLookup body = some key →
    (∀ (slot : Nat) (r : Record), s.findKey key = some (slot, r) →
      exec (.lookup n (Transfer.now extra) body) s = .next ((s.asked n body extra).answer n (.okLookup
        { state := r.reported, handle := some (s.handle slot), persistent := r.persistent,
          holderCount := r.holders.length,
          exclusive := (r.holders.find? fun h => h.mode == .exclusive).map fun h => h.agent,
          queueLength := r.queue.length, firstKind := r.queue.head?.map fun c => c.kind,
          lastEpoch := r.lastEpoch, standing := r.standing n, freeWays := s.freeWays key }))) ∧
    (s.findKey key = none →
      exec (.lookup n (Transfer.now extra) body) s = .next ((s.asked n body extra).answer n (.okLookup
        { state := .vacant, handle := none, persistent := false, holderCount := 0, exclusive := none,
          queueLength := 0, firstKind := none, lastEpoch := 0, standing := .none,
          freeWays := s.freeWays key })))) ∧
  ∀ (r : Record) (n : Agent),
    (r.holders = [] → r.reported = .idle) ∧
    ((∃ h ∈ r.holders, h.mode = .exclusive) → r.reported = .exclusive) ∧
    (r.holders ≠ [] → (∀ h ∈ r.holders, h.mode = .shared) →
      (r.queue = [] → r.reported = .shared) ∧
      ∀ (c : Claim) (rest : List Claim), r.queue = c :: rest →
        (c.kind = .shared → r.reported = .shared) ∧
        (c.kind = .exclusive ∨ c.kind = .upgrade → r.reported = .draining)) ∧
    (∀ h : Holder, r.holder n = some h → h ∈ r.holders ∧ h.agent = n ∧
      (h.mode = .exclusive → r.standing n = .exclusive) ∧
      (h.mode = .shared → r.waits n = false → r.standing n = .shared) ∧
      (h.mode = .shared → r.waits n = true → r.standing n = .upgrading)) ∧
    (r.holder n = none ↔ ∀ h ∈ r.holders, h.agent ≠ n) ∧
    (∀ c : Claim, r.claim n = some c → c ∈ r.queue ∧ c.agent = n) ∧
    (r.claim n = none ↔ ∀ c ∈ r.queue, c.agent ≠ n) ∧
    (r.holds n = true ↔ ∃ h ∈ r.holders, h.agent = n) ∧ (r.waits n = true ↔ ∃ c ∈ r.queue, c.agent = n) ∧
    (r.holds n = false → r.waits n = true → r.standing n = .queued) ∧
    (r.holds n = false → r.waits n = false → r.standing n = .none)

/-- R76, R77: READ answers word (start + i) modulo 8 at place i, and changes nothing but the port. -/
def Obligations.ReadReturnsWordsInOrder : Prop :=
  ∀ (s : State) (n : Agent) (body key : List Byte) (extra start count : Nat), s.serves n body extra = true →
    parseRead body = some (start, count, key) →
    (s.findKey key = none → exec (.read n (Transfer.now extra) body) s =
      .next ((s.asked n body extra).answer n (.refused .noSuchKey))) ∧
    ∀ (slot : Nat) (r : Record), s.findKey key = some (slot, r) →
      ∃ words : List Word, words.length = count ∧
        (∀ i, i < count → words.getD i 0 = r.value.getD ((start + i) % 8) 0) ∧
        exec (.read n (Transfer.now extra) body) s = .next ((s.asked n body extra).answer n
          (.okRead (s.handle slot) r.reported r.lastEpoch start count words))

/-- R112, Table 39: HOLDINGS answers the caller's parts at or above the cursor, at most five, lowest slots first,
and where to go on; it changes nothing but the port. -/
def Obligations.HoldingsListsTheCallersParts : Prop :=
  ∀ (s : State) (n : Agent) (body : List Byte) (extra cursor : Nat), s.serves n body extra = true →
    parseHoldings body = some cursor →
    ∃ (next : Half) (entries : List Holding),
      exec (.holdings n (Transfer.now extra) body) s =
        .next ((s.asked n body extra).answer n (.okHoldings next entries)) ∧
      entries.map (fun e => e.handle) =
        (((s.partSlots n).filter fun slot => decide (cursor ≤ slot)).take 5).map s.handle ∧
      (∀ e ∈ entries, ∃ p ∈ s.records, e.handle = s.handle p.1 ∧
        (∀ h : Holder, p.2.holder n = some h →
          e.mode = h.mode.kind ∧ e.remaining = h.remaining ∧ e.epoch = h.epoch ∧
          (p.2.waits n = true → e.status = .upgrading) ∧
          (p.2.waits n = false → h.status = .running → e.status = .running)) ∧
        (∀ c : Claim, p.2.holder n = none → p.2.claim n = some c →
          e.mode = c.kind ∧ e.status = .queued ∧ e.remaining = c.wait ∧ e.epoch = none)) ∧
      (((s.partSlots n).filter fun slot => decide (cursor ≤ slot)).length ≤ 5 → next = 0xFFFF) ∧
      ∀ slot, 5 < ((s.partSlots n).filter fun i => decide (cursor ≤ i)).length →
        ((s.partSlots n).filter fun i => decide (cursor ≤ i))[4]? = some slot →
        next = BitVec.ofNat 16 (slot + 1)

/-- R91, R92: NOTICES answers and empties the caller's six lowest occupied cells; the more flag tells whether some
remain. -/
def Obligations.NoticesEmptiesTheSixLowestCells : Prop :=
  ∀ (s : State) (n : Agent) (extra : Nat), s.hears n [] extra = true → s.table = .ready →
    (s.session n).state.joined = true →
    exec (.notices n (Transfer.now extra) []) s = .next
      (((s.asked n [] extra).setCells n ((s.cells.get n).drop 6)).answer n
        (.okNotices (decide (6 < (s.cells.get n).length))
          (((s.cells.get n).take 6).map fun p =>
            { handle := handleOf p.2.gen p.1, kind := p.2.kind, lifetime := p.2.lifetime,
              epoch := p.2.epoch })))

/-- R143, Table 50: TIME is answered in every agent state and in both table states; it clears the flag of an ACTIVE
or STANDBY caller and of no other. -/
def Obligations.TimeAnswersInEveryState : Prop :=
  (∀ st : AgentState, st.joined = true ↔ st = .active ∨ st = .standby) ∧
  ∀ (s : State) (n : Agent) (extra : Nat), s.hears n [] extra = true →
    exec (.time n (Transfer.now extra) []) s = .next
      ((if (s.session n).state.joined = true then
          (s.asked n [] extra).setMonitor
            { s.monitor with agentFlags := s.monitor.agentFlags.set n false }
        else s.asked n [] extra).answer n
        (.okTime s.monitor.timeState
          (s.monitor.timeState == .drift || s.monitor.timeState == .holdover
            || s.monitor.timeState == .freeRun)
          s.settings.derate s.monitor.good s.monitor.elapsed))

/-! ### Lifetimes, epochs and grants -/

/-- R26, Table 13: the lifetime in closed form, for settings in their ranges; it lies in 1..65535. -/
def Obligations.LifetimesAreClampedAndDerated : Prop :=
  ∀ (st : Settings) (ts : TimeState) (requested : Nat), st.inRange = true →
    (ts = .locked → lifetime st ts requested =
      min st.maxLife (max st.minLife (if requested = 0 then st.defaultLife else requested))) ∧
    (ts = .drift ∨ ts = .holdover ∨ ts = .freeRun → lifetime st ts requested =
      max 1 (min st.maxLife (max st.minLife (if requested = 0 then st.defaultLife else requested)) *
        (match st.derate with | .half => 4 | .fiveEighths => 5 | .threeQuarters => 6 | .sevenEighths => 7) / 8)) ∧
    1 ≤ lifetime st ts requested ∧ lifetime st ts requested ≤ 65535

/-- R56: after a grant check the record's first claim conflicts with the holders or is withheld; the claims still
queued are the old queue's in their order, without those granted. R57: one grant has the lifetime of the moment, the
next epoch for EXCLUSIVE and UPGRADE, and the GRANTED notice. R25, R31: when a first claim is compatible and not withheld.
R55 to R57 over the state: a slot's grant check grants such a claim (the record, the epoch source and the agent's notice
cell) and goes on with the next; a blocked first claim, an empty queue and a VACANT slot end it with no effect. R6: a new
holder entry joins at the place its agent number gives. -/
def Obligations.GrantCheckEndsAtABlockedClaim : Prop :=
  (∀ (env : GrantEnv) (source : Epoch) (r : Record),
    let g := grantRun env r.queue.length source r
    g.1.blocked env.timeState g.2.1 = true ∧
    (∃ granted : List Claim, r.queue = granted ++ g.1.queue ∧
      granted.map (fun c => c.agent) = g.2.2.map Prod.fst) ∧
    source.toNat ≤ g.2.1.toNat ∧ g.1.key = r.key ∧ g.1.persistent = r.persistent ∧ g.1.value = r.value) ∧
  (∀ (env : GrantEnv) (source : Epoch) (r : Record) (c : Claim) (rest : List Claim),
    let life := lifetime env.settings env.timeState c.requested
    (c.kind = .shared → grantFirst env source r c rest =
      ({ r with queue := rest,
                holders := insertHolder { agent := c.agent, mode := .shared, status := .running,
                                          remaining := life, granted := life, epoch := none } r.holders },
       source, { kind := .granted, gen := env.gen, lifetime := some life, epoch := none })) ∧
    (c.kind = .exclusive → grantFirst env source r c rest =
      ({ r with queue := rest, lastEpoch := source + 1,
                holders := insertHolder { agent := c.agent, mode := .exclusive, status := .running,
                                          remaining := life, granted := life, epoch := some (source + 1) }
                  r.holders },
       source + 1, { kind := .granted, gen := env.gen, lifetime := some life, epoch := some (source + 1) })) ∧
    (c.kind = .upgrade → grantFirst env source r c rest =
      ({ r with queue := rest, lastEpoch := source + 1,
                holders := r.holders.map fun h =>
                  if h.agent == c.agent then
                    { h with mode := .exclusive, remaining := life, granted := life, epoch := some (source + 1) }
                  else h },
       source + 1, { kind := .granted, gen := env.gen, lifetime := some life, epoch := some (source + 1) }))) ∧
  (∀ (r : Record) (c : Claim) (ts : TimeState) (source : Epoch),
    (c.kind = .shared → (r.claimCompatible c = true ↔ ∀ h ∈ r.holders, h.mode = .shared)) ∧
    (c.kind = .exclusive → (r.claimCompatible c = true ↔ r.holders = [])) ∧
    (c.kind = .upgrade → (r.claimCompatible c = true ↔ r.holders.map (fun h => h.agent) = [c.agent])) ∧
    (withheld ts source c.kind.takesEpoch = true ↔
      ts = .acquiring ∨ ts = .unsafeTime ∨ (c.kind ≠ .shared ∧ source = 0xFFFFFFFF))) ∧
  (∀ (h : Holder) (holders : List Holder), (∀ g ∈ holders, g.agent ≠ h.agent) →
    holders.Pairwise (fun x y => x.agent.val < y.agent.val) →
    (insertHolder h holders).Perm (h :: holders) ∧
    (insertHolder h holders).Pairwise (fun x y => x.agent.val < y.agent.val)) ∧
  ∀ (s : State) (slot : Nat),
    (s.record slot = none → s.grantCheck slot = s) ∧
    ∀ r : Record, s.record slot = some r →
      (s.canonical = true → r.queue = [] → s.grantCheck slot = s) ∧
      ∀ (c : Claim) (rest : List Claim), r.queue = c :: rest →
        (s.canonical = true → r.claimCompatible c = false ∨
          withheld s.monitor.timeState s.epochSource c.kind.takesEpoch = true → s.grantCheck slot = s) ∧
        (r.claimCompatible c = true → withheld s.monitor.timeState s.epochSource c.kind.takesEpoch = false →
          let env : GrantEnv :=
            { settings := s.settings, timeState := s.monitor.timeState, gen := s.generation slot }
          let g := grantFirst env s.epochSource r c rest
          s.grantCheck slot = (({ s with
            records := Sparse.put slot g.1 s.records, epochSource := g.2.1,
            cells := s.cells.set c.agent (Sparse.put slot g.2.2 (s.cells.get c.agent)) } : State).grantCheck slot))

/-! ### Agent requests about leases -/

/-- R33, R34, R35: the five tests of a CLAIM on a present key, in their order, and what each gives. R4: the record found
for a key is the one in the key's home bucket that has that key. R25: which modes are compatible with the holders. -/
def Obligations.ClaimOnAPresentKeyIsDecidedInOrder : Prop :=
  (∀ (s : State) (key : List Byte),
    (∀ (slot : Nat) (r : Record), s.findKey key = some (slot, r) →
      slot ∈ homeSlots key ∧ s.record slot = some r ∧ r.key = key) ∧
    (s.findKey key = none ↔ ∀ slot ∈ homeSlots key, ∀ r : Record, s.record slot = some r → r.key ≠ key)) ∧
  (∀ r : Record, (r.compatible .shared = true ↔ ∀ h ∈ r.holders, h.mode = .shared) ∧
    (r.compatible .exclusive = true ↔ r.holders = [])) ∧
  (Mode.shared.takesEpoch = false ∧ Mode.exclusive.takesEpoch = true) ∧
  (∀ (s : State) (n : Agent), s.gainPart n =
    s.setSession n { s.session n with leaseCount := (s.session n).leaseCount + 1 }) ∧
  (∀ (s : State) (slot i : Nat) (r x : Record), s.canonical = true →
    (s.record slot = some r ↔ (slot, r) ∈ s.records) ∧
    ((s.putRecord slot x).record i = some r ↔ (i = slot ∧ r = x) ∨ (i ≠ slot ∧ s.record i = some r))) ∧
  ∀ (s : State) (n : Agent) (body : List Byte) (extra slot : Nat) (q : ClaimFields) (r : Record),
    s.serves n body extra = true → parseClaim body = some q → s.findKey q.key = some (slot, r) →
    let u := s.asked n body extra
    let life := lifetime s.settings s.monitor.timeState q.requested
    let fresh := s.epochSource + 1
    let refused := fun code => exec (.claim n (Transfer.now extra) body) s = .next (u.answer n (.refused code))
    (r.holds n = true ∨ r.waits n = true → refused .alreadyHeld) ∧
    (r.holds n = false → r.waits n = false →
      ((s.session n).leaseCount = s.settings.quota.get n → refused .quota) ∧
      ((s.session n).leaseCount ≠ s.settings.quota.get n →
        (r.queue = [] → r.compatible q.mode = true →
          withheld s.monitor.timeState s.epochSource q.mode.takesEpoch = false →
          (q.mode = .shared → exec (.claim n (Transfer.now extra) body) s = .next
            (((u.putRecord slot { r with
                holders := insertHolder { agent := n, mode := .shared, status := .running,
                                          remaining := life, granted := life, epoch := none }
                             r.holders }).gainPart n).answer n
              (.granted (s.handle slot) .shared life none))) ∧
          (q.mode = .exclusive → exec (.claim n (Transfer.now extra) body) s = .next
            (({ (u.putRecord slot { r with
                lastEpoch := fresh,
                holders := insertHolder { agent := n, mode := .exclusive, status := .running,
                                          remaining := life, granted := life, epoch := some fresh }
                             r.holders }).gainPart n with epochSource := fresh } : State).answer n
              (.granted (s.handle slot) .exclusive life (some fresh))))) ∧
        (r.queue ≠ [] ∨ r.compatible q.mode = false ∨
          withheld s.monitor.timeState s.epochSource q.mode.takesEpoch = true →
          (q.wait = 0 →
            (r.queue ≠ [] ∨ r.compatible q.mode = false → refused .conflict) ∧
            (r.queue = [] → r.compatible q.mode = true →
              (s.monitor.timeState.permits = false → refused .timeUnsafe) ∧
              (s.monitor.timeState.permits = true → refused .epochExhausted))) ∧
          (q.wait ≠ 0 → exec (.claim n (Transfer.now extra) body) s = .next
            (((u.putRecord slot { r with
                queue := r.queue ++ [{ agent := n, kind := q.mode.kind, requested := q.requested,
                                       wait := q.wait }] }).gainPart n).answer n
              (.queued (s.handle slot) (r.queue.length + 1) q.wait))))))

/-- R36, R13, R14: the tests of a CLAIM on an absent key, in their order, and what each gives. R13, Table 10: the
VACANT ways of a key's home bucket, lowest first, and their number. R29, R31: exhaustion, and which time states permit. -/
def Obligations.ClaimOnAnAbsentKeyIsDecidedInOrder : Prop :=
  (∀ (s : State) (key : List Byte),
    (s.vacantWays key).Pairwise (fun i j => i < j) ∧
    (∀ slot : Nat, slot ∈ s.vacantWays key ↔ slot ∈ homeSlots key ∧ s.record slot = none) ∧
    s.freeWays key = (s.vacantWays key).length) ∧
  (∀ source : Epoch, exhausted source = true ↔ source = 0xFFFFFFFF) ∧
  (∀ ts : TimeState, ts.permits = true ↔ ts = .locked ∨ ts = .drift ∨ ts = .holdover ∨ ts = .freeRun) ∧
  ∀ (s : State) (n : Agent) (body : List Byte) (extra : Nat) (q : ClaimFields),
    s.serves n body extra = true → parseClaim body = some q → s.findKey q.key = none →
    let u := s.asked n body extra
    let life := lifetime s.settings s.monitor.timeState q.requested
    let fresh := s.epochSource + 1
    let refused := fun code => exec (.claim n (Transfer.now extra) body) s = .next (u.answer n (.refused code))
    (s.monitor.timeState.permits = false → refused .timeUnsafe) ∧
    (s.monitor.timeState.permits = true → q.mode = .exclusive → exhausted s.epochSource = true →
      refused .epochExhausted) ∧
    (s.monitor.timeState.permits = true → q.mode = .shared ∨ exhausted s.epochSource = false →
      ((s.session n).leaseCount = s.settings.quota.get n → refused .quota) ∧
      ((s.session n).leaseCount ≠ s.settings.quota.get n →
        (s.vacantWays q.key = [] → refused .tableFull) ∧
        ∀ (slot : Nat) (others : List Nat), s.vacantWays q.key = slot :: others →
          ((s.session n).window.length = s.settings.createBurst →
            exec (.claim n (Transfer.now extra) body) s = .next (u.answer n
              (.throttled (s.settings.createSpan - (s.session n).window.headD 0)))) ∧
          ((s.session n).window.length ≠ s.settings.createBurst →
            (q.mode = .shared → exec (.claim n (Transfer.now extra) body) s = .next
              ((((u.setSession n { s.session n with window := (s.session n).window ++ [0] }).putRecord slot
                { key := q.key, persistent := false, lastEpoch := 0, value := [0, 0, 0, 0, 0, 0, 0, 0], queue := [],
                  holders := [{ agent := n, mode := .shared, status := .running, remaining := life,
                                granted := life, epoch := none }] }).gainPart n).answer n
                (.granted (s.handle slot) .shared life none))) ∧
            (q.mode = .exclusive → exec (.claim n (Transfer.now extra) body) s = .next
              (({ ((u.setSession n { s.session n with window := (s.session n).window ++ [0] }).putRecord slot
                { key := q.key, persistent := false, lastEpoch := fresh, value := [0, 0, 0, 0, 0, 0, 0, 0],
                  queue := [],
                  holders := [{ agent := n, mode := .exclusive, status := .running, remaining := life,
                                granted := life, epoch := some fresh }] }).gainPart n
                with epochSource := fresh } : State).answer n
                (.granted (s.handle slot) .exclusive life (some fresh)))))))

/-- R58: the tests of an UPGRADE, in their order; a refused UPGRADE changes nothing but the port, and the last
outcome is the queueing of R60. The grant of test 7 is stated by R59's own statement. R10, R11: a handle is honoured
exactly when the slot it names is occupied and its generation is the one the handle names; the handle of a slot. R25:
the only holder. -/
def Obligations.UpgradeIsDecidedInOrder : Prop :=
  (∀ (s : State) (handle : Half) (slot : Nat) (r : Record), s.honoured handle = some (slot, r) ↔
    slot = handle.toNat % 2048 ∧ s.record slot = some r ∧ s.generation slot = handle.toNat / 2048) ∧
  (∀ (s : State) (slot : Nat), s.handle slot = BitVec.ofNat 16 (s.generation slot * 2048 + slot) ∧
    (s.canonical = true → s.generation slot < 32 ∧
      ∀ gen : Nat, gen ≠ 0 → (s.generation slot = gen ↔ (slot, gen) ∈ s.generations))) ∧
  (∀ (r : Record) (n : Agent), r.onlyHolder n = true ↔ r.holders.map (fun h => h.agent) = [n]) ∧
  ∀ (s : State) (n : Agent) (body : List Byte) (extra : Nat) (q : UpgradeFields),
    s.serves n body extra = true → parseUpgrade body = some q →
    let u := s.asked n body extra
    let refused := fun code => exec (.upgrade n (Transfer.now extra) body) s = .next (u.answer n (.refused code))
    (s.honoured q.handle = none → refused .noSuchLease) ∧
    ∀ (slot : Nat) (r : Record), s.honoured q.handle = some (slot, r) →
      (r.holder n = none → refused .noSuchLease) ∧
      ∀ h : Holder, r.holder n = some h →
        (h.mode = .exclusive → refused .notShared) ∧
        (h.mode = .shared →
          (r.waits n = true → refused .alreadyHeld) ∧
          (r.waits n = false →
            ((∃ c ∈ r.queue, c.kind = .upgrade) → refused .upgradeConflict) ∧
            ((∀ c ∈ r.queue, c.kind ≠ .upgrade) →
              (r.onlyHolder n = false ∨ withheld s.monitor.timeState s.epochSource true = true →
                (q.wait = 0 →
                  (r.onlyHolder n = false → refused .conflict) ∧
                  (r.onlyHolder n = true →
                    (s.monitor.timeState.permits = false → refused .timeUnsafe) ∧
                    (s.monitor.timeState.permits = true → refused .epochExhausted))) ∧
                (q.wait ≠ 0 → exec (.upgrade n (Transfer.now extra) body) s = .next
                  ((u.putRecord slot { r with
                      queue := { agent := n, kind := .upgrade, requested := q.requested,
                                 wait := q.wait } :: r.queue }).answer n
                    (.queued (s.handle slot) 1 q.wait)))))))

/-- R59: an upgrade granted at once, whatever other claims are queued; each of them then conflicts with the new
EXCLUSIVE holder. -/
def Obligations.UpgradeIsGrantedAtOnce : Prop :=
  ∀ (s : State) (n : Agent) (body : List Byte) (extra slot : Nat) (q : UpgradeFields) (r : Record) (h : Holder),
    s.serves n body extra = true → parseUpgrade body = some q → s.honoured q.handle = some (slot, r) →
    r.holder n = some h → h.mode = .shared → r.waits n = false → (∀ c ∈ r.queue, c.kind ≠ .upgrade) →
    r.onlyHolder n = true → withheld s.monitor.timeState s.epochSource true = false →
    let life := lifetime s.settings s.monitor.timeState q.requested
    let fresh := s.epochSource + 1
    let r1 := { r with
      lastEpoch := fresh,
      holders := [{ agent := n, mode := .exclusive, status := h.status, remaining := life, granted := life,
                    epoch := some fresh }] }
    exec (.upgrade n (Transfer.now extra) body) s = .next
      (({ (s.asked n body extra).putRecord slot r1 with epochSource := fresh } : State).answer n
        (.granted (s.handle slot) .exclusive life (some fresh))) ∧
    ∀ c ∈ r.queue, r1.claimCompatible c = false

/-- R46: DOWNGRADE drops the mode and the epoch of the caller's entry and runs the grant check. -/
def Obligations.DowngradeSharesAnExclusiveLease : Prop :=
  ∀ (s : State) (n : Agent) (body : List Byte) (extra : Nat) (handle : Half),
    s.serves n body extra = true → parseHandle body = some handle →
    let u := s.asked n body extra
    let refused := fun code => exec (.downgrade n (Transfer.now extra) body) s = .next (u.answer n (.refused code))
    (s.honoured handle = none → refused .noSuchLease) ∧
    ∀ (slot : Nat) (r : Record), s.honoured handle = some (slot, r) →
      (r.holder n = none → refused .noSuchLease) ∧
      ∀ h : Holder, r.holder n = some h →
        (h.mode = .shared → refused .notExclusive) ∧
        (h.mode = .exclusive → exec (.downgrade n (Transfer.now extra) body) s = .next
          (((u.putRecord slot { r with
              holders := r.holders.map fun g =>
                if g.agent == n then { g with mode := .shared, epoch := none } else g }).grantCheck slot).answer n
            .ok))

/-- R42: the tests of a RENEW in their order, and the renewal, which changes remaining and granted lifetime of the
caller's entry and nothing else. -/
def Obligations.RenewSetsTheCallersLifetime : Prop :=
  ∀ (s : State) (n : Agent) (body : List Byte) (extra : Nat), s.serves n body extra = true →
    let u := s.asked n body extra
    let refused := fun code => exec (.renew n (Transfer.now extra) body) s = .next (u.answer n (.refused code))
    (parseRenew body = none → refused .badField) ∧
    ∀ (handle : Half) (requested : Nat), parseRenew body = some (handle, requested) →
      (s.honoured handle = none → refused .noSuchLease) ∧
      ∀ (slot : Nat) (r : Record), s.honoured handle = some (slot, r) →
        (r.holds n = false → refused .noSuchLease) ∧
        (r.holds n = true →
          (s.monitor.timeState.permits = false → refused .timeUnsafe) ∧
          (s.monitor.timeState.permits = true →
            let life := lifetime s.settings s.monitor.timeState requested
            exec (.renew n (Transfer.now extra) body) s = .next
              ((u.putRecord slot { r with
                  holders := r.holders.map fun g =>
                    if g.agent == n then { g with remaining := life, granted := life } else g }).answer n
                (.okRenew life))))

/-- R43: the tests of a RENEW_SET in their order; every RUNNING entry of the caller in a selected partition gets the
one lifetime, and no other entry, claim, mode or epoch changes. -/
def Obligations.RenewSetRenewsTheSelectedPartitions : Prop :=
  ∀ (s : State) (n : Agent) (body : List Byte) (extra : Nat), s.serves n body extra = true →
    let u := s.asked n body extra
    let refused := fun code => exec (.renewSet n (Transfer.now extra) body) s = .next (u.answer n (.refused code))
    (parseRenewSet body = none → refused .badField) ∧
    ∀ (mask : Byte) (requested : Nat), parseRenewSet body = some (mask, requested) →
      (s.monitor.timeState.permits = false → refused .timeUnsafe) ∧
      (s.monitor.timeState.permits = true →
        let life := lifetime s.settings s.monitor.timeState requested
        let selected := fun slot : Nat => mask.getLsbD (slot / 256)
        let running := fun h : Holder => h.agent == n && h.status == .running
        let renew := fun h : Holder => if running h then { h with remaining := life, granted := life } else h
        let visit := fun p : Nat × Record =>
          if selected p.1 then (p.1, { p.2 with holders := p.2.holders.map renew }) else p
        exec (.renewSet n (Transfer.now extra) body) s = .next
          (({ u with records := s.records.map visit } : State).answer n
            (.okRenewSet life (s.records.countP fun p => selected p.1 && p.2.holders.any running))))

/-- R44, R67: RELEASE removes the caller's whole part, lowers its lease count, runs the grant check and retires an
empty transient record, in that order and without a notice to the caller. -/
def Obligations.ReleaseRemovesTheCallersPart : Prop :=
  (∀ (s : State) (n : Agent), s.losePart n =
    s.setSession n { s.session n with leaseCount := (s.session n).leaseCount - 1 }) ∧
  (∀ (s : State) (slot : Nat), (s.record slot = none → s.retireIfEmpty slot = s) ∧
    ∀ r : Record, s.record slot = some r →
      (r.persistent = false → r.holders = [] → r.queue = [] → s.retireIfEmpty slot = s.retire slot) ∧
      (r.persistent = true ∨ r.holders ≠ [] ∨ r.queue ≠ [] → s.retireIfEmpty slot = s)) ∧
  ∀ (s : State) (n : Agent) (body : List Byte) (extra : Nat) (handle : Half),
    s.serves n body extra = true → parseHandle body = some handle →
    let u := s.asked n body extra
    let refused := fun code => exec (.release n (Transfer.now extra) body) s = .next (u.answer n (.refused code))
    (s.honoured handle = none → refused .noSuchLease) ∧
    ∀ (slot : Nat) (r : Record), s.honoured handle = some (slot, r) →
      (r.holds n = false → r.waits n = false → refused .noSuchLease) ∧
      (r.holds n = true ∨ r.waits n = true → exec (.release n (Transfer.now extra) body) s = .next
        (((((u.putRecord slot { r with
            holders := r.holders.filter fun h => h.agent != n,
            queue := r.queue.filter fun c => c.agent != n }).losePart n).grantCheck slot).retireIfEmpty slot).answer n
          .ok))

/-- R9, R10, R16, R125: retirement makes the slot VACANT, advances its generation modulo 32 and lowers by one the lease
count of each agent with a part in the record and the kept-set remaining of each agent with a KEPT entry in it. Every
other slot and all other state stand. -/
def Obligations.RetirementVacatesTheSlot : Prop :=
  ∀ (s : State) (slot : Nat) (r : Record), s.canonical = true → s.record slot = some r →
    ascending r.holders = true →
    let t := s.retire slot
    let kept := fun n : Agent => r.holders.any fun h => h.agent == n && h.status == .kept
    t.record slot = none ∧ t.generation slot = (s.generation slot + 1) % 32 ∧
    (∀ i, i ≠ slot → t.record i = s.record i ∧ t.generation i = s.generation i) ∧
    (∀ n : Agent, t.session n = { s.session n with
      leaseCount := if r.holds n || r.waits n then (s.session n).leaseCount - 1 else (s.session n).leaseCount,
      standby := if kept n then (s.session n).standby.map fun b => { b with kept := b.kept - 1 }
                 else (s.session n).standby }) ∧
    { t with records := s.records, generations := s.generations, sessions := s.sessions } = s

/-- R79: the tests of a WRITE in their order; R80: a WRITE that passes replaces the words its mask names and nothing
else, and a mask of 00h changes no word. -/
def Obligations.WriteIsFencedByTheEpoch : Prop :=
  ∀ (s : State) (n : Agent) (body : List Byte) (extra : Nat), s.serves n body extra = true →
    let u := s.asked n body extra
    let refused := fun code => exec (.write n (Transfer.now extra) body) s = .next (u.answer n (.refused code))
    (parseWrite body = none → refused .badField) ∧
    ∀ q : WriteFields, parseWrite body = some q →
      (s.honoured q.handle = none → refused .noSuchLease) ∧
      ∀ (slot : Nat) (r : Record), s.honoured q.handle = some (slot, r) →
        (r.holder n = none → refused .noSuchLease) ∧
        ∀ h : Holder, r.holder n = some h →
          (h.mode = .shared → refused .notExclusive) ∧
          (h.mode = .exclusive →
            (h.epoch ≠ some q.epoch → refused .staleEpoch) ∧
            (h.epoch = some q.epoch → ∃ value : List Word, value.length = 8 ∧
              (∀ w, w < 8 → value.getD w 0 =
                if q.mask.getLsbD w then q.words.getD w 0 else r.value.getD w 0) ∧
              (q.mask = 0 → r.value.length = 8 → value = r.value) ∧
              exec (.write n (Transfer.now extra) body) s = .next
                ((u.putRecord slot { r with value := value }).answer n (.okWrite h.remaining))))

/-! ### Sessions and standby -/

/-- R100, R101: JOIN of an UNJOINED or EVICTED agent: the next session number (1 after 65535), cells, window, LAPSED
and time-change flag cleared, ACTIVE, and the settings in force in the answer. -/
def Obligations.JoinStartsASession : Prop :=
  ∀ (s : State) (n : Agent) (extra : Nat), s.hears n [] extra = true → s.table = .ready →
    (s.session n).state.joined = false →
    let number := if s.sessionCounter = 0xFFFF then 1 else s.sessionCounter + 1
    number ≠ 0 ∧
    exec (.join n (Transfer.now extra) []) s = .next
      (({ ((s.asked n [] extra).setCells n []).setSession n
            { state := .active, number := number, leaseCount := 0, window := [], standby := none, lapsed := false }
          with sessionCounter := number,
               monitor := { s.monitor with agentFlags := s.monitor.agentFlags.set n false } } : State).answer n
        (.okJoin number (s.settings.quota.get n) s.settings.defaultLife s.settings.minLife s.settings.maxLife
          s.monitor.timeState))

/-- R102, R103: LEAVE and a rejoin take the agent out of the table, empty its cells and its window and dissolve its
standby record; LEAVE makes it UNJOINED with session number 0, a rejoin ACTIVE with the next number. R104: the removal
visits the records in which the agent has a part, in ascending slot order; at each, its part leaves, its lease count
falls, the grant check runs and an empty transient record is retired. It leaves the agent no part in any record and
writes no cell of it, and the records in which it had no part stand. -/
def Obligations.LeaveAndRejoinEndTheSession : Prop :=
  (∀ (s : State) (n : Agent) (extra : Nat), s.hears n [] extra = true → s.table = .ready →
    (s.session n).state.joined = true →
    let gone := ((s.asked n [] extra).removeAgent n).setCells n []
    let number := if s.sessionCounter = 0xFFFF then 1 else s.sessionCounter + 1
    exec (.leave n (Transfer.now extra) []) s = .next
      ((gone.setSession n { state := .unjoined, number := 0, leaseCount := 0, window := [], standby := none,
                            lapsed := false }).answer n .ok) ∧
    exec (.join n (Transfer.now extra) []) s = .next
      (({ gone.setSession n { state := .active, number := number, leaseCount := 0, window := [],
                              standby := none, lapsed := false }
          with sessionCounter := number,
               monitor := { s.monitor with agentFlags := s.monitor.agentFlags.set n false } } : State).answer n
        (.okJoin number (s.settings.quota.get n) s.settings.defaultLife s.settings.minLife s.settings.maxLife
          s.monitor.timeState))) ∧
  ∀ (s : State) (n : Agent),
    (∀ (slot : Nat) (r : Record), s.record slot = some r →
      let u := ((s.putRecord slot { r with
        holders := r.holders.filter fun h => h.agent != n,
        queue := r.queue.filter fun c => c.agent != n }).setSession n
          { s.session n with leaseCount := (s.session n).leaseCount - 1 }).grantCheck slot
      (∀ x, u.record slot = some x → x.persistent = false → x.holders = [] → x.queue = [] →
        s.leaveRecord slot n none = u.retire slot) ∧
      (∀ x, u.record slot = some x → x.persistent = true ∨ x.holders ≠ [] ∨ x.queue ≠ [] →
        s.leaveRecord slot n none = u)) ∧
    s.removeAgent n = (s.partSlots n).foldl (fun u slot => u.leaveRecord slot n none) s ∧
    (s.canonical = true →
      let t := s.removeAgent n
      (s.partSlots n).Pairwise (fun i j => i < j) ∧
      (∀ slot, slot ∈ s.partSlots n ↔ ∃ r, s.record slot = some r ∧ (r.holds n = true ∨ r.waits n = true)) ∧
      (∀ p ∈ t.records, p.2.holds n = false ∧ p.2.waits n = false) ∧
      t.cells.get n = s.cells.get n ∧
      ∀ (slot : Nat) (r : Record), s.record slot = some r → r.holds n = false → r.waits n = false →
        t.record slot = some r)

/-- R117, R118: STANDBY is refused while STANDBY_MAX is 0 or below the duration; otherwise the entry visits the
caller's records in ascending slot order and the caller becomes STANDBY with that duration. At one record, a claim
alone or a lease of an unselected partition leaves as by RELEASE and counts as left; a lease of a selected partition
becomes KEPT, after its queued UPGRADE, if any, is withdrawn. -/
def Obligations.StandbyIsEnteredOrRefused : Prop :=
  (∀ (s : State) (n : Agent) (body : List Byte) (extra duration : Nat) (mask : Byte),
    s.serves n body extra = true → parseStandby body = some (mask, duration) →
    let u := s.asked n body extra
    let e := (s.partSlots n).foldl (State.enterStandbyAt n mask) (u, { kept := 0, left := 0 })
    (s.settings.standbyMax = 0 ∨ s.settings.standbyMax < duration →
      exec (.standby n (Transfer.now extra) body) s = .next (u.answer n (.refused .standbyRefused))) ∧
    (s.settings.standbyMax ≠ 0 → duration ≤ s.settings.standbyMax →
      exec (.standby n (Transfer.now extra) body) s = .next
        ((e.1.setSession n { e.1.session n with
            state := .standby, standby := some { kept := e.2.kept, countdown := duration } }).answer n
          (.okStandby e.2.kept e.2.left duration)))) ∧
  ∀ (s : State) (n : Agent) (mask : Byte) (slot : Nat) (r : Record) (count : EntryCount),
    s.record slot = some r →
    let keep := fun x : Record => { x with
      holders := x.holders.map fun h => if h.agent == n then { h with status := .kept } else h }
    (r.holds n = false → r.waits n = true → State.enterStandbyAt n mask (s, count) slot =
      (s.leaveRecord slot n none, { count with left := count.left + 1 })) ∧
    (r.holds n = true → mask.getLsbD (slot / 256) = false → State.enterStandbyAt n mask (s, count) slot =
      (s.leaveRecord slot n none, { count with left := count.left + 1 })) ∧
    (r.holds n = true → r.waits n = false → mask.getLsbD (slot / 256) = true →
      State.enterStandbyAt n mask (s, count) slot =
        (s.putRecord slot (keep r), { count with kept := count.kept + 1 })) ∧
    (r.holds n = true → r.waits n = true → mask.getLsbD (slot / 256) = true →
      ∀ x, ((s.putRecord slot { r with queue := r.queue.filter fun c => c.agent != n }).grantCheck slot).record slot
          = some x → State.enterStandbyAt n mask (s, count) slot =
        ((((s.putRecord slot { r with queue := r.queue.filter fun c => c.agent != n }).grantCheck slot).putRecord
            slot (keep x)), { count with kept := count.kept + 1 }))

/-- R122, R123: WAKE from STANDBY resumes every kept lease at its frozen count and leaves LAPSED; WAKE from ACTIVE
resumes nothing and clears LAPSED, which its answer still reports. R124: a WAKE given while the agent's own standby expiry
of the present tick is still due comes before it, and finds and resumes the same leases at the same counts (log 5). -/
def Obligations.WakeResumesOrAcknowledges : Prop :=
  ∀ (s : State) (n : Agent) (extra : Nat), s.quietBut n = true →
    s.portOpen n (requestLength [] extra) = true → s.table = .ready →
    (∀ b : Standby, (s.session n).state = .standby → (s.session n).standby = some b →
      exec (.wake n (Transfer.now extra) []) s = .next
        ((({ s.asked n [] extra with
            records := s.records.map fun p => (p.1, { p.2 with
              holders := p.2.holders.map fun h =>
                if h.agent == n && h.status == .kept then { h with status := .running } else h }) }
          : State).setSession n { s.session n with state := .active, standby := none }).answer n
          (.okWake b.kept (s.session n).lapsed))) ∧
    ((s.session n).state = .active →
      exec (.wake n (Transfer.now extra) []) s = .next
        (((s.asked n [] extra).setSession n { s.session n with lapsed := false }).answer n
          (.okWake 0 (s.session n).lapsed)))

/-! ### The mailbox and the settings -/

/-- R170, R171, R135, R136: SET's tests in order and its effects; the settings it accepts stay in their ranges. Table 78:
the setting an identifier names. Table 62: the values each setting takes, and the one field that such a value changes. -/
def Obligations.SetIsDecidedInOrder : Prop :=
  (∀ s : State, s.mailboxOpen = true →
    let u := s.begun 0x01
    let gives := fun (t : State) result => exec .set s = .next (t.completes result none)
    (Setting.ofId s.management.settingId = none → gives u .badValue) ∧
    ∀ k : Setting, Setting.ofId s.management.settingId = some k →
      (s.settings.change k s.management.settingValue = none → gives u .badValue) ∧
      ∀ st : Settings, s.settings.change k s.management.settingValue = some st →
        let w : State := { u with settings := st }
        ((k = .createBurst ∨ k = .createSpan) → (∃ n : Agent, (s.session n).state.joined = true) →
          gives u .agentsActive) ∧
        (∀ n : Agent, k = .quota n → (s.session n).state.joined = true → gives u .agentsActive) ∧
        ((k = .createBurst ∨ k = .createSpan) → (∀ n : Agent, (s.session n).state.joined = false) →
          gives w .ok) ∧
        (∀ n : Agent, k = .quota n → (s.session n).state.joined = false → gives w .ok) ∧
        (k = .defaultLife ∨ k = .minLife ∨ k = .maxLife ∨ k = .derate ∨ k = .standbyMax → gives w .ok) ∧
        (k = .holdoverMax →
          (s.monitor.timeState = .holdover → st.holdoverMax ≤ s.monitor.elapsed →
            gives (w.changeTime { s.monitor with timeState := .unsafeTime }) .ok) ∧
          (s.monitor.timeState ≠ .holdover ∨ s.monitor.elapsed < st.holdoverMax → gives w .ok)) ∧
        (k = .timeSource →
          (st.timeSource = s.settings.timeSource → gives w .ok) ∧
          (st.timeSource = .internal → s.settings.timeSource = .reference →
            gives (w.changeTime { s.monitor with
              timeState := .freeRun, lastPulse := .absent, good := 0, elapsed := 0 }) .ok) ∧
          (st.timeSource = .reference → s.settings.timeSource = .internal →
            gives (w.changeTime { s.monitor with
              timeState := .acquiring, lastPulse := .absent, good := 0, elapsed := 0 }) .ok))) ∧
  (∀ (st st' : Settings) (k : Setting) (v : Nat), st.inRange = true → st.change k v = some st' →
    st'.inRange = true) ∧
  ([0x00, 0x01, 0x02, 0x03, 0x04, 0x05, 0x06, 0x07, 0x08, 0x09, 0x0A, 0x0B, 0x0C, 0x0D].map Setting.ofId =
    [none, some .defaultLife, some .minLife, some .maxLife, some .derate, some .createBurst, some .createSpan,
      some .standbyMax, some .holdoverMax, some .timeSource, some (.quota 0), some (.quota 1), some (.quota 2),
      some (.quota 3)]) ∧
  (∀ id : Byte, 0x0D < id.toNat → Setting.ofId id = none) ∧
  ∀ (st st' : Settings) (v : Nat),
    (st.change .defaultLife v = some st' ↔ (st.minLife ≤ v ∧ v ≤ st.maxLife) ∧ st' = { st with defaultLife := v }) ∧
    (st.change .minLife v = some st' ↔
      (1 ≤ v ∧ v ≤ 65535 ∧ v ≤ st.defaultLife) ∧ st' = { st with minLife := v }) ∧
    (st.change .maxLife v = some st' ↔
      (1 ≤ v ∧ v ≤ 65535 ∧ st.defaultLife ≤ v) ∧ st' = { st with maxLife := v }) ∧
    (st.change .derate v = some st' ↔
      (v = 0 ∧ st' = { st with derate := .half }) ∨ (v = 1 ∧ st' = { st with derate := .fiveEighths }) ∨
      (v = 2 ∧ st' = { st with derate := .threeQuarters }) ∨ (v = 3 ∧ st' = { st with derate := .sevenEighths })) ∧
    (st.change .createBurst v = some st' ↔ (1 ≤ v ∧ v ≤ 8) ∧ st' = { st with createBurst := v }) ∧
    (st.change .createSpan v = some st' ↔ (1 ≤ v ∧ v ≤ 65535) ∧ st' = { st with createSpan := v }) ∧
    (st.change .standbyMax v = some st' ↔ v ≤ 65535 ∧ st' = { st with standbyMax := v }) ∧
    (st.change .holdoverMax v = some st' ↔ (1 ≤ v ∧ v ≤ 65535) ∧ st' = { st with holdoverMax := v }) ∧
    (st.change .timeSource v = some st' ↔
      (v = 0 ∧ st' = { st with timeSource := .reference }) ∨ (v = 1 ∧ st' = { st with timeSource := .internal })) ∧
    ∀ n : Agent, (st.change (.quota n) v = some st' ↔ v ≤ 2048 ∧ st' = { st with quota := st.quota.set n v })

/-- R2, R22, R173: the mailbox requests that name a key test its length, then the table state; a code that names no
request gives BAD_REQUEST. R174, R175: INSPECT writes the record as it stands into the output area. None of these
changes anything but the mailbox. R172: a start makes the mailbox BUSY with the code, no result and the pointer past the
code. R174: a completion makes it DONE with the result, and writes the output area: the summary, or the empty one. R182,
Table 79: where each request field stands among the bytes written at 34h to 72h, most significant byte first. -/
def Obligations.MailboxRequestsTestKeyThenTable : Prop :=
  (∀ (s : State) (code : Byte), s.begun code = s.setManagement { s.management with
    listening := true, pointer := 0x74, mailbox := .busy, code := code, result := none, fieldLatch := none,
    outputLatch := none }) ∧
  (∀ (s : State) (result : MailboxResult) (output : Option Summary), s.completes result output =
    s.setManagement { s.management with mailbox := .done, result := some result, output := output }) ∧
  (∀ s : State, s.mailboxOpen = true ↔ s.quiet = true ∧ s.held = false ∧ s.management.mailbox ≠ .busy) ∧
  (∀ m : Management,
    let byte := fun a : Nat => m.fields.getD (a - 0x34) 0
    m.settingId = byte 0x34 ∧ m.settingValue = 256 * (byte 0x35).toNat + (byte 0x36).toNat ∧
    m.agentNumber = byte 0x37 ∧ m.persistence = byte 0x38 ∧ m.wordMask = byte 0x39 ∧
    m.keyLength = (byte 0x3A).toNat ∧
    (∀ key : List Byte, m.validKey = some key ↔ 1 ≤ (byte 0x3A).toNat ∧ (byte 0x3A).toNat ≤ 24 ∧
      key = (List.range (byte 0x3A).toNat).map fun i => byte (0x3B + i)) ∧
    m.words.length = 8 ∧
    ∀ w, w < 8 → (m.words.getD w 0).toNat =
      16777216 * (byte (0x53 + 4 * w)).toNat + 65536 * (byte (0x54 + 4 * w)).toNat +
        256 * (byte (0x55 + 4 * w)).toNat + (byte (0x56 + 4 * w)).toNat) ∧
  (∀ s : State, s.mailboxOpen = true →
    (∀ (c : Instr) (code : Byte),
      (c = .define ∧ code = 0x02) ∨ (c = .retire ∧ code = 0x03) ∨ (c = .seed ∧ code = 0x05) ∨
        (c = .inspect ∧ code = 0x06) ∨ (c = .mark ∧ code = 0x04 ∧ s.management.persistence.toNat ≤ 1) →
      ((s.management.keyLength = 0 ∨ 24 < s.management.keyLength) →
        exec c s = .next ((s.begun code).completes .badValue none)) ∧
      (1 ≤ s.management.keyLength → s.management.keyLength ≤ 24 → s.table = .initializing →
        exec c s = .next ((s.begun code).completes .notReady none))) ∧
    (1 < s.management.persistence.toNat → exec .mark s = .next ((s.begun 0x04).completes .badValue none)) ∧
    ∀ code : Byte, exec (.mailboxBadRequest code) s = .next ((s.begun code).completes .badRequest none)) ∧
  ∀ (s : State) (key : List Byte), s.mailboxOpen = true → s.table = .ready →
    s.management.validKey = some key →
    (s.findKey key = none → exec .inspect s = .next ((s.begun 0x06).completes .noSuchKey none)) ∧
    ∀ (slot : Nat) (r : Record), s.findKey key = some (slot, r) → exec .inspect s =
      .next ((s.begun 0x06).completes .ok
        (some { handle := s.handle slot, freeWays := s.freeWays key, record := r }))

/-- R172, R165: a request whose code byte has been written at 73h is taken while BUSY as one that starts and is taken
at once; a request code written while BUSY with another is ignored; while a reset is held no mailbox command has an
effect. -/
def Obligations.AStartedRequestIsTakenWhileBusy : Prop :=
  (∀ (s t : State) (c : Instr) (code : Byte),
    (c = .set ∧ code = 0x01) ∨ (c = .define ∧ code = 0x02) ∨ (c = .retire ∧ code = 0x03) ∨
      (c = .mark ∧ code = 0x04) ∨ (c = .seed ∧ code = 0x05) ∨ (c = .inspect ∧ code = 0x06) ∨
      (c = .evict ∧ code = 0x07) ∨ (c = .mailboxBadRequest code ∧ code ≠ 0x08) →
    (s.mailboxOpen = true → exec (.registerWrite (some 0x73) (some code)) s = .next t →
      t.management.mailbox = .busy ∧ t.management.result = none ∧ exec c t = exec c s) ∧
    (s.quiet = true → s.held = false → s.management.mailbox = .busy → s.management.code ≠ code →
      exec c s = .next (s.setManagement { s.management with
        listening := true, pointer := 0x74, fieldLatch := none, outputLatch := none }))) ∧
  ∀ (s : State) (c : Instr), s.quiet = true → s.held = true →
    (c = .set ∨ c = .define ∨ c = .retire ∨ c = .mark ∨ c = .seed ∨ c = .inspect ∨ c = .evict ∨ c = .softReset ∨
      ∃ code, c = .mailboxBadRequest code) → exec c s = .next s

/-- R15, R18: DEFINE creates a persistent empty record in the lowest VACANT way of the key's home bucket; MARK changes
the persistence, and MARK off retires an empty persistent record. -/
def Obligations.DefineAndMarkSetPersistence : Prop :=
  ∀ (s : State) (key : List Byte), s.mailboxOpen = true → s.table = .ready →
    s.management.validKey = some key →
    (∀ (slot : Nat) (r : Record), s.findKey key = some (slot, r) →
      exec .define s = .next ((s.begun 0x02).completes .exists_ none) ∧
      (s.management.persistence = 0x01 → exec .mark s =
        .next (((s.begun 0x04).putRecord slot { r with persistent := true }).completes .ok none)) ∧
      (s.management.persistence = 0x00 →
        (r.persistent = true → r.holders = [] → r.queue = [] →
          exec .mark s = .next (((s.begun 0x04).retire slot).completes .ok none)) ∧
        (r.persistent = false ∨ r.holders ≠ [] ∨ r.queue ≠ [] → exec .mark s =
          .next (((s.begun 0x04).putRecord slot { r with persistent := false }).completes .ok none)))) ∧
    (s.findKey key = none →
      (s.management.persistence.toNat ≤ 1 → exec .mark s =
        .next ((s.begun 0x04).completes .noSuchKey none)) ∧
      (s.vacantWays key = [] → exec .define s = .next ((s.begun 0x02).completes .tableFull none)) ∧
      ∀ (slot : Nat) (others : List Nat), s.vacantWays key = slot :: others → exec .define s =
        .next (((s.begun 0x02).putRecord slot
          { key := key, persistent := true, lastEpoch := 0, value := [0, 0, 0, 0, 0, 0, 0, 0], holders := [],
            queue := [] }).completes .ok none))

/-- R16, R17: RETIRE posts REVOKED to each holder and CANCELLED to each agent with a claim alone, with the slot's
generation, and retires the record. -/
def Obligations.RetireRevokesAndCancels : Prop :=
  ∀ (s : State) (key : List Byte), s.mailboxOpen = true → s.table = .ready →
    s.management.validKey = some key →
    (s.findKey key = none → exec .retire s = .next ((s.begun 0x03).completes .noSuchKey none)) ∧
    ∀ (slot : Nat) (r : Record), s.findKey key = some (slot, r) → ∃ t : State,
      exec .retire s = .next ((t.retire slot).completes .ok none) ∧
      (∀ n : Agent, t.cells.get n =
        if r.holds n then
          Sparse.put slot { kind := .revoked, gen := s.generation slot, lifetime := none, epoch := none }
            (s.cells.get n)
        else if r.waits n then
          Sparse.put slot { kind := .cancelled, gen := s.generation slot, lifetime := none, epoch := none }
            (s.cells.get n)
        else s.cells.get n) ∧
      { t with cells := s.cells } = s.begun 0x03

/-- R83: the tests of a SEED in their order, and the words it replaces; nothing else of the record changes. -/
def Obligations.SeedWritesAnUnheldRecord : Prop :=
  ∀ s : State, s.mailboxOpen = true →
    let u := s.begun 0x05
    let gives := fun (t : State) result => exec .seed s = .next (t.completes result none)
    (s.management.keyLength = 0 ∨ 24 < s.management.keyLength → gives u .badValue) ∧
    ∀ key : List Byte, s.management.validKey = some key →
      (s.table = .initializing → gives u .notReady) ∧
      (s.table = .ready →
        (s.findKey key = none → gives u .noSuchKey) ∧
        ∀ (slot : Nat) (r : Record), s.findKey key = some (slot, r) →
          (r.holders ≠ [] → gives u .recordBusy) ∧
          (r.holders = [] → ∃ value : List Word, value.length = 8 ∧
            (∀ w, w < 8 → value.getD w 0 =
              if s.management.wordMask.getLsbD w then s.management.words.getD w 0 else r.value.getD w 0) ∧
            (s.management.wordMask = 0 → r.value.length = 8 → value = r.value) ∧
            gives (u.putRecord slot { r with value := value }) .ok))

/-- R105: EVICT's results in order; an eviction removes the agent as LEAVE does and makes it EVICTED with session
number 0. -/
def Obligations.EvictRemovesAJoinedAgent : Prop :=
  ∀ s : State, s.mailboxOpen = true →
    let u := s.begun 0x07
    let gives := fun (t : State) result => exec .evict s = .next (t.completes result none)
    (3 < s.management.agentNumber.toNat → gives u .badValue) ∧
    ∀ n : Agent, s.management.agentNumber.toNat = n.val →
      (s.table = .initializing → gives u .notReady) ∧
      (s.table = .ready →
        ((s.session n).state.joined = false → gives u .ok) ∧
        ((s.session n).state.joined = true →
          gives (((u.removeAgent n).setCells n []).setSession n
            { state := .evicted, number := 0, leaseCount := 0, window := [], standby := none, lapsed := false })
            .ok))

/-! ### The register window -/

/-- R165, R168, R172, R174: what a run of bytes read takes: the pointer advances by one for each byte, the STATUS byte
clears the management time-change flag, the result byte in DONE returns the mailbox to EMPTY, and nothing else of the
part changes but the latches and the record of bytes read. While a reset is held, and until a START has been seen, a run
has no effect (R165). R177: what asserts MATTN_n. R165, R166: a new transfer, from a register address set for it or from
the pointer as it stands, discards the latches; a run reads its bytes one after another; what one byte read takes from
the window or a latch and leaves latched. Three things are the model's choices (log 13, DESIGN CHOICE, unsafe), no rule
of the spec: that STATUS_READ and RESULT_READ are one effect on every run, that the eight value words of the request
fields are latched as eight fields of four bytes, and the record of the bytes read. -/
def Obligations.ReadRunsTakeStatusAndResult : Prop :=
  (∀ (s : State) (run : ReadRun), exec (.resultRead run) s = exec (.statusRead run) s) ∧
  (∀ (s : State) (run : ReadRun), s.quiet = true → s.held = false →
    (run.start ≠ .continued ∨ s.management.listening = true) →
    let p := match run.start with
      | .addressed a => a
      | .standing | .continued => s.management.pointer
    ∃ t : State, exec (.statusRead run) s = .next t ∧
      t.management.pointer = p + BitVec.ofNat 8 run.count ∧
      t.management.readOut.length = run.count ∧
      t.monitor.managementFlag = (s.monitor.managementFlag && !decide ((0x05 - p).toNat < run.count)) ∧
      t.management.mailbox = (if s.management.mailbox = .done ∧ (0x74 - p).toNat < run.count then .empty
        else s.management.mailbox) ∧
      t.management.fields = s.management.fields ∧ t.management.code = s.management.code ∧
      t.management.result = s.management.result ∧ t.management.output = s.management.output ∧
      { t.monitor with managementFlag := s.monitor.managementFlag } = s.monitor ∧
      { t with management := s.management, monitor := s.monitor } = s) ∧
  (∀ (s : State) (run : ReadRun), s.quiet = true →
    (s.held = true ∨ (run.start = .continued ∧ s.management.listening = false)) → exec (.statusRead run) s = .next s) ∧
  (∀ s : State, s.mattn = true ↔ s.management.mailbox = .done ∨ s.monitor.managementFlag = true) ∧
  (∀ (s : State) (a : Byte) (count : Nat), s.quiet = true → s.held = false →
    exec (.statusRead { start := .addressed a, count := count }) s =
      exec (.statusRead { start := .continued, count := count }) (s.setManagement { s.management with
        listening := true, pointer := a, fieldLatch := none, outputLatch := none }) ∧
    exec (.statusRead { start := .standing, count := count }) s =
      exec (.statusRead { start := .continued, count := count }) (s.setManagement { s.management with
        listening := true, fieldLatch := none, outputLatch := none })) ∧
  (∀ (s : State) (count : Nat), s.quiet = true → s.held = false → s.management.listening = true → ∃ t u : State,
    exec (.statusRead { start := .continued, count := count }) s = .next t ∧
    exec (.statusRead { start := .continued, count := 1 }) t = .next u ∧
    exec (.statusRead { start := .continued, count := count + 1 }) s =
      .next (u.setManagement { u.management with readOut := t.management.readOut ++ u.management.readOut })) ∧
  latchedFields = [(0x00, 2), (0x02, 2), (0x08, 3), (0x0C, 3), (0x10, 3), (0x14, 3), (0x18, 2), (0x1A, 2), (0x1C, 2),
    (0x1E, 2), (0x20, 2), (0x22, 2), (0x24, 2), (0x26, 2), (0x28, 2), (0x2A, 2), (0x2C, 2), (0x2E, 2), (0x30, 2),
    (0x35, 2), (0x3B, 24), (0x53, 4), (0x57, 4), (0x5B, 4), (0x5F, 4), (0x63, 4), (0x67, 4), (0x6B, 4), (0x6F, 4)] ∧
  ∀ s : State, s.quiet = true → s.held = false → s.management.listening = true →
    let p := s.management.pointer.toNat
    let m := s.management
    ∃ (t : State) (b : Byte), exec (.statusRead { start := .continued, count := 1 }) s = .next t ∧
      t.management.readOut = [b] ∧
      (0x78 ≤ p → t.management.fieldLatch = m.fieldLatch ∧
        (∀ area, m.outputLatch = some area → b = area.getD (p - 0x78) 0 ∧ t.management.outputLatch = some area) ∧
        (m.outputLatch = none → b = s.windowByte p ∧ t.management.outputLatch = some (s.window.drop 0x78))) ∧
      (p < 0x78 → t.management.outputLatch = m.outputLatch ∧
        ((∀ f ∈ latchedFields, p < f.1 ∨ f.1 + f.2 ≤ p) →
          b = s.windowByte p ∧ t.management.fieldLatch = m.fieldLatch) ∧
        ∀ f ∈ latchedFields,
          (p = f.1 → b = s.windowByte p ∧
            t.management.fieldLatch = some (f.1, (s.window.drop f.1).take f.2)) ∧
          (f.1 < p → p < f.1 + f.2 → t.management.fieldLatch = m.fieldLatch ∧
            (∀ bytes, m.fieldLatch = some (f.1, bytes) → b = bytes.getD (p - f.1) 0) ∧
            ((∀ bytes, m.fieldLatch ≠ some (f.1, bytes)) → b = s.windowByte p)))

/-- R165, R166: a run that begins a transfer and ends within the window reads the window's bytes from its register
address, or from the pointer as it stands, on. R167, R168, R174, R175, R179, R182, Tables 78, 79, 80: the 256 bytes of the window, in order of address, with
each field most significant byte first; STATUS bit by bit; the key field's places from the key length on read 00h (log
23); the output area of the empty summary and of a record, with 00h beyond its holders and its claims. -/
def Obligations.AByteReadIsTheWindowsByte : Prop :=
  let two := fun v : Nat => [BitVec.ofNat 8 (v / 256), BitVec.ofNat 8 v]
  let four := fun v : Word => [BitVec.ofNat 8 (v.toNat / 16777216), BitVec.ofNat 8 (v.toNat / 65536),
    BitVec.ofNat 8 (v.toNat / 256), BitVec.ofNat 8 v.toNat]
  (∀ (s : State) (a : Byte) (count : Nat) (c : Instr),
    (∃ start : ReadStart, (start = .addressed a ∨ (start = .standing ∧ s.management.pointer = a)) ∧
      (c = .statusRead { start := start, count := count } ∨ c = .resultRead { start := start, count := count })) →
    s.quiet = true → s.held = false → a.toNat + count ≤ 256 → ∃ t : State, exec c s = .next t ∧
      t.management.readOut = (s.window.drop a.toNat).take count) ∧
  (∀ s : State,
    let view := fun n : Agent => (s.session n).state.code :: two (s.session n).leaseCount ++ [0x00]
    let key := fun i : Nat => s.management.keyLength ≤ i ∧ i < 24
    s.window.length = 256 ∧
    s.window = [0x5E, 0x7A, 0x41, 0x60, 0x01, s.statusByte, s.monitor.timeState.code, 0x00] ++
      view 0 ++ view 1 ++ view 2 ++ view 3 ++
      two s.settings.defaultLife ++ two s.settings.minLife ++ two s.settings.maxLife ++ two s.settings.derate.code ++
      two s.settings.createBurst ++ two s.settings.createSpan ++ two s.settings.standbyMax ++
      two s.settings.holdoverMax ++ two s.settings.timeSource.code ++ two (s.settings.quota.get 0) ++
      two (s.settings.quota.get 1) ++ two (s.settings.quota.get 2) ++ two (s.settings.quota.get 3) ++ [0x00, 0x00] ++
      ((List.range 63).map fun i => if 7 ≤ i ∧ key (i - 7) then 0x00 else s.management.fields.getD i 0) ++
      [s.management.code, resultByte s.management.result, 0x00, 0x00, 0x00] ++ summaryBytes s.management.output ∧
    s.statusByte.getLsbD 0 = decide (s.table = .ready) ∧ s.statusByte.getLsbD 1 = s.monitor.managementFlag ∧
    s.statusByte.getLsbD 2 = decide (s.epochSource = 0xFFFFFFFF) ∧ s.statusByte.getLsbD 3 = false ∧
    s.statusByte.toNat / 16 =
      (match s.management.mailbox with | .empty => 0 | .busy => 1 | .done => 2)) ∧
  [AgentState.unjoined, .active, .standby, .evicted].map AgentState.code = [0, 1, 2, 3] ∧
  [TimeSource.reference, .internal].map TimeSource.code = [0, 1] ∧
  [none, some MailboxResult.ok, some .badValue, some .agentsActive, some .exists_, some .noSuchKey, some .tableFull,
    some .recordBusy, some .notReady, some .badRequest].map resultByte = [0xFF, 0, 1, 2, 3, 4, 5, 6, 7, 8] ∧
  summaryBytes none = List.replicate 136 0x00 ∧
  ∀ x : Summary,
    let holder := fun k : Nat => match x.record.holders[k]? with
      | some h => [BitVec.ofNat 8 h.agent.val, h.mode.code, h.status.code] ++ two h.remaining ++ two h.granted ++
          four (h.epoch.getD 0)
      | none => List.replicate 11 0x00
    let claim := fun k : Nat => match x.record.queue[k]? with
      | some c => [BitVec.ofNat 8 c.agent.val, c.kind.code] ++ two c.requested ++ two c.wait
      | none => List.replicate 6 0x00
    summaryBytes (some x) = [x.record.reported.code] ++ two x.handle.toNat ++
      [if x.record.persistent then 0x01 else 0x00, BitVec.ofNat 8 x.freeWays, BitVec.ofNat 8 x.record.key.length] ++
      ((List.range 24).map fun i => x.record.key.getD i 0) ++ four x.record.lastEpoch ++
      ((List.range 8).flatMap fun w => four (x.record.value.getD w 0)) ++
      [BitVec.ofNat 8 x.record.holders.length, BitVec.ofNat 8 x.record.queue.length] ++
      holder 0 ++ holder 1 ++ holder 2 ++ holder 3 ++ claim 0 ++ claim 1 ++ claim 2 ++ claim 3

/-- R165, R166, R172: a byte written goes to the byte the pointer names, which then advances: a request field is
stored, the request code starts a request, the code 08h a SOFT_RESET, every other address ignores it, and so does a BUSY
mailbox. While a reset is held, and until a START has been seen, nothing written has an effect (R165). R165: the port
acknowledges its own address in both directions and every whole byte written, at any register, and no other target's; it
acknowledges nothing while a reset is held or before a START (a view, log 14: no rule reads it). -/
def Obligations.WritesReachTheRequestFields : Prop :=
  (∀ (s : State) (address data : Option Byte), s.quiet = true →
    (s.held = true ∨ (address = none ∧ s.management.listening = false)) →
    exec (.registerWrite address data) s = .next s) ∧
  (∀ (s : State) (target : BitVec 7) (newStart : Bool) (byte : BusByte),
    s.acknowledges target newStart byte = true ↔
      target = 0x3A ∧ s.held = false ∧ (newStart = true ∨ s.management.listening = true)) ∧
  ∀ (s : State) (address : Option Byte), s.quiet = true → s.held = false →
    (address.isSome = true ∨ s.management.listening = true) →
    let m : Management := match address with
      | some a => { s.management with listening := true, pointer := a, fieldLatch := none, outputLatch := none }
      | none => s.management
    let p := m.pointer.toNat
    exec (.registerWrite address none) s = .next (s.setManagement m) ∧
    ∀ v : Byte,
      ((s.management.mailbox = .busy ∨ p < 0x34 ∨ 0x73 < p) → exec (.registerWrite address (some v)) s =
        .next (s.setManagement { m with pointer := m.pointer + 1 })) ∧
      (s.management.mailbox ≠ .busy → 0x34 ≤ p → p ≤ 0x72 → ∃ fields : List Byte,
        fields.length = 63 ∧
        (∀ i, i < 63 → fields.getD i 0 = if i = p - 0x34 then v else s.management.fields.getD i 0) ∧
        exec (.registerWrite address (some v)) s =
          .next (s.setManagement { m with pointer := m.pointer + 1, fields := fields })) ∧
      (s.management.mailbox ≠ .busy → p = 0x73 → v ≠ 0x08 → exec (.registerWrite address (some v)) s =
        .next (s.setManagement { m with
          listening := true, pointer := 0x74, mailbox := .busy, code := v, result := none, fieldLatch := none,
          outputLatch := none })) ∧
      (s.management.mailbox ≠ .busy → p = 0x73 → v = 0x08 →
        exec (.registerWrite address (some v)) s = exec .softReset s)

/-! ### The time base and the tick -/

/-- R130 to R134, Table 47: pulses and missing pulses in each reference state; a pulse ends the interval of the time
since the last pulse and the time passed since the monitor's latest event (log 7). A pulse later than 1500 µs comes
after the missing-pulse event (log 8), which in LOCKED and DRIFT is the change to HOLDOVER, and then begins the
acquisition; an event that cannot arise changes nothing (log 6). -/
def Obligations.TimeBaseFollowsTheReference : Prop :=
  ∀ (s : State) (ns : Nat), s.quiet = true →
    let m := s.monitor
    let advanced : Divider := match m.divider with
      | .stopped => .stopped
      | .running p => .running (min (p + ns) 1000000)
    let pulsed : Monitor := { m with lastPulse := .present 0, divider := advanced }
    (s.held = true ∨ s.settings.timeSource = .internal →
      exec (.trefPulse ns) s = .next s ∧ exec .missingPulse s = .next s) ∧
    (s.held = false → s.settings.timeSource = .reference →
      (∀ since : Nat, m.lastPulse = .present since → since + ns ≤ 1500000 →
        (990000 ≤ since + ns ∧ since + ns ≤ 1010000 →
          ((m.timeState = .acquiring ∨ m.timeState = .drift) → m.good + 1 ≠ 8 →
            exec (.trefPulse ns) s = .next (s.setMonitor { pulsed with good := m.good + 1 })) ∧
          ((m.timeState = .acquiring ∨ m.timeState = .drift) → m.good + 1 = 8 →
            exec (.trefPulse ns) s = .next (s.changeTime { pulsed with timeState := .locked, good := 8 })) ∧
          (m.timeState = .locked → exec (.trefPulse ns) s = .next (s.setMonitor pulsed).tick)) ∧
        (since + ns < 990000 ∨ 1010000 < since + ns →
          ((m.timeState = .acquiring ∨ m.timeState = .drift) →
            exec (.trefPulse ns) s = .next (s.setMonitor { pulsed with good := 0 })) ∧
          (m.timeState = .locked →
            exec (.trefPulse ns) s = .next (s.changeTime { pulsed with timeState := .drift, good := 0 })))) ∧
      (∀ since : Nat, m.lastPulse = .present since → 1500000 < since + ns →
        (m.timeState = .acquiring →
          exec (.trefPulse ns) s = .next (s.setMonitor { pulsed with good := 0 })) ∧
        (m.timeState = .locked ∨ m.timeState = .drift →
          let late := s.changeTime
            { m with timeState := .holdover, lastPulse := .absent, good := 0, elapsed := 0 }
          exec (.trefPulse ns) s = .next (late.changeTime
            { late.monitor with timeState := .acquiring, lastPulse := .present 0, good := 0, elapsed := 0 }))) ∧
      (m.lastPulse = .absent → m.timeState ≠ .holdover → m.timeState ≠ .unsafeTime →
        exec (.trefPulse ns) s = .next (s.setMonitor pulsed)) ∧
      (m.timeState = .holdover ∨ m.timeState = .unsafeTime → exec (.trefPulse ns) s = .next
        (s.changeTime { pulsed with timeState := .acquiring, good := 0, elapsed := 0 })) ∧
      (∀ since : Nat, m.lastPulse = .present since → m.timeState = .acquiring →
        exec .missingPulse s = .next (s.setMonitor { m with
          lastPulse := .absent, good := 0,
          divider := (match m.divider with
            | .stopped => .stopped
            | .running p => .running (min (p + (1500000 - since)) 1000000)) })) ∧
      (∀ since : Nat, m.lastPulse = .present since → (m.timeState = .locked ∨ m.timeState = .drift) →
        exec .missingPulse s = .next
          (s.changeTime { m with timeState := .holdover, lastPulse := .absent, good := 0, elapsed := 0 })) ∧
      (m.lastPulse = .absent → exec .missingPulse s = .next s))

/-- R72, R137, R140, R141, R142: a change of time state starts or stops the divider, sets the flag of every ACTIVE or
STANDBY agent and the management flag, and, when it leaves a withholding state for a permitting one, runs every
record's grant check; it reaches no session, port, setting or register. -/
def Obligations.ChangesOfTimeStateSetTheFlags : Prop :=
  ∀ (s : State) (m : Monitor),
    let t := s.changeTime m
    let flagged : State := { s with monitor := { m with
      divider := (if m.timeState = .locked then .stopped else .running 0),
      agentFlags := t.monitor.agentFlags, managementFlag := true } }
    (∀ n : Agent, t.monitor.agentFlags.get n =
      (s.monitor.agentFlags.get n || (s.session n).state == .active || (s.session n).state == .standby)) ∧
    ((s.monitor.timeState = .acquiring ∨ s.monitor.timeState = .unsafeTime) →
      m.timeState ≠ .acquiring → m.timeState ≠ .unsafeTime →
      t = (Sparse.keys s.records).foldl State.grantCheck flagged) ∧
    ((s.monitor.timeState ≠ .acquiring ∧ s.monitor.timeState ≠ .unsafeTime) ∨
      m.timeState = .acquiring ∨ m.timeState = .unsafeTime → t = flagged) ∧
    t.monitor = flagged.monitor ∧ t.sessions = s.sessions ∧ t.ports = s.ports ∧ t.settings = s.settings ∧
    t.management = s.management

/-- R39, R63, R110, R121, R134, R137, R138: a tick lowers every RUNNING lease, every wait and every standby countdown
by one, ages every window entry, and counts the holdover; a divider tick is taken while the divider runs, which goes on
from 0. That a tick counts everything first and takes what has run out afterwards is the model's reading (log 2,
DEDUCED, unsafe); that a stopped divider's tick has no effect is its choice (log 6, DESIGN CHOICE), and so is that the
time since the last pulse stops at 1500 µs (log 7, DESIGN CHOICE, unsafe). -/
def Obligations.ATickCountsEverythingByOne : Prop :=
  ∀ s : State,
    let holder := fun h : Holder => if h.status = .running then { h with remaining := h.remaining - 1 } else h
    let claim := fun c : Claim => { c with wait := c.wait - 1 }
    let record := fun p : Nat × Record =>
      (p.1, { p.2 with holders := p.2.holders.map holder, queue := p.2.queue.map claim })
    let session := fun a : Session => { a with
      window := a.window.map (fun age => age + 1),
      standby := a.standby.map fun b => { b with countdown := b.countdown - 1 } }
    s.tick.records = s.records.map record ∧
    (∀ n : Agent, s.tick.session n = session (s.session n)) ∧
    s.tick.monitor = { s.monitor with
      elapsed := if s.monitor.timeState = .holdover ∨ s.monitor.timeState = .unsafeTime
                 then min (s.monitor.elapsed + 1) 65535 else s.monitor.elapsed } ∧
    { s.tick with records := s.records, sessions := s.sessions, monitor := s.monitor } = s ∧
    (s.quiet = true →
      (s.held = false → ∀ p : Nat, s.monitor.divider = .running p → exec .dividerTick s = .next
        (s.setMonitor { s.monitor with
          divider := .running 0,
          lastPulse := (match s.monitor.lastPulse with
            | .absent => .absent
            | .present since => .present (min (since + (1000000 - p)) 1500000)) }).tick) ∧
      (s.held = true ∨ s.monitor.divider = .stopped → exec .dividerTick s = .next s))

/-- R40, R64, R65: the expiry of a lease, of a wait and of an upgrade's wait that is due, no lower slot having one due;
otherwise these commands change nothing (log 6). R39, R66, R124, R134, logs 2 to 5: a command given in the middle of a tick
finds what is still due taken first, but that a WAKE may come before its agent's standby expiry, and that an expiry waits
for lower slots alone. `settle` takes all: the lowest slot's due parts one after another, then the next slot's, with the
change to UNSAFE before or after them, then each session's; nothing is due after it. -/
def Obligations.ExpiriesAreTakenWhole : Prop :=
  (∀ (s : State) (slot : Nat) (n : Agent), (∀ i ∈ s.dueSlots, slot ≤ i) →
    (s.record slot = none → exec (.leaseExpiry slot n) s = .next s ∧ exec (.waitExpiry slot n) s = .next s ∧
      exec (.upgradeWaitExpiry slot n) s = .next s) ∧
    ∀ r : Record, s.record slot = some r →
      let plain := fun (t : State) kind => t.setCells n (Sparse.put slot
        { kind := kind, gen := s.generation slot, lifetime := none, epoch := none } (s.cells.get n))
      let dropped := { r with
        holders := r.holders.filter fun h => h.agent != n, queue := r.queue.filter fun c => c.agent != n }
      let lease := ∃ h ∈ r.holders, h.agent = n ∧ h.status = .running ∧ h.remaining = 0
      let wait := ∃ c ∈ r.queue, c.agent = n ∧ c.kind ≠ .upgrade ∧ c.wait = 0
      let upgrade := ∃ c ∈ r.queue, c.agent = n ∧ c.kind = .upgrade ∧ c.wait = 0
      (lease → exec (.leaseExpiry slot n) s = .next
        ((((plain (s.putRecord slot dropped) .expired).losePart n).grantCheck slot).retireIfEmpty slot)) ∧
      (wait → exec (.waitExpiry slot n) s = .next
        ((((plain (s.putRecord slot dropped) .waitExpired).losePart n).grantCheck slot).retireIfEmpty slot)) ∧
      (upgrade → exec (.upgradeWaitExpiry slot n) s = .next
        ((plain (s.putRecord slot { r with queue := r.queue.filter fun c => c.agent != n })
          .waitExpired).grantCheck slot)) ∧
      (¬ lease → exec (.leaseExpiry slot n) s = .next s) ∧ (¬ wait → exec (.waitExpiry slot n) s = .next s) ∧
      (¬ upgrade → exec (.upgradeWaitExpiry slot n) s = .next s)) ∧
  ∀ s : State, (s.canonical && s.keptAlive) = true →
    (∀ c : Instr, c.tickPart = false → c.fullReset = false → (∀ n t b, c ≠ .wake n t b) →
      exec c s = exec c s.settle) ∧
    (∀ (n : Agent) (t : Transfer) (b : List Byte), exec (.wake n t b) s = exec (.wake n t b) (s.settleForWake n)) ∧
    (∀ (slot : Nat) (n : Agent) (c : Instr),
      c = .leaseExpiry slot n ∨ c = .waitExpiry slot n ∨ c = .upgradeWaitExpiry slot n →
      exec c s = exec c (s.settleBelow slot) ∧ ∀ i ∈ (s.settleBelow slot).dueSlots, slot ≤ i) ∧
    s.settle.quiet = true ∧ (∀ n : Agent, (s.settleForWake n).quietBut n = true) ∧
    (∀ (slot : Nat) (others : List Nat), s.dueSlots = slot :: others → s.limitDue = false →
      ∃ (u t : State) (n : Agent) (c : Instr), (u = s ∨ u = { s with choices := s.choices + 1 }) ∧
        ((c = .leaseExpiry slot n ∧ .lease n ∈ s.dueParts slot) ∨
          (c = .waitExpiry slot n ∧ .wait n ∈ s.dueParts slot) ∨
          (c = .upgradeWaitExpiry slot n ∧ .upgradeWait n ∈ s.dueParts slot)) ∧
        exec c u = .next t ∧ s.settle = t.settle) ∧
    (s.limitDue = true → ∃ u t : State, (u = s ∨ u = { s with choices := s.choices + 1 }) ∧
      exec .holdoverLimitReached u = .next t ∧ (s.settle = t.settle ∨ s.settle = u.settleTable.settle)) ∧
    (s.dueSlots = [] → s.limitDue = false →
      s.settle = (((s.settleSession 0).settleSession 1).settleSession 2).settleSession 3) ∧
    ∀ n : Agent, ∃ t : State, exec (.standbyExpiry n) s = .next t ∧
      s.settleSession n = t.setSession n { t.session n with
        window := (t.session n).window.filter fun age => decide (age < t.settings.createSpan) }

/-- R110, R124, R134: the standby expiry, the leaving of a window entry and the change to UNSAFE, when due and when
not. -/
def Obligations.StandbyWindowAndHoldoverRunOut : Prop :=
  ∀ (s : State) (n : Agent),
    (∀ b : Standby, (s.session n).state = .standby → (s.session n).standby = some b →
      (b.countdown = 0 → exec (.standbyExpiry n) s = .next
        (({ s with
            records := s.records.map fun p => (p.1, { p.2 with
              holders := p.2.holders.map fun h =>
                if h.agent == n && h.status == .kept then { h with status := .running } else h }) }
          : State).setSession n { s.session n with state := .active, standby := none, lapsed := true })) ∧
      (b.countdown ≠ 0 → exec (.standbyExpiry n) s = .next s)) ∧
    ((s.session n).state ≠ .standby → exec (.standbyExpiry n) s = .next s) ∧
    (∀ (age : Nat) (rest : List Nat), (s.session n).window = age :: rest →
      (s.settings.createSpan ≤ age → exec (.creationEntryLeaves n) s =
        .next (s.setSession n { s.session n with window := rest }))) ∧
    ((∀ age ∈ (s.session n).window, age < s.settings.createSpan) →
      exec (.creationEntryLeaves n) s = .next s) ∧
    (s.monitor.timeState = .holdover → s.settings.holdoverMax ≤ s.monitor.elapsed →
      exec .holdoverLimitReached s = .next (s.changeTime { s.monitor with timeState := .unsafeTime })) ∧
    (s.monitor.timeState ≠ .holdover ∨ s.monitor.elapsed < s.settings.holdoverMax →
      exec .holdoverLimitReached s = .next s)

/-! ### Invariants of every step -/

/-- R25, R28, R81: an EXCLUSIVE holder is alone on its record and carries the record's last epoch, a SHARED holder
carries none, and no last epoch is above the epoch source. -/
def Obligations.ExclusiveHoldersStayAloneAndFenced : Prop :=
  ∀ s t : State, (s.exclusivity && s.fencing) = true → step s = .next t →
    (t.exclusivity && t.fencing) = true

/-- R1, R10: the record table, the generations and the notice cells keep their one form. R4, R5, R6, R9, R51, R75: every
record stands in a slot of the bucket its key hashes to, no two records have one key, keys have 1 to 24 bytes and values
eight words, holders stand in ascending agent number, queues keep their order, and a transient record has a holder or a
claim. R39, R122: a KEPT lease has a tick remaining. -/
def Obligations.TablesKeepTheirForm : Prop :=
  (∀ s t : State, s.canonical = true → step s = .next t → t.canonical = true) ∧
  ∀ s t : State, (s.canonical && s.recordsFormed && s.placed && s.keptAlive) = true → step s = .next t →
    (t.canonical && t.recordsFormed && t.placed && t.keptAlive) = true

/-- R56: between events every first claim conflicts with its record's holders or is withheld. -/
def Obligations.FirstClaimsStayBlocked : Prop :=
  ∀ s t : State, (s.canonical && s.frontsBlocked) = true → step s = .next t →
    (t.canonical && t.frontsBlocked) = true

/-- R129, R137, R169: settings stay in their ranges, FREE_RUN goes with TIME_SOURCE INTERNAL, and the monitor's counts,
last pulse and divider stay as its state says. R130, R131, R134: a last pulse stands in ACQUIRING, LOCKED and DRIFT alone.
That the time since the last pulse stops at 1500 µs and the divider's position at 1000 µs is the model's clamping (log 7,
DESIGN CHOICE, unsafe). -/
def Obligations.SettingsAndMonitorStayLegal : Prop :=
  ∀ s t : State, (s.settings.inRange && s.sourceMatches && s.monitorFormed) = true → step s = .next t →
    (t.settings.inRange && t.sourceMatches && t.monitorFormed) = true

/-- R38, R51, R98: every lease count is the number of records in which its agent has a part; the queues keep their
order; an UNJOINED or EVICTED agent has no part, no notice, no window entry and no standby record. R22, R115: an
INITIALIZING table holds no record and no agent is joined. R108, R110, R116, R122: with the table's form, no lease count
is above its quota, no window holds more entries than CREATE_BURST, a STANDBY agent's leases are KEPT and counted by its
kept-set remaining, it waits nowhere, and every other agent's leases are RUNNING. -/
def Obligations.LeaseCountsCountTheTable : Prop :=
  (∀ s t : State,
    (s.canonical && s.everyRecord Record.queueOrdered && s.counted && s.outsidersEmpty && s.sweepEmpty) = true →
    step s = .next t →
    (t.canonical && t.everyRecord Record.queueOrdered && t.counted && t.outsidersEmpty && t.sweepEmpty) = true) ∧
  ∀ s t : State,
    (s.canonical && s.recordsFormed && s.placed && s.keptAlive && s.counted && s.outsidersEmpty && s.sweepEmpty &&
      s.withinQuota && s.windowsBounded && s.standbyKept) = true → step s = .next t →
    (t.canonical && t.recordsFormed && t.placed && t.keptAlive && t.counted && t.outsidersEmpty && t.sweepEmpty &&
      t.withinQuota && t.windowsBounded && t.standbyKept) = true

/-- The state after reset has every invariant stated above. -/
def Obligations.ResetHasTheInvariants : Prop :=
  State.reset.exclusivity = true ∧ State.reset.fencing = true ∧ State.reset.canonical = true ∧
  State.reset.frontsBlocked = true ∧ State.reset.settings.inRange = true ∧ State.reset.sourceMatches = true ∧
  State.reset.monitorFormed = true ∧ State.reset.everyRecord Record.queueOrdered = true ∧
  State.reset.counted = true ∧ State.reset.outsidersEmpty = true ∧ State.reset.sweepEmpty = true ∧
  State.reset.recordsFormed = true ∧ State.reset.placed = true ∧ State.reset.keptAlive = true ∧
  State.reset.withinQuota = true ∧ State.reset.windowsBounded = true ∧ State.reset.standbyKept = true

/-- R28, R30: the epoch source falls at a power-on or pin reset alone. -/
def Obligations.EpochsNeverFall : Prop :=
  ∀ (c : Instr) (s t : State), c.fullReset = false → exec c s = .next t →
    s.epochSource.toNat ≤ t.epochSource.toNat

end
end

