-- ==== Sys2Proof/Laws/Basics.lean ====
section
/-! SUPPORT. What a per-agent value and a sparse table give back after they are written. -/

namespace Sys2Proof

@[simp] theorem PerAgent.get_set_same {α : Type} (p : PerAgent α) (n : Agent) (x : α) : (p.set n x).get n = x := by
  fin_cases n <;> rfl

theorem PerAgent.get_set_ne {α : Type} (p : PerAgent α) {n m : Agent} (h : m ≠ n) (x : α) :
    (p.set n x).get m = p.get m := by
  fin_cases n <;> fin_cases m <;> first | rfl | exact absurd rfl h

theorem PerAgent.get_set {α : Type} (p : PerAgent α) (n m : Agent) (x : α) :
    (p.set n x).get m = if m = n then x else p.get m := by
  by_cases h : m = n
  · subst h; simp
  · simp [h, PerAgent.get_set_ne p h]

@[simp] theorem PerAgent.set_set {α : Type} (p : PerAgent α) (n : Agent) (x y : α) :
    (p.set n x).set n y = p.set n y := by
  fin_cases n <;> rfl

@[simp] theorem PerAgent.set_get {α : Type} (p : PerAgent α) (n : Agent) : p.set n (p.get n) = p := by
  fin_cases n <;> rfl

@[simp] theorem PerAgent.get_all {α : Type} (x : α) (n : Agent) : (PerAgent.all x).get n = x := by
  fin_cases n <;> rfl

/-- Two per-agent values with the same value for each agent are the same. -/
theorem PerAgent.ext_get {α : Type} {p q : PerAgent α} (h : ∀ n, p.get n = q.get n) : p = q := by
  cases p; cases q
  have h0 := h 0; have h1 := h 1; have h2 := h 2; have h3 := h 3
  simp_all [PerAgent.get]

/-- A claim about every agent of the list `agents` is a claim about every agent. -/
theorem all_agents (p : Agent → Bool) : agents.all p = true ↔ ∀ n, p n = true := by
  constructor
  · intro h n
    simp [agents] at h
    fin_cases n <;> simp_all
  · intro h; simp [agents, h]

end Sys2Proof

namespace Sys2Proof.Machine.Sparse

variable {α : Type}

@[simp] theorem find_put_same (i : Nat) (x : α) (t : List (Nat × α)) : find i (put i x t) = some x := by
  induction t with
  | nil => simp [put, find]
  | cons p t ih =>
    obtain ⟨j, y⟩ := p
    simp only [put]
    split
    · simp [find]
    · split
      · simp [find]
      · simp [find, *]

theorem find_put_ne {i k : Nat} (h : k ≠ i) (x : α) (t : List (Nat × α)) : find k (put i x t) = find k t := by
  induction t with
  | nil => simp [put, find, h]
  | cons p t ih =>
    obtain ⟨j, y⟩ := p
    simp only [put]
    split
    · simp [find, h]
    · split
      · rename_i h1 h2; subst h2; simp [find, h]
      · simp [find, ih]

theorem find_drop_ne {i k : Nat} (h : k ≠ i) (t : List (Nat × α)) : find k (drop i t) = find k t := by
  induction t with
  | nil => rfl
  | cons p t ih =>
    obtain ⟨j, y⟩ := p
    simp only [drop]
    split
    · rename_i h2; subst h2; simp [find, h]
    · simp [find, ih]

@[simp] theorem put_put (i : Nat) (x y : α) (t : List (Nat × α)) : put i x (put i y t) = put i x t := by
  induction t with
  | nil => simp [put]
  | cons p t ih =>
    obtain ⟨j, z⟩ := p
    by_cases h1 : i < j
    · simp [put, h1]
    · by_cases h2 : i = j
      · simp [put, h2]
      · simp [put, h1, h2, ih]

/-- What a lookup finds is an entry of the table. -/
theorem mem_of_find {i : Nat} {x : α} {t : List (Nat × α)} (h : find i t = some x) : (i, x) ∈ t := by
  induction t with
  | nil => simp [find] at h
  | cons p t ih =>
    obtain ⟨j, y⟩ := p
    simp only [find] at h
    split at h
    · rename_i hij; subst hij; simp_all
    · exact List.mem_cons_of_mem _ (ih h)

/-- The entries after a write are the new one and old ones. -/
theorem mem_put {i : Nat} {x : α} {t : List (Nat × α)} {p : Nat × α} (h : p ∈ put i x t) :
    p = (i, x) ∨ p ∈ t := by
  induction t with
  | nil => simp [put] at h; exact Or.inl h
  | cons q t ih =>
    obtain ⟨j, y⟩ := q
    simp only [put] at h
    split at h
    · simpa using h
    · split at h
      · rcases List.mem_cons.1 h with h | h
        · exact Or.inl h
        · exact Or.inr (List.mem_cons_of_mem _ h)
      · rcases List.mem_cons.1 h with h | h
        · exact Or.inr (by simp [h])
        · rcases ih h with h | h
          · exact Or.inl h
          · exact Or.inr (List.mem_cons_of_mem _ h)

/-- The entries after a removal are old ones. -/
theorem mem_drop {i : Nat} {t : List (Nat × α)} {p : Nat × α} (h : p ∈ drop i t) : p ∈ t := by
  induction t with
  | nil => exact h
  | cons q t ih =>
    obtain ⟨j, y⟩ := q
    simp only [drop] at h
    split at h
    · exact List.mem_cons_of_mem _ h
    · rcases List.mem_cons.1 h with h | h
      · simp [h]
      · exact List.mem_cons_of_mem _ (ih h)

/-! ### The canonical form -/

theorem wf_cons {b i : Nat} {x : α} {t : List (Nat × α)} :
    wf b ((i, x) :: t) = true ↔ i < b ∧ (∀ p ∈ t, i < p.1) ∧ wf b t = true := by
  simp [wf, and_assoc]

theorem lt_of_wf {b : Nat} {t : List (Nat × α)} (h : wf b t = true) : ∀ p ∈ t, p.1 < b := by
  induction t with
  | nil => simp
  | cons q t ih =>
    obtain ⟨i, x⟩ := q
    rw [wf_cons] at h
    intro p hp
    rcases List.mem_cons.1 hp with rfl | hp
    · exact h.1
    · exact ih h.2.2 p hp

theorem find_none_of_lt {i : Nat} {t : List (Nat × α)} (h : ∀ p ∈ t, i < p.1) : find i t = none := by
  induction t with
  | nil => rfl
  | cons q t ih =>
    obtain ⟨j, x⟩ := q
    have hj : i < j := h (j, x) (by simp)
    simp only [find, Nat.ne_of_lt hj, if_false]
    exact ih fun p hp => h p (List.mem_cons_of_mem _ hp)

/-- In the canonical form the entries are what lookups find. -/
theorem mem_iff_find {b : Nat} {t : List (Nat × α)} (h : wf b t = true) {i : Nat} {x : α} :
    (i, x) ∈ t ↔ find i t = some x := by
  constructor
  · intro hm
    induction t with
    | nil => simp at hm
    | cons q t ih =>
      obtain ⟨j, y⟩ := q
      rw [wf_cons] at h
      rcases List.mem_cons.1 hm with heq | hm
      · cases heq; simp [find]
      · have : j < i := h.2.1 _ hm
        simp only [find, (Nat.ne_of_lt this).symm, if_false]
        exact ih h.2.2 hm
  · exact mem_of_find

theorem wf_put {b i : Nat} (x : α) {t : List (Nat × α)} (h : wf b t = true) (hi : i < b) :
    wf b (put i x t) = true := by
  induction t with
  | nil => simp [put, wf, hi]
  | cons q t ih =>
    obtain ⟨j, y⟩ := q
    have h0 := h
    rw [wf_cons] at h
    simp only [put]
    split
    · rename_i hlt
      rw [wf_cons]
      refine ⟨hi, ?_, h0⟩
      intro p hp
      rcases List.mem_cons.1 hp with rfl | hp
      · exact hlt
      · exact Nat.lt_trans hlt (h.2.1 p hp)
    · split
      · rename_i heq; subst heq
        rw [wf_cons]; exact h
      · rename_i h1 h2
        rw [wf_cons]
        refine ⟨h.1, ?_, ih h.2.2⟩
        intro p hp
        rcases mem_put hp with rfl | hp
        · simp only; omega
        · exact h.2.1 p hp

/-- Writing what a canonical table already lists changes nothing. -/
theorem put_self {b i : Nat} {x : α} {t : List (Nat × α)} (h : wf b t = true) (hf : find i t = some x) :
    put i x t = t := by
  induction t with
  | nil => simp [find] at hf
  | cons p t ih =>
    obtain ⟨j, y⟩ := p
    rw [wf_cons] at h
    simp only [find] at hf
    split at hf
    · rename_i e
      subst e
      simp_all [put]
    · rename_i e
      have := h.2.1 _ (mem_of_find hf)
      simp only at this
      rw [put, if_neg (by omega), if_neg e, ih h.2.2 hf]

theorem wf_drop {b i : Nat} {t : List (Nat × α)} (h : wf b t = true) : wf b (drop i t) = true := by
  induction t with
  | nil => rfl
  | cons q t ih =>
    obtain ⟨j, y⟩ := q
    rw [wf_cons] at h
    simp only [drop]
    split
    · exact h.2.2
    · rw [wf_cons]
      exact ⟨h.1, fun p hp => h.2.1 p (mem_drop hp), ih h.2.2⟩

theorem find_drop_same {b i : Nat} {t : List (Nat × α)} (h : wf b t = true) : find i (drop i t) = none := by
  induction t with
  | nil => rfl
  | cons q t ih =>
    obtain ⟨j, y⟩ := q
    rw [wf_cons] at h
    simp only [drop]
    split
    · rename_i heq; subst heq; exact find_none_of_lt h.2.1
    · rename_i hne; simp only [find, hne, if_false]; exact ih h.2.2

/-- A map over the values keeps the canonical form. -/
theorem wf_map {β : Type} {b : Nat} {t : List (Nat × α)} (f : Nat × α → Nat × β) (hf : ∀ p, (f p).1 = p.1)
    (h : wf b t = true) : wf b (t.map f) = true := by
  induction t with
  | nil => rfl
  | cons q t ih =>
    obtain ⟨j, y⟩ := q
    rw [wf_cons] at h
    have hj : f (j, y) = (j, (f (j, y)).2) := Prod.ext (hf (j, y)) rfl
    rw [List.map_cons, hj, wf_cons]
    refine ⟨h.1, ?_, ih h.2.2⟩
    intro p hp
    obtain ⟨q, hq, rfl⟩ := List.mem_map.1 hp
    rw [hf]; exact h.2.1 q hq

end Sys2Proof.Machine.Sparse
end

