-- ==== Sys2Proof/Laws/State.lean ====
section
/-! SUPPORT. One law for each field of the state and each update of it, true by rfl, so that no later proof unfolds a
record update. -/

namespace Sys2Proof.Machine

variable (s : State)

/-! ### setSession -/

@[simp] theorem State.setSession_held (n : Agent) (a : Session) : (s.setSession n a).held = s.held := rfl
@[simp] theorem State.setSession_table (n : Agent) (a : Session) : (s.setSession n a).table = s.table := rfl
@[simp] theorem State.setSession_records (n : Agent) (a : Session) : (s.setSession n a).records = s.records := rfl
@[simp] theorem State.setSession_generations (n : Agent) (a : Session) : (s.setSession n a).generations = s.generations := rfl
@[simp] theorem State.setSession_epochSource (n : Agent) (a : Session) : (s.setSession n a).epochSource = s.epochSource := rfl
@[simp] theorem State.setSession_sessions (n : Agent) (a : Session) : (s.setSession n a).sessions = s.sessions.set n a := rfl
@[simp] theorem State.setSession_sessionCounter (n : Agent) (a : Session) : (s.setSession n a).sessionCounter = s.sessionCounter := rfl
@[simp] theorem State.setSession_cells (n : Agent) (a : Session) : (s.setSession n a).cells = s.cells := rfl
@[simp] theorem State.setSession_monitor (n : Agent) (a : Session) : (s.setSession n a).monitor = s.monitor := rfl
@[simp] theorem State.setSession_ports (n : Agent) (a : Session) : (s.setSession n a).ports = s.ports := rfl
@[simp] theorem State.setSession_settings (n : Agent) (a : Session) : (s.setSession n a).settings = s.settings := rfl
@[simp] theorem State.setSession_management (n : Agent) (a : Session) : (s.setSession n a).management = s.management := rfl
@[simp] theorem State.setSession_choices (n : Agent) (a : Session) : (s.setSession n a).choices = s.choices := rfl
@[simp] theorem State.setSession_pending (n : Agent) (a : Session) : (s.setSession n a).pending = s.pending := rfl

/-! ### setPort -/

@[simp] theorem State.setPort_held (n : Agent) (p : Port) : (s.setPort n p).held = s.held := rfl
@[simp] theorem State.setPort_table (n : Agent) (p : Port) : (s.setPort n p).table = s.table := rfl
@[simp] theorem State.setPort_records (n : Agent) (p : Port) : (s.setPort n p).records = s.records := rfl
@[simp] theorem State.setPort_generations (n : Agent) (p : Port) : (s.setPort n p).generations = s.generations := rfl
@[simp] theorem State.setPort_epochSource (n : Agent) (p : Port) : (s.setPort n p).epochSource = s.epochSource := rfl
@[simp] theorem State.setPort_sessions (n : Agent) (p : Port) : (s.setPort n p).sessions = s.sessions := rfl
@[simp] theorem State.setPort_sessionCounter (n : Agent) (p : Port) : (s.setPort n p).sessionCounter = s.sessionCounter := rfl
@[simp] theorem State.setPort_cells (n : Agent) (p : Port) : (s.setPort n p).cells = s.cells := rfl
@[simp] theorem State.setPort_monitor (n : Agent) (p : Port) : (s.setPort n p).monitor = s.monitor := rfl
@[simp] theorem State.setPort_ports (n : Agent) (p : Port) : (s.setPort n p).ports = s.ports.set n p := rfl
@[simp] theorem State.setPort_settings (n : Agent) (p : Port) : (s.setPort n p).settings = s.settings := rfl
@[simp] theorem State.setPort_management (n : Agent) (p : Port) : (s.setPort n p).management = s.management := rfl
@[simp] theorem State.setPort_choices (n : Agent) (p : Port) : (s.setPort n p).choices = s.choices := rfl
@[simp] theorem State.setPort_pending (n : Agent) (p : Port) : (s.setPort n p).pending = s.pending := rfl

/-! ### setCells -/

@[simp] theorem State.setCells_held (n : Agent) (c : List (Nat × Notice)) : (s.setCells n c).held = s.held := rfl
@[simp] theorem State.setCells_table (n : Agent) (c : List (Nat × Notice)) : (s.setCells n c).table = s.table := rfl
@[simp] theorem State.setCells_records (n : Agent) (c : List (Nat × Notice)) : (s.setCells n c).records = s.records := rfl
@[simp] theorem State.setCells_generations (n : Agent) (c : List (Nat × Notice)) : (s.setCells n c).generations = s.generations := rfl
@[simp] theorem State.setCells_epochSource (n : Agent) (c : List (Nat × Notice)) : (s.setCells n c).epochSource = s.epochSource := rfl
@[simp] theorem State.setCells_sessions (n : Agent) (c : List (Nat × Notice)) : (s.setCells n c).sessions = s.sessions := rfl
@[simp] theorem State.setCells_sessionCounter (n : Agent) (c : List (Nat × Notice)) : (s.setCells n c).sessionCounter = s.sessionCounter := rfl
@[simp] theorem State.setCells_cells (n : Agent) (c : List (Nat × Notice)) : (s.setCells n c).cells = s.cells.set n c := rfl
@[simp] theorem State.setCells_monitor (n : Agent) (c : List (Nat × Notice)) : (s.setCells n c).monitor = s.monitor := rfl
@[simp] theorem State.setCells_ports (n : Agent) (c : List (Nat × Notice)) : (s.setCells n c).ports = s.ports := rfl
@[simp] theorem State.setCells_settings (n : Agent) (c : List (Nat × Notice)) : (s.setCells n c).settings = s.settings := rfl
@[simp] theorem State.setCells_management (n : Agent) (c : List (Nat × Notice)) : (s.setCells n c).management = s.management := rfl
@[simp] theorem State.setCells_choices (n : Agent) (c : List (Nat × Notice)) : (s.setCells n c).choices = s.choices := rfl
@[simp] theorem State.setCells_pending (n : Agent) (c : List (Nat × Notice)) : (s.setCells n c).pending = s.pending := rfl

/-! ### setMonitor -/

@[simp] theorem State.setMonitor_held (m : Monitor) : (s.setMonitor m).held = s.held := rfl
@[simp] theorem State.setMonitor_table (m : Monitor) : (s.setMonitor m).table = s.table := rfl
@[simp] theorem State.setMonitor_records (m : Monitor) : (s.setMonitor m).records = s.records := rfl
@[simp] theorem State.setMonitor_generations (m : Monitor) : (s.setMonitor m).generations = s.generations := rfl
@[simp] theorem State.setMonitor_epochSource (m : Monitor) : (s.setMonitor m).epochSource = s.epochSource := rfl
@[simp] theorem State.setMonitor_sessions (m : Monitor) : (s.setMonitor m).sessions = s.sessions := rfl
@[simp] theorem State.setMonitor_sessionCounter (m : Monitor) : (s.setMonitor m).sessionCounter = s.sessionCounter := rfl
@[simp] theorem State.setMonitor_cells (m : Monitor) : (s.setMonitor m).cells = s.cells := rfl
@[simp] theorem State.setMonitor_monitor (m : Monitor) : (s.setMonitor m).monitor = m := rfl
@[simp] theorem State.setMonitor_ports (m : Monitor) : (s.setMonitor m).ports = s.ports := rfl
@[simp] theorem State.setMonitor_settings (m : Monitor) : (s.setMonitor m).settings = s.settings := rfl
@[simp] theorem State.setMonitor_management (m : Monitor) : (s.setMonitor m).management = s.management := rfl
@[simp] theorem State.setMonitor_choices (m : Monitor) : (s.setMonitor m).choices = s.choices := rfl
@[simp] theorem State.setMonitor_pending (m : Monitor) : (s.setMonitor m).pending = s.pending := rfl

/-! ### setManagement -/

@[simp] theorem State.setManagement_held (m : Management) : (s.setManagement m).held = s.held := rfl
@[simp] theorem State.setManagement_table (m : Management) : (s.setManagement m).table = s.table := rfl
@[simp] theorem State.setManagement_records (m : Management) : (s.setManagement m).records = s.records := rfl
@[simp] theorem State.setManagement_generations (m : Management) : (s.setManagement m).generations = s.generations := rfl
@[simp] theorem State.setManagement_epochSource (m : Management) : (s.setManagement m).epochSource = s.epochSource := rfl
@[simp] theorem State.setManagement_sessions (m : Management) : (s.setManagement m).sessions = s.sessions := rfl
@[simp] theorem State.setManagement_sessionCounter (m : Management) : (s.setManagement m).sessionCounter = s.sessionCounter := rfl
@[simp] theorem State.setManagement_cells (m : Management) : (s.setManagement m).cells = s.cells := rfl
@[simp] theorem State.setManagement_monitor (m : Management) : (s.setManagement m).monitor = s.monitor := rfl
@[simp] theorem State.setManagement_ports (m : Management) : (s.setManagement m).ports = s.ports := rfl
@[simp] theorem State.setManagement_settings (m : Management) : (s.setManagement m).settings = s.settings := rfl
@[simp] theorem State.setManagement_management (m : Management) : (s.setManagement m).management = m := rfl
@[simp] theorem State.setManagement_choices (m : Management) : (s.setManagement m).choices = s.choices := rfl
@[simp] theorem State.setManagement_pending (m : Management) : (s.setManagement m).pending = s.pending := rfl

/-! ### putRecord -/

@[simp] theorem State.putRecord_held (i : Nat) (r : Record) : (s.putRecord i r).held = s.held := rfl
@[simp] theorem State.putRecord_table (i : Nat) (r : Record) : (s.putRecord i r).table = s.table := rfl
@[simp] theorem State.putRecord_records (i : Nat) (r : Record) : (s.putRecord i r).records = Sparse.put i r s.records := rfl
@[simp] theorem State.putRecord_generations (i : Nat) (r : Record) : (s.putRecord i r).generations = s.generations := rfl
@[simp] theorem State.putRecord_epochSource (i : Nat) (r : Record) : (s.putRecord i r).epochSource = s.epochSource := rfl
@[simp] theorem State.putRecord_sessions (i : Nat) (r : Record) : (s.putRecord i r).sessions = s.sessions := rfl
@[simp] theorem State.putRecord_sessionCounter (i : Nat) (r : Record) : (s.putRecord i r).sessionCounter = s.sessionCounter := rfl
@[simp] theorem State.putRecord_cells (i : Nat) (r : Record) : (s.putRecord i r).cells = s.cells := rfl
@[simp] theorem State.putRecord_monitor (i : Nat) (r : Record) : (s.putRecord i r).monitor = s.monitor := rfl
@[simp] theorem State.putRecord_ports (i : Nat) (r : Record) : (s.putRecord i r).ports = s.ports := rfl
@[simp] theorem State.putRecord_settings (i : Nat) (r : Record) : (s.putRecord i r).settings = s.settings := rfl
@[simp] theorem State.putRecord_management (i : Nat) (r : Record) : (s.putRecord i r).management = s.management := rfl
@[simp] theorem State.putRecord_choices (i : Nat) (r : Record) : (s.putRecord i r).choices = s.choices := rfl
@[simp] theorem State.putRecord_pending (i : Nat) (r : Record) : (s.putRecord i r).pending = s.pending := rfl

/-! ### vacate -/

@[simp] theorem State.vacate_held (i : Nat) : (s.vacate i).held = s.held := rfl
@[simp] theorem State.vacate_table (i : Nat) : (s.vacate i).table = s.table := rfl
@[simp] theorem State.vacate_records (i : Nat) : (s.vacate i).records = Sparse.drop i s.records := rfl
@[simp] theorem State.vacate_generations (i : Nat) : (s.vacate i).generations = setGeneration s.generations i ((s.generation i + 1) % 32) := rfl
@[simp] theorem State.vacate_epochSource (i : Nat) : (s.vacate i).epochSource = s.epochSource := rfl
@[simp] theorem State.vacate_sessions (i : Nat) : (s.vacate i).sessions = s.sessions := rfl
@[simp] theorem State.vacate_sessionCounter (i : Nat) : (s.vacate i).sessionCounter = s.sessionCounter := rfl
@[simp] theorem State.vacate_cells (i : Nat) : (s.vacate i).cells = s.cells := rfl
@[simp] theorem State.vacate_monitor (i : Nat) : (s.vacate i).monitor = s.monitor := rfl
@[simp] theorem State.vacate_ports (i : Nat) : (s.vacate i).ports = s.ports := rfl
@[simp] theorem State.vacate_settings (i : Nat) : (s.vacate i).settings = s.settings := rfl
@[simp] theorem State.vacate_management (i : Nat) : (s.vacate i).management = s.management := rfl
@[simp] theorem State.vacate_choices (i : Nat) : (s.vacate i).choices = s.choices := rfl
@[simp] theorem State.vacate_pending (i : Nat) : (s.vacate i).pending = s.pending := rfl

/-! ### gainPart -/

@[simp] theorem State.gainPart_held (n : Agent) : (s.gainPart n).held = s.held := rfl
@[simp] theorem State.gainPart_table (n : Agent) : (s.gainPart n).table = s.table := rfl
@[simp] theorem State.gainPart_records (n : Agent) : (s.gainPart n).records = s.records := rfl
@[simp] theorem State.gainPart_generations (n : Agent) : (s.gainPart n).generations = s.generations := rfl
@[simp] theorem State.gainPart_epochSource (n : Agent) : (s.gainPart n).epochSource = s.epochSource := rfl
@[simp] theorem State.gainPart_sessionCounter (n : Agent) : (s.gainPart n).sessionCounter = s.sessionCounter := rfl
@[simp] theorem State.gainPart_cells (n : Agent) : (s.gainPart n).cells = s.cells := rfl
@[simp] theorem State.gainPart_monitor (n : Agent) : (s.gainPart n).monitor = s.monitor := rfl
@[simp] theorem State.gainPart_ports (n : Agent) : (s.gainPart n).ports = s.ports := rfl
@[simp] theorem State.gainPart_settings (n : Agent) : (s.gainPart n).settings = s.settings := rfl
@[simp] theorem State.gainPart_management (n : Agent) : (s.gainPart n).management = s.management := rfl
@[simp] theorem State.gainPart_choices (n : Agent) : (s.gainPart n).choices = s.choices := rfl
@[simp] theorem State.gainPart_pending (n : Agent) : (s.gainPart n).pending = s.pending := rfl

/-! ### losePart -/

@[simp] theorem State.losePart_held (n : Agent) : (s.losePart n).held = s.held := rfl
@[simp] theorem State.losePart_table (n : Agent) : (s.losePart n).table = s.table := rfl
@[simp] theorem State.losePart_records (n : Agent) : (s.losePart n).records = s.records := rfl
@[simp] theorem State.losePart_generations (n : Agent) : (s.losePart n).generations = s.generations := rfl
@[simp] theorem State.losePart_epochSource (n : Agent) : (s.losePart n).epochSource = s.epochSource := rfl
@[simp] theorem State.losePart_sessionCounter (n : Agent) : (s.losePart n).sessionCounter = s.sessionCounter := rfl
@[simp] theorem State.losePart_cells (n : Agent) : (s.losePart n).cells = s.cells := rfl
@[simp] theorem State.losePart_monitor (n : Agent) : (s.losePart n).monitor = s.monitor := rfl
@[simp] theorem State.losePart_ports (n : Agent) : (s.losePart n).ports = s.ports := rfl
@[simp] theorem State.losePart_settings (n : Agent) : (s.losePart n).settings = s.settings := rfl
@[simp] theorem State.losePart_management (n : Agent) : (s.losePart n).management = s.management := rfl
@[simp] theorem State.losePart_choices (n : Agent) : (s.losePart n).choices = s.choices := rfl
@[simp] theorem State.losePart_pending (n : Agent) : (s.losePart n).pending = s.pending := rfl

/-! ### loseKept -/

@[simp] theorem State.loseKept_held (n : Agent) : (s.loseKept n).held = s.held := rfl
@[simp] theorem State.loseKept_table (n : Agent) : (s.loseKept n).table = s.table := rfl
@[simp] theorem State.loseKept_records (n : Agent) : (s.loseKept n).records = s.records := rfl
@[simp] theorem State.loseKept_generations (n : Agent) : (s.loseKept n).generations = s.generations := rfl
@[simp] theorem State.loseKept_epochSource (n : Agent) : (s.loseKept n).epochSource = s.epochSource := rfl
@[simp] theorem State.loseKept_sessionCounter (n : Agent) : (s.loseKept n).sessionCounter = s.sessionCounter := rfl
@[simp] theorem State.loseKept_cells (n : Agent) : (s.loseKept n).cells = s.cells := rfl
@[simp] theorem State.loseKept_monitor (n : Agent) : (s.loseKept n).monitor = s.monitor := rfl
@[simp] theorem State.loseKept_ports (n : Agent) : (s.loseKept n).ports = s.ports := rfl
@[simp] theorem State.loseKept_settings (n : Agent) : (s.loseKept n).settings = s.settings := rfl
@[simp] theorem State.loseKept_management (n : Agent) : (s.loseKept n).management = s.management := rfl
@[simp] theorem State.loseKept_choices (n : Agent) : (s.loseKept n).choices = s.choices := rfl
@[simp] theorem State.loseKept_pending (n : Agent) : (s.loseKept n).pending = s.pending := rfl

/-! ### post -/

@[simp] theorem State.post_held (i : Nat) (n : Agent) (x : Notice) : (s.post i n x).held = s.held := rfl
@[simp] theorem State.post_table (i : Nat) (n : Agent) (x : Notice) : (s.post i n x).table = s.table := rfl
@[simp] theorem State.post_records (i : Nat) (n : Agent) (x : Notice) : (s.post i n x).records = s.records := rfl
@[simp] theorem State.post_generations (i : Nat) (n : Agent) (x : Notice) : (s.post i n x).generations = s.generations := rfl
@[simp] theorem State.post_epochSource (i : Nat) (n : Agent) (x : Notice) : (s.post i n x).epochSource = s.epochSource := rfl
@[simp] theorem State.post_sessions (i : Nat) (n : Agent) (x : Notice) : (s.post i n x).sessions = s.sessions := rfl
@[simp] theorem State.post_sessionCounter (i : Nat) (n : Agent) (x : Notice) : (s.post i n x).sessionCounter = s.sessionCounter := rfl
@[simp] theorem State.post_cells (i : Nat) (n : Agent) (x : Notice) : (s.post i n x).cells = s.cells.set n (Sparse.put i x (s.cells.get n)) := rfl
@[simp] theorem State.post_monitor (i : Nat) (n : Agent) (x : Notice) : (s.post i n x).monitor = s.monitor := rfl
@[simp] theorem State.post_ports (i : Nat) (n : Agent) (x : Notice) : (s.post i n x).ports = s.ports := rfl
@[simp] theorem State.post_settings (i : Nat) (n : Agent) (x : Notice) : (s.post i n x).settings = s.settings := rfl
@[simp] theorem State.post_management (i : Nat) (n : Agent) (x : Notice) : (s.post i n x).management = s.management := rfl
@[simp] theorem State.post_choices (i : Nat) (n : Agent) (x : Notice) : (s.post i n x).choices = s.choices := rfl
@[simp] theorem State.post_pending (i : Nat) (n : Agent) (x : Notice) : (s.post i n x).pending = s.pending := rfl

/-! ### postPlain -/

@[simp] theorem State.postPlain_held (i : Nat) (n : Agent) (k : NoticeKind) : (s.postPlain i n k).held = s.held := rfl
@[simp] theorem State.postPlain_table (i : Nat) (n : Agent) (k : NoticeKind) : (s.postPlain i n k).table = s.table := rfl
@[simp] theorem State.postPlain_records (i : Nat) (n : Agent) (k : NoticeKind) : (s.postPlain i n k).records = s.records := rfl
@[simp] theorem State.postPlain_generations (i : Nat) (n : Agent) (k : NoticeKind) : (s.postPlain i n k).generations = s.generations := rfl
@[simp] theorem State.postPlain_epochSource (i : Nat) (n : Agent) (k : NoticeKind) : (s.postPlain i n k).epochSource = s.epochSource := rfl
@[simp] theorem State.postPlain_sessions (i : Nat) (n : Agent) (k : NoticeKind) : (s.postPlain i n k).sessions = s.sessions := rfl
@[simp] theorem State.postPlain_sessionCounter (i : Nat) (n : Agent) (k : NoticeKind) : (s.postPlain i n k).sessionCounter = s.sessionCounter := rfl
@[simp] theorem State.postPlain_monitor (i : Nat) (n : Agent) (k : NoticeKind) : (s.postPlain i n k).monitor = s.monitor := rfl
@[simp] theorem State.postPlain_ports (i : Nat) (n : Agent) (k : NoticeKind) : (s.postPlain i n k).ports = s.ports := rfl
@[simp] theorem State.postPlain_settings (i : Nat) (n : Agent) (k : NoticeKind) : (s.postPlain i n k).settings = s.settings := rfl
@[simp] theorem State.postPlain_management (i : Nat) (n : Agent) (k : NoticeKind) : (s.postPlain i n k).management = s.management := rfl
@[simp] theorem State.postPlain_choices (i : Nat) (n : Agent) (k : NoticeKind) : (s.postPlain i n k).choices = s.choices := rfl
@[simp] theorem State.postPlain_pending (i : Nat) (n : Agent) (k : NoticeKind) : (s.postPlain i n k).pending = s.pending := rfl

/-! ### shifted -/

@[simp] theorem State.shifted_held (n : Agent) (b : List Byte) : (s.shifted n b).held = s.held := rfl
@[simp] theorem State.shifted_table (n : Agent) (b : List Byte) : (s.shifted n b).table = s.table := rfl
@[simp] theorem State.shifted_records (n : Agent) (b : List Byte) : (s.shifted n b).records = s.records := rfl
@[simp] theorem State.shifted_generations (n : Agent) (b : List Byte) : (s.shifted n b).generations = s.generations := rfl
@[simp] theorem State.shifted_epochSource (n : Agent) (b : List Byte) : (s.shifted n b).epochSource = s.epochSource := rfl
@[simp] theorem State.shifted_sessions (n : Agent) (b : List Byte) : (s.shifted n b).sessions = s.sessions := rfl
@[simp] theorem State.shifted_sessionCounter (n : Agent) (b : List Byte) : (s.shifted n b).sessionCounter = s.sessionCounter := rfl
@[simp] theorem State.shifted_cells (n : Agent) (b : List Byte) : (s.shifted n b).cells = s.cells := rfl
@[simp] theorem State.shifted_monitor (n : Agent) (b : List Byte) : (s.shifted n b).monitor = s.monitor := rfl
@[simp] theorem State.shifted_settings (n : Agent) (b : List Byte) : (s.shifted n b).settings = s.settings := rfl
@[simp] theorem State.shifted_management (n : Agent) (b : List Byte) : (s.shifted n b).management = s.management := rfl
@[simp] theorem State.shifted_choices (n : Agent) (b : List Byte) : (s.shifted n b).choices = s.choices := rfl
@[simp] theorem State.shifted_pending (n : Agent) (b : List Byte) : (s.shifted n b).pending = s.pending := rfl

/-! ### answer -/

@[simp] theorem State.answer_held (n : Agent) (a : Answer) : (s.answer n a).held = s.held := rfl
@[simp] theorem State.answer_table (n : Agent) (a : Answer) : (s.answer n a).table = s.table := rfl
@[simp] theorem State.answer_records (n : Agent) (a : Answer) : (s.answer n a).records = s.records := rfl
@[simp] theorem State.answer_generations (n : Agent) (a : Answer) : (s.answer n a).generations = s.generations := rfl
@[simp] theorem State.answer_epochSource (n : Agent) (a : Answer) : (s.answer n a).epochSource = s.epochSource := rfl
@[simp] theorem State.answer_sessions (n : Agent) (a : Answer) : (s.answer n a).sessions = s.sessions := rfl
@[simp] theorem State.answer_sessionCounter (n : Agent) (a : Answer) : (s.answer n a).sessionCounter = s.sessionCounter := rfl
@[simp] theorem State.answer_cells (n : Agent) (a : Answer) : (s.answer n a).cells = s.cells := rfl
@[simp] theorem State.answer_monitor (n : Agent) (a : Answer) : (s.answer n a).monitor = s.monitor := rfl
@[simp] theorem State.answer_settings (n : Agent) (a : Answer) : (s.answer n a).settings = s.settings := rfl
@[simp] theorem State.answer_management (n : Agent) (a : Answer) : (s.answer n a).management = s.management := rfl
@[simp] theorem State.answer_choices (n : Agent) (a : Answer) : (s.answer n a).choices = s.choices := rfl
@[simp] theorem State.answer_pending (n : Agent) (a : Answer) : (s.answer n a).pending = s.pending := rfl

/-! ### tick -/

@[simp] theorem State.tick_held : s.tick.held = s.held := rfl
@[simp] theorem State.tick_table : s.tick.table = s.table := rfl
@[simp] theorem State.tick_generations : s.tick.generations = s.generations := rfl
@[simp] theorem State.tick_epochSource : s.tick.epochSource = s.epochSource := rfl
@[simp] theorem State.tick_sessionCounter : s.tick.sessionCounter = s.sessionCounter := rfl
@[simp] theorem State.tick_cells : s.tick.cells = s.cells := rfl
@[simp] theorem State.tick_monitor : s.tick.monitor = tickMonitor s.monitor := rfl
@[simp] theorem State.tick_ports : s.tick.ports = s.ports := rfl
@[simp] theorem State.tick_settings : s.tick.settings = s.settings := rfl
@[simp] theorem State.tick_management : s.tick.management = s.management := rfl
@[simp] theorem State.tick_choices : s.tick.choices = s.choices := rfl
@[simp] theorem State.tick_pending : s.tick.pending = s.pending := rfl

/-! ### softReset -/

@[simp] theorem State.softReset_held : s.softReset.held = s.held := rfl
@[simp] theorem State.softReset_epochSource : s.softReset.epochSource = s.epochSource := rfl
@[simp] theorem State.softReset_sessionCounter : s.softReset.sessionCounter = s.sessionCounter := rfl
@[simp] theorem State.softReset_monitor : s.softReset.monitor = s.monitor := rfl
@[simp] theorem State.softReset_settings : s.softReset.settings = s.settings := rfl
@[simp] theorem State.softReset_management : s.softReset.management = s.management := rfl
@[simp] theorem State.softReset_choices : s.softReset.choices = s.choices := rfl
@[simp] theorem State.softReset_pending : s.softReset.pending = s.pending := rfl

/-! ### endReset -/

@[simp] theorem State.endReset_held : s.endReset.held = false := rfl
@[simp] theorem State.endReset_table : s.endReset.table = s.table := rfl
@[simp] theorem State.endReset_records : s.endReset.records = s.records := rfl
@[simp] theorem State.endReset_generations : s.endReset.generations = s.generations := rfl
@[simp] theorem State.endReset_epochSource : s.endReset.epochSource = s.epochSource := rfl
@[simp] theorem State.endReset_sessions : s.endReset.sessions = s.sessions := rfl
@[simp] theorem State.endReset_sessionCounter : s.endReset.sessionCounter = s.sessionCounter := rfl
@[simp] theorem State.endReset_cells : s.endReset.cells = s.cells := rfl
@[simp] theorem State.endReset_ports : s.endReset.ports = s.ports := rfl
@[simp] theorem State.endReset_settings : s.endReset.settings = s.settings := rfl
@[simp] theorem State.endReset_management : s.endReset.management = s.management := rfl
@[simp] theorem State.endReset_choices : s.endReset.choices = s.choices := rfl
@[simp] theorem State.endReset_pending : s.endReset.pending = s.pending := rfl

/-! ### sweep -/

@[simp] theorem State.sweep_held : s.sweep.held = s.held := rfl
@[simp] theorem State.sweep_table : s.sweep.table = .ready := rfl
@[simp] theorem State.sweep_records : s.sweep.records = [] := rfl
@[simp] theorem State.sweep_generations : s.sweep.generations = [] := rfl
@[simp] theorem State.sweep_epochSource : s.sweep.epochSource = s.epochSource := rfl
@[simp] theorem State.sweep_sessions : s.sweep.sessions = s.sessions := rfl
@[simp] theorem State.sweep_sessionCounter : s.sweep.sessionCounter = s.sessionCounter := rfl
@[simp] theorem State.sweep_cells : s.sweep.cells = s.cells := rfl
@[simp] theorem State.sweep_monitor : s.sweep.monitor = s.monitor := rfl
@[simp] theorem State.sweep_ports : s.sweep.ports = s.ports := rfl
@[simp] theorem State.sweep_settings : s.sweep.settings = s.settings := rfl
@[simp] theorem State.sweep_management : s.sweep.management = s.management := rfl
@[simp] theorem State.sweep_choices : s.sweep.choices = s.choices := rfl
@[simp] theorem State.sweep_pending : s.sweep.pending = s.pending := rfl

/-! ### The table's readings see the records and the generations alone -/

@[simp] theorem State.setPort_record (n : Agent) (p : Port) (i : Nat) : (s.setPort n p).record i = s.record i := rfl
@[simp] theorem State.setPort_handle (n : Agent) (p : Port) (i : Nat) : (s.setPort n p).handle i = s.handle i := rfl
@[simp] theorem State.setPort_generation (n : Agent) (p : Port) (i : Nat) :
    (s.setPort n p).generation i = s.generation i := rfl
@[simp] theorem State.setPort_honoured (n : Agent) (p : Port) (h : Half) :
    (s.setPort n p).honoured h = s.honoured h := rfl
@[simp] theorem State.setPort_session (n m : Agent) (p : Port) : (s.setPort n p).session m = s.session m := rfl
@[simp] theorem State.setManagement_record (m : Management) (i : Nat) :
    (s.setManagement m).record i = s.record i := rfl
@[simp] theorem State.setManagement_handle (m : Management) (i : Nat) :
    (s.setManagement m).handle i = s.handle i := rfl
@[simp] theorem State.setManagement_session (m : Management) (n : Agent) :
    (s.setManagement m).session n = s.session n := rfl

/-- Looking among slots depends on the records alone. -/
theorem State.findAmong_congr {s t : State} (h : s.records = t.records) (key : List Byte) (l : List Nat) :
    s.findAmong key l = t.findAmong key l := by
  induction l with
  | nil => rfl
  | cons i l ih => simp only [State.findAmong, State.record, h, ih]

/-- Looking for a key depends on the records alone. -/
theorem State.findKey_congr {s t : State} (h : s.records = t.records) (key : List Byte) :
    s.findKey key = t.findKey key := State.findAmong_congr h key _

/-- The VACANT ways of a bucket depend on the records alone. -/
theorem State.vacantWays_congr {s t : State} (h : s.records = t.records) (key : List Byte) :
    s.vacantWays key = t.vacantWays key := by
  simp only [State.vacantWays, State.record, h]

/-- The number of VACANT ways depends on the records alone. -/
theorem State.freeWays_congr {s t : State} (h : s.records = t.records) (key : List Byte) :
    s.freeWays key = t.freeWays key := by
  simp only [State.freeWays, State.vacantWays_congr h]

end Sys2Proof.Machine
end

