-- ==== Sys2Proof/Laws/Requests.lean ====
section
/-! SUPPORT. What a transaction, a request and a mailbox request come to when no part of a tick is due: the laws that
proofs about single commands cite in place of `settle`, `transact`, `accept` and `takeRequest`. -/

namespace Sys2Proof.Machine

/-! ### Nothing due -/

theorem State.quiet_iff (s : State) : s.quiet = true ↔
    s.dueSlots = [] ∧ s.limitDue = false ∧ ∀ n, s.standbyDue n = false ∧ s.entryDue n = false := by
  simp only [State.quiet, State.tickPending, Bool.not_eq_true', Bool.or_eq_false_iff, Bool.not_eq_false',
    List.isEmpty_iff, and_assoc]
  refine and_congr_right fun _ => and_congr_right fun _ => ?_
  constructor
  · intro h n
    simp [agents] at h
    fin_cases n <;> simp_all
  · intro h; simp [agents, h]

/-- With nothing due in the table and the monitor, settling these changes nothing. -/
theorem State.settleCore_of_none {s : State} (h1 : s.dueSlots = []) (h2 : s.limitDue = false) : s.settleCore = s := by
  have ht : s.settleTable = s := by simp [State.settleTable, State.settleSlots, h1]
  have hm : s.settleMonitor = s := by simp [State.settleMonitor, h2]
  simp [State.settleCore, h2, ht, hm]

/-- With nothing due for an agent, settling its session changes nothing. -/
theorem State.settleSession_of_none {s : State} {n : Agent} (h1 : s.standbyDue n = false) (h2 : s.entryDue n = false) :
    s.settleSession n = s := by simp [State.settleSession, h1, h2]

/-- With no part of a tick due, settling changes nothing. -/
theorem State.settle_of_quiet {s : State} (h : s.quiet = true) : s.settle = s := by
  obtain ⟨h1, h2, h3⟩ := (State.quiet_iff s).1 h
  have hs : ∀ n, s.settleSession n = s := fun n => State.settleSession_of_none (h3 n).1 (h3 n).2
  simp [State.settle, State.settleCore_of_none h1 h2, agents, hs]

theorem State.quietBut_iff (s : State) (n : Agent) : s.quietBut n = true ↔
    s.dueSlots = [] ∧ s.limitDue = false ∧ (∀ m, m ≠ n → s.standbyDue m = false) ∧ ∀ m, s.entryDue m = false := by
  simp only [State.quietBut, Bool.and_eq_true, Bool.not_eq_true', List.isEmpty_iff, and_assoc, all_agents,
    Bool.or_eq_true, beq_iff_eq]
  refine and_congr_right fun _ => and_congr_right fun _ => ?_
  constructor
  · exact fun h => ⟨fun m hm => ((h m).1.resolve_left hm), fun m => (h m).2⟩
  · exact fun h m => ⟨(em (m = n)).imp id (h.1 m), h.2 m⟩

/-- What comes before a WAKE of `n` changes nothing when at most the agent's own standby expiry is due. -/
theorem State.settleForWake_of_quietBut {s : State} {n : Agent} (h : s.quietBut n = true) : s.settleForWake n = s := by
  obtain ⟨h1, h2, h3, h4⟩ := (State.quietBut_iff s n).1 h
  have hs : ∀ l : List Agent, n ∉ l → l.foldl State.settleSession s = s := by
    intro l
    induction l with
    | nil => exact fun _ => rfl
    | cons m l ih =>
      intro hn
      simp only [List.mem_cons, not_or] at hn
      rw [List.foldl_cons, State.settleSession_of_none (h3 m fun e => hn.1 e.symm) (h4 m), ih hn.2]
  simp [State.settleForWake, State.settleCore_of_none h1 h2, hs, h4 n]

theorem State.quietBut_of_quiet {s : State} (h : s.quiet = true) (n : Agent) : s.quietBut n = true := by
  obtain ⟨h1, h2, h3⟩ := (State.quiet_iff s).1 h
  exact (State.quietBut_iff s n).2 ⟨h1, h2, fun m _ => (h3 m).1, fun m => (h3 m).2⟩

/-- With no part of a tick due, none comes before a request. -/
theorem State.settleFor_of_quiet {s : State} (h : s.quiet = true) (k : Request) (n : Agent) : s.settleFor k n = s := by
  unfold State.settleFor
  split
  · exact State.settleForWake_of_quietBut (State.quietBut_of_quiet h n)
  · exact State.settle_of_quiet h

/-- With no part of a tick due, the slots below one have none due either. -/
theorem State.settleBelow_of_quiet {s : State} (h : s.quiet = true) (slot : Nat) : s.settleBelow slot = s := by
  obtain ⟨h1, _, _⟩ := (State.quiet_iff s).1 h
  simp [State.settleBelow, State.settleSlots, h1]

/-- Whether a part of a tick is due does not depend on the management port. -/
@[simp] theorem State.setManagement_quiet (s : State) (m : Management) : (s.setManagement m).quiet = s.quiet := rfl

/-! ### Transactions -/

theorem State.shifted_setPort (s : State) (n : Agent) (p : Port) (b : List Byte) :
    (s.setPort n p).shifted n b = s.setPort n { p with sdo := b, cut := none } := by
  simp [State.shifted, State.setPort, State.port]

@[simp] theorem State.setPort_port_same (s : State) (n : Agent) (p : Port) : (s.setPort n p).port n = p := by
  simp [State.setPort, State.port]

@[simp] theorem State.setPort_setPort (s : State) (n : Agent) (p q : Port) :
    (s.setPort n p).setPort n q = s.setPort n q := by
  simp [State.setPort]

/-- A transaction that begins and ends in the present port state, with the port open: its bytes in are judged in the
collected state. -/
theorem State.transact_open {s : State} {n : Agent} {total : Nat} (h : s.portOpen n total = true) (isRequest : Bool)
    (take : State → State) :
    s.transact n .atPresent total isRequest take = take (s.collected n total) := by
  simp only [State.portOpen, Bool.and_eq_true, Bool.not_eq_true'] at h
  obtain ⟨hheld, h⟩ := h
  unfold State.transact
  simp only [hheld, Bool.false_eq_true, if_false]
  split at h
  · rename_i heq
    simp only [heq, State.collected, State.shifted, Port.shifts, Bool.false_eq_true, if_false]
  · simp at h
  · rename_i r heq
    simp only [decide_eq_true_eq] at h
    simp only [heq, h, if_true, State.collected, Port.shifts, Bool.false_eq_true, if_false, State.shifted,
      State.setPort_port_same, State.setPort_setPort]

/-- A request sent now whose transaction the port judges goes to the acceptance checks. -/
theorem State.request_hears {s : State} {n : Agent} {body : List Byte} {extra : Nat}
    (h : s.hears n body extra = true) (k : Request) (rule : State → State × Answer) :
    s.request k n (Transfer.now extra) body rule = (s.asked n body extra).accept k n rule := by
  simp only [State.hears, Bool.and_eq_true] at h
  simp only [State.request, State.settleFor_of_quiet h.1, Transfer.now]
  exact State.transact_open h.2 true _

/-- A WAKE sent now, with at most the caller's own standby expiry due, goes to the acceptance checks. -/
theorem State.request_wake {s : State} {n : Agent} {body : List Byte} {extra : Nat} (hq : s.quietBut n = true)
    (hp : s.portOpen n (requestLength body extra) = true) (rule : State → State × Answer) :
    s.request .wake n (Transfer.now extra) body rule = (s.asked n body extra).accept .wake n rule := by
  have hs : s.settleFor .wake n = s := State.settleForWake_of_quietBut hq
  simp only [State.request, hs, Transfer.now]
  exact State.transact_open hp true _

theorem State.asked_session (s : State) (n m : Agent) (body : List Byte) (extra : Nat) :
    (s.asked n body extra).session m = s.session m := rfl

/-- A request of an ACTIVE agent, sent now with the table READY, goes to its rule. -/
theorem State.request_serves {s : State} {n : Agent} {body : List Byte} {extra : Nat}
    (h : s.serves n body extra = true) (k : Request) (rule : State → State × Answer) :
    s.request k n (Transfer.now extra) body rule =
      (rule (s.asked n body extra)).1.answer n (rule (s.asked n body extra)).2 := by
  simp only [State.serves, Bool.and_eq_true, beq_iff_eq] at h
  obtain ⟨⟨h1, h2⟩, h3⟩ := h
  have h2' : (s.asked n body extra).table = .ready := h2
  have h3' : ((s.asked n body extra).session n).state = .active := h3
  rw [State.request_hears h1]
  unfold State.accept
  simp only [h2', h3', reduceCtorEq, false_and, if_false]
  cases k <;> rfl

/-- A request that the agent's state admits, sent now with the table READY, goes to its rule. -/
theorem State.request_admitted {s : State} {n : Agent} {body : List Byte} {extra : Nat}
    (h : s.hears n body extra = true) (ht : s.table = .ready) {k : Request}
    (ha : admission k (s.session n).state = none) (rule : State → State × Answer) :
    s.request k n (Transfer.now extra) body rule =
      (rule (s.asked n body extra)).1.answer n (rule (s.asked n body extra)).2 := by
  have h2' : (s.asked n body extra).table = .ready := ht
  have h3' : admission k ((s.asked n body extra).session n).state = none := ha
  rw [State.request_hears h]
  unfold State.accept
  simp only [h2', h3', reduceCtorEq, false_and, if_false]

/-! ### Mailbox requests -/

/-- A mailbox request started now is taken at once. -/
theorem State.mailboxRequest_open {s : State} (h : s.mailboxOpen = true) (code : Byte) (rule : State → Completion) :
    s.mailboxRequest code rule = (s.begun code).takeRequest rule := by
  simp only [State.mailboxOpen, Bool.and_eq_true, Bool.not_eq_true', bne_iff_ne, ne_eq] at h
  obtain ⟨⟨hq, hh⟩, hb⟩ := h
  simp only [State.mailboxRequest, State.settle_of_quiet hq, hh, Bool.false_eq_true, if_false]
  cases hm : s.management.mailbox with
  | busy => exact absurd hm hb
  | empty => rfl
  | done => rfl

/-- The taking of a mailbox request. -/
theorem State.takeRequest_eq (s : State) (rule : State → Completion) :
    s.takeRequest rule = (rule s).after.completes (rule s).result (rule s).output := rfl

end Sys2Proof.Machine
end

