-- ==== Sys2Proof/Laws/Frames.lean ====
section
/-! SUPPORT. Frames of the shared operations: what the table's work (grant checks, leaving a record, retirement)
leaves alone, and that no operation touches the queue of commands. -/

namespace Sys2Proof.Machine

/-- `t` differs from `s` in the records, the generations, the epoch source, the sessions and the notice cells alone:
the blocks that the table's work reaches. -/
def TableOnly (s t : State) : Prop :=
  t.held = s.held ∧ t.table = s.table ∧ t.sessionCounter = s.sessionCounter ∧ t.monitor = s.monitor ∧
  t.ports = s.ports ∧ t.settings = s.settings ∧ t.management = s.management ∧ t.choices = s.choices ∧
  t.pending = s.pending

theorem TableOnly.refl (s : State) : TableOnly s s := ⟨rfl, rfl, rfl, rfl, rfl, rfl, rfl, rfl, rfl⟩

theorem TableOnly.trans {s t u : State} (h : TableOnly s t) (k : TableOnly t u) : TableOnly s u := by
  unfold TableOnly at *; simp_all

/-- A fold of steps that keep a relation keeps it. -/
theorem foldl_keeps {β : Type} (R : State → State → Prop) (hr : ∀ s, R s s) (ht : ∀ s t u, R s t → R t u → R s u)
    (f : State → β → State) (h : ∀ s x, R s (f s x)) (l : List β) (s : State) : R s (l.foldl f s) := by
  induction l generalizing s with
  | nil => exact hr s
  | cons x l ih => exact ht _ _ _ (h s x) (ih (f s x))

theorem TableOnly.foldl {β : Type} {f : State → β → State} (h : ∀ s x, TableOnly s (f s x)) (l : List β) (s : State) :
    TableOnly s (l.foldl f s) :=
  foldl_keeps TableOnly TableOnly.refl (fun _ _ _ => TableOnly.trans) f h l s

theorem post_tableOnly (s : State) (i : Nat) (n : Agent) (x : Notice) : TableOnly s (s.post i n x) :=
  ⟨rfl, rfl, rfl, rfl, rfl, rfl, rfl, rfl, rfl⟩

theorem setSession_tableOnly (s : State) (n : Agent) (a : Session) : TableOnly s (s.setSession n a) :=
  ⟨rfl, rfl, rfl, rfl, rfl, rfl, rfl, rfl, rfl⟩

theorem grantCheck_tableOnly (s : State) (slot : Nat) : TableOnly s (s.grantCheck slot) := by
  unfold State.grantCheck
  split
  · exact TableOnly.refl s
  · have h : ∀ (l : List (Agent × Notice)) (t : State),
        TableOnly t (l.foldl (fun t p => t.post slot p.1 p.2) t) :=
      fun l t => TableOnly.foldl (fun t p => post_tableOnly t slot p.1 p.2) l t
    exact TableOnly.trans ⟨rfl, rfl, rfl, rfl, rfl, rfl, rfl, rfl, rfl⟩ (h _ _)

theorem grantAll_tableOnly (s : State) : TableOnly s s.grantAll :=
  TableOnly.foldl grantCheck_tableOnly _ _

theorem retire_tableOnly (s : State) (slot : Nat) : TableOnly s (s.retire slot) := by
  unfold State.retire
  split
  · exact TableOnly.refl s
  · have h1 : ∀ (l : List Agent) (t : State), TableOnly t (l.foldl State.losePart t) :=
      fun l t => TableOnly.foldl (fun t n => setSession_tableOnly t n _) l t
    have h2 : ∀ (l : List Agent) (t : State), TableOnly t (l.foldl State.loseKept t) :=
      fun l t => TableOnly.foldl (fun t n => setSession_tableOnly t n _) l t
    exact (h1 _ _).trans ((h2 _ _).trans ⟨rfl, rfl, rfl, rfl, rfl, rfl, rfl, rfl, rfl⟩)

theorem retireIfEmpty_tableOnly (s : State) (slot : Nat) : TableOnly s (s.retireIfEmpty slot) := by
  unfold State.retireIfEmpty
  split
  · exact TableOnly.refl s
  · split
    · exact retire_tableOnly s slot
    · exact TableOnly.refl s

theorem leaveRecord_tableOnly (s : State) (slot : Nat) (n : Agent) (k : Option NoticeKind) :
    TableOnly s (s.leaveRecord slot n k) := by
  unfold State.leaveRecord
  split
  · exact TableOnly.refl s
  · refine TableOnly.trans ?_ (TableOnly.trans (grantCheck_tableOnly _ slot) (retireIfEmpty_tableOnly _ slot))
    cases k <;> exact ⟨rfl, rfl, rfl, rfl, rfl, rfl, rfl, rfl, rfl⟩

theorem removeAgent_tableOnly (s : State) (n : Agent) : TableOnly s (s.removeAgent n) :=
  TableOnly.foldl (fun t slot => leaveRecord_tableOnly t slot n none) _ _

theorem endSession_tableOnly (s : State) (n : Agent) : TableOnly s (s.endSession n) :=
  TableOnly.trans (removeAgent_tableOnly s n) ⟨rfl, rfl, rfl, rfl, rfl, rfl, rfl, rfl, rfl⟩

theorem resumeStandby_tableOnly (s : State) (n : Agent) : TableOnly s (s.resumeStandby n) :=
  ⟨rfl, rfl, rfl, rfl, rfl, rfl, rfl, rfl, rfl⟩

theorem expireUpgrade_tableOnly (s : State) (slot : Nat) (n : Agent) : TableOnly s (s.expireUpgrade slot n) := by
  unfold State.expireUpgrade
  split
  · exact TableOnly.refl s
  · exact TableOnly.trans ⟨rfl, rfl, rfl, rfl, rfl, rfl, rfl, rfl, rfl⟩ (grantCheck_tableOnly _ slot)

theorem takePart_tableOnly (s : State) (slot : Nat) (p : DuePart) : TableOnly s (s.takePart slot p) := by
  cases p
  · exact leaveRecord_tableOnly _ _ _ _
  · exact leaveRecord_tableOnly _ _ _ _
  · exact expireUpgrade_tableOnly _ _ _

theorem expireStandby_tableOnly (s : State) (n : Agent) : TableOnly s (s.expireStandby n) :=
  ⟨rfl, rfl, rfl, rfl, rfl, rfl, rfl, rfl, rfl⟩

theorem enterStandbyAt_tableOnly (n : Agent) (mask : Byte) (p : State × EntryCount) (slot : Nat) :
    TableOnly p.1 (State.enterStandbyAt n mask p slot).1 := by
  unfold State.enterStandbyAt
  simp only
  split
  · exact TableOnly.refl _
  · rename_i r hr
    have h1 : ∀ (x : Record) (b : Bool), TableOnly p.1
        (if b then (p.1.putRecord slot x).losePart n else p.1.putRecord slot x) := by
      intro x b; cases b <;> exact ⟨rfl, rfl, rfl, rfl, rfl, rfl, rfl, rfl, rfl⟩
    have h2 : ∀ (t : State) (b : Bool), TableOnly p.1 t →
        TableOnly p.1 (if b then (t.grantCheck slot).retireIfEmpty slot else t) := by
      intro t b ht; cases b
      · exact ht
      · exact ht.trans ((grantCheck_tableOnly _ _).trans (retireIfEmpty_tableOnly _ _))
    have h3 : ∀ (t : State) (b : Bool), TableOnly p.1 t →
        TableOnly p.1 (if b then
          match t.record slot with
          | some r3 => t.putRecord slot (r3.mapHolder n keepHolder)
          | none => t
          else t) := by
      intro t b ht; cases b
      · exact ht
      · refine ht.trans ?_
        simp only [if_true]
        split <;> exact ⟨rfl, rfl, rfl, rfl, rfl, rfl, rfl, rfl, rfl⟩
    exact h3 _ _ (h2 _ _ (h1 _ _))

theorem enterStandby_tableOnly (s : State) (n : Agent) (mask : Byte) (d : Nat) :
    TableOnly s (s.enterStandby n mask d).1 := by
  have h : ∀ (l : List Nat) (p : State × EntryCount),
      TableOnly p.1 (l.foldl (State.enterStandbyAt n mask) p).1 := by
    intro l
    induction l with
    | nil => exact fun p => TableOnly.refl _
    | cons i l ih => exact fun p => (enterStandbyAt_tableOnly n mask p i).trans (ih _)
  exact (h (s.partSlots n) (s, { kept := 0, left := 0 })).trans ⟨rfl, rfl, rfl, rfl, rfl, rfl, rfl, rfl, rfl⟩

/-! ### The queue of commands -/

theorem changeTime_pending (s : State) (m : Monitor) : (s.changeTime m).pending = s.pending := by
  unfold State.changeTime
  simp only
  split
  · exact (grantAll_tableOnly _).2.2.2.2.2.2.2.2
  · rfl

theorem settleRecord_pending (slot fuel : Nat) (s : State) : (State.settleRecord slot fuel s).pending = s.pending := by
  induction fuel generalizing s with
  | zero => rfl
  | succ k ih =>
    unfold State.settleRecord
    split
    · rfl
    · rw [ih]; exact (takePart_tableOnly _ _ _).2.2.2.2.2.2.2.2
    · rw [ih]; exact (takePart_tableOnly _ _ _).2.2.2.2.2.2.2.2

theorem settleSlots_pending (s : State) (l : List Nat) : (s.settleSlots l).pending = s.pending :=
  foldl_keeps (fun s t => t.pending = s.pending) (fun _ => rfl) (fun _ _ _ h k => k.trans h) _
    (fun _ _ => settleRecord_pending _ _ _) l s

theorem settleMonitor_pending (s : State) : s.settleMonitor.pending = s.pending := by
  unfold State.settleMonitor
  split
  · exact changeTime_pending _ _
  · rfl

theorem settleSession_pending (s : State) (n : Agent) : (s.settleSession n).pending = s.pending := by
  unfold State.settleSession
  simp only
  split <;> split <;> rfl

theorem settleCore_pending (s : State) : s.settleCore.pending = s.pending := by
  unfold State.settleCore
  simp only
  split
  · split
    · exact (settleSlots_pending _ _).trans (settleMonitor_pending _)
    · exact (settleMonitor_pending _).trans (settleSlots_pending _ _)
  · exact (settleMonitor_pending _).trans (settleSlots_pending _ _)

theorem settleSessions_pending (l : List Agent) (s : State) :
    (l.foldl State.settleSession s).pending = s.pending :=
  foldl_keeps (fun s t => t.pending = s.pending) (fun _ => rfl) (fun _ _ _ h k => k.trans h) _
    settleSession_pending l s

theorem settle_pending (s : State) : s.settle.pending = s.pending :=
  (settleSessions_pending _ _).trans (settleCore_pending s)

theorem settleForWake_pending (s : State) (n : Agent) : (s.settleForWake n).pending = s.pending := by
  unfold State.settleForWake
  simp only
  split
  · exact (settleSessions_pending _ _).trans (settleCore_pending s)
  · exact (settleSessions_pending _ _).trans (settleCore_pending s)

theorem settleFor_pending (s : State) (k : Request) (n : Agent) : (s.settleFor k n).pending = s.pending := by
  unfold State.settleFor
  split
  · exact settleForWake_pending s n
  · exact settle_pending s

theorem transact_pending (s : State) (n : Agent) (start : TransactionStart) (total : Nat) (q : Bool)
    (take : State → State) (h : ∀ u, (take u).pending = u.pending) :
    (s.transact n start total q take).pending = s.pending := by
  have hd : ∀ (u : State) (b : Bool), (u.dropped n b).pending = u.pending := by
    intro u b; cases b <;> rfl
  unfold State.transact
  split
  · rfl
  · split
    · rfl
    · split
      · rfl
      · rw [hd]; rfl
    · split
      · rw [h]; rfl
      · rw [hd]; rfl
      · simp only
        split
        · rw [h]; rfl
        · rw [hd]; rfl

theorem accept_pending (u : State) (k : Request) (n : Agent) (rule : State → State × Answer)
    (h : ∀ w, (rule w).1.pending = w.pending) : (u.accept k n rule).pending = u.pending := by
  unfold State.accept
  split
  · rfl
  · split
    · rfl
    · exact h u

theorem request_pending (s : State) (k : Request) (n : Agent) (t : Transfer) (body : List Byte)
    (rule : State → State × Answer) (h : ∀ w, (rule w).1.pending = w.pending) :
    (s.request k n t body rule).pending = s.pending := by
  unfold State.request
  rw [transact_pending _ _ _ _ _ _ fun u => accept_pending u k n rule h, settleFor_pending]

theorem takeRequest_pending (s : State) (rule : State → Completion) :
    (s.takeRequest rule).pending = (rule s).after.pending := rfl

theorem mailboxRequest_pending (s : State) (code : Byte) (rule : State → Completion)
    (h : ∀ w, (rule w).after.pending = w.pending) : (s.mailboxRequest code rule).pending = s.pending := by
  have hs := settle_pending s
  unfold State.mailboxRequest
  generalize s.settle = u at hs ⊢
  simp only
  split
  · exact hs
  · split
    · split
      · rw [takeRequest_pending, h, hs]
      · simp [hs]
    · rw [takeRequest_pending, h]; simp [hs]

end Sys2Proof.Machine
end

