-- ==== Sys2Proof/Laws/Grants.lean ====
section
/-! SUPPORT. The grant check (R56, R57): its induction principle, that the epoch source never falls in it, that it
leaves sessions and generations, and that a record's key, persistence and words survive it. -/

namespace Sys2Proof.Machine

theorem succ_toNat {source : Epoch} (h : exhausted source = false) : (source + 1).toNat = source.toNat + 1 := by
  have hne : source ≠ 0xFFFFFFFF := by simpa [exhausted] using h
  have hn : source.toNat ≠ 4294967295 := fun hc => hne (BitVec.eq_of_toNat_eq (by simpa using hc))
  have hl := source.isLt
  have h1 : (1 : Epoch).toNat = 1 := rfl
  rw [BitVec.toNat_add, h1]
  omega

theorem grantable_iff (env : GrantEnv) (source : Epoch) (r : Record) (c : Claim) :
    grantable env source r c = true ↔
      r.claimCompatible c = true ∧ env.timeState.permits = true ∧
        (c.kind.takesEpoch = true → exhausted source = false) := by
  unfold grantable withheld
  cases r.claimCompatible c <;> cases env.timeState.permits <;> cases c.kind.takesEpoch <;>
    cases exhausted source <;> simp

/-- The source after one grant. -/
theorem grantFirst_source (env : GrantEnv) (source : Epoch) (r : Record) (c : Claim) (rest : List Claim) :
    (grantFirst env source r c rest).2.1 = if c.kind.takesEpoch then source + 1 else source := by
  unfold grantFirst
  cases c.kind <;> rfl

theorem grantFirst_source_le {env : GrantEnv} {source : Epoch} {r : Record} {c : Claim}
    (h : grantable env source r c = true) (rest : List Claim) :
    source.toNat ≤ (grantFirst env source r c rest).2.1.toNat := by
  rw [grantFirst_source]
  split
  · rename_i hk
    rw [succ_toNat (((grantable_iff env source r c).1 h).2.2 hk)]
    omega
  · exact Nat.le_refl _

theorem grantFirst_queue (env : GrantEnv) (source : Epoch) (r : Record) (c : Claim) (rest : List Claim) :
    (grantFirst env source r c rest).1.queue = rest := by
  unfold grantFirst; cases c.kind <;> rfl

/-- What one grant that is allowed keeps, a whole grant check keeps. -/
theorem grantRun_induction (env : GrantEnv) (P : Epoch → Record → Prop)
    (hstep : ∀ source r c rest, r.queue = c :: rest → grantable env source r c = true → P source r →
      P (grantFirst env source r c rest).2.1 (grantFirst env source r c rest).1)
    (fuel : Nat) (source : Epoch) (r : Record) (h : P source r) :
    P (grantRun env fuel source r).2.1 (grantRun env fuel source r).1 := by
  induction fuel generalizing source r with
  | zero => exact h
  | succ k ih =>
    unfold grantRun
    split
    · exact h
    · rename_i c rest hq
      split
      · rename_i hg
        exact ih _ _ (hstep source r c rest hq hg h)
      · exact h

theorem grantRun_source_le (env : GrantEnv) (fuel : Nat) (source : Epoch) (r : Record) :
    source.toNat ≤ (grantRun env fuel source r).2.1.toNat := by
  refine grantRun_induction env (fun e _ => source.toNat ≤ e.toNat) ?_ fuel source r (Nat.le_refl _)
  intro e r c rest _ hg h
  exact Nat.le_trans h (grantFirst_source_le hg rest)

theorem grantFirst_fixed (env : GrantEnv) (source : Epoch) (r : Record) (c : Claim) (rest : List Claim) :
    (grantFirst env source r c rest).1.key = r.key ∧
    (grantFirst env source r c rest).1.persistent = r.persistent ∧
    (grantFirst env source r c rest).1.value = r.value := by
  unfold grantFirst; cases c.kind <;> exact ⟨rfl, rfl, rfl⟩

theorem grantRun_fixed (env : GrantEnv) (fuel : Nat) (source : Epoch) (r : Record) :
    (grantRun env fuel source r).1.key = r.key ∧ (grantRun env fuel source r).1.persistent = r.persistent ∧
    (grantRun env fuel source r).1.value = r.value := by
  refine grantRun_induction env (fun _ x => x.key = r.key ∧ x.persistent = r.persistent ∧ x.value = r.value) ?_ fuel
    source r ⟨rfl, rfl, rfl⟩
  intro e x c rest _ _ h
  obtain ⟨h1, h2, h3⟩ := grantFirst_fixed env e x c rest
  exact ⟨h1.trans h.1, h2.trans h.2.1, h3.trans h.2.2⟩

/-- With fuel for every claim the grant check ends at a blocked front. -/
theorem grantRun_blocked (env : GrantEnv) (fuel : Nat) (source : Epoch) (r : Record) (h : r.queue.length ≤ fuel) :
    (grantRun env fuel source r).1.blocked env.timeState (grantRun env fuel source r).2.1 = true := by
  induction fuel generalizing source r with
  | zero =>
    have : r.queue = [] := List.length_eq_zero_iff.1 (Nat.le_zero.1 h)
    simp [grantRun, Record.blocked, this]
  | succ k ih =>
    unfold grantRun
    split
    · rename_i hq; simp [Record.blocked, hq]
    · rename_i c rest hq
      split
      · refine ih _ _ ?_
        rw [grantFirst_queue]
        rw [hq] at h
        simpa using h
      · rename_i hg
        simp only [grantable, Bool.and_eq_true, Bool.not_eq_true', not_and, Bool.not_eq_false] at hg
        simp only [Record.blocked, hq, Bool.or_eq_true, Bool.not_eq_true']
        cases hc : r.claimCompatible c
        · exact Or.inl rfl
        · exact Or.inr (hg hc)

/-- The claims still queued are the old queue's end; the claims granted are its beginning, in order. -/
theorem grantRun_split (env : GrantEnv) (fuel : Nat) (source : Epoch) (r : Record) :
    ∃ granted : List Claim, r.queue = granted ++ (grantRun env fuel source r).1.queue ∧
      granted.map (fun c => c.agent) = (grantRun env fuel source r).2.2.map Prod.fst := by
  induction fuel generalizing source r with
  | zero => exact ⟨[], by simp [grantRun], by simp [grantRun]⟩
  | succ k ih =>
    unfold grantRun
    split
    · exact ⟨[], by simp, by simp⟩
    · rename_i c rest hq
      split
      · obtain ⟨g, h1, h2⟩ := ih (grantFirst env source r c rest).2.1 (grantFirst env source r c rest).1
        rw [grantFirst_queue] at h1
        exact ⟨c :: g, by rw [hq]; exact congrArg (c :: ·) h1, by simp [h2]⟩
      · exact ⟨[], by simp, by simp⟩

/-! ### The grant check of a slot -/

theorem foldl_post_fields (slot : Nat) (l : List (Agent × Notice)) (s : State) :
    (l.foldl (fun t p => t.post slot p.1 p.2) s).records = s.records ∧
    (l.foldl (fun t p => t.post slot p.1 p.2) s).generations = s.generations ∧
    (l.foldl (fun t p => t.post slot p.1 p.2) s).epochSource = s.epochSource ∧
    (l.foldl (fun t p => t.post slot p.1 p.2) s).sessions = s.sessions := by
  induction l generalizing s with
  | nil => exact ⟨rfl, rfl, rfl, rfl⟩
  | cons p l ih => exact ih (s.post slot p.1 p.2)

theorem grantCheck_none {s : State} {slot : Nat} (h : s.record slot = none) : s.grantCheck slot = s := by
  simp [State.grantCheck, h]

/-- The grant check of an occupied slot: the record and the epoch source are those of its run; generations and
sessions stand. -/
theorem grantCheck_fields {s : State} {slot : Nat} {r : Record} (h : s.record slot = some r) :
    (s.grantCheck slot).records =
      Sparse.put slot (grantRun (s.grantEnv slot) r.queue.length s.epochSource r).1 s.records ∧
    (s.grantCheck slot).epochSource = (grantRun (s.grantEnv slot) r.queue.length s.epochSource r).2.1 ∧
    (s.grantCheck slot).generations = s.generations ∧ (s.grantCheck slot).sessions = s.sessions := by
  unfold State.grantCheck
  simp only [h]
  obtain ⟨h1, h2, h3, h4⟩ := foldl_post_fields slot
    (grantRun (s.grantEnv slot) r.queue.length s.epochSource r).2.2
    { s.putRecord slot (grantRun (s.grantEnv slot) r.queue.length s.epochSource r).1 with
      epochSource := (grantRun (s.grantEnv slot) r.queue.length s.epochSource r).2.1 }
  exact ⟨h1, h3, h2, h4⟩

theorem grantCheck_sessions (s : State) (slot : Nat) : (s.grantCheck slot).sessions = s.sessions := by
  cases h : s.record slot with
  | none => rw [grantCheck_none h]
  | some r => exact (grantCheck_fields h).2.2.2

theorem grantCheck_generations (s : State) (slot : Nat) : (s.grantCheck slot).generations = s.generations := by
  cases h : s.record slot with
  | none => rw [grantCheck_none h]
  | some r => exact (grantCheck_fields h).2.2.1

theorem grantCheck_source_le (s : State) (slot : Nat) :
    s.epochSource.toNat ≤ (s.grantCheck slot).epochSource.toNat := by
  cases h : s.record slot with
  | none => rw [grantCheck_none h]
  | some r => rw [(grantCheck_fields h).2.1]; exact grantRun_source_le _ _ _ _

/-- R56: a blocked first claim, or an empty queue, ends the grant check with no effect. -/
theorem grantCheck_blocked {s : State} {slot : Nat} {r : Record} {b : Nat} (hw : Sparse.wf b s.records = true)
    (hr : s.record slot = some r) (h : r.blocked s.monitor.timeState s.epochSource = true) : s.grantCheck slot = s := by
  have hg : grantRun (s.grantEnv slot) r.queue.length s.epochSource r = (r, s.epochSource, []) := by
    unfold Record.blocked at h
    cases hq : r.queue with
    | nil => rfl
    | cons c rest =>
      rw [hq] at h
      have hn : grantable (s.grantEnv slot) s.epochSource r c = false := by
        have : (s.grantEnv slot).timeState = s.monitor.timeState := rfl
        unfold grantable
        rw [this]
        cases hc : r.claimCompatible c <;> simp_all
      simp [grantRun, hq, hn]
  simp only [State.grantCheck, hr, hg, List.foldl_nil]
  show ({ s with records := Sparse.put slot r s.records } : State) = s
  rw [Sparse.put_self hw hr]

/-- R56, R57: a first claim that is compatible and not withheld is granted, and the check goes on. -/
theorem grantCheck_grant {s : State} {slot : Nat} {r : Record} {c : Claim} {rest : List Claim}
    (hr : s.record slot = some r) (hq : r.queue = c :: rest)
    (h : grantable (s.grantEnv slot) s.epochSource r c = true) : s.grantCheck slot =
      (({ s.putRecord slot (grantFirst (s.grantEnv slot) s.epochSource r c rest).1 with
          epochSource := (grantFirst (s.grantEnv slot) s.epochSource r c rest).2.1 } : State).post slot c.agent
        (grantFirst (s.grantEnv slot) s.epochSource r c rest).2.2).grantCheck slot := by
  have hl := grantFirst_queue (s.grantEnv slot) s.epochSource r c rest
  have hrun : grantRun (s.grantEnv slot) r.queue.length s.epochSource r =
      ((grantRun (s.grantEnv slot) rest.length (grantFirst (s.grantEnv slot) s.epochSource r c rest).2.1
          (grantFirst (s.grantEnv slot) s.epochSource r c rest).1).1,
        (grantRun (s.grantEnv slot) rest.length (grantFirst (s.grantEnv slot) s.epochSource r c rest).2.1
          (grantFirst (s.grantEnv slot) s.epochSource r c rest).1).2.1,
        (c.agent, (grantFirst (s.grantEnv slot) s.epochSource r c rest).2.2) ::
          (grantRun (s.grantEnv slot) rest.length (grantFirst (s.grantEnv slot) s.epochSource r c rest).2.1
            (grantFirst (s.grantEnv slot) s.epochSource r c rest).1).2.2) := by
    rw [hq, List.length_cons, grantRun, hq]
    simp only [h, if_true]
  generalize grantFirst (s.grantEnv slot) s.epochSource r c rest = g at hl hrun ⊢
  have hr2 : (({ s.putRecord slot g.1 with epochSource := g.2.1 } : State).post slot c.agent g.2.2).record slot =
      some g.1 := Sparse.find_put_same _ _ _
  conv_lhs => rw [State.grantCheck]
  conv_rhs => rw [State.grantCheck]
  simp only [hr, hr2, hrun, hl, List.foldl_cons]
  generalize hm : grantRun (s.grantEnv slot) rest.length g.2.1 g.1 = m
  have he : (({ s.putRecord slot g.1 with epochSource := g.2.1 } : State).post slot c.agent g.2.2).grantEnv slot =
      s.grantEnv slot := rfl
  have hs : (({ s.putRecord slot g.1 with epochSource := g.2.1 } : State).post slot c.agent g.2.2).epochSource = g.2.1 :=
    rfl
  rw [he, hs, hm]
  refine congrArg (fun u => m.2.2.foldl (fun (t : State) (p : Agent × Notice) => t.post slot p.1 p.2) u) ?_
  simp [State.post, State.setCells, State.putRecord]

theorem grantAll_sessions (s : State) : s.grantAll.sessions = s.sessions :=
  foldl_keeps (fun s t => t.sessions = s.sessions) (fun _ => rfl) (fun _ _ _ h k => k.trans h) _
    (fun s i => grantCheck_sessions s i) _ s

theorem grantAll_source_le (s : State) : s.epochSource.toNat ≤ s.grantAll.epochSource.toNat :=
  foldl_keeps (fun s t => s.epochSource.toNat ≤ t.epochSource.toNat) (fun _ => Nat.le_refl _)
    (fun _ _ _ h k => Nat.le_trans h k) _ (fun s i => grantCheck_source_le s i) _ s

end Sys2Proof.Machine
end

