-- ==== Sys2Proof/Laws/Records.lean ====
section
/-! SUPPORT. A property of records that the operations on one record keep is kept by the operations of the table. -/

namespace Sys2Proof.Machine

/-- Every record has `P` under the present epoch source. -/
def AllRec (P : Epoch → Record → Prop) (s : State) : Prop := ∀ p ∈ s.records, P s.epochSource p.2

/-- A property of records that every operation on one record keeps. -/
structure RecordLaw (P : Epoch → Record → Prop) : Prop where
  mono : ∀ {e e' : Epoch} {r : Record}, e.toNat ≤ e'.toNat → P e r → P e' r
  grant : ∀ {env : GrantEnv} {e : Epoch} {r : Record} {c : Claim} {rest : List Claim}, r.queue = c :: rest →
    grantable env e r c = true → P e r → P (grantFirst env e r c rest).2.1 (grantFirst env e r c rest).1
  dropAgent : ∀ {e : Epoch} {r : Record} (n : Agent), P e r → P e (r.dropAgent n)
  dropClaim : ∀ {e : Epoch} {r : Record} (n : Agent), P e r → P e (r.dropClaim n)
  holders : ∀ {e : Epoch} {r : Record} (g : Holder → Holder),
    (∀ h, (g h).agent = h.agent ∧ (g h).mode = h.mode ∧ (g h).epoch = h.epoch) → P e r →
    P e { r with holders := r.holders.map g }
  claims : ∀ {e : Epoch} {r : Record} (g : Claim → Claim),
    (∀ c, (g c).agent = c.agent ∧ (g c).kind = c.kind) → P e r → P e { r with queue := r.queue.map g }
  words : ∀ {e : Epoch} {r : Record} (v : List Word), v.length = 8 → P e r → P e { r with value := v }
  mark : ∀ {e : Epoch} {r : Record} (b : Bool), P e r → P e { r with persistent := b }
  create : ∀ {e : Epoch} (key : List Byte) (b : Bool), keyLengthOk key.length = true → P e (newRecord key b)
  shared : ∀ {e : Epoch} {r : Record} (n : Agent) (life : Nat), r.queue = [] → r.hasPart n = false →
    r.compatible .shared = true → P e r →
    P e { r with holders := insertHolder (newHolder n .shared life none) r.holders }
  exclusive : ∀ {e : Epoch} {r : Record} (n : Agent) (life : Nat), r.queue = [] → r.hasPart n = false →
    r.compatible .exclusive = true → exhausted e = false → P e r →
    P (e + 1) { r with lastEpoch := e + 1,
                       holders := insertHolder (newHolder n .exclusive life (some (e + 1))) r.holders }
  enqueue : ∀ {e : Epoch} {r : Record} (c : Claim), r.hasPart c.agent = false → c.kind ≠ .upgrade → P e r →
    P e { r with queue := r.queue ++ [c] }
  upgrade : ∀ {e : Epoch} {r : Record} {h : Holder} (n : Agent) (life : Nat), r.holder n = some h →
    r.waits n = false → r.upgradeQueued = false → r.onlyHolder n = true → exhausted e = false → P e r →
    P (e + 1) { r.mapHolder n (upgraded life (e + 1)) with lastEpoch := e + 1 }
  enqueueUpgrade : ∀ {e : Epoch} {r : Record} {h : Holder} (c : Claim), r.holder c.agent = some h →
    r.waits c.agent = false → r.upgradeQueued = false → c.kind = .upgrade → P e r →
    P e { r with queue := c :: r.queue }
  downgrade : ∀ {e : Epoch} {r : Record} (n : Agent), P e r → P e (r.mapHolder n downgraded)

variable {P : Epoch → Record → Prop}

theorem AllRec.congr {s t : State} (h : AllRec P s) (hr : t.records = s.records) (he : t.epochSource = s.epochSource) :
    AllRec P t := by
  intro p hp; rw [he]; exact h p (hr ▸ hp)

theorem AllRec.nil {s : State} (h : s.records = []) : AllRec P s := by
  intro p hp; rw [h] at hp; cases hp

theorem AllRec.of_record {s : State} (h : AllRec P s) {slot : Nat} {r : Record} (hr : s.record slot = some r) :
    P s.epochSource r := h _ (Sparse.mem_of_find hr)

theorem AllRec.put {s : State} (h : AllRec P s) {slot : Nat} {r : Record} (hr : P s.epochSource r) :
    AllRec P (s.putRecord slot r) := by
  intro p hp
  rcases Sparse.mem_put hp with rfl | hp
  · exact hr
  · exact h p hp

/-- A write of a record together with an epoch taken. -/
theorem AllRec.put_source (L : RecordLaw P) {s t : State} (h : AllRec P s) {slot : Nat} {r : Record} {e : Epoch}
    (hle : s.epochSource.toNat ≤ e.toNat) (hr : P e r) (ht : t.records = Sparse.put slot r s.records)
    (he : t.epochSource = e) : AllRec P t := by
  intro p hp
  rw [he]
  rw [ht] at hp
  rcases Sparse.mem_put hp with rfl | hp
  · exact hr
  · exact L.mono hle (h p hp)

theorem AllRec.map {s t : State} (h : AllRec P s) (f : Nat × Record → Nat × Record)
    (hf : ∀ p e, P e p.2 → P e (f p).2) (hr : t.records = s.records.map f) (he : t.epochSource = s.epochSource) :
    AllRec P t := by
  intro p hp
  rw [hr] at hp
  obtain ⟨q, hq, rfl⟩ := List.mem_map.1 hp
  rw [he]; exact hf q _ (h q hq)

theorem AllRec.foldl {β : Type} {f : State → β → State} (hf : ∀ s x, AllRec P s → AllRec P (f s x)) (l : List β)
    {s : State} (h : AllRec P s) : AllRec P (l.foldl f s) := by
  induction l generalizing s with
  | nil => exact h
  | cons x l ih => exact ih (hf s x h)

theorem AllRec.grantCheck (L : RecordLaw P) {s : State} (h : AllRec P s) (slot : Nat) :
    AllRec P (s.grantCheck slot) := by
  cases hr : s.record slot with
  | none => rw [grantCheck_none hr]; exact h
  | some r =>
    obtain ⟨h1, h2, _, _⟩ := grantCheck_fields hr
    refine AllRec.put_source L h (grantRun_source_le _ _ _ _) ?_ h1 h2
    exact grantRun_induction _ P (fun _ _ _ _ hq hg => L.grant hq hg) _ _ _ (h.of_record hr)

theorem AllRec.grantAll (L : RecordLaw P) {s : State} (h : AllRec P s) : AllRec P s.grantAll :=
  AllRec.foldl (fun _ i h => h.grantCheck L i) _ h

theorem AllRec.sessions {s t : State} (h : AllRec P s) (l : List Agent) (f : State → Agent → State)
    (hf : ∀ u n, (f u n).records = u.records ∧ (f u n).epochSource = u.epochSource) (ht : t = l.foldl f s) :
    AllRec P t := by
  subst ht
  exact AllRec.foldl (fun u n hu => hu.congr (hf u n).1 (hf u n).2) l h

theorem AllRec.vacate {s : State} (h : AllRec P s) (slot : Nat) : AllRec P (s.vacate slot) :=
  fun p hp => h p (Sparse.mem_drop hp)

theorem AllRec.retire {s : State} (h : AllRec P s) (slot : Nat) : AllRec P (s.retire slot) := by
  unfold State.retire
  split
  · exact h
  · refine AllRec.vacate ?_ slot
    refine AllRec.sessions (AllRec.sessions h _ State.losePart (fun _ _ => ⟨rfl, rfl⟩) rfl) _ State.loseKept
      (fun _ _ => ⟨rfl, rfl⟩) rfl

theorem AllRec.retireIfEmpty {s : State} (h : AllRec P s) (slot : Nat) : AllRec P (s.retireIfEmpty slot) := by
  unfold State.retireIfEmpty
  split
  · exact h
  · split
    · exact h.retire slot
    · exact h

theorem AllRec.leaveRecord (L : RecordLaw P) {s : State} (h : AllRec P s) (slot : Nat) (n : Agent)
    (k : Option NoticeKind) : AllRec P (s.leaveRecord slot n k) := by
  unfold State.leaveRecord
  split
  · exact h
  · rename_i r hr
    have h1 : AllRec P (s.putRecord slot (r.dropAgent n)) := h.put (L.dropAgent n (h.of_record hr))
    refine AllRec.retireIfEmpty (AllRec.grantCheck L ?_ slot) slot
    cases k
    · exact h1.congr rfl rfl
    · exact h1.congr rfl rfl

theorem AllRec.removeAgent (L : RecordLaw P) {s : State} (h : AllRec P s) (n : Agent) :
    AllRec P (s.removeAgent n) :=
  AllRec.foldl (fun _ i h => h.leaveRecord L i n none) _ h

theorem AllRec.endSession (L : RecordLaw P) {s : State} (h : AllRec P s) (n : Agent) : AllRec P (s.endSession n) :=
  (h.removeAgent L n).congr rfl rfl

theorem resumeHolder_fixed (n : Agent) (h : Holder) :
    (resumeHolder n h).agent = h.agent ∧ (resumeHolder n h).mode = h.mode ∧ (resumeHolder n h).epoch = h.epoch := by
  unfold resumeHolder; split <;> exact ⟨rfl, rfl, rfl⟩

theorem tickHolder_fixed (h : Holder) :
    (tickHolder h).agent = h.agent ∧ (tickHolder h).mode = h.mode ∧ (tickHolder h).epoch = h.epoch := by
  unfold tickHolder; split <;> exact ⟨rfl, rfl, rfl⟩

/-- Changing one agent's entry, but not its mode or epoch. -/
theorem RecordLaw.mapHolder (L : RecordLaw P) {e : Epoch} {r : Record} (n : Agent) (f : Holder → Holder)
    (hf : ∀ h, (f h).agent = h.agent ∧ (f h).mode = h.mode ∧ (f h).epoch = h.epoch) (h : P e r) :
    P e (r.mapHolder n f) :=
  L.holders (fun h => if h.agent == n then f h else h)
    (fun h => by cases hb : h.agent == n <;> simp [hf h]) h

theorem AllRec.resumeStandby (L : RecordLaw P) {s : State} (h : AllRec P s) (n : Agent) :
    AllRec P (s.resumeStandby n) :=
  h.map (fun p => (p.1, { p.2 with holders := p.2.holders.map (resumeHolder n) }))
    (fun _ _ hp => L.holders (resumeHolder n) (resumeHolder_fixed n) hp) rfl rfl

theorem AllRec.expireUpgrade (L : RecordLaw P) {s : State} (h : AllRec P s) (slot : Nat) (n : Agent) :
    AllRec P (s.expireUpgrade slot n) := by
  unfold State.expireUpgrade
  split
  · exact h
  · rename_i r hr
    have h1 : AllRec P (s.putRecord slot (r.dropClaim n)) := h.put (L.dropClaim n (h.of_record hr))
    have h2 : AllRec P ((s.putRecord slot (r.dropClaim n)).postPlain slot n .waitExpired) := h1.congr rfl rfl
    exact h2.grantCheck L slot

theorem AllRec.tick (L : RecordLaw P) {s : State} (h : AllRec P s) : AllRec P s.tick :=
  h.map (fun p => (p.1, tickRecord p.2))
    (fun p _ hp => L.claims (r := { p.2 with holders := p.2.holders.map tickHolder }) tickClaim
      (fun _ => ⟨rfl, rfl⟩) (L.holders tickHolder tickHolder_fixed hp)) rfl rfl

theorem AllRec.changeTime (L : RecordLaw P) {s : State} (h : AllRec P s) (m : Monitor) :
    AllRec P (s.changeTime m) := by
  unfold State.changeTime
  simp only
  split
  · exact AllRec.grantAll L (h.congr rfl rfl)
  · exact h.congr rfl rfl

/-! ### The rules of the requests -/

theorem AllRec.grantNow (L : RecordLaw P) {s : State} (h : AllRec P s) {slot : Nat} {r : Record} {n : Agent}
    {m : Mode} (requested : Nat) (hr : P s.epochSource r) (hq : r.queue = []) (hp : r.hasPart n = false)
    (hc : r.compatible m = true) (hw : withheld s.monitor.timeState s.epochSource m.takesEpoch = false) :
    AllRec P (s.grantNow slot r n m requested).1 := by
  unfold State.grantNow
  cases m with
  | shared => exact (h.put (L.shared n _ hq hp hc hr)).congr rfl rfl
  | exclusive =>
    have he : exhausted s.epochSource = false := by
      simp only [withheld, Mode.takesEpoch, Bool.true_and, Bool.or_eq_false_iff] at hw; exact hw.2
    refine AllRec.put_source L h (e := s.epochSource + 1) ?_ (L.exclusive n _ hq hp hc he hr) rfl rfl
    rw [succ_toNat he]; omega

theorem findAmong_record {s : State} {key : List Byte} {l : List Nat} {slot : Nat} {r : Record}
    (h : s.findAmong key l = some (slot, r)) : s.record slot = some r ∧ r.key = key ∧ slot ∈ l := by
  induction l with
  | nil => simp [State.findAmong] at h
  | cons i l ih =>
    simp only [State.findAmong] at h
    split at h
    · rename_i x hx
      split at h
      · rename_i hk; cases h; exact ⟨hx, hk, by simp⟩
      · obtain ⟨a, b, c⟩ := ih h; exact ⟨a, b, List.mem_cons_of_mem _ c⟩
    · obtain ⟨a, b, c⟩ := ih h; exact ⟨a, b, List.mem_cons_of_mem _ c⟩

/-- A key that is found stands in an occupied slot of its bucket. -/
theorem findKey_record {s : State} {key : List Byte} {slot : Nat} {r : Record}
    (h : s.findKey key = some (slot, r)) : s.record slot = some r ∧ r.key = key ∧ slot ∈ homeSlots key :=
  findAmong_record h

/-- A handle that is honoured names an occupied slot. -/
theorem honoured_record {s : State} {hd : Half} {slot : Nat} {r : Record} (h : s.honoured hd = some (slot, r)) :
    s.record slot = some r ∧ slot = handleSlot hd := by
  unfold State.honoured at h
  split at h
  · rename_i x hx
    split at h
    · cases h; exact ⟨hx, rfl⟩
    · cases h
  · cases h

theorem AllRec.enterStandbyAt (L : RecordLaw P) (n : Agent) (mask : Byte) (p : State × EntryCount) (slot : Nat)
    (h : AllRec P p.1) : AllRec P (State.enterStandbyAt n mask p slot).1 := by
  unfold State.enterStandbyAt
  simp only
  split
  · exact h
  · rename_i r hr
    have hP := h.of_record hr
    have h1 : ∀ (x : Record) (b : Bool), P p.1.epochSource x → AllRec P
        (if b then (p.1.putRecord slot x).losePart n else p.1.putRecord slot x) := by
      intro x b hx; cases b
      · exact h.put hx
      · exact (h.put hx).congr rfl rfl
    have h2 : ∀ (t : State) (b : Bool), AllRec P t →
        AllRec P (if b then (t.grantCheck slot).retireIfEmpty slot else t) := by
      intro t b ht; cases b
      · exact ht
      · exact (ht.grantCheck L slot).retireIfEmpty slot
    have h3 : ∀ (t : State) (b : Bool), AllRec P t →
        AllRec P (if b then
          match t.record slot with
          | some r3 => t.putRecord slot (r3.mapHolder n keepHolder)
          | none => t
          else t) := by
      intro t b ht; cases b
      · exact ht
      · simp only [if_true]
        split
        · rename_i r3 hr3
          exact ht.put (L.mapHolder n _ (fun _ => ⟨rfl, rfl, rfl⟩) (ht.of_record hr3))
        · exact ht
    refine h3 _ _ (h2 _ _ (h1 _ _ ?_))
    split
    · exact L.dropAgent n hP
    · exact L.dropClaim n hP

theorem lookupRule_state (n : Agent) (body : List Byte) (s : State) : (lookupRule n body s).1 = s := by
  unfold lookupRule
  split
  · rfl
  · split <;> rfl

theorem readRule_state (n : Agent) (body : List Byte) (s : State) : (readRule n body s).1 = s := by
  unfold readRule
  split
  · rfl
  · split <;> rfl

theorem holdingsRule_state (n : Agent) (body : List Byte) (s : State) : (holdingsRule n body s).1 = s := by
  unfold holdingsRule
  split <;> rfl

/-! ### A byte read -/

theorem readTake_fields (s : State) : s.readTake.records = s.records ∧ s.readTake.epochSource = s.epochSource ∧
    s.readTake.generations = s.generations ∧ s.readTake.sessions = s.sessions ∧ s.readTake.cells = s.cells ∧
    s.readTake.settings = s.settings ∧ s.readTake.pending = s.pending ∧
    s.readTake.held = s.held ∧ s.readTake.table = s.table ∧ s.readTake.ports = s.ports ∧
    s.readTake.choices = s.choices ∧ s.readTake.sessionCounter = s.sessionCounter ∧
    { s.readTake.monitor with managementFlag := s.monitor.managementFlag } = s.monitor := by
  unfold State.readTake State.readEffect
  simp only
  split
  · exact ⟨rfl, rfl, rfl, rfl, rfl, rfl, rfl, rfl, rfl, rfl, rfl, rfl, rfl⟩
  · split <;> exact ⟨rfl, rfl, rfl, rfl, rfl, rfl, rfl, rfl, rfl, rfl, rfl, rfl, rfl⟩

end Sys2Proof.Machine
end

