-- ==== Sys2Proof/Laws/Fencing.lean ====
section
/-! SUPPORT. Exclusive holders are alone and fenced (R25, R28, R81): the record law of that property. -/

namespace Sys2Proof.Machine

/-- An entry carries the epoch its mode says: the record's last epoch, or none. -/
def Holder.fencedBy (last : Epoch) (h : Holder) : Prop :=
  (h.mode = .exclusive → h.epoch = some last) ∧ (h.mode = .shared → h.epoch = none)

/-- An exclusive holder is alone and fenced; the last epoch was issued. -/
def Fenced (e : Epoch) (r : Record) : Prop :=
  ((∃ h ∈ r.holders, h.mode = .exclusive) → r.holders.length = 1) ∧ r.lastEpoch.toNat ≤ e.toNat ∧
  ∀ h ∈ r.holders, h.fencedBy r.lastEpoch

theorem fenced_iff (e : Epoch) (r : Record) :
    Fenced e r ↔ r.exclusiveAlone = true ∧ Record.fenced e r = true := by
  have h1 : r.exclusiveAlone = true ↔ ((∃ h ∈ r.holders, h.mode = .exclusive) → r.holders.length = 1) := by
    unfold Record.exclusiveAlone Record.exclusiveHeld
    simp only [Bool.or_eq_true, Bool.not_eq_true', List.any_eq_false, beq_iff_eq]
    constructor
    · rintro (h | h) ⟨x, hx, hm⟩
      · exact absurd hm (h x hx)
      · exact h
    · intro h
      by_cases hx : ∃ x ∈ r.holders, x.mode = .exclusive
      · exact Or.inr (h hx)
      · exact Or.inl fun x hm hc => hx ⟨x, hm, hc⟩
  have h2 : Record.fenced e r = true ↔
      r.lastEpoch.toNat ≤ e.toNat ∧ ∀ h ∈ r.holders, h.fencedBy r.lastEpoch := by
    unfold Record.fenced
    simp only [Bool.and_eq_true, decide_eq_true_eq, List.all_eq_true]
    refine and_congr_right fun _ => forall₂_congr fun h _ => ?_
    unfold Holder.fencedBy
    cases h.mode <;> simp
  rw [h1, h2]; exact Iff.rfl

theorem mem_insertHolder {h x : Holder} {l : List Holder} : x ∈ insertHolder h l ↔ x = h ∨ x ∈ l := by
  induction l with
  | nil => simp [insertHolder]
  | cons g l ih =>
    unfold insertHolder
    split
    · simp
    · simp only [List.mem_cons, ih]; tauto

theorem length_insertHolder (h : Holder) (l : List Holder) : (insertHolder h l).length = l.length + 1 := by
  induction l with
  | nil => rfl
  | cons g l ih =>
    unfold insertHolder
    split
    · rfl
    · simp [ih]

theorem compatible_shared {r : Record} (h : r.compatible .shared = true) : ∀ x ∈ r.holders, x.mode = .shared := by
  simp only [Record.compatible, Record.exclusiveHeld, Bool.not_eq_true', List.any_eq_false, beq_iff_eq] at h
  intro x hx
  cases hm : x.mode
  · rfl
  · exact absurd hm (h x hx)

theorem compatible_exclusive {r : Record} (h : r.compatible .exclusive = true) : r.holders = [] := by
  simpa [Record.compatible] using h

/-- The only holder's record has one entry, its own. -/
theorem onlyHolder_eq {r : Record} {n : Agent} (h : r.onlyHolder n = true) :
    ∃ x, r.holders = [x] ∧ x.agent = n := by
  unfold Record.onlyHolder at h
  rw [beq_iff_eq] at h
  match hl : r.holders with
  | [] => simp [hl] at h
  | [x] => exact ⟨x, rfl, by simpa [hl] using h⟩
  | x :: y :: l => simp [hl] at h

theorem Fenced.shared {e : Epoch} {r : Record} (n : Agent) (life : Nat) (hc : r.compatible .shared = true)
    (h : Fenced e r) :
    Fenced e { r with holders := insertHolder (newHolder n .shared life none) r.holders } := by
  have hs := compatible_shared hc
  obtain ⟨_, h2, h3⟩ := h
  refine ⟨?_, h2, ?_⟩
  · rintro ⟨x, hx, hm⟩
    rcases mem_insertHolder.1 hx with rfl | hx
    · simp [newHolder] at hm
    · rw [hs x hx] at hm; cases hm
  · intro x hx
    rcases mem_insertHolder.1 hx with rfl | hx
    · constructor <;> intro hm <;> simp_all [newHolder]
    · exact h3 x hx

theorem Fenced.exclusive {e : Epoch} {r : Record} (n : Agent) (life : Nat) (hc : r.compatible .exclusive = true) :
    Fenced (e + 1) { r with lastEpoch := e + 1,
                            holders := insertHolder (newHolder n .exclusive life (some (e + 1))) r.holders } := by
  have hn := compatible_exclusive hc
  refine ⟨fun _ => by simp [hn, insertHolder], Nat.le_refl _, ?_⟩
  intro x hx
  simp only [hn, insertHolder, List.mem_singleton] at hx
  subst hx
  constructor <;> intro hm <;> simp_all [newHolder]

theorem Fenced.upgrade {e : Epoch} {r : Record} (n : Agent) (life : Nat) (ho : r.onlyHolder n = true) :
    Fenced (e + 1) { r.mapHolder n (upgraded life (e + 1)) with lastEpoch := e + 1 } := by
  obtain ⟨x, hx, ha⟩ := onlyHolder_eq ho
  refine ⟨fun _ => by simp [Record.mapHolder, hx], Nat.le_refl _, ?_⟩
  intro y hy
  simp only [Record.mapHolder, hx, List.map_cons, List.map_nil, ha, beq_self_eq_true, if_true,
    List.mem_singleton] at hy
  subst hy
  constructor <;> intro hm <;> simp_all [upgraded]

theorem Fenced.mono {e e' : Epoch} {r : Record} (h : Fenced e r) (he : e.toNat ≤ e'.toNat) : Fenced e' r :=
  ⟨h.1, Nat.le_trans h.2.1 he, h.2.2⟩

theorem Fenced.queue {e : Epoch} {r : Record} (h : Fenced e r) (q : List Claim) : Fenced e { r with queue := q } := h

theorem Fenced.filter {e : Epoch} {r : Record} (h : Fenced e r) (p : Holder → Bool) :
    Fenced e { r with holders := r.holders.filter p } := by
  obtain ⟨h1, h2, h3⟩ := h
  refine ⟨?_, h2, fun x hx => h3 x (List.mem_filter.1 hx).1⟩
  rintro ⟨x, hx, hm⟩
  obtain ⟨hxm, hxp⟩ := List.mem_filter.1 hx
  have hl := h1 ⟨x, hxm, hm⟩
  obtain ⟨y, hy⟩ := List.length_eq_one_iff.1 hl
  simp only [hy, List.mem_singleton] at hxm
  subst hxm
  simp [hy, hxp]

theorem Fenced.map {e : Epoch} {r : Record} (h : Fenced e r) (g : Holder → Holder)
    (hg : ∀ x ∈ r.holders, ((g x).mode = x.mode ∧ (g x).epoch = x.epoch) ∨
      ((g x).mode = .shared ∧ (g x).epoch = none)) :
    Fenced e { r with holders := r.holders.map g } := by
  obtain ⟨h1, h2, h3⟩ := h
  refine ⟨?_, h2, ?_⟩
  · rintro ⟨y, hy, hm⟩
    obtain ⟨x, hx, rfl⟩ := List.mem_map.1 hy
    rcases hg x hx with ⟨a, _⟩ | ⟨a, _⟩
    · simpa using h1 ⟨x, hx, a ▸ hm⟩
    · rw [a] at hm; cases hm
  · intro y hy
    obtain ⟨x, hx, rfl⟩ := List.mem_map.1 hy
    rcases hg x hx with ⟨a, b⟩ | ⟨a, b⟩
    · exact ⟨fun hm => b.trans ((h3 x hx).1 (a ▸ hm)), fun hm => b.trans ((h3 x hx).2 (a ▸ hm))⟩
    · exact ⟨fun hm => (by rw [a] at hm; cases hm), fun _ => b⟩

theorem Fenced.grant {env : GrantEnv} {e : Epoch} {r : Record} {c : Claim} {rest : List Claim}
    (hg : grantable env e r c = true) (h : Fenced e r) :
    Fenced (grantFirst env e r c rest).2.1 (grantFirst env e r c rest).1 := by
  have hc := ((grantable_iff env e r c).1 hg).1
  unfold Record.claimCompatible at hc
  unfold grantFirst
  cases hk : c.kind <;> simp only [hk] at hc ⊢
  · exact (h.queue rest).shared (r := { r with queue := rest }) c.agent _ hc
  · exact Fenced.exclusive (r := { r with queue := rest }) c.agent _ hc
  · exact (Fenced.upgrade (r := r) c.agent _ hc).queue rest

/-- The record law of exclusivity and fencing. -/
theorem fenced_law : RecordLaw Fenced where
  mono he h := h.mono he
  grant _ hg h := h.grant hg
  dropAgent n h := (h.filter _).queue _
  dropClaim n h := h.queue _
  holders g hg h := h.map g fun x _ => Or.inl (hg x).2
  claims g _ h := h.queue _
  words v _ h := h
  mark b h := h
  create key b _ := ⟨by simp [newRecord], Nat.zero_le _, by simp [newRecord]⟩
  shared n life _ _ hc h := h.shared n life hc
  exclusive n life _ _ hc _ _ := Fenced.exclusive n life hc
  enqueue c _ _ h := h.queue _
  upgrade n life _ _ _ ho _ _ := Fenced.upgrade n life ho
  enqueueUpgrade c _ _ _ _ h := h.queue _
  downgrade n h := h.map _ fun x _ => by
    by_cases hb : x.agent == n
    · right; simp [hb, downgraded]
    · left; simp [hb]

theorem fencedAll_iff (s : State) : (s.exclusivity && s.fencing) = true ↔ AllRec Fenced s := by
  simp only [State.exclusivity, State.fencing, State.everyRecord, Bool.and_eq_true, List.all_eq_true, AllRec,
    fenced_iff]
  exact ⟨fun h p hp => ⟨h.1 p hp, h.2 p hp⟩, fun h => ⟨fun p hp => (h p hp).1, fun p hp => (h p hp).2⟩⟩

end Sys2Proof.Machine
end

