-- ==== Sys2Proof/Laws/Queues.lean ====
section
/-! SUPPORT. Wait queues keep their order (R51): the record law of that property, and who has a part in a record after
each operation on it. -/

namespace Sys2Proof.Machine

theorem holds_iff {r : Record} {n : Agent} : r.holds n = true ↔ ∃ h ∈ r.holders, h.agent = n := by
  simp [Record.holds, Record.holder, List.find?_isSome]

theorem waits_iff {r : Record} {n : Agent} : r.waits n = true ↔ ∃ c ∈ r.queue, c.agent = n := by
  simp [Record.waits, Record.claim, List.find?_isSome]

theorem hasPart_iff {r : Record} {n : Agent} :
    r.hasPart n = true ↔ (∃ h ∈ r.holders, h.agent = n) ∨ ∃ c ∈ r.queue, c.agent = n := by
  rw [Record.hasPart, Bool.or_eq_true, holds_iff, waits_iff]

theorem holds_congr {r r' : Record} (h : r'.holders.map (fun h => h.agent) = r.holders.map fun h => h.agent)
    (n : Agent) : r'.holds n = r.holds n := by
  have key : ∀ x : Record, x.holds n = true ↔ n ∈ x.holders.map fun h => h.agent := by
    intro x; rw [holds_iff]; simp
  rw [Bool.eq_iff_iff, key, key, h]

theorem mapHolder_agents (r : Record) (n : Agent) (f : Holder → Holder) (hf : ∀ h, (f h).agent = h.agent) :
    (r.mapHolder n f).holders.map (fun h => h.agent) = r.holders.map fun h => h.agent := by
  simp only [Record.mapHolder, List.map_map]
  refine List.map_congr_left fun h _ => ?_
  simp only [Function.comp]
  split <;> simp [hf]

theorem dropAgent_holds (r : Record) (n m : Agent) : (r.dropAgent n).holds m = (r.holds m && m != n) := by
  rw [Bool.eq_iff_iff, Bool.and_eq_true, holds_iff, holds_iff]
  simp only [Record.dropAgent, Record.dropHolder, Record.dropClaim, List.mem_filter, bne_iff_ne, ne_eq]
  constructor
  · rintro ⟨h, ⟨hm, hn⟩, rfl⟩; exact ⟨⟨h, hm, rfl⟩, hn⟩
  · rintro ⟨⟨h, hm, rfl⟩, hn⟩; exact ⟨h, ⟨hm, hn⟩, rfl⟩

theorem dropAgent_waits (r : Record) (n m : Agent) : (r.dropAgent n).waits m = (r.waits m && m != n) := by
  rw [Bool.eq_iff_iff, Bool.and_eq_true, waits_iff, waits_iff]
  simp only [Record.dropAgent, Record.dropHolder, Record.dropClaim, List.mem_filter, bne_iff_ne, ne_eq]
  constructor
  · rintro ⟨h, ⟨hm, hn⟩, rfl⟩; exact ⟨⟨h, hm, rfl⟩, hn⟩
  · rintro ⟨⟨h, hm, rfl⟩, hn⟩; exact ⟨h, ⟨hm, hn⟩, rfl⟩

theorem dropClaim_waits (r : Record) (n m : Agent) : (r.dropClaim n).waits m = (r.waits m && m != n) :=
  dropAgent_waits r n m

theorem dropClaim_holds (r : Record) (n m : Agent) : (r.dropClaim n).holds m = r.holds m := rfl

theorem insertHolder_holds (r : Record) (x : Holder) (m : Agent) :
    ({ r with holders := insertHolder x r.holders } : Record).holds m = (decide (m = x.agent) || r.holds m) := by
  rw [Bool.eq_iff_iff, Bool.or_eq_true, holds_iff, holds_iff, decide_eq_true_eq]
  simp only [mem_insertHolder]
  constructor
  · rintro ⟨h, rfl | hm, rfl⟩
    · exact Or.inl rfl
    · exact Or.inr ⟨h, hm, rfl⟩
  · rintro (rfl | ⟨h, hm, rfl⟩)
    · exact ⟨x, Or.inl rfl, rfl⟩
    · exact ⟨h, Or.inr hm, rfl⟩

theorem dropClaim_eq {r : Record} {n : Agent} (h : r.waits n = false) : r.dropClaim n = r := by
  have hq : r.queue.filter (fun c => c.agent != n) = r.queue := by
    rw [List.filter_eq_self]
    intro c hc
    simp only [bne_iff_ne, ne_eq]
    intro he
    have : r.waits n = true := waits_iff.2 ⟨c, hc, he⟩
    rw [h] at this; cases this
  unfold Record.dropClaim
  rw [hq]

theorem dropHolder_eq {r : Record} {n : Agent} (h : r.holds n = false) : r.dropHolder n = r := by
  have hq : r.holders.filter (fun c => c.agent != n) = r.holders := by
    rw [List.filter_eq_self]
    intro c hc
    simp only [bne_iff_ne, ne_eq]
    intro he
    have : r.holds n = true := holds_iff.2 ⟨c, hc, he⟩
    rw [h] at this; cases this
  unfold Record.dropHolder
  rw [hq]

/-- R51. -/
def Ordered (r : Record) : Prop :=
  (r.queue.map fun c => c.agent).Nodup ∧ (∀ c ∈ r.queue, c.kind = .upgrade ↔ r.holds c.agent = true) ∧
  ∀ c ∈ r.queue.drop 1, c.kind ≠ .upgrade

theorem ordered_iff (r : Record) : r.queueOrdered = true ↔ Ordered r := by
  unfold Record.queueOrdered Ordered
  simp only [Bool.and_eq_true, decide_eq_true_eq, List.all_eq_true, beq_iff_eq, bne_iff_ne, ne_eq, and_assoc]
  refine and_congr_right fun _ => and_congr_left fun _ => forall₂_congr fun c _ => ?_
  rw [Bool.eq_iff_iff, beq_iff_eq]

theorem Ordered.holders {r r' : Record} (h : Ordered r) (hq : r'.queue = r.queue)
    (hh : r'.holders.map (fun h => h.agent) = r.holders.map fun h => h.agent) : Ordered r' := by
  unfold Ordered
  simp only [hq, holds_congr hh]
  exact h

theorem Ordered.of_nil {r : Record} (h : r.queue = []) : Ordered r := by
  unfold Ordered; simp [h]

theorem drop_filter_subset {α : Type} (p : α → Bool) (l : List α) :
    ∀ x ∈ (l.filter p).drop 1, x ∈ l.drop 1 := by
  cases l with
  | nil => simp
  | cons a l =>
    intro x hx
    simp only [List.filter_cons] at hx
    split at hx
    · exact (List.mem_filter.1 hx).1
    · exact (List.mem_filter.1 (List.mem_of_mem_drop hx)).1

theorem Ordered.filter {r : Record} (h : Ordered r) (p : Claim → Bool) (holders : List Holder)
    (hh : ∀ c ∈ r.queue, p c = true →
      ({ r with holders := holders } : Record).holds c.agent = r.holds c.agent) :
    Ordered { r with queue := r.queue.filter p, holders := holders } := by
  obtain ⟨h1, h2, h3⟩ := h
  refine ⟨?_, ?_, ?_⟩
  · exact h1.sublist (List.Sublist.map _ (List.filter_sublist))
  · intro c hc
    obtain ⟨hm, hp⟩ := List.mem_filter.1 hc
    have : ({ r with queue := r.queue.filter p, holders := holders } : Record).holds c.agent
        = r.holds c.agent := hh c hm hp
    rw [this]; exact h2 c hm
  · exact fun c hc => h3 c (drop_filter_subset p r.queue c hc)

theorem Ordered.grant {env : GrantEnv} {e : Epoch} {r : Record} {c : Claim} {rest : List Claim}
    (hq : r.queue = c :: rest) (h : Ordered r) : Ordered (grantFirst env e r c rest).1 := by
  obtain ⟨h1, h2, h3⟩ := h
  rw [hq] at h1 h2 h3
  simp only [List.map_cons, List.nodup_cons, List.mem_map, not_exists, not_and] at h1
  simp only [List.drop_one, List.tail_cons] at h3
  have hrest : ∀ x ∈ rest, x.agent ≠ c.agent ∧ r.holds x.agent = false := by
    intro x hx
    refine ⟨h1.1 x hx, ?_⟩
    have := (h2 x (List.mem_cons_of_mem _ hx)).not.1 (h3 x hx)
    simpa using this
  have hd : ∀ x ∈ rest.drop 1, x.kind ≠ .upgrade := fun x hx => h3 x (List.mem_of_mem_drop hx)
  unfold grantFirst
  cases hk : c.kind <;> simp only
  · refine ⟨h1.2, ?_, hd⟩
    intro x hx
    rw [insertHolder_holds { r with queue := rest }]
    have := hrest x hx
    simp [newHolder, this.1, h3 x hx]
    exact this.2
  · refine ⟨h1.2, ?_, hd⟩
    intro x hx
    rw [insertHolder_holds { r with queue := rest, lastEpoch := e + 1 }]
    have := hrest x hx
    simp [newHolder, this.1, h3 x hx]
    exact this.2
  · refine ⟨h1.2, ?_, hd⟩
    intro x hx
    have hag := mapHolder_agents r c.agent (upgraded (lifetime env.settings env.timeState c.requested) (e + 1))
      (fun _ => rfl)
    have he : ({ r.mapHolder c.agent (upgraded (lifetime env.settings env.timeState c.requested) (e + 1)) with
        queue := rest, lastEpoch := e + 1 } : Record).holds x.agent = r.holds x.agent := holds_congr hag x.agent
    rw [he]
    have := hrest x hx
    simp [this.2, h3 x hx]

/-- The record law of the queues' order. -/
theorem ordered_law : RecordLaw (fun _ => Ordered) where
  mono _ h := h
  grant hq _ h := h.grant hq
  dropAgent {e r} n h := by
    refine h.filter (fun c => c.agent != n) (r.holders.filter fun h => h.agent != n) fun c _ hp => ?_
    have := dropAgent_holds r n c.agent
    rw [hp, Bool.and_true] at this
    exact this
  dropClaim {e r} n h := h.filter (fun c => c.agent != n) r.holders fun _ _ _ => rfl
  holders g hg h := h.holders rfl (by simp only [List.map_map]; exact List.map_congr_left fun x _ => (hg x).1)
  claims {e r} g hg h := by
    obtain ⟨h1, h2, h3⟩ := h
    refine ⟨?_, ?_, ?_⟩
    · simp only [List.map_map]
      have : (r.queue.map ((fun c => c.agent) ∘ g)) = r.queue.map fun c => c.agent :=
        List.map_congr_left fun c _ => (hg c).1
      rw [this]; exact h1
    · intro c hc
      obtain ⟨d, hd, rfl⟩ := List.mem_map.1 hc
      rw [(hg d).1, (hg d).2]; exact h2 d hd
    · intro c hc
      simp only [← List.map_drop] at hc
      obtain ⟨d, hd, rfl⟩ := List.mem_map.1 hc
      rw [(hg d).2]; exact h3 d hd
  words v _ h := h
  mark b h := h
  create key b _ := Ordered.of_nil rfl
  shared n life hq _ _ _ := Ordered.of_nil hq
  exclusive n life hq _ _ _ _ := Ordered.of_nil hq
  enqueue {e r} c hp hk h := by
    obtain ⟨h1, h2, h3⟩ := h
    have hp' : ¬ ((∃ h ∈ r.holders, h.agent = c.agent) ∨ ∃ d ∈ r.queue, d.agent = c.agent) := by
      rw [← hasPart_iff]; simp [hp]
    refine ⟨?_, ?_, ?_⟩
    · simp only [List.map_append, List.map_cons, List.map_nil]
      rw [List.nodup_append]
      refine ⟨h1, by simp, ?_⟩
      intro a ha b hb hab
      simp only [List.mem_singleton] at hb
      obtain ⟨d, hd, rfl⟩ := List.mem_map.1 ha
      exact hp' (Or.inr ⟨d, hd, hab.trans hb⟩)
    · intro d hd
      rcases List.mem_append.1 hd with hd | hd
      · exact h2 d hd
      · simp only [List.mem_singleton] at hd
        subst hd
        simp only [hk, false_iff, Bool.not_eq_true]
        rw [Bool.eq_false_iff, ne_eq, holds_iff]
        exact fun hx => hp' (Or.inl hx)
    · intro d hd
      cases hq : r.queue with
      | nil => simp [hq] at hd
      | cons a l =>
        simp only [hq, List.cons_append, List.drop_one, List.tail_cons, List.mem_append, List.mem_singleton] at hd
        rcases hd with hd | rfl
        · exact h3 d (by simp [hq, hd])
        · exact hk
  upgrade {e r _} n life _ _ _ _ _ h := h.holders rfl (mapHolder_agents r n _ fun _ => rfl)
  enqueueUpgrade {e r x} c hx hw hu hk h := by
    obtain ⟨h1, h2, h3⟩ := h
    have hnone : ∀ d ∈ r.queue, d.kind ≠ .upgrade := by
      simpa [Record.upgradeQueued] using hu
    have hw' : ¬ ∃ d ∈ r.queue, d.agent = c.agent := by rw [← waits_iff]; simp [hw]
    refine ⟨?_, ?_, ?_⟩
    · simp only [List.map_cons, List.nodup_cons, List.mem_map]
      exact ⟨fun ⟨d, hd, he⟩ => hw' ⟨d, hd, he⟩, h1⟩
    · intro d hd
      rcases List.mem_cons.1 hd with rfl | hd
      · simp only [hk, true_iff]
        show r.holds d.agent = true
        simp [Record.holds, hx]
      · exact h2 d hd
    · intro d hd
      simp only [List.drop_one, List.tail_cons] at hd
      exact hnone d hd
  downgrade {e r} n h := h.holders rfl (mapHolder_agents r n _ fun _ => rfl)

theorem orderedAll_iff (s : State) : s.everyRecord Record.queueOrdered = true ↔ AllRec (fun _ => Ordered) s := by
  simp only [State.everyRecord, List.all_eq_true, AllRec, ordered_iff]

end Sys2Proof.Machine
end

