-- ==== Sys2Proof/Laws/Machine.lean ====
section
/-! SUPPORT. A property of the whole state that the events of the part keep is kept by every command and every step:
the induction over the machine for the invariants that relate the records to the sessions, the cells or the time
state. -/

namespace Sys2Proof.Machine

/-- What the table's properties read of a session. -/
def SameStanding (a b : Session) : Prop :=
  b.state = a.state ∧ b.leaseCount = a.leaseCount ∧ b.window = a.window ∧ b.standby = a.standby

/-- A property of the state that every event keeps. -/
structure StateLaw (I : State → Prop) : Prop where
  plain : ∀ {s t : State}, t.records = s.records → t.generations = s.generations → t.epochSource = s.epochSource →
    t.cells = s.cells → t.monitor.timeState = s.monitor.timeState → t.table = s.table → t.settings = s.settings →
    (∀ n, SameStanding (s.session n) (t.session n)) → I s → I t
  setting : ∀ {s : State} {k : Setting} {v : Nat} {st : Settings}, I s → s.settings.change k v = some st →
    s.settingLocked k = false → I { s with settings := st }
  leave : ∀ {s : State} {slot : Nat} {r : Record} {n : Agent} (k : Option NoticeKind), I s →
    s.record slot = some r → r.hasPart n = true →
    ((s.session n).state = .active ∨ (∃ h ∈ r.holders, h.agent = n ∧ h.status = .running) ∨ r.waits n = true) →
    I (s.leaveRecord slot n k)
  expireUpgrade : ∀ {s : State} {slot : Nat} {r : Record} {n : Agent}, I s → s.record slot = some r →
    (∃ c ∈ r.queue, c.agent = n ∧ c.kind = .upgrade) → I (s.expireUpgrade slot n)
  changeTime : ∀ {s : State} (m : Monitor), I s → I (s.changeTime m)
  tick : ∀ {s : State}, I s → I s.tick
  resume : ∀ {s : State} {n : Agent}, I s → (s.session n).state = .standby → I (s.resumeStandby n)
  window : ∀ {s : State} (n : Agent) (w : List Nat), I s → w.Sublist (s.session n).window →
    I (s.setSession n { s.session n with window := w })
  ends : ∀ {s : State} {n : Agent} (number : Half) (st : AgentState), I s → s.table = .ready →
    (s.session n).state.joined = true → st ≠ .standby →
    I ((s.endSession n).setSession n { (s.endSession n).session n with number := number, state := st })
  starts : ∀ {s : State} {n : Agent} (number : Half), I s → s.table = .ready →
    (s.session n).state.joined = false →
    I ((s.clearStanding n).setSession n { (s.clearStanding n).session n with number := number, state := .active })
  notices : ∀ {s : State} (n : Agent), I s → I (s.setCells n ((s.cells.get n).drop 6))
  create : ∀ {s : State} {n : Agent} {slot : Nat} {key : List Byte} (m : Mode) (requested : Nat), I s →
    s.table = .ready → (s.session n).state = .active → s.record slot = none → slot ∈ homeSlots key →
    withheld s.monitor.timeState s.epochSource m.takesEpoch = false →
    s.findKey key = none → keyLengthOk key.length = true → (s.session n).leaseCount ≠ s.settings.quota.get n →
    (s.session n).window.length ≠ s.settings.createBurst →
    I ((s.addCreation n).grantNow slot (newRecord key false) n m requested).1
  grantNow : ∀ {s : State} {n : Agent} {slot : Nat} {r : Record} (m : Mode) (requested : Nat), I s →
    s.table = .ready → (s.session n).state = .active → s.record slot = some r → r.queue = [] →
    r.hasPart n = false → r.compatible m = true →
    withheld s.monitor.timeState s.epochSource m.takesEpoch = false →
    (s.session n).leaseCount ≠ s.settings.quota.get n → I (s.grantNow slot r n m requested).1
  enqueue : ∀ {s : State} {slot : Nat} {r : Record} (c : Claim), I s → s.table = .ready →
    (s.session c.agent).state = .active → s.record slot = some r → r.hasPart c.agent = false → c.kind ≠ .upgrade →
    (r.queue = [] → r.claimCompatible c = false ∨
      withheld s.monitor.timeState s.epochSource c.kind.takesEpoch = true) →
    (s.session c.agent).leaseCount ≠ s.settings.quota.get c.agent →
    I ((s.putRecord slot { r with queue := r.queue ++ [c] }).gainPart c.agent)
  upgradeNow : ∀ {s : State} {slot : Nat} {r : Record} {n : Agent} {h : Holder} (requested : Nat), I s →
    s.record slot = some r → r.holder n = some h → r.waits n = false → r.upgradeQueued = false →
    r.onlyHolder n = true → withheld s.monitor.timeState s.epochSource true = false →
    I (s.upgradeNow slot r n requested).1
  enqueueUpgrade : ∀ {s : State} {slot : Nat} {r : Record} {n : Agent} {h : Holder} (q : UpgradeFields), I s →
    s.record slot = some r → r.holder n = some h → r.waits n = false → r.upgradeQueued = false →
    (r.onlyHolder n = false ∨ withheld s.monitor.timeState s.epochSource true = true) →
    (s.session n).state = .active → I (s.enqueueUpgrade slot r n q).1
  downgrade : ∀ {s : State} {slot : Nat} {r : Record} (n : Agent), I s → s.record slot = some r →
    I ((s.putRecord slot (r.mapHolder n downgraded)).grantCheck slot)
  entries : ∀ {s : State} {slot : Nat} {r : Record} (g : Holder → Holder), I s → s.record slot = some r →
    (∀ h, (g h).agent = h.agent ∧ (g h).mode = h.mode ∧ (g h).epoch = h.epoch ∧ (g h).status = h.status) →
    (∀ h, (g h).remaining = h.remaining ∨ 1 ≤ (g h).remaining) →
    I (s.putRecord slot { r with holders := r.holders.map g })
  renewAll : ∀ {s : State} (n : Agent) (mask : Byte) (life : Nat), I s → 1 ≤ life →
    I { s with records := s.records.map (renewRecord n mask life) }
  words : ∀ {s : State} {slot : Nat} {r : Record} (v : List Word), I s → s.record slot = some r → v.length = 8 →
    I (s.putRecord slot { r with value := v })
  mark : ∀ {s : State} {slot : Nat} {r : Record} (b : Bool), I s → s.record slot = some r →
    (b = true ∨ (r.persistent && r.empty) = false) →
    I (s.putRecord slot { r with persistent := b })
  standby : ∀ {s v : State} {n : Agent} (mask : Byte) (duration : Nat), I s → s.table = .ready →
    (s.session n).state = .active → I v → s.records = v.settle.records → I (s.enterStandby n mask duration).1
  define : ∀ {s : State} {slot : Nat} {key : List Byte}, I s → s.table = .ready → s.record slot = none →
    slot ∈ homeSlots key → s.findKey key = none → keyLengthOk key.length = true →
    I (s.putRecord slot (newRecord key true))
  retire : ∀ {s : State} {slot : Nat} {r : Record}, I s → s.record slot = some r →
    I (((agents.filter r.hasPart).foldl (fun t n => t.postPlain slot n (retireNotice r n)) s).retire slot)
  retireEmpty : ∀ {s : State} {slot : Nat} {r : Record}, I s → s.record slot = some r → r.empty = true →
    I (s.retire slot)
  cleared : ∀ {s t : State}, I s → t.records = [] → t.generations = [] → (∀ n, t.session n = Session.reset) →
    (∀ n, t.cells.get n = []) → t.epochSource = s.epochSource → I t
  sweep : ∀ {s : State}, I s → s.table = .initializing → I s.sweep

variable {I : State → Prop}

theorem SameStanding.rfl' (a : Session) : SameStanding a a := ⟨rfl, rfl, rfl, rfl⟩

theorem StateLaw.same (L : StateLaw I) {s t : State} (h : I s) (hr : t.records = s.records)
    (hg : t.generations = s.generations) (he : t.epochSource = s.epochSource) (hc : t.cells = s.cells)
    (hm : t.monitor.timeState = s.monitor.timeState) (ht : t.table = s.table) (hst : t.settings = s.settings)
    (hs : t.sessions = s.sessions) : I t :=
  L.plain hr hg he hc hm ht hst
    (fun n => by rw [State.session, State.session, hs]; exact SameStanding.rfl' _) h

theorem StateLaw.foldl {β : Type} {f : State → β → State} (hf : ∀ s x, I s → I (f s x)) (l : List β) {s : State}
    (h : I s) : I (l.foldl f s) := by
  induction l generalizing s with
  | nil => exact h
  | cons x l ih => exact ih (hf s x h)

theorem StateLaw.leaveAny (L : StateLaw I) {s : State} (h : I s) (slot : Nat) (n : Agent) (k : Option NoticeKind)
    (hp : ∀ r, s.record slot = some r → r.hasPart n = true)
    (ha : ∀ r, s.record slot = some r →
      ((s.session n).state = .active ∨ (∃ h ∈ r.holders, h.agent = n ∧ h.status = .running) ∨ r.waits n = true)) :
    I (s.leaveRecord slot n k) := by
  cases hr : s.record slot with
  | none => simpa [State.leaveRecord, hr] using h
  | some r => exact L.leave k h hr (hp r hr) (ha r hr)

/-! ### The parts of a tick -/

/-- What is due in an occupied slot is due in its record. -/
theorem due_of_record {s : State} {slot : Nat} {r : Record} {p : DuePart} (hr : s.record slot = some r) :
    p ∈ s.dueParts slot ↔ p ∈ r.dueParts := by simp only [State.dueParts, hr]

theorem lease_mem_dueParts {r : Record} {n : Agent} :
    DuePart.lease n ∈ r.dueParts ↔ ∃ h ∈ r.holders, h.agent = n ∧ h.status = .running ∧ h.remaining = 0 := by
  simp only [Record.dueParts, List.mem_append, List.mem_map, List.mem_filter, Holder.due, Bool.and_eq_true,
    beq_iff_eq]
  constructor
  · rintro (⟨x, ⟨hx, hs, h0⟩, he⟩ | ⟨c, _, he⟩)
    · cases he; exact ⟨x, hx, rfl, hs, h0⟩
    · split at he <;> cases he
  · rintro ⟨x, hx, rfl, hs, h0⟩
    exact Or.inl ⟨x, ⟨hx, hs, h0⟩, rfl⟩

theorem wait_mem_dueParts {r : Record} {n : Agent} :
    DuePart.wait n ∈ r.dueParts ↔ ∃ c ∈ r.queue, c.agent = n ∧ c.kind ≠ .upgrade ∧ c.wait = 0 := by
  simp only [Record.dueParts, List.mem_append, List.mem_map, List.mem_filter, Claim.due, beq_iff_eq]
  constructor
  · rintro (⟨x, _, he⟩ | ⟨c, ⟨hc, h0⟩, he⟩)
    · cases he
    · split at he
      · cases he
      · rename_i hk; cases he; exact ⟨c, hc, rfl, hk, h0⟩
  · rintro ⟨c, hc, rfl, hk, h0⟩
    exact Or.inr ⟨c, ⟨hc, h0⟩, by simp [hk]⟩

theorem upgrade_mem_dueParts {r : Record} {n : Agent} :
    DuePart.upgradeWait n ∈ r.dueParts ↔ ∃ c ∈ r.queue, c.agent = n ∧ c.kind = .upgrade ∧ c.wait = 0 := by
  simp only [Record.dueParts, List.mem_append, List.mem_map, List.mem_filter, Claim.due, beq_iff_eq]
  constructor
  · rintro (⟨x, _, he⟩ | ⟨c, ⟨hc, h0⟩, he⟩)
    · cases he
    · split at he
      · rename_i hk; cases he; exact ⟨c, hc, rfl, hk, h0⟩
      · cases he
  · rintro ⟨c, hc, rfl, hk, h0⟩
    exact Or.inr ⟨c, ⟨hc, h0⟩, by simp [hk]⟩

theorem due_record {s : State} {slot : Nat} {p : DuePart} (h : p ∈ s.dueParts slot) : ∃ r, s.record slot = some r := by
  cases hr : s.record slot with
  | none => simp [State.dueParts, hr] at h
  | some r => exact ⟨r, rfl⟩

theorem StateLaw.takePart (L : StateLaw I) {s : State} (h : I s) {slot : Nat} {p : DuePart}
    (hp : p ∈ s.dueParts slot) : I (s.takePart slot p) := by
  obtain ⟨r, hr⟩ := due_record hp
  rw [due_of_record hr] at hp
  cases p with
  | lease n =>
    obtain ⟨x, hx, ha, hs, _⟩ := lease_mem_dueParts.1 hp
    exact L.leave (some .expired) h hr (hasPart_iff.2 (Or.inl ⟨x, hx, ha⟩)) (Or.inr (Or.inl ⟨x, hx, ha, hs⟩))
  | wait n =>
    obtain ⟨c, hc, ha, _⟩ := wait_mem_dueParts.1 hp
    exact L.leave (some .waitExpired) h hr (hasPart_iff.2 (Or.inr ⟨c, hc, ha⟩))
      (Or.inr (Or.inr (waits_iff.2 ⟨c, hc, ha⟩)))
  | upgradeWait n =>
    obtain ⟨c, hc, ha, hk, _⟩ := upgrade_mem_dueParts.1 hp
    exact L.expireUpgrade h hr ⟨c, hc, ha, hk⟩

theorem StateLaw.settleRecord (L : StateLaw I) (slot fuel : Nat) {s : State} (h : I s) :
    I (State.settleRecord slot fuel s) := by
  induction fuel generalizing s with
  | zero => exact h
  | succ k ih =>
    unfold State.settleRecord
    split
    · exact h
    · rename_i p hp
      exact ih (L.takePart h (by rw [hp]; simp))
    · rename_i p q rest hp
      have h1 : I ({ s with choices := s.choices + 1 } : State) := L.same h rfl rfl rfl rfl rfl rfl rfl rfl
      refine ih (L.takePart h1 ?_)
      have hd : ({ s with choices := s.choices + 1 } : State).dueParts slot = s.dueParts slot := rfl
      rw [hd, hp]
      have hl : Config.expiryOrder s.choices % (rest.length + 2) < (p :: q :: rest).length := by
        simp only [List.length_cons]; exact Nat.mod_lt _ (by omega)
      rw [List.getD_eq_getElem _ _ hl]
      exact List.getElem_mem hl

theorem StateLaw.settleSlots (L : StateLaw I) {s : State} (h : I s) (l : List Nat) : I (s.settleSlots l) :=
  StateLaw.foldl (fun _ _ h => L.settleRecord _ _ h) l h

theorem StateLaw.settleMonitor (L : StateLaw I) {s : State} (h : I s) : I s.settleMonitor := by
  unfold State.settleMonitor
  split
  · exact L.changeTime _ h
  · exact h

theorem setSession_session (s : State) (n m : Agent) (a : Session) :
    (s.setSession n a).session m = if m = n then a else s.session m := by
  simp only [State.session, State.setSession]; exact PerAgent.get_set _ _ _ _

@[simp] theorem setSession_session_same (s : State) (n : Agent) (a : Session) :
    (s.setSession n a).session n = a := by rw [setSession_session]; simp

/-- A session change that the properties do not read. -/
theorem StateLaw.quietSession (L : StateLaw I) {s : State} (h : I s) (n : Agent) (a : Session)
    (ha : SameStanding (s.session n) a) : I (s.setSession n a) := by
  refine L.plain (s := s) rfl rfl rfl rfl rfl rfl rfl (fun m => ?_) h
  rw [setSession_session]
  split
  · rename_i hm; subst hm; exact ha
  · exact SameStanding.rfl' _

theorem StateLaw.expireStandby (L : StateLaw I) {s : State} (h : I s) {n : Agent}
    (hn : (s.session n).state = .standby) : I (s.expireStandby n) :=
  L.quietSession (L.resume h hn) n _ ⟨rfl, rfl, rfl, rfl⟩

theorem standbyDue_state {s : State} {n : Agent} (h : s.standbyDue n = true) : (s.session n).state = .standby := by
  simp only [State.standbyDue, Bool.and_eq_true, beq_iff_eq] at h; exact h.1

theorem StateLaw.settleSession (L : StateLaw I) {s : State} (h : I s) (n : Agent) : I (s.settleSession n) := by
  unfold State.settleSession
  simp only
  have h1 : I (if s.standbyDue n then s.expireStandby n else s) := by
    split
    · rename_i hd; exact L.expireStandby h (standbyDue_state hd)
    · exact h
  generalize (if s.standbyDue n then s.expireStandby n else s) = t at h1 ⊢
  split
  · exact L.window n _ h1 List.filter_sublist
  · exact h1

theorem StateLaw.settleCore (L : StateLaw I) {s : State} (h : I s) : I s.settleCore := by
  have h1 : I ({ s with choices := s.choices + 1 } : State) := L.same h rfl rfl rfl rfl rfl rfl rfl rfl
  have ht : ∀ u : State, I u → I u.settleTable := fun u hu => L.settleSlots hu u.dueSlots
  have h2 : I (({ s with choices := s.choices + 1 } : State).settleMonitor.settleTable) := ht _ (L.settleMonitor h1)
  have h3 : I (({ s with choices := s.choices + 1 } : State).settleTable.settleMonitor) := L.settleMonitor (ht _ h1)
  have h4 : I (s.settleTable.settleMonitor) := L.settleMonitor (ht _ h)
  unfold State.settleCore
  split
  · split
    · exact h2
    · exact h3
  · exact h4

theorem StateLaw.settleSessions (L : StateLaw I) (l : List Agent) {s : State} (h : I s) :
    I (l.foldl State.settleSession s) :=
  StateLaw.foldl (I := I) (f := State.settleSession) (fun _ n hu => L.settleSession hu n) l h

theorem StateLaw.settle (L : StateLaw I) {s : State} (h : I s) : I s.settle :=
  L.settleSessions agents (L.settleCore h)

theorem StateLaw.settleFor (L : StateLaw I) {s : State} (h : I s) (k : Request) (n : Agent) : I (s.settleFor k n) := by
  unfold State.settleFor
  split
  · have h1 := L.settleSessions (agents.filter fun m => m != n) (L.settleCore h)
    unfold State.settleForWake
    simp only
    split
    · exact L.window n _ h1 List.filter_sublist
    · exact h1
  · exact L.settle h

/-! ### Requests -/

theorem StateLaw.transact (L : StateLaw I) {s : State} (h : I s) (n : Agent) (start : TransactionStart) (total : Nat)
    (q : Bool) (take : State → State) (ht : ∀ u, I u → u.records = s.records → I (take u)) :
    I (s.transact n start total q take) := by
  have hp : ∀ (u : State) (p : Port), I u → I (u.setPort n p) := fun u p hu =>
    L.same hu rfl rfl rfl rfl rfl rfl rfl rfl
  have hd : ∀ (u : State) (b : Bool), I u → I (u.dropped n b) := by
    intro u b hu; cases b
    · exact hu
    · exact hp _ _ hu
  have h1 : I (s.shifted n ((s.port n).shifts s.held start total)) := hp _ _ h
  have h2 : (s.shifted n ((s.port n).shifts s.held start total)).records = s.records := rfl
  unfold State.transact
  simp only
  generalize s.shifted n ((s.port n).shifts s.held start total) = u at h1 h2 ⊢
  split
  · exact h1
  · split
    · exact h1
    · split
      · exact h
      · exact hd _ _ h1
    · split
      · exact ht _ h1 h2
      · exact hd _ _ h1
      · split
        · exact ht _ (hp _ _ h1) h2
        · exact hd _ _ h1

theorem StateLaw.answer (L : StateLaw I) {s : State} (h : I s) (n : Agent) (a : Answer) : I (s.answer n a) :=
  L.same h rfl rfl rfl rfl rfl rfl rfl rfl

/-- A request keeps what its rule keeps in the READY table from an agent whose state admits it. -/
theorem StateLaw.request (L : StateLaw I) {s : State} (h : I s) (k : Request) (n : Agent) (t : Transfer)
    (body : List Byte) (rule : State → State × Answer)
    (hr : ∀ u, I u → (u.table = .ready ∨ k = .time) → admission k (u.session n).state = none →
      u.records = (s.settleFor k n).records → I (rule u).1) :
    I (s.request k n t body rule) := by
  refine L.transact (L.settleFor h k n) n t.start _ true _ fun u hu hrec => ?_
  unfold State.accept
  split
  · exact L.answer hu _ _
  · rename_i htab
    split
    · exact L.answer hu _ _
    · rename_i ha
      refine L.answer (hr u hu ?_ ha hrec) _ _
      cases ht : u.table
      · by_cases hk : k = .time
        · exact Or.inr hk
        · exact absurd ⟨ht, hk⟩ htab
      · exact Or.inl rfl

theorem admission_active {k : Request} {st : AgentState} (h : admission k st = none) (h1 : k ≠ .join) (h2 : k ≠ .time)
    (h3 : k ≠ .leave) (h4 : k ≠ .notices) (h5 : k ≠ .wake) : st = .active := by
  cases st <;> cases k <;> simp_all [admission]

theorem admission_joined {k : Request} {st : AgentState} (h : admission k st = none) (h1 : k ≠ .join)
    (h2 : k ≠ .time) : st.joined = true := by
  cases st <;> cases k <;> simp_all [admission, AgentState.joined]

theorem vacantWays_vacant {s : State} {key : List Byte} {slot : Nat} (h : slot ∈ s.vacantWays key) :
    s.record slot = none ∧ slot ∈ homeSlots key := by
  simp only [State.vacantWays, List.mem_filter, Option.isNone_iff_eq_none] at h
  exact ⟨h.2, h.1⟩

theorem keyLengthOk_take {l : List Byte} {len k : Nat} (hl : l.length = 24 + k) (h : keyLengthOk len = true) :
    keyLengthOk ((l.drop k).take len).length = true := by
  simp only [keyLengthOk, Bool.and_eq_true, decide_eq_true_eq] at h ⊢
  rw [List.length_take, List.length_drop]
  omega

theorem parseClaim_key {b : List Byte} {q : ClaimFields} (h : parseClaim b = some q) :
    keyLengthOk q.key.length = true := by
  unfold parseClaim at h
  split at h
  · cases h
  · simp only at h
    split at h
    · rename_i hc
      cases h
      exact keyLengthOk_take (by omega) hc.2.2
    · cases h

theorem lifetime_pos (st : Settings) (ts : TimeState) (requested : Nat) : 1 ≤ lifetime st ts requested := by
  have h : ∀ d : Nat, 1 ≤ if d = 0 then 1 else d := by intro d; split <;> omega
  exact h _

theorem StateLaw.claimRule (L : StateLaw I) {s : State} (h : I s) (ht : s.table = .ready) {n : Agent}
    (hn : (s.session n).state = .active) (body : List Byte) : I (claimRule n body s).1 := by
  unfold Machine.claimRule
  split
  · exact h
  · rename_i q hq
    split
    · rename_i slot r hf
      have hr := (findKey_record hf).1
      unfold State.claimPresent
      split
      · exact h
      · rename_i hp
        split
        · exact h
        · rename_i hquota
          split
          · rename_i hg
            simp only [Bool.and_eq_true, List.isEmpty_iff, Bool.not_eq_true'] at hg
            exact L.grantNow _ _ h ht hn hr hg.1.1 (by simpa using hp) hg.1.2 hg.2 hquota
          · rename_i hg
            split
            · exact h
            · refine L.enqueue { agent := n, kind := q.mode.kind, requested := q.requested, wait := q.wait } h ht hn
                hr (by simpa using hp) ?_ ?_ hquota
              · cases q.mode <;> simp [Mode.kind]
              · intro hq
                simp only [hq, List.isEmpty_nil, Bool.true_and, Bool.and_eq_true, Bool.not_eq_true', not_and,
                  Bool.not_eq_false] at hg
                cases hm : q.mode with
                | shared =>
                  simp only [hm] at hg
                  cases hc : r.compatible .shared
                  · exact Or.inl hc
                  · exact Or.inr (hg hc)
                | exclusive =>
                  simp only [hm] at hg
                  cases hc : r.compatible .exclusive
                  · exact Or.inl hc
                  · exact Or.inr (hg hc)
    · rename_i hf
      unfold State.claimAbsent
      split
      · exact h
      · rename_i hw
        split
        · exact h
        · rename_i hquota
          split
          · exact h
          · rename_i slot others hv
            split
            · exact h
            · rename_i hburst
              obtain ⟨hs, hk⟩ := vacantWays_vacant (s := s) (key := q.key) (slot := slot) (by rw [hv]; simp)
              exact L.create _ _ h ht hn hs hk (Bool.eq_false_iff.2 hw) hf (parseClaim_key hq) hquota hburst

theorem StateLaw.upgradeRule (L : StateLaw I) {s : State} (h : I s) {n : Agent}
    (hn : (s.session n).state = .active) (body : List Byte) :
    I (upgradeRule n body s).1 := by
  unfold Machine.upgradeRule
  split
  · exact h
  · split
    · exact h
    · rename_i slot r hf
      have hr := (honoured_record hf).1
      split
      · exact h
      · rename_i x hx
        unfold State.upgradeHeld
        split
        · exact h
        · split
          · exact h
          · rename_i hw
            split
            · exact h
            · rename_i hu
              split
              · rename_i hg
                simp only [Bool.and_eq_true, Bool.not_eq_true'] at hg
                exact L.upgradeNow _ h hr hx (by simpa using hw) (by simpa using hu) hg.1 hg.2
              · rename_i hg
                split
                · exact h
                · refine L.enqueueUpgrade _ h hr hx (by simpa using hw) (by simpa using hu) ?_ hn
                  simp only [Bool.and_eq_true, Bool.not_eq_true', not_and, Bool.not_eq_false] at hg
                  cases ho : r.onlyHolder n
                  · exact Or.inl rfl
                  · exact Or.inr (hg ho)

theorem StateLaw.downgradeRule (L : StateLaw I) {s : State} (h : I s) (n : Agent) (body : List Byte) :
    I (downgradeRule n body s).1 := by
  unfold Machine.downgradeRule
  split
  · exact h
  · split
    · exact h
    · rename_i slot r hf
      split
      · exact h
      · split
        · exact h
        · exact L.downgrade n h (honoured_record hf).1

theorem StateLaw.renewRule (L : StateLaw I) {s : State} (h : I s) (n : Agent) (body : List Byte) :
    I (renewRule n body s).1 := by
  unfold Machine.renewRule
  split
  · exact h
  · split
    · exact h
    · rename_i slot r hf
      split
      · exact h
      · split
        · exact h
        · refine L.entries _ h (honoured_record hf).1 (fun x => ?_) fun x => ?_
          · split <;> exact ⟨rfl, rfl, rfl, rfl⟩
          · split
            · exact Or.inr (lifetime_pos ..)
            · exact Or.inl rfl

theorem StateLaw.renewSetRule (L : StateLaw I) {s : State} (h : I s) (n : Agent) (body : List Byte) :
    I (renewSetRule n body s).1 := by
  unfold Machine.renewSetRule
  split
  · exact h
  · split
    · exact h
    · exact L.renewAll _ _ _ h (lifetime_pos ..)

theorem StateLaw.releaseRule (L : StateLaw I) {s : State} (h : I s) {n : Agent}
    (hn : (s.session n).state = .active) (body : List Byte) :
    I (releaseRule n body s).1 := by
  unfold Machine.releaseRule
  split
  · exact h
  · split
    · exact h
    · rename_i slot r hf
      split
      · rename_i hp; exact L.leave none h (honoured_record hf).1 hp (Or.inl hn)
      · exact h

theorem maskWords_length (mask : Byte) (new old : List Word) : (maskWords mask new old).length = 8 := by
  simp [maskWords]

theorem StateLaw.writeRule (L : StateLaw I) {s : State} (h : I s) (n : Agent) (body : List Byte) :
    I (writeRule n body s).1 := by
  unfold Machine.writeRule
  split
  · exact h
  · split
    · exact h
    · rename_i slot r hf
      split
      · exact h
      · unfold State.writeHeld
        split
        · exact h
        · split
          · exact h
          · exact L.words _ h (honoured_record hf).1 (maskWords_length ..)

theorem StateLaw.joinRule (L : StateLaw I) {s : State} (h : I s) (ht : s.table = .ready) (n : Agent)
    (body : List Byte) : I (joinRule n body s).1 := by
  have hq : ∀ (u : State) (number : Half), I (u.setSession n { u.session n with number := number, state := .active }) →
      I (u.startSession n) := by
    intro u number hu
    refine L.plain (s := u.setSession n { u.session n with number := number, state := .active })
      rfl rfl rfl rfl rfl rfl rfl (fun m => ?_) hu
    unfold State.startSession
    simp only [setSession_session]
    split
    · exact ⟨rfl, rfl, rfl, rfl⟩
    · exact SameStanding.rfl' _
  unfold Machine.joinRule
  split
  · exact h
  · simp only
    split
    · rename_i hj; exact hq _ 0 (L.ends 0 .active h ht hj (by simp))
    · rename_i hj; exact hq _ 0 (L.starts 0 h ht (Bool.eq_false_iff.2 hj))

theorem StateLaw.leaveRule (L : StateLaw I) {s : State} (h : I s) (ht : s.table = .ready) {n : Agent}
    (hj : (s.session n).state.joined = true) (body : List Byte) : I (leaveRule n body s).1 := by
  unfold Machine.leaveRule
  split
  · exact h
  · exact L.ends 0 .unjoined h ht hj (by simp)

theorem StateLaw.noticesRule (L : StateLaw I) {s : State} (h : I s) (n : Agent) (body : List Byte) :
    I (noticesRule n body s).1 := by
  unfold Machine.noticesRule
  split
  · exact h
  · exact L.notices n h

theorem StateLaw.timeRule (L : StateLaw I) {s : State} (h : I s) (n : Agent) (body : List Byte) :
    I (timeRule n body s).1 := by
  unfold Machine.timeRule
  split
  · exact h
  · split
    · exact L.same h rfl rfl rfl rfl rfl rfl rfl rfl
    · exact h

theorem StateLaw.standbyRule (L : StateLaw I) {s : State} (h : I s) (ht : s.table = .ready) {n : Agent}
    (hn : (s.session n).state = .active) {v : State} (hv : I v) (hrec : s.records = v.settle.records)
    (body : List Byte) : I (standbyRule n body s).1 := by
  unfold Machine.standbyRule
  split
  · exact h
  · split
    · exact h
    · split
      · exact h
      · exact L.standby _ _ h ht hn hv hrec

theorem StateLaw.wakeRule (L : StateLaw I) {s : State} (h : I s) (n : Agent) (body : List Byte) :
    I (wakeRule n body s).1 := by
  unfold Machine.wakeRule
  split
  · exact h
  · simp only
    split
    · rename_i hn; exact L.resume h hn
    · exact L.quietSession h n _ ⟨rfl, rfl, rfl, rfl⟩

/-! ### Mailbox requests, registers and the time base -/

theorem StateLaw.setManagement (L : StateLaw I) {s : State} (h : I s) (m : Management) : I (s.setManagement m) :=
  L.same h rfl rfl rfl rfl rfl rfl rfl rfl

theorem StateLaw.takeRequest (L : StateLaw I) {s : State} (rule : State → Completion) (hr : I (rule s).after) :
    I (s.takeRequest rule) := L.setManagement hr _

theorem StateLaw.mailboxRequest (L : StateLaw I) {s : State} (h : I s) (code : Byte) (rule : State → Completion)
    (hr : ∀ u, I u → I (rule u).after) : I (s.mailboxRequest code rule) := by
  have hs := L.settle h
  unfold State.mailboxRequest
  generalize s.settle = u at hs ⊢
  simp only
  split
  · exact hs
  · split
    · split
      · exact L.takeRequest _ (hr u hs)
      · exact L.setManagement hs _
    · exact L.takeRequest _ (hr _ (L.setManagement hs _))

theorem validKey_length {m : Management} {key : List Byte} (h : m.validKey = some key) :
    keyLengthOk key.length = true := by
  unfold Management.validKey at h
  split at h
  · rename_i hk
    cases h
    simpa [Management.key] using hk
  · cases h

theorem keyed_keeps {s : State} (h : I s) (rule : List Byte → Completion)
    (hr : ∀ key, s.table = .ready → keyLengthOk key.length = true → I (rule key).after) :
    I (s.keyed rule).after := by
  unfold State.keyed
  split
  · exact h
  · rename_i key hk
    split
    · exact h
    · rename_i ht
      refine hr _ ?_ (validKey_length hk)
      cases hx : s.table
      · exact absurd hx ht
      · rfl

theorem StateLaw.setRule (L : StateLaw I) {s : State} (h : I s) : I (setRule s).after := by
  unfold Machine.setRule
  split
  · exact h
  · split
    · exact h
    · split
      · exact h
      · rename_i k _ st hc hl
        have h1 : I ({ s with settings := st } : State) := L.setting h hc (Bool.eq_false_iff.2 hl)
        simp only [State.done]
        unfold State.afterSet
        split
        · exact L.settleMonitor h1
        · split
          · exact h1
          · exact L.changeTime _ h1
        · exact h1

theorem StateLaw.defineRule (L : StateLaw I) {s : State} (h : I s) : I (defineRule s).after := by
  refine keyed_keeps h _ fun key ht hlen => ?_
  split
  · exact h
  · rename_i hf
    split
    · exact h
    · rename_i slot others hv
      obtain ⟨hs, hk⟩ := vacantWays_vacant (s := s) (key := key) (slot := slot) (by rw [hv]; simp)
      exact L.define h ht hs hk hf hlen

theorem StateLaw.retireRule (L : StateLaw I) {s : State} (h : I s) : I (retireRule s).after := by
  refine keyed_keeps h _ fun key _ _ => ?_
  split
  · exact h
  · rename_i slot r hf
    exact L.retire h (findKey_record hf).1

theorem StateLaw.markRule (L : StateLaw I) {s : State} (h : I s) : I (markRule s).after := by
  unfold Machine.markRule
  split
  · exact h
  · refine keyed_keeps h _ fun key _ _ => ?_
    split
    · exact h
    · rename_i slot r hf
      have hr := (findKey_record hf).1
      simp only [State.done]
      unfold State.markRecord
      split
      · exact L.mark _ h hr (Or.inl rfl)
      · split
        · rename_i he
          simp only [Bool.and_eq_true] at he
          exact L.retireEmpty h hr he.2
        · rename_i he
          exact L.mark _ h hr (Or.inr (Bool.eq_false_iff.2 he))

theorem StateLaw.seedRule (L : StateLaw I) {s : State} (h : I s) : I (seedRule s).after := by
  refine keyed_keeps h _ fun key _ _ => ?_
  split
  · exact h
  · rename_i slot r hf
    split
    · exact h
    · exact L.words _ h (findKey_record hf).1 (maskWords_length ..)

theorem inspectRule_after (s : State) : (inspectRule s).after = s := by
  unfold inspectRule State.keyed
  split
  · rfl
  · split
    · rfl
    · simp only
      split <;> rfl

theorem StateLaw.evictRule (L : StateLaw I) {s : State} (h : I s) : I (evictRule s).after := by
  by_cases hn : s.management.agentNumber.toNat < 4
  · simp only [Machine.evictRule, hn, dite_true]
    split
    · exact h
    · rename_i ht
      split
      · rename_i hj
        refine L.ends 0 .evicted h ?_ hj (by simp)
        cases hx : s.table
        · exact absurd hx ht
        · rfl
      · exact h
  · simp only [Machine.evictRule, hn, dite_false]
    exact h

theorem StateLaw.softReset (L : StateLaw I) {s : State} (h : I s) : I s.softReset :=
  L.cleared h rfl rfl (fun n => PerAgent.get_all _ n) (fun n => PerAgent.get_all _ n) rfl

theorem StateLaw.readMany (L : StateLaw I) {s : State} (h : I s) (k : Nat) : I (State.readMany k s) := by
  induction k generalizing s with
  | zero => exact h
  | succ k ih =>
    refine ih ?_
    obtain ⟨h1, h2, h3, h4, h5, h6, _, _, h9, _, _, _, h13⟩ := readTake_fields s
    exact L.same h h1 h3 h2 h5 (by have := congrArg Monitor.timeState h13; exact this) h9 h6 h4

theorem StateLaw.readRun (L : StateLaw I) {s : State} (h : I s) (run : ReadRun) : I (s.readRun run) := by
  have hs := L.settle h
  unfold State.readRun
  generalize s.settle = u at hs ⊢
  simp only
  split
  · exact L.readMany (L.setManagement hs _) _
  · exact hs

theorem StateLaw.writeTake (L : StateLaw I) {s : State} (h : I s) (v : Byte) : I (s.writeTake v) := by
  unfold State.writeTake
  simp only
  split
  · exact L.setManagement h _
  · split
    · exact L.setManagement h _
    · split
      · split
        · exact L.takeRequest _ (L.softReset (L.setManagement h _))
        · exact L.setManagement h _
      · exact L.setManagement h _

theorem StateLaw.writeRun (L : StateLaw I) {s : State} (h : I s) (a d : Option Byte) : I (s.writeRun a d) := by
  have hs := L.settle h
  unfold State.writeRun
  generalize s.settle = u at hs ⊢
  simp only
  split
  · cases d
    · exact L.setManagement hs _
    · exact L.writeTake (L.setManagement hs _) _
  · exact hs

theorem StateLaw.setMonitor (L : StateLaw I) {s : State} (h : I s) (m : Monitor)
    (hm : m.timeState = s.monitor.timeState) : I (s.setMonitor m) := L.same h rfl rfl rfl rfl hm rfl rfl rfl

theorem StateLaw.missing (L : StateLaw I) {s : State} (h : I s) : I s.missing := by
  unfold State.missing
  simp only
  split
  · exact L.setMonitor h _ rfl
  · exact L.changeTime _ h
  · exact L.changeTime _ h
  · exact L.setMonitor h _ rfl

theorem StateLaw.firstPulse (L : StateLaw I) {s : State} (h : I s) : I s.firstPulse := by
  unfold State.firstPulse
  simp only
  split
  · exact L.changeTime _ h
  · exact L.changeTime _ h
  · exact L.setMonitor h _ rfl

theorem StateLaw.interval (L : StateLaw I) {s : State} (h : I s) (b : Band) : I (s.interval b) := by
  have hg : ∀ m : Monitor, m.timeState = s.monitor.timeState → I (s.countGood m) := fun m hm => by
    unfold State.countGood
    split
    · exact L.changeTime _ h
    · exact L.setMonitor h _ hm
  unfold State.interval
  simp only
  split
  · exact hg _ rfl
  · exact hg _ rfl
  · exact L.setMonitor h _ rfl
  · exact L.setMonitor h _ rfl
  · exact L.tick (L.setMonitor h _ rfl)
  · exact L.changeTime _ h
  · exact h

theorem StateLaw.pulse (L : StateLaw I) {s : State} (h : I s) (i : Nat) : I (s.pulse i) := by
  have hu : I (s.setMonitor (s.monitor.advance i)) := L.setMonitor h _ rfl
  unfold State.pulse
  simp only
  split
  · exact L.firstPulse hu
  · exact L.firstPulse hu
  · exact L.firstPulse hu
  · split
    · exact L.firstPulse (L.missing hu)
    · exact L.interval hu _

/-- The property is kept by every command; for a full reset the held reset must have it. -/
theorem StateLaw.exec (L : StateLaw I) {s t : State} {c : Instr} (hf : c.fullReset = true → I s.holdReset) (h : I s)
    (hx : exec c s = .next t) : I t := by
  cases c <;> simp only [Machine.exec, execJoin, execLeave, execClaim, execUpgrade, execDowngrade, execRenew,
    execRenewSet, execRelease, execLookup, execRead, execWrite, execHoldings, execNotices, execTime, execStandby,
    execWake, execFetchOnlyTransaction, execRequestDropped, execBadFrame, execBadRequest, execResponseMade, execSet,
    execDefine, execRetire, execMark, execSeed, execInspect, execEvict, execSoftReset, execMailboxBadRequest,
    execStatusRead, execResultRead, execRegisterWrite, execPowerOnReset, execPinReset, execResetEnd,
    execSweepComplete, execTrefPulse, execMissingPulse, execDividerTick, execLeaseExpiry, execWaitExpiry,
    execUpgradeWaitExpiry, execStandbyExpiry, execCreationEntryLeaves, execHoldoverLimitReached,
    Host.Outcome.next.injEq] at hx <;> subst hx
  case join n x b =>
    exact L.request h _ _ _ _ _ fun u hu ht _ _ => L.joinRule hu (by simpa using ht) n b
  case leave n x b =>
    exact L.request h _ _ _ _ _ fun u hu ht ha _ =>
      L.leaveRule hu (by simpa using ht) (admission_joined ha (by simp) (by simp)) b
  case claim n x b =>
    exact L.request h _ _ _ _ _ fun u hu ht ha _ => L.claimRule hu (by simpa using ht)
      (admission_active ha (by simp) (by simp) (by simp) (by simp) (by simp)) b
  case upgrade n x b =>
    exact L.request h _ _ _ _ _ fun u hu _ ha _ => L.upgradeRule hu
      (admission_active ha (by simp) (by simp) (by simp) (by simp) (by simp)) b
  case downgrade n x b => exact L.request h _ _ _ _ _ fun u hu _ _ _ => L.downgradeRule hu n b
  case renew n x b => exact L.request h _ _ _ _ _ fun u hu _ _ _ => L.renewRule hu n b
  case renewSet n x b => exact L.request h _ _ _ _ _ fun u hu _ _ _ => L.renewSetRule hu n b
  case release n x b =>
    exact L.request h _ _ _ _ _ fun u hu _ ha _ => L.releaseRule hu
      (admission_active ha (by simp) (by simp) (by simp) (by simp) (by simp)) b
  case lookup n x b => exact L.request h _ _ _ _ _ fun u hu _ _ _ => by rw [lookupRule_state]; exact hu
  case read n x b => exact L.request h _ _ _ _ _ fun u hu _ _ _ => by rw [readRule_state]; exact hu
  case write n x b => exact L.request h _ _ _ _ _ fun u hu _ _ _ => L.writeRule hu n b
  case holdings n x b => exact L.request h _ _ _ _ _ fun u hu _ _ _ => by rw [holdingsRule_state]; exact hu
  case notices n x b => exact L.request h _ _ _ _ _ fun u hu _ _ _ => L.noticesRule hu n b
  case time n x b => exact L.request h _ _ _ _ _ fun u hu _ _ _ => L.timeRule hu n b
  case standby n x b =>
    exact L.request h _ _ _ _ _ fun u hu ht ha hrec => L.standbyRule hu (by simpa using ht)
      (admission_active ha (by simp) (by simp) (by simp) (by simp) (by simp)) h hrec b
  case wake n x b => exact L.request h _ _ _ _ _ fun u hu _ _ _ => L.wakeRule hu n b
  case fetchOnlyTransaction => exact L.transact (L.settle h) _ _ _ _ _ fun _ hu _ => hu
  case requestDropped =>
    have hs := L.settle h
    generalize s.settle = u at hs ⊢
    split
    · exact L.transact hs _ _ _ _ _ fun _ hu _ => hu
    · exact hs
  case badFrame => exact L.transact (L.settle h) _ _ _ _ _ fun u hu _ => L.answer hu _ _
  case badRequest => exact L.transact (L.settle h) _ _ _ _ _ fun u hu _ => L.answer hu _ _
  case responseMade =>
    have hs := L.settle h
    generalize s.settle = u at hs ⊢
    unfold State.makeResponse
    split
    · exact L.same hs rfl rfl rfl rfl rfl rfl rfl rfl
    · exact hs
  case set => exact L.mailboxRequest h _ _ fun _ hu => L.setRule hu
  case define => exact L.mailboxRequest h _ _ fun _ hu => L.defineRule hu
  case retire => exact L.mailboxRequest h _ _ fun _ hu => L.retireRule hu
  case mark => exact L.mailboxRequest h _ _ fun _ hu => L.markRule hu
  case seed => exact L.mailboxRequest h _ _ fun _ hu => L.seedRule hu
  case inspect => exact L.mailboxRequest h _ _ fun u hu => by rw [inspectRule_after]; exact hu
  case evict => exact L.mailboxRequest h _ _ fun _ hu => L.evictRule hu
  case softReset =>
    have hs := L.settle h
    generalize s.settle = u at hs ⊢
    split
    · exact hs
    · split
      · exact L.setManagement hs _
      · exact L.takeRequest _ (L.softReset (L.setManagement hs _))
  case mailboxBadRequest => exact L.mailboxRequest h _ _ fun _ hu => hu
  case statusRead run => exact L.readRun h run
  case resultRead run => exact L.readRun h run
  case registerWrite a d => exact L.writeRun h a d
  case powerOnReset => exact hf rfl
  case pinReset => exact L.same (hf rfl) rfl rfl rfl rfl rfl rfl rfl rfl
  case resetEnd =>
    have hs := L.settle h
    generalize s.settle = u at hs ⊢
    split
    · exact L.same hs rfl rfl rfl rfl rfl rfl rfl rfl
    · exact hs
  case sweepComplete =>
    have hs := L.settle h
    generalize s.settle = u at hs ⊢
    split
    · rename_i hc
      simp only [Bool.and_eq_true, beq_iff_eq] at hc
      exact L.sweep hs hc.2
    · exact hs
  case trefPulse i =>
    have hs := L.settle h
    generalize s.settle = u at hs ⊢
    split
    · exact L.pulse hs i
    · exact hs
  case missingPulse =>
    have hs := L.settle h
    generalize s.settle = u at hs ⊢
    split
    · exact L.missing hs
    · exact hs
  case dividerTick =>
    have hs := L.settle h
    generalize s.settle = u at hs ⊢
    split
    · exact hs
    · split
      · exact L.tick (L.setMonitor hs _ rfl)
      · exact hs
  case leaseExpiry slot n =>
    have hs : I (s.settleBelow slot) := L.settleSlots h _
    generalize s.settleBelow slot = u at hs ⊢
    split
    · rename_i hd; exact L.takePart hs hd
    · exact hs
  case waitExpiry slot n =>
    have hs : I (s.settleBelow slot) := L.settleSlots h _
    generalize s.settleBelow slot = u at hs ⊢
    split
    · rename_i hd; exact L.takePart hs hd
    · exact hs
  case upgradeWaitExpiry slot n =>
    have hs : I (s.settleBelow slot) := L.settleSlots h _
    generalize s.settleBelow slot = u at hs ⊢
    split
    · rename_i hd; exact L.takePart hs hd
    · exact hs
  case standbyExpiry n =>
    split
    · rename_i hd; exact L.expireStandby h (standbyDue_state hd)
    · exact h
  case creationEntryLeaves n =>
    exact L.window n _ h (List.eraseP_sublist ..)
  case holdoverLimitReached => exact L.settleMonitor h

/-- The property is kept by every step, if a held reset has it. -/
theorem StateLaw.step (L : StateLaw I) (hf : ∀ u : State, I u.holdReset) {s t : State} (h : I s)
    (hx : step s = .next t) : I t := by
  unfold Machine.step at hx
  split at hx
  · rw [Host.Outcome.next.injEq] at hx
    rw [← hx]
    exact L.settle h
  · rename_i c rest _
    have h1 : I ({ s with pending := rest } : State) := L.same h rfl rfl rfl rfl rfl rfl rfl rfl
    exact L.exec (fun _ => hf _) h1 hx

/-! ### Properties of single records -/

theorem AllRec.enterStandby {P : Epoch → Record → Prop} (L : RecordLaw P) {s : State} (h : AllRec P s) (n : Agent)
    (mask : Byte) (d : Nat) : AllRec P (s.enterStandby n mask d).1 := by
  have hf : ∀ (l : List Nat) (p : State × EntryCount), AllRec P p.1 →
      AllRec P (l.foldl (State.enterStandbyAt n mask) p).1 := by
    intro l
    induction l with
    | nil => exact fun p hp => hp
    | cons i l ih => exact fun p hp => ih _ (AllRec.enterStandbyAt L n mask p i hp)
  exact (hf (s.partSlots n) (s, { kept := 0, left := 0 }) h).congr rfl rfl

theorem not_exhausted {ts : TimeState} {e : Epoch} (h : withheld ts e true = false) : exhausted e = false := by
  simp only [withheld, Bool.true_and, Bool.or_eq_false_iff] at h
  exact h.2

/-- A property that every operation on one record keeps is kept by every event, so by every command and step. -/
theorem RecordLaw.state {P : Epoch → Record → Prop} (L : RecordLaw P) : StateLaw (AllRec P) where
  plain hr _ he _ _ _ _ _ h := h.congr hr he
  setting h _ _ := h.congr rfl rfl
  leave k h _ _ _ := h.leaveRecord L _ _ k
  expireUpgrade h _ _ := h.expireUpgrade L _ _
  changeTime m h := h.changeTime L m
  tick h := h.tick L
  resume h _ := h.resumeStandby L _
  window _ _ h _ := h.congr rfl rfl
  ends number st h _ _ _ := (h.endSession L _).congr rfl rfl
  starts _ h _ _ := h.congr rfl rfl
  notices _ h := h.congr rfl rfl
  create {s n slot key} m requested h _ _ _ _ hw _ hk _ _ := by
    have hw' : withheld (s.addCreation n).monitor.timeState (s.addCreation n).epochSource m.takesEpoch = false := hw
    refine AllRec.grantNow (s := s.addCreation n) L (h.congr rfl rfl) _ (L.create _ _ hk) rfl rfl ?_ hw'
    cases m <;> rfl
  grantNow m requested h _ _ hr hq hp hc hw _ := h.grantNow L _ (h.of_record hr) hq hp hc hw
  enqueue c h _ _ hr hp hk _ _ := (h.put (L.enqueue c hp hk (h.of_record hr))).congr rfl rfl
  upgradeNow {s slot r n x} requested h hr hx hw hu ho hs := by
    have he := not_exhausted hs
    refine AllRec.put_source L h (e := s.epochSource + 1) ?_ (L.upgrade n _ hx hw hu ho he (h.of_record hr)) rfl rfl
    rw [succ_toNat he]; omega
  enqueueUpgrade q h hr hx hw hu _ _ := h.put (L.enqueueUpgrade _ hx hw hu rfl (h.of_record hr))
  downgrade n h hr := AllRec.grantCheck L (h.put (L.downgrade n (h.of_record hr))) _
  entries g h hr hg _ := h.put (L.holders g (fun x => ⟨(hg x).1, (hg x).2.1, (hg x).2.2.1⟩) (h.of_record hr))
  renewAll n mask life h _ := by
    refine h.map (renewRecord n mask life) (fun p e hp => ?_) rfl rfl
    unfold renewRecord
    split
    · refine L.holders (fun x => if renewable n x then renewed life x else x) (fun x => ?_) hp
      split <;> exact ⟨rfl, rfl, rfl⟩
    · exact hp
  words v h hr hv := h.put (L.words v hv (h.of_record hr))
  mark b h hr _ := h.put (L.mark b (h.of_record hr))
  standby mask d h _ _ _ _ := h.enterStandby L _ mask d
  define h _ _ _ _ hk := h.put (L.create _ _ hk)
  retire {s slot r} h _ := by
    refine AllRec.retire ?_ slot
    have hf : ∀ (t : State) (n : Agent), AllRec P t → AllRec P (t.postPlain slot n (retireNotice r n)) :=
      fun _ _ ht => ht.congr rfl rfl
    exact AllRec.foldl hf (agents.filter r.hasPart) h
  retireEmpty h _ _ := h.retire _
  cleared _ hr _ _ _ _ := AllRec.nil hr
  sweep _ _ := AllRec.nil rfl

end Sys2Proof.Machine
end

