-- ==== Sys2Proof/Laws/Tables.lean ====
section
/-! SUPPORT. The sparse tables keep their canonical form (R1, R10): every operation of the table keeps it, and so does
every command. -/

namespace Sys2Proof.Machine

/-- The canonical form as a proposition. -/
structure Canon (s : State) : Prop where
  records : Sparse.wf Config.slots s.records = true
  generations : Sparse.wf Config.slots s.generations = true
  range : ∀ g ∈ s.generations, 1 ≤ g.2 ∧ g.2 < 32
  cells : ∀ n, Sparse.wf Config.slots (s.cells.get n) = true

theorem canonical_iff (s : State) : s.canonical = true ↔ Canon s := by
  unfold State.canonical
  simp only [Bool.and_eq_true, List.all_eq_true, decide_eq_true_eq]
  rw [← List.all_eq_true, all_agents]
  exact ⟨fun ⟨⟨⟨a, b⟩, c⟩, d⟩ => ⟨a, b, c, d⟩, fun ⟨a, b, c, d⟩ => ⟨⟨⟨a, b⟩, c⟩, d⟩⟩

theorem Canon.slot_lt {s : State} (h : Canon s) {slot : Nat} {r : Record} (hr : s.record slot = some r) :
    slot < Config.slots :=
  Sparse.lt_of_wf h.records (slot, r) (Sparse.mem_of_find hr)

theorem homeSlots_lt {key : List Byte} {slot : Nat} (h : slot ∈ homeSlots key) : slot < Config.slots := by
  simp only [homeSlots, homePartition, homeBucket, List.mem_cons, List.not_mem_nil, or_false] at h
  unfold Config.slots
  omega

theorem Canon.same {s t : State} (h : Canon s) (hr : t.records = s.records) (hg : t.generations = s.generations)
    (hc : t.cells = s.cells) : Canon t :=
  ⟨hr ▸ h.records, hg ▸ h.generations, hg ▸ h.range, hc ▸ h.cells⟩

theorem Canon.putRecord {s : State} (h : Canon s) {slot : Nat} (hs : slot < Config.slots) (r : Record) :
    Canon (s.putRecord slot r) := ⟨Sparse.wf_put r h.records hs, h.generations, h.range, h.cells⟩

theorem Canon.setCells {s : State} (h : Canon s) (n : Agent) {c : List (Nat × Notice)}
    (hc : Sparse.wf Config.slots c = true) : Canon (s.setCells n c) := by
  refine ⟨h.records, h.generations, h.range, fun m => ?_⟩
  show Sparse.wf Config.slots ((s.cells.set n c).get m) = true
  rw [PerAgent.get_set]
  split
  · exact hc
  · exact h.cells m

theorem Canon.post {s : State} (h : Canon s) {slot : Nat} (hs : slot < Config.slots) (n : Agent) (x : Notice) :
    Canon (s.post slot n x) := h.setCells n (Sparse.wf_put x (h.cells n) hs)

theorem Canon.foldl {β : Type} {f : State → β → State} (l : List β) (hf : ∀ s x, x ∈ l → Canon s → Canon (f s x))
    {s : State} (h : Canon s) : Canon (l.foldl f s) := by
  induction l generalizing s with
  | nil => exact h
  | cons x l ih => exact ih (fun s y hy => hf s y (List.mem_cons_of_mem _ hy)) (hf s x (by simp) h)

theorem Canon.grantCheck {s : State} (h : Canon s) (slot : Nat) : Canon (s.grantCheck slot) := by
  cases hr : s.record slot with
  | none => rw [grantCheck_none hr]; exact h
  | some r =>
    unfold State.grantCheck
    simp only [hr]
    refine Canon.foldl _ (fun t p _ ht => ht.post (h.slot_lt hr) p.1 p.2) ?_
    exact (h.putRecord (h.slot_lt hr) _).same rfl rfl rfl

theorem Canon.grantAll {s : State} (h : Canon s) : Canon s.grantAll :=
  Canon.foldl _ (fun _ x _ ht => ht.grantCheck x) h

theorem Canon.vacate {s : State} (h : Canon s) {slot : Nat} (hs : slot < Config.slots) : Canon (s.vacate slot) := by
  refine ⟨Sparse.wf_drop h.records, ?_, ?_, h.cells⟩
  · show Sparse.wf Config.slots (setGeneration s.generations slot ((s.generation slot + 1) % 32)) = true
    unfold setGeneration
    split
    · exact Sparse.wf_drop h.generations
    · exact Sparse.wf_put _ h.generations hs
  · intro g hg
    change g ∈ setGeneration s.generations slot ((s.generation slot + 1) % 32) at hg
    unfold setGeneration at hg
    split at hg
    · exact h.range g (Sparse.mem_drop hg)
    · rename_i hne
      rcases Sparse.mem_put hg with rfl | hg
      · exact ⟨Nat.one_le_iff_ne_zero.2 hne, Nat.mod_lt _ (by omega)⟩
      · exact h.range g hg

theorem foldl_sessions_same {f : State → Agent → State} (hf : ∀ s n, (f s n).records = s.records ∧
    (f s n).generations = s.generations ∧ (f s n).cells = s.cells ∧ (f s n).epochSource = s.epochSource)
    (l : List Agent) (s : State) : (l.foldl f s).records = s.records ∧ (l.foldl f s).generations = s.generations ∧
      (l.foldl f s).cells = s.cells ∧ (l.foldl f s).epochSource = s.epochSource := by
  induction l generalizing s with
  | nil => exact ⟨rfl, rfl, rfl, rfl⟩
  | cons n l ih =>
    obtain ⟨a, b, c, d⟩ := ih (f s n)
    obtain ⟨a', b', c', d'⟩ := hf s n
    exact ⟨a.trans a', b.trans b', c.trans c', d.trans d'⟩

/-- What a retirement leaves of the tables: the slot's record gone, its generation advanced, the cells and the epoch
source as they were. -/
theorem retire_fields {s : State} {slot : Nat} {r : Record} (hr : s.record slot = some r) :
    (s.retire slot).records = Sparse.drop slot s.records ∧
    (s.retire slot).generations = setGeneration s.generations slot ((s.generation slot + 1) % 32) ∧
    (s.retire slot).cells = s.cells ∧ (s.retire slot).epochSource = s.epochSource := by
  unfold State.retire
  simp only [hr]
  obtain ⟨a, b, c, d⟩ := foldl_sessions_same (f := State.losePart) (fun _ _ => ⟨rfl, rfl, rfl, rfl⟩)
    (agents.filter r.hasPart) s
  obtain ⟨a', b', c', d'⟩ := foldl_sessions_same (f := State.loseKept) (fun _ _ => ⟨rfl, rfl, rfl, rfl⟩)
    ((r.holders.filter fun h => h.status == .kept).map fun h => h.agent)
    ((agents.filter r.hasPart).foldl State.losePart s)
  generalize ((r.holders.filter fun h => h.status == .kept).map fun h => h.agent).foldl State.loseKept
    ((agents.filter r.hasPart).foldl State.losePart s) = u at a' b' c' d' ⊢
  have hg : u.generation slot = s.generation slot := by unfold State.generation; rw [b', b]
  refine ⟨?_, ?_, c'.trans c, d'.trans d⟩
  · show Sparse.drop slot u.records = _; rw [a', a]
  · show setGeneration u.generations slot ((u.generation slot + 1) % 32) = _; rw [hg, b', b]

theorem Canon.retire {s : State} (h : Canon s) (slot : Nat) : Canon (s.retire slot) := by
  cases hr : s.record slot with
  | none => simpa [State.retire, hr] using h
  | some r =>
    obtain ⟨a, b, c, _⟩ := retire_fields hr
    exact (h.vacate (h.slot_lt hr)).same a b c

theorem Canon.retireIfEmpty {s : State} (h : Canon s) (slot : Nat) : Canon (s.retireIfEmpty slot) := by
  unfold State.retireIfEmpty
  split
  · exact h
  · split
    · exact h.retire slot
    · exact h

theorem Canon.setSession {s : State} (h : Canon s) (n : Agent) (a : Session) : Canon (s.setSession n a) :=
  h.same rfl rfl rfl

theorem Canon.leaveRecord {s : State} (h : Canon s) (slot : Nat) (n : Agent) (k : Option NoticeKind) :
    Canon (s.leaveRecord slot n k) := by
  unfold State.leaveRecord
  split
  · exact h
  · rename_i r hr
    have hl := h.slot_lt hr
    refine Canon.retireIfEmpty (Canon.grantCheck (Canon.setSession ?_ _ _) slot) slot
    cases k with
    | none => exact h.putRecord hl _
    | some k => exact (h.putRecord hl _).post hl n _

theorem Canon.removeAgent {s : State} (h : Canon s) (n : Agent) : Canon (s.removeAgent n) :=
  Canon.foldl _ (fun _ x _ ht => ht.leaveRecord x n none) h

theorem Canon.endSession {s : State} (h : Canon s) (n : Agent) : Canon (s.endSession n) :=
  ((h.removeAgent n).setCells n rfl).setSession n _

theorem Canon.enterStandbyAt {n : Agent} {mask : Byte} {p : State × EntryCount} (h : Canon p.1) (slot : Nat) :
    Canon (State.enterStandbyAt n mask p slot).1 := by
  unfold State.enterStandbyAt
  simp only
  split
  · exact h
  · rename_i r hr
    have hl := h.slot_lt hr
    have h1 : ∀ (x : Record) (b : Bool), Canon (if b then (p.1.putRecord slot x).losePart n
        else p.1.putRecord slot x) := by
      intro x b; cases b
      · exact h.putRecord hl x
      · exact (h.putRecord hl x).setSession n _
    have h2 : ∀ (t : State) (b : Bool), Canon t → Canon (if b then (t.grantCheck slot).retireIfEmpty slot else t) := by
      intro t b ht; cases b
      · exact ht
      · exact (ht.grantCheck slot).retireIfEmpty slot
    have h3 : ∀ (t : State) (b : Bool), Canon t →
        Canon (if b then
          match t.record slot with
          | some r3 => t.putRecord slot (r3.mapHolder n keepHolder)
          | none => t
          else t) := by
      intro t b ht; cases b
      · exact ht
      · simp only [if_true]
        split
        · exact ht.putRecord hl _
        · exact ht
    exact h3 _ _ (h2 _ _ (h1 _ _))

theorem Canon.enterStandby {s : State} (h : Canon s) (n : Agent) (mask : Byte) (d : Nat) :
    Canon (s.enterStandby n mask d).1 := by
  have hf : ∀ (l : List Nat) (p : State × EntryCount), Canon p.1 →
      Canon (l.foldl (State.enterStandbyAt n mask) p).1 := by
    intro l
    induction l with
    | nil => exact fun _ hp => hp
    | cons i l ih => exact fun p hp => ih _ (Canon.enterStandbyAt hp i)
  exact (hf (s.partSlots n) (s, { kept := 0, left := 0 }) h).setSession n _

theorem Canon.changeTime {s : State} (h : Canon s) (m : Monitor) : Canon (s.changeTime m) := by
  unfold State.changeTime
  simp only
  split
  · exact Canon.grantAll (h.same rfl rfl rfl)
  · exact h.same rfl rfl rfl

theorem Canon.mapRecords {s : State} (h : Canon s) (f : Nat × Record → Nat × Record) (hf : ∀ p, (f p).1 = p.1)
    {t : State} (hr : t.records = s.records.map f) (hg : t.generations = s.generations) (hc : t.cells = s.cells) :
    Canon t :=
  ⟨hr ▸ Sparse.wf_map f hf h.records, hg ▸ h.generations, hg ▸ h.range, hc ▸ h.cells⟩

theorem wf_sublist {α : Type} {b : Nat} {t u : List (Nat × α)} (hu : u.Sublist t) (h : Sparse.wf b t = true) :
    Sparse.wf b u = true := by
  induction hu with
  | slnil => rfl
  | cons a _ ih =>
    obtain ⟨i, x⟩ := a
    rw [Sparse.wf_cons] at h
    exact ih h.2.2
  | cons_cons a hs ih =>
    obtain ⟨i, x⟩ := a
    rw [Sparse.wf_cons] at h ⊢
    exact ⟨h.1, fun p hp => h.2.1 p (hs.subset hp), ih h.2.2⟩

theorem renewRecord_slot (n : Agent) (mask : Byte) (life : Nat) (p : Nat × Record) :
    (renewRecord n mask life p).1 = p.1 := by
  unfold renewRecord; split <;> rfl

theorem Canon.cleared {t : State} (hr : t.records = []) (hg : t.generations = []) (hc : ∀ n, t.cells.get n = []) :
    Canon t :=
  ⟨by rw [hr]; rfl, by rw [hg]; rfl, by rw [hg]; simp, fun n => by rw [hc n]; rfl⟩

theorem Canon.holdReset (s : State) : Canon s.holdReset := Canon.cleared rfl rfl fun n => PerAgent.get_all _ n

/-- The canonical form is kept by every event. -/
theorem canon_law : StateLaw Canon where
  plain hr hg _ hc _ _ _ _ h := h.same hr hg hc
  setting h _ _ := h.same rfl rfl rfl
  leave k h _ _ _ := h.leaveRecord _ _ k
  expireUpgrade {s slot r n} h hr _ := by
    unfold State.expireUpgrade
    simp only [hr]
    exact ((h.putRecord (h.slot_lt hr) _).post (h.slot_lt hr) n _).grantCheck slot
  changeTime m h := h.changeTime m
  tick {s} h := h.mapRecords (t := s.tick) (fun p => (p.1, tickRecord p.2)) (fun _ => rfl) rfl rfl rfl
  resume {s n} h _ := h.mapRecords (t := s.resumeStandby n)
    (fun p => (p.1, { p.2 with holders := p.2.holders.map (resumeHolder n) })) (fun _ => rfl) rfl rfl rfl
  window n w h _ := h.setSession n _
  ends number st h _ _ _ := (h.endSession _).setSession _ _
  starts number st h _ := ((st.setCells _ rfl).setSession _ _).setSession _ _
  notices {s} n h := h.setCells n (wf_sublist (List.drop_sublist 6 _) (h.cells n))
  create {s n slot key} m requested h _ _ _ hk _ _ _ _ _ := by
    have h1 : Canon (s.addCreation n) := h.setSession n _
    cases m
    · exact (h1.putRecord (homeSlots_lt hk) _).setSession n _
    · exact (h1.putRecord (homeSlots_lt hk) _).same rfl rfl rfl
  grantNow {s n slot r} m requested h _ _ hr _ _ _ _ _ := by
    cases m
    · exact (h.putRecord (h.slot_lt hr) _).setSession n _
    · exact (h.putRecord (h.slot_lt hr) _).same rfl rfl rfl
  enqueue c h _ _ hr _ _ _ _ := (h.putRecord (h.slot_lt hr) _).setSession _ _
  upgradeNow requested h hr _ _ _ _ _ := (h.putRecord (h.slot_lt hr) _).same rfl rfl rfl
  enqueueUpgrade q h hr _ _ _ _ _ := h.putRecord (h.slot_lt hr) _
  downgrade n h hr := (h.putRecord (h.slot_lt hr) _).grantCheck _
  entries g h hr _ _ := h.putRecord (h.slot_lt hr) _
  renewAll n mask life h _ := h.mapRecords _ (renewRecord_slot n mask life) rfl rfl rfl
  words v h hr _ := h.putRecord (h.slot_lt hr) _
  mark b h hr _ := h.putRecord (h.slot_lt hr) _
  standby mask d h _ _ _ _ := h.enterStandby _ mask d
  define h _ _ hk _ _ := h.putRecord (homeSlots_lt hk) _
  retire {s slot r} h hr := by
    refine Canon.retire ?_ slot
    exact Canon.foldl _ (fun t n _ ht => ht.post (h.slot_lt hr) n _) h
  retireEmpty h _ _ := h.retire _
  cleared _ hr hg _ hc _ := Canon.cleared hr hg hc
  sweep h _ := ⟨rfl, rfl, by simp [State.sweep], h.cells⟩

end Sys2Proof.Machine
end

