-- ==== Sys2Proof/Laws/Blocked.lean ====
section
/-! SUPPORT. First claims stay blocked (R56): the grant check blocks its own record, the grant checks of a resumption
block every record, and every command keeps every first claim blocked. -/

namespace Sys2Proof.Machine

/-- Every first claim is blocked, but perhaps in the given slots. -/
def BlockedBut (l : List Nat) (s : State) : Prop :=
  ∀ p ∈ s.records, p.1 ∉ l → p.2.blocked s.monitor.timeState s.epochSource = true

/-- The canonical form, with every first claim blocked. -/
def Blocked (s : State) : Prop := Canon s ∧ BlockedBut [] s

theorem blocked_iff (s : State) : (s.canonical && s.frontsBlocked) = true ↔ Blocked s := by
  simp only [Bool.and_eq_true, canonical_iff, Blocked, BlockedBut, State.frontsBlocked, State.everyRecord,
    List.all_eq_true, List.not_mem_nil, not_false_eq_true, forall_const]

theorem exhausted_mono {e e' : Epoch} (h : e.toNat ≤ e'.toNat) (he : exhausted e = true) : exhausted e' = true := by
  simp only [exhausted, beq_iff_eq] at *
  subst he
  have h1 := e'.isLt
  have h2 : (0xFFFFFFFF : Epoch).toNat = 4294967295 := rfl
  exact BitVec.eq_of_toNat_eq (by omega)

theorem withheld_mono {ts : TimeState} {e e' : Epoch} (h : e.toNat ≤ e'.toNat) {b : Bool}
    (hw : withheld ts e b = true) : withheld ts e' b = true := by
  simp only [withheld, Bool.or_eq_true, Bool.and_eq_true] at *
  exact hw.imp id fun ⟨a, c⟩ => ⟨a, exhausted_mono h c⟩

theorem Record.blocked_mono {r : Record} {ts : TimeState} {e e' : Epoch} (h : e.toNat ≤ e'.toNat)
    (hb : r.blocked ts e = true) : r.blocked ts e' = true := by
  unfold Record.blocked at *
  split at hb
  · rfl
  · simp only [Bool.or_eq_true] at *
    exact hb.imp id (withheld_mono h)

/-- A record whose holders' agents and modes and whose claims' agents and kinds stand is blocked as before. -/
theorem Record.blocked_map {r : Record} (g : Holder → Holder) (k : Claim → Claim)
    (hg : ∀ h, (g h).agent = h.agent ∧ (g h).mode = h.mode) (hk : ∀ c, (k c).agent = c.agent ∧ (k c).kind = c.kind)
    (ts : TimeState) (e : Epoch) :
    ({ r with holders := r.holders.map g, queue := r.queue.map k } : Record).blocked ts e = r.blocked ts e := by
  unfold Record.blocked
  cases hq : r.queue with
  | nil => simp
  | cons c rest =>
    have h1 : r.holders.map ((fun h : Holder => h.agent) ∘ g) = r.holders.map fun h => h.agent :=
      List.map_congr_left fun h _ => (hg h).1
    have h2 : ∀ l : List Holder, (l.map g).any (fun h => h.mode == .exclusive) = l.any fun h => h.mode == .exclusive := by
      intro l
      rw [List.any_map]
      congr 1
      funext h
      simp [(hg h).2]
    simp only [List.map_cons, (hk c).2, Record.claimCompatible, Record.compatible, Record.onlyHolder,
      Record.exclusiveHeld, h2, (hk c).1, List.map_map, h1, List.isEmpty_map]

theorem Record.blocked_holders {r : Record} (g : Holder → Holder)
    (hg : ∀ h, (g h).agent = h.agent ∧ (g h).mode = h.mode) (ts : TimeState) (e : Epoch) :
    ({ r with holders := r.holders.map g } : Record).blocked ts e = r.blocked ts e := by
  have := Record.blocked_map (r := r) g id hg (fun c => ⟨rfl, rfl⟩) ts e
  simpa using this

theorem BlockedBut.same {l : List Nat} {s t : State} (h : BlockedBut l s) (hr : t.records = s.records)
    (he : t.epochSource = s.epochSource) (hm : t.monitor.timeState = s.monitor.timeState) : BlockedBut l t := by
  intro p hp
  rw [hr] at hp
  rw [he, hm]
  exact h p hp

theorem BlockedBut.put {s : State} (h : BlockedBut [] s) (slot : Nat) (r : Record) :
    BlockedBut [slot] (s.putRecord slot r) := by
  intro p hp hne
  rcases Sparse.mem_put hp with rfl | hp
  · simp at hne
  · exact h p hp (by simp)

theorem BlockedBut.putBlocked {s : State} (h : BlockedBut [] s) (slot : Nat) {r : Record}
    (hr : r.blocked s.monitor.timeState s.epochSource = true) : BlockedBut [] (s.putRecord slot r) := by
  intro p hp _
  rcases Sparse.mem_put hp with rfl | hp
  · exact hr
  · exact h p hp (by simp)

theorem BlockedBut.mono {l : List Nat} {s t : State} (h : BlockedBut l s) (hr : t.records = s.records)
    (he : s.epochSource.toNat ≤ t.epochSource.toNat) (hm : t.monitor.timeState = s.monitor.timeState) :
    BlockedBut l t := by
  intro p hp hl
  rw [hr] at hp
  rw [hm]
  exact Record.blocked_mono he (h p hp hl)

/-- A grant check blocks its own record's first claim and leaves the others blocked. -/
theorem BlockedBut.grantCheck {s : State} {l : List Nat} {slot : Nat} (hc : Canon s) (h : BlockedBut (slot :: l) s) :
    BlockedBut l (s.grantCheck slot) := by
  have hm : (s.grantCheck slot).monitor = s.monitor := (grantCheck_tableOnly s slot).2.2.2.1
  cases hr : s.record slot with
  | none =>
    rw [grantCheck_none hr]
    intro p hp hl
    refine h p hp ?_
    simp only [List.mem_cons, not_or]
    refine ⟨?_, hl⟩
    rintro rfl
    have := (Sparse.mem_iff_find hc.records).1 hp
    rw [State.record] at hr
    rw [hr] at this
    cases this
  | some r =>
    obtain ⟨h1, h2, _, _⟩ := grantCheck_fields hr
    intro p hp hl
    rw [hm, h2]
    rw [h1] at hp
    by_cases hps : p.1 = slot
    · have hw := Sparse.wf_put (grantRun (s.grantEnv slot) r.queue.length s.epochSource r).1 hc.records
        (hc.slot_lt hr)
      have hf := (Sparse.mem_iff_find hw).1 hp
      rw [hps, Sparse.find_put_same] at hf
      rw [Option.some.injEq] at hf
      rw [← hf]
      exact grantRun_blocked (s.grantEnv slot) _ _ _ (Nat.le_refl _)
    · rcases Sparse.mem_put hp with rfl | hp
      · exact absurd rfl hps
      · exact Record.blocked_mono (grantRun_source_le _ _ _ _) (h p hp (by simp [hps, hl]))

theorem BlockedBut.grantMany {l : List Nat} {s : State} (hc : Canon s) (h : BlockedBut l s) :
    BlockedBut [] (l.foldl State.grantCheck s) := by
  induction l generalizing s with
  | nil => exact h
  | cons x l ih => exact ih (hc.grantCheck x) (BlockedBut.grantCheck hc h)

theorem blocked_change {r : Record} {a b : TimeState} {e : Epoch} (h : r.blocked a e = true)
    (hn : a.resumes b = false) : r.blocked b e = true := by
  unfold Record.blocked at *
  split at h
  · rfl
  · simp only [Bool.or_eq_true, withheld, Bool.and_eq_true, Bool.not_eq_true'] at *
    rcases h with h | h | h
    · exact Or.inl h
    · right; left
      simpa [TimeState.resumes, h] using hn
    · exact Or.inr (Or.inr h)

theorem Blocked.changeTime {s : State} (h : Blocked s) (m : Monitor) : Blocked (s.changeTime m) := by
  refine ⟨h.1.changeTime m, ?_⟩
  unfold State.changeTime
  simp only
  split
  · refine BlockedBut.grantMany (h.1.same rfl rfl rfl) ?_
    intro p hp hl
    exact absurd (List.mem_map.2 ⟨p, hp, rfl⟩) hl
  · rename_i hn
    intro p hp _
    exact blocked_change (h.2 p hp (by simp)) (Bool.eq_false_iff.2 hn)

theorem BlockedBut.subset {l : List Nat} {s t : State} (h : BlockedBut l s) (hr : ∀ p ∈ t.records, p ∈ s.records)
    (he : t.epochSource = s.epochSource) (hm : t.monitor.timeState = s.monitor.timeState) : BlockedBut l t := by
  intro p hp
  rw [he, hm]
  exact h p (hr p hp)

theorem BlockedBut.retire {s : State} (h : BlockedBut [] s) (slot : Nat) : BlockedBut [] (s.retire slot) := by
  cases hr : s.record slot with
  | none => simpa [State.retire, hr] using h
  | some r =>
    obtain ⟨a, _, _, d⟩ := retire_fields hr
    exact h.subset (fun p hp => Sparse.mem_drop (a ▸ hp)) d
      (congrArg Monitor.timeState (retire_tableOnly s slot).2.2.2.1)

theorem BlockedBut.retireIfEmpty {s : State} (h : BlockedBut [] s) (slot : Nat) :
    BlockedBut [] (s.retireIfEmpty slot) := by
  unfold State.retireIfEmpty
  split
  · exact h
  · split
    · exact h.retire slot
    · exact h

theorem Blocked.leaveRecord {s : State} (h : Blocked s) (slot : Nat) (n : Agent) (k : Option NoticeKind) :
    Blocked (s.leaveRecord slot n k) := by
  refine ⟨h.1.leaveRecord slot n k, ?_⟩
  unfold State.leaveRecord
  split
  · exact h.2
  · rename_i r hr
    have hl := h.1.slot_lt hr
    refine BlockedBut.retireIfEmpty (BlockedBut.grantCheck ?_ ?_) slot
    · cases k with
      | none => exact (h.1.putRecord hl _).setSession n _
      | some k => exact ((h.1.putRecord hl _).post hl n _).setSession n _
    · have hp := h.2.put slot (r.dropAgent n)
      cases k with
      | none => exact hp.same rfl rfl rfl
      | some k => exact hp.same rfl rfl rfl

theorem Blocked.foldl {β : Type} {f : State → β → State} (hf : ∀ s x, Blocked s → Blocked (f s x)) (l : List β)
    {s : State} (h : Blocked s) : Blocked (l.foldl f s) := by
  induction l generalizing s with
  | nil => exact h
  | cons x l ih => exact ih (hf s x h)

theorem Blocked.removeAgent {s : State} (h : Blocked s) (n : Agent) : Blocked (s.removeAgent n) :=
  Blocked.foldl (fun _ x ht => ht.leaveRecord x n none) _ h

theorem record_blocked {s : State} (h : BlockedBut [] s) {slot : Nat} {r : Record} (hr : s.record slot = some r) :
    r.blocked s.monitor.timeState s.epochSource = true := h (slot, r) (Sparse.mem_of_find hr) (by simp)

theorem Blocked.enterStandbyAt {n : Agent} {mask : Byte} {p : State × EntryCount} (h : Blocked p.1) (slot : Nat) :
    Blocked (State.enterStandbyAt n mask p slot).1 := by
  refine ⟨h.1.enterStandbyAt slot, ?_⟩
  unfold State.enterStandbyAt
  simp only
  split
  · exact h.2
  · rename_i r hr
    have hl := h.1.slot_lt hr
    have h3 : ∀ (t : State) (b : Bool), BlockedBut [] t →
        BlockedBut [] (if b then
          match t.record slot with
          | some r3 => t.putRecord slot (r3.mapHolder n keepHolder)
          | none => t
          else t) := by
      intro t b ht; cases b
      · exact ht
      · simp only [if_true]
        split
        · rename_i r3 hr3
          refine ht.putBlocked slot ?_
          have hb := record_blocked ht hr3
          rw [← hb]
          refine Record.blocked_holders _ (fun x => ?_) _ _
          split <;> exact ⟨rfl, rfl⟩
        · exact ht
    have h1 : ∀ (x : Record) (b : Bool), Canon (if b then (p.1.putRecord slot x).losePart n
        else p.1.putRecord slot x) := by
      intro x b; cases b
      · exact h.1.putRecord hl x
      · exact (h.1.putRecord hl x).setSession n _
    have h2 : ∀ (x : Record) (b : Bool), BlockedBut [slot] (if b then (p.1.putRecord slot x).losePart n
        else p.1.putRecord slot x) := by
      intro x b; cases b
      · exact h.2.put slot x
      · exact (h.2.put slot x).same rfl rfl rfl
    refine h3 _ _ ?_
    cases hw : r.waits n with
    | true =>
      simp only [Bool.true_or, if_true]
      exact BlockedBut.retireIfEmpty (BlockedBut.grantCheck (h1 _ _) (h2 _ _)) slot
    | false =>
      simp only [Bool.false_or]
      cases hx : (r.holds n && !maskSelects mask slot) with
      | true =>
        simp only [if_true]
        exact BlockedBut.retireIfEmpty (BlockedBut.grantCheck (h1 _ _) (h2 _ _)) slot
      | false =>
        simp only [Bool.false_eq_true, if_false, Bool.false_and, dropClaim_eq hw]
        exact h.2.putBlocked slot (record_blocked h.2 hr)

theorem Blocked.enterStandby {s : State} (h : Blocked s) (n : Agent) (mask : Byte) (d : Nat) :
    Blocked (s.enterStandby n mask d).1 := by
  have hf : ∀ (l : List Nat) (p : State × EntryCount), Blocked p.1 →
      Blocked (l.foldl (State.enterStandbyAt n mask) p).1 := by
    intro l
    induction l with
    | nil => exact fun _ hp => hp
    | cons i l ih => exact fun p hp => ih _ (Blocked.enterStandbyAt hp i)
  have := hf (s.partSlots n) (s, { kept := 0, left := 0 }) h
  exact ⟨this.1.setSession n _, this.2.same rfl rfl rfl⟩

theorem blocked_nil {r : Record} (h : r.queue = []) (ts : TimeState) (e : Epoch) : r.blocked ts e = true := by
  unfold Record.blocked; rw [h]

theorem BlockedBut.mapRecords {s t : State} (h : BlockedBut [] s) (f : Nat × Record → Nat × Record)
    (hf : ∀ p ts e, (f p).2.blocked ts e = p.2.blocked ts e) (hr : t.records = s.records.map f)
    (he : t.epochSource = s.epochSource) (hm : t.monitor.timeState = s.monitor.timeState) : BlockedBut [] t := by
  intro p hp _
  rw [hr] at hp
  obtain ⟨q, hq, rfl⟩ := List.mem_map.1 hp
  rw [hf, he, hm]
  exact h q hq (by simp)

theorem grantNow_blocked {s : State} (h : BlockedBut [] s) (slot : Nat) (r : Record) (n : Agent) (m : Mode)
    (requested : Nat) (hq : r.queue = []) (hw : withheld s.monitor.timeState s.epochSource m.takesEpoch = false) :
    BlockedBut [] (s.grantNow slot r n m requested).1 := by
  cases m with
  | shared =>
    refine BlockedBut.same (s := s.putRecord slot _) (h.putBlocked slot (blocked_nil ?_ _ _)) rfl rfl rfl
    exact hq
  | exclusive =>
    refine BlockedBut.mono (s := s.putRecord slot _) (h.putBlocked slot (blocked_nil ?_ _ _)) rfl ?_ rfl
    · exact hq
    · show s.epochSource.toNat ≤ (s.epochSource + 1).toNat
      rw [succ_toNat (not_exhausted hw)]
      omega

theorem Blocked.cleared {t : State} (hr : t.records = []) (hg : t.generations = []) (hc : ∀ n, t.cells.get n = []) :
    Blocked t := ⟨Canon.cleared hr hg hc, by intro p hp; rw [hr] at hp; simp at hp⟩

theorem Blocked.holdReset (s : State) : Blocked s.holdReset :=
  Blocked.cleared rfl rfl fun n => PerAgent.get_all _ n

/-- The canonical form with blocked fronts is kept by every event. -/
theorem blocked_law : StateLaw Blocked where
  plain hr hg he hc hm ht hst hs h := ⟨canon_law.plain hr hg he hc hm ht hst hs h.1, h.2.same hr he hm⟩
  setting h hc hl := ⟨canon_law.setting h.1 hc hl, h.2.same rfl rfl rfl⟩
  leave k h _ _ _ := h.leaveRecord _ _ k
  expireUpgrade {s slot r n} h hr hq := by
    refine ⟨canon_law.expireUpgrade h.1 hr hq, ?_⟩
    have hl := h.1.slot_lt hr
    unfold State.expireUpgrade
    simp only [hr]
    exact BlockedBut.grantCheck ((h.1.putRecord hl _).post hl n _) ((h.2.put slot _).same rfl rfl rfl)
  changeTime m h := h.changeTime m
  tick {s} h := by
    refine ⟨canon_law.tick h.1, h.2.mapRecords (fun p => (p.1, tickRecord p.2)) (fun p ts e => ?_) rfl rfl ?_⟩
    · refine Record.blocked_map tickHolder tickClaim (fun x => ?_) (fun c => ⟨rfl, rfl⟩) ts e
      unfold tickHolder; split <;> exact ⟨rfl, rfl⟩
    · show (tickMonitor s.monitor).timeState = _
      unfold tickMonitor; split <;> rfl
  resume {s n} h hn := by
    refine ⟨canon_law.resume h.1 hn, h.2.mapRecords
      (fun p => (p.1, { p.2 with holders := p.2.holders.map (resumeHolder n) })) (fun p ts e => ?_) rfl rfl rfl⟩
    refine Record.blocked_holders _ (fun x => ?_) ts e
    unfold resumeHolder; split <;> exact ⟨rfl, rfl⟩
  window n w h hw := ⟨canon_law.window n w h.1 hw, h.2.same rfl rfl rfl⟩
  ends {s n} number st h ht hj hst :=
    ⟨canon_law.ends number st h.1 ht hj hst, BlockedBut.same (h.removeAgent n).2 rfl rfl rfl⟩
  starts number h ht hj := ⟨canon_law.starts number h.1 ht hj, h.2.same rfl rfl rfl⟩
  notices n h := ⟨canon_law.notices n h.1, h.2.same rfl rfl rfl⟩
  create {s n slot key} m requested h ht hn hs hk hw hf hkl hq hb := by
    refine ⟨canon_law.create m requested h.1 ht hn hs hk hw hf hkl hq hb, ?_⟩
    exact grantNow_blocked (s := s.addCreation n) (h.2.same rfl rfl rfl) slot _ n m requested rfl hw
  grantNow {s n slot r} m requested h ht hn hr hq hp hc hw hu :=
    ⟨canon_law.grantNow m requested h.1 ht hn hr hq hp hc hw hu, grantNow_blocked h.2 slot r n m requested hq hw⟩
  enqueue {s slot r} c h ht hn hr hp hk hq hu := by
    refine ⟨canon_law.enqueue c h.1 ht hn hr hp hk hq hu, ?_⟩
    refine BlockedBut.same (s := s.putRecord slot { r with queue := r.queue ++ [c] }) (h.2.putBlocked slot ?_)
      rfl rfl rfl
    have hb := record_blocked h.2 hr
    cases hx : r.queue with
    | nil =>
      simp only [Record.blocked, List.nil_append, Bool.or_eq_true, Bool.not_eq_true']
      exact hq hx
    | cons d rest =>
      simp only [Record.blocked, hx] at hb
      simp only [Record.blocked, List.cons_append]
      exact hb
  upgradeNow {s slot r n x} requested h hr hx hw hu ho hs := by
    refine ⟨canon_law.upgradeNow requested h.1 hr hx hw hu ho hs, ?_⟩
    refine BlockedBut.mono (s := s.putRecord slot _) (h.2.putBlocked slot ?_) rfl ?_ rfl
    · obtain ⟨y, hy, ha⟩ := onlyHolder_eq ho
      unfold Record.blocked
      show (match r.queue with | [] => true | c :: _ => _) = true
      cases hq : r.queue with
      | nil => rfl
      | cons c rest =>
        have hk : c.kind ≠ .upgrade := by
          simp only [Record.upgradeQueued, hq, List.any_cons, Bool.or_eq_false_iff, beq_eq_false_iff_ne] at hu
          exact hu.1
        cases hck : c.kind with
        | upgrade => exact absurd hck hk
        | shared => simp [Record.claimCompatible, hck, Record.compatible, Record.exclusiveHeld, Record.mapHolder, hy,
            ha, upgraded]
        | exclusive => simp [Record.claimCompatible, hck, Record.compatible, Record.mapHolder, hy]
    · show s.epochSource.toNat ≤ (s.epochSource + 1).toNat
      rw [succ_toNat (not_exhausted hs)]
      omega
  enqueueUpgrade {s slot r n x} q h hr hx hw hu hb ha := by
    refine ⟨canon_law.enqueueUpgrade q h.1 hr hx hw hu hb ha, h.2.putBlocked slot ?_⟩
    simp only [Record.blocked, Record.claimCompatible, Bool.or_eq_true, Bool.not_eq_true']
    exact hb
  downgrade {s slot r} n h hr :=
    ⟨canon_law.downgrade n h.1 hr, BlockedBut.grantCheck (h.1.putRecord (h.1.slot_lt hr) _) (h.2.put slot _)⟩
  entries {s slot r} g h hr hg hm := by
    refine ⟨canon_law.entries g h.1 hr hg hm, h.2.putBlocked slot ?_⟩
    rw [Record.blocked_holders g (fun x => ⟨(hg x).1, (hg x).2.1⟩)]
    exact record_blocked h.2 hr
  renewAll {s} n mask life h hl := by
    refine ⟨canon_law.renewAll n mask life h.1 hl, h.2.mapRecords (renewRecord n mask life) (fun p ts e => ?_) rfl rfl rfl⟩
    unfold renewRecord
    split
    · refine Record.blocked_holders _ (fun x => ?_) ts e
      split <;> exact ⟨rfl, rfl⟩
    · rfl
  words {s slot r} v h hr hv := by
    have hb := record_blocked h.2 hr
    exact ⟨canon_law.words v h.1 hr hv, h.2.putBlocked slot hb⟩
  mark {s slot r} b h hr hm := by
    have hb := record_blocked h.2 hr
    exact ⟨canon_law.mark b h.1 hr hm, h.2.putBlocked slot hb⟩
  standby mask d h _ _ _ _ := h.enterStandby _ mask d
  define {s slot key} h ht hs hk hf hl := ⟨canon_law.define h.1 ht hs hk hf hl, h.2.putBlocked slot (blocked_nil rfl _ _)⟩
  retire {s slot r} h hr := by
    refine ⟨canon_law.retire h.1 hr, BlockedBut.retire ?_ slot⟩
    have hf : ∀ (l : List Agent) (t : State), BlockedBut [] t →
        BlockedBut [] (l.foldl (fun t n => t.postPlain slot n (retireNotice r n)) t) := by
      intro l
      induction l with
      | nil => exact fun _ ht => ht
      | cons n l ih => exact fun t ht => ih _ (ht.same rfl rfl rfl)
    exact hf _ _ h.2
  retireEmpty {s slot r} h hr he := ⟨canon_law.retireEmpty h.1 hr he, h.2.retire slot⟩
  cleared _ hr hg _ hc _ := Blocked.cleared hr hg hc
  sweep h ht := ⟨canon_law.sweep h.1 ht, by intro p hp; simp [State.sweep] at hp⟩

end Sys2Proof.Machine
end

