-- ==== Sys2Proof/Laws/Bytes.lean ====
section
/-! SUPPORT. Byte order and frames: a field's bytes and a field read back from them (R179), the check over a whole frame
(R154), a request frame read back (R153), the bits of bytes (R145) and of a transaction that a reset cut (R164). -/

namespace Sys2Proof.Machine

theorem half_split (x : BitVec (8 + 8)) : x.extractLsb' 8 8 ++ x.extractLsb' 0 8 = x := by
  ext i hi
  rw [BitVec.getElem_append]
  split
  · rw [BitVec.getElem_extractLsb', Nat.zero_add, BitVec.getLsbD_eq_getElem hi]
  · rw [BitVec.getElem_extractLsb', BitVec.getLsbD_eq_getElem (by omega)]
    congr 1
    omega

theorem word_split (x : BitVec (8 + 8 + 8 + 8)) :
    x.extractLsb' 24 8 ++ x.extractLsb' 16 8 ++ x.extractLsb' 8 8 ++ x.extractLsb' 0 8 = x := by
  ext i hi
  simp only [BitVec.getElem_append, BitVec.getElem_extractLsb']
  split
  · rw [Nat.zero_add, BitVec.getLsbD_eq_getElem hi]
  · split
    · rw [BitVec.getLsbD_eq_getElem (by omega)]; congr 1; omega
    · split
      · rw [BitVec.getLsbD_eq_getElem (by omega)]; congr 1; omega
      · rw [BitVec.getLsbD_eq_getElem (by omega)]; congr 1; omega

/-- A two-byte field read from the bytes it was sent as. -/
theorem half_be16 (x : Half) (rest : List Byte) : halfAt (be16 x ++ rest) 0 = x := half_split x

/-- A four-byte field read from the bytes it was sent as. -/
theorem word_be32 (x : Word) (rest : List Byte) : wordAt (be32 x ++ rest) 0 = x := word_split x

theorem byteOf_toNat {n : Nat} (h : n ≤ 255) : (byteOf n).toNat = n := by
  simp only [byteOf, BitVec.toNat_ofNat]; omega

theorem checkByte_self : ∀ r : Byte, checkByte r r = 0 := by decide

/-- R154: the check over bytes and their check is 0. -/
theorem frameCheck_self (l : List Byte) : frameCheck (l ++ [frameCheck l]) = 0 := by
  unfold frameCheck
  rw [List.foldl_append]
  exact checkByte_self _

theorem requestOfCode_requestCode (k : Request) : requestOfCode (requestCode k) = some k := by cases k <;> decide

theorem requestCode_ne_zero (k : Request) : requestCode k ≠ 0 := by cases k <;> decide

/-- R153: a request frame, with whatever follows it, is read as its code and its body. -/
theorem parseFrame_requestFrame (code : Byte) (body tail : List Byte) (h : body.length ≤ 48) :
    parseFrame (requestFrame code body ++ tail) = some (code, body, tail.length) := by
  unfold requestFrame
  simp only [List.cons_append, List.append_assoc, parseFrame, byteOf_toNat (Nat.le_trans h (by decide)),
    List.length_append, List.length_cons, List.length_nil]
  rw [if_neg (by omega), if_neg (by omega)]
  have h1 : (body ++ (frameCheck (code :: byteOf body.length :: body) :: ([] ++ tail))).getD body.length 0
      = frameCheck (code :: byteOf body.length :: body) := by simp
  have h2 : (body ++ (frameCheck (code :: byteOf body.length :: body) :: ([] ++ tail))).take body.length = body := by
    simp
  rw [h1, h2, if_pos rfl]
  simp
  omega

/-! ### Fields as the bytes of their values -/

theorem byteOf_mod (v : Nat) : byteOf (v % 65536) = byteOf v := by
  apply BitVec.eq_of_toNat_eq
  simp only [byteOf, BitVec.toNat_ofNat]
  omega

/-- A two-byte field as the two bytes of its value. -/
theorem be16_eq (v : Half) : be16 v = [byteOf (v.toNat / 256), byteOf v.toNat] := by
  have h1 : v.extractLsb' 8 8 = byteOf (v.toNat / 256) := by
    apply BitVec.eq_of_toNat_eq
    simp [byteOf, Nat.shiftRight_eq_div_pow]
  have h2 : v.extractLsb' 0 8 = byteOf v.toNat := by
    apply BitVec.eq_of_toNat_eq
    simp [byteOf]
  rw [be16, h1, h2]

theorem count16_eq (v : Nat) : count16 v = [byteOf (v / 256), byteOf v] := by
  rw [count16, be16_eq, BitVec.toNat_ofNat]
  congr 1
  · apply BitVec.eq_of_toNat_eq
    simp only [byteOf, BitVec.toNat_ofNat]
    omega
  · rw [← byteOf_mod v]

/-- A four-byte field as the four bytes of its value. -/
theorem be32_eq (v : Word) : be32 v =
    [byteOf (v.toNat / 16777216), byteOf (v.toNat / 65536), byteOf (v.toNat / 256), byteOf v.toNat] := by
  have h (k : Nat) : v.extractLsb' k 8 = byteOf (v.toNat / 2 ^ k) := by
    apply BitVec.eq_of_toNat_eq
    simp [byteOf, Nat.shiftRight_eq_div_pow]
  rw [be32, h, h, h, h]
  norm_num

@[simp] theorem be16_length (v : Half) : (be16 v).length = 2 := rfl
@[simp] theorem count16_length (v : Nat) : (count16 v).length = 2 := rfl
@[simp] theorem be32_length (v : Word) : (be32 v).length = 4 := rfl

theorem flatMap_length_const {α β : Type} {f : α → List β} {k : Nat} (h : ∀ x, (f x).length = k) (l : List α) :
    (l.flatMap f).length = k * l.length := by
  induction l with
  | nil => simp
  | cons x l ih => simp [h, ih, Nat.mul_succ, Nat.add_comm]

/-- The bits of a byte in the order they travel. -/
def bitsOf (b : Byte) : List Bool := bitPlaces.map fun i => b.getLsbD i

theorem byteOfBits_bitsOf : ∀ b : Byte, byteOfBits (bitsOf b) = b := by decide

/-- R145: whole bytes are read back from their bits; loose bits after them are discarded. -/
theorem wholeBytes_bits (bytes : List Byte) {loose : List Bool} (h : loose.length < 8) :
    wholeBytes (bytes.flatMap bitsOf ++ loose) = bytes := by
  induction bytes with
  | nil =>
    match loose, h with
    | [], _ => rfl
    | [_], _ => rfl
    | [_, _], _ => rfl
    | [_, _, _], _ => rfl
    | [_, _, _, _], _ => rfl
    | [_, _, _, _, _], _ => rfl
    | [_, _, _, _, _, _], _ => rfl
    | [_, _, _, _, _, _, _], _ => rfl
  | cons b bytes ih =>
    have e : (b :: bytes).flatMap bitsOf ++ loose = bitsOf b ++ (bytes.flatMap bitsOf ++ loose) := by simp
    rw [e]
    show byteOfBits (bitsOf b) :: wholeBytes (bytes.flatMap bitsOf ++ loose) = b :: bytes
    rw [byteOfBits_bitsOf, ih]

@[simp] theorem cutAfter_length (bits : Nat) (l : List Byte) : (cutAfter bits l).length = l.length := by
  induction l generalizing bits with
  | nil => rfl
  | cons b l ih => simp [cutAfter, ih]

theorem cutByte_bit : ∀ (b : Byte) (bits i : Fin 9), i.val < 8 →
    (b &&& ~~~((0xFF : Byte) >>> bits.val)).getLsbD (7 - i.val) = (decide (i.val < bits.val) && b.getLsbD (7 - i.val)) := by
  decide +kernel

/-- R163, R164: bit `i` of the bytes stands when it is one of the first `bits`, and is 0 after them. -/
theorem cutAfter_bit (bits : Nat) (l : List Byte) (i : Nat) :
    bitOf (cutAfter bits l) i = (decide (i < bits) && bitOf l i) := by
  induction l generalizing bits i with
  | nil => simp [cutAfter, bitOf]
  | cons b l ih =>
    by_cases hi : i < 8
    · have h0 : i / 8 = 0 := by omega
      have hm : i % 8 = i := by omega
      simp only [cutAfter, bitOf, h0, hm, List.getD_cons_zero]
      by_cases hb : bits < 9
      · exact cutByte_bit b ⟨bits, hb⟩ ⟨i, by omega⟩ hi
      · have hz : (0xFF : Byte) >>> bits = 0 := by
          apply BitVec.eq_of_toNat_eq
          simp only [BitVec.toNat_ushiftRight, Nat.shiftRight_eq_div_pow]
          refine Nat.div_eq_of_lt (Nat.lt_of_lt_of_le (by decide) (Nat.pow_le_pow_right (by decide) (show 8 ≤ bits by omega)))
        have hd : decide (i < bits) = true := by simp; omega
        have hf : ∀ j : Fin 8, (0xFF : Byte).getLsbD (7 - j.val) = true := by decide
        rw [hz, hd]
        simp only [BitVec.getLsbD_and, Bool.true_and]
        have := hf ⟨i, hi⟩
        simp_all
    · have h1 : ∀ (x : Byte) (t : List Byte), bitOf (x :: t) i = bitOf t (i - 8) := by
        intro x t
        have e1 : i / 8 = (i - 8) / 8 + 1 := by omega
        have e2 : i % 8 = (i - 8) % 8 := by omega
        simp only [bitOf, e1, e2, List.getD_cons_succ]
      rw [cutAfter, h1, h1, ih]
      congr 1
      simp only [decide_eq_decide]
      omega

theorem bitOf_replicate_zero (k i : Nat) : bitOf (List.replicate k 0x00) i = false := by
  simp [bitOf, List.getD_eq_getElem?_getD, List.getElem?_replicate]
  split <;> simp

theorem bitOf_replicate_ones {k i : Nat} (h : i < 8 * k) : bitOf (List.replicate k 0xFF) i = true := by
  have hk : i / 8 < k := by omega
  simp only [bitOf, List.getD_eq_getElem?_getD, List.getElem?_replicate, hk, if_true, Option.getD_some]
  have : ∀ j : Fin 8, (0xFF : Byte).getLsbD (7 - j.val) = true := by decide
  exact this ⟨i % 8, by omega⟩

/-- R146: bit `i` of a response followed by filler, as far as the transaction goes. -/
theorem bitOf_shifts_ready {r : Response} {k i : Nat} (h : i < 8 * k) :
    bitOf ((PortState.ready r).shifts k) i = bitOf r.frame i := by
  have hk : i / 8 < k := by omega
  simp only [PortState.shifts, bitOf, List.getD_eq_getElem?_getD, List.getElem?_take, hk, if_true,
    List.getElem?_append, List.getElem?_replicate]
  split
  · rfl
  · rename_i hl
    rw [List.getElem?_eq_none (by omega)]
    split <;> simp

end Sys2Proof.Machine
end

