-- ==== Sys2Proof/Laws/Counts.lean ====
section
/-! SUPPORT. Lease counts count the table (R38), and an agent that is not joined has nothing in it (R98): the changes
of an agent's parts under every operation, and the law of the two. -/

namespace Sys2Proof.Machine

/-! ### Counting entries of a sparse table -/

theorem countP_put_some {α : Type} (q : α → Bool) {b i : Nat} {x y : α} {t : List (Nat × α)}
    (hw : Sparse.wf b t = true) (hf : Sparse.find i t = some y) :
    (Sparse.put i x t).countP (fun p => q p.2) + (q y).toNat = t.countP (fun p => q p.2) + (q x).toNat := by
  induction t with
  | nil => simp [Sparse.find] at hf
  | cons p t ih =>
    obtain ⟨j, z⟩ := p
    rw [Sparse.wf_cons] at hw
    simp only [Sparse.find] at hf
    simp only [Sparse.put]
    split at hf
    · rename_i hij
      subst hij
      cases hf
      simp only [Nat.lt_irrefl, if_false, if_true, List.countP_cons]
      cases q x <;> cases q y <;> simp
    · rename_i hij
      have hlt : ¬ i < j := by
        intro hlt
        have := hw.2.1 (i, y) (Sparse.mem_of_find hf)
        simp only at this
        omega
      have := ih hw.2.2 hf
      simp only [hlt, hij, if_false, List.countP_cons]
      omega

theorem countP_put_none {α : Type} (q : α → Bool) {i : Nat} {x : α} {t : List (Nat × α)}
    (hf : Sparse.find i t = none) :
    (Sparse.put i x t).countP (fun p => q p.2) = t.countP (fun p => q p.2) + (q x).toNat := by
  induction t with
  | nil => simp only [Sparse.put, List.countP_cons, List.countP_nil]; cases q x <;> simp
  | cons p t ih =>
    obtain ⟨j, z⟩ := p
    simp only [Sparse.find] at hf
    simp only [Sparse.put]
    split at hf
    · cases hf
    · rename_i hij
      split
      · simp only [List.countP_cons]; cases q x <;> simp
      · have := ih hf
        simp only [List.countP_cons]
        omega

theorem countP_drop {α : Type} (q : α → Bool) {i : Nat} {y : α} {t : List (Nat × α)}
    (hf : Sparse.find i t = some y) :
    (Sparse.drop i t).countP (fun p => q p.2) + (q y).toNat = t.countP (fun p => q p.2) := by
  induction t with
  | nil => simp [Sparse.find] at hf
  | cons p t ih =>
    obtain ⟨j, z⟩ := p
    simp only [Sparse.find] at hf
    simp only [Sparse.drop]
    split at hf
    · rename_i hij
      subst hij
      cases hf
      simp only [if_true, List.countP_cons]
      cases q y <;> simp
    · rename_i hij
      have := ih hf
      simp only [hij, if_false, List.countP_cons]
      omega

/-! ### Parts -/

theorem partCount_eq (s : State) (n : Agent) : s.partCount n = s.records.countP fun p => p.2.hasPart n := by
  rw [State.partCount, List.countP_eq_length_filter]

theorem partCount_put {s : State} (hc : Canon s) {slot : Nat} {r : Record} (hr : s.record slot = some r) (x : Record)
    (n : Agent) : (s.putRecord slot x).partCount n + (r.hasPart n).toNat = s.partCount n + (x.hasPart n).toNat := by
  rw [partCount_eq, partCount_eq]
  exact countP_put_some (fun r => r.hasPart n) hc.records hr

theorem partCount_new {s : State} {slot : Nat} (hr : s.record slot = none) (x : Record) (n : Agent) :
    (s.putRecord slot x).partCount n = s.partCount n + (x.hasPart n).toNat := by
  rw [partCount_eq, partCount_eq]
  exact countP_put_none (fun r => r.hasPart n) hr

theorem partCount_pos {s : State} {slot : Nat} {r : Record} {n : Agent} (hr : s.record slot = some r)
    (hp : r.hasPart n = true) : 0 < s.partCount n := by
  rw [partCount_eq, List.countP_pos_iff]
  exact ⟨(slot, r), Sparse.mem_of_find hr, hp⟩

theorem hasPart_ext {a b : Record} {n : Agent} (h : a.hasPart n = true ↔ b.hasPart n = true) :
    a.hasPart n = b.hasPart n := Bool.eq_iff_iff.2 h

theorem hasPart_of_agents {a b : Record} (hh : a.holders.map (fun h => h.agent) = b.holders.map fun h => h.agent)
    (hq : a.queue.map (fun c => c.agent) = b.queue.map fun c => c.agent) (n : Agent) : a.hasPart n = b.hasPart n := by
  have key : ∀ x : Record, x.hasPart n = true ↔
      n ∈ x.holders.map (fun h => h.agent) ∨ n ∈ x.queue.map fun c => c.agent := by
    intro x; rw [hasPart_iff]; simp
  exact hasPart_ext (by rw [key, key, hh, hq])

theorem insertHolder_hasPart (r : Record) (h : Holder) (e : Epoch) (n : Agent) :
    ({ r with lastEpoch := e, holders := insertHolder h r.holders } : Record).hasPart n =
      (decide (n = h.agent) || r.hasPart n) := by
  rw [Bool.eq_iff_iff, Bool.or_eq_true, hasPart_iff, hasPart_iff, decide_eq_true_eq]
  simp only [mem_insertHolder]
  constructor
  · rintro (⟨x, rfl | hx, rfl⟩ | hc)
    · exact Or.inl rfl
    · exact Or.inr (Or.inl ⟨x, hx, rfl⟩)
    · exact Or.inr (Or.inr hc)
  · rintro (rfl | ⟨x, hx, rfl⟩ | hc)
    · exact Or.inl ⟨h, Or.inl rfl, rfl⟩
    · exact Or.inl ⟨x, Or.inr hx, rfl⟩
    · exact Or.inr hc

/-- A grant moves a part, it neither gives nor takes one. -/
theorem grantFirst_hasPart {env : GrantEnv} {e : Epoch} {r : Record} {c : Claim} {rest : List Claim}
    (hq : r.queue = c :: rest) (hg : grantable env e r c = true) (n : Agent) :
    (grantFirst env e r c rest).1.hasPart n = r.hasPart n := by
  have hc := ((grantable_iff env e r c).1 hg).1
  refine hasPart_ext ?_
  have hr : r.hasPart n = true ↔ (∃ h ∈ r.holders, h.agent = n) ∨ c.agent = n ∨ ∃ d ∈ rest, d.agent = n := by
    rw [hasPart_iff, hq]; simp
  rw [hr, hasPart_iff]
  unfold grantFirst
  unfold Record.claimCompatible at hc
  cases hk : c.kind <;> simp only [hk, mem_insertHolder] at hc ⊢
  · constructor
    · rintro (⟨x, rfl | hx, rfl⟩ | hd)
      · exact Or.inr (Or.inl rfl)
      · exact Or.inl ⟨x, hx, rfl⟩
      · exact Or.inr (Or.inr hd)
    · rintro (⟨x, hx, rfl⟩ | rfl | hd)
      · exact Or.inl ⟨x, Or.inr hx, rfl⟩
      · exact Or.inl ⟨_, Or.inl rfl, rfl⟩
      · exact Or.inr hd
  · constructor
    · rintro (⟨x, rfl | hx, rfl⟩ | hd)
      · exact Or.inr (Or.inl rfl)
      · exact Or.inl ⟨x, hx, rfl⟩
      · exact Or.inr (Or.inr hd)
    · rintro (⟨x, hx, rfl⟩ | rfl | hd)
      · exact Or.inl ⟨x, Or.inr hx, rfl⟩
      · exact Or.inl ⟨_, Or.inl rfl, rfl⟩
      · exact Or.inr hd
  · obtain ⟨y, hy, ha⟩ := onlyHolder_eq hc
    simp only [Record.mapHolder, hy, List.map_cons, List.map_nil, ha, beq_self_eq_true, if_true, List.mem_singleton,
      exists_eq_left, upgraded]
    tauto

theorem grantRun_hasPart (env : GrantEnv) (fuel : Nat) (e : Epoch) (r : Record) (n : Agent) :
    (grantRun env fuel e r).1.hasPart n = r.hasPart n := by
  refine grantRun_induction env (fun _ x => x.hasPart n = r.hasPart n) ?_ fuel e r rfl
  intro e x c rest hq hg h
  rw [grantFirst_hasPart hq hg, h]

/-! ### The law -/

/-- R38 and R98. -/
structure Tally (s : State) : Prop where
  canon : Canon s
  count : ∀ n, (s.session n).leaseCount = s.partCount n
  out : ∀ n, (s.session n).state.joined = false →
    s.partCount n = 0 ∧ (s.session n).window = [] ∧ s.cells.get n = [] ∧ (s.session n).standby = none

/-- R22, R115. -/
def Swept (s : State) : Prop :=
  s.table = .ready ∨ (s.records = [] ∧ s.generations = [] ∧ ∀ n, (s.session n).state.joined = false)

/-- The invariant of the lease counts. -/
def Counted (s : State) : Prop := Tally s ∧ AllRec (fun _ => Ordered) s ∧ Swept s

theorem counted_iff (s : State) :
    (s.canonical && s.everyRecord Record.queueOrdered && s.counted && s.outsidersEmpty && s.sweepEmpty) = true ↔
      Counted s := by
  have h1 : s.counted = true ↔ ∀ n, (s.session n).leaseCount = s.partCount n := by
    unfold State.counted; rw [all_agents]; simp
  have h2 : s.outsidersEmpty = true ↔ ∀ n, (s.session n).state.joined = false →
      s.partCount n = 0 ∧ (s.session n).window = [] ∧ s.cells.get n = [] ∧ (s.session n).standby = none := by
    unfold State.outsidersEmpty; rw [all_agents]
    refine forall_congr' fun n => ?_
    cases (s.session n).state.joined <;> simp [and_assoc]
  have h3 : s.sweepEmpty = true ↔ Swept s := by
    have ha : s.anyJoined = false ↔ ∀ n, (s.session n).state.joined = false := by
      unfold State.anyJoined
      constructor
      · intro h n
        simp [agents] at h
        fin_cases n <;> simp_all
      · intro h
        simp [agents, h]
    unfold State.sweepEmpty Swept
    simp only [Bool.or_eq_true, Bool.and_eq_true, beq_iff_eq, List.isEmpty_iff, Bool.not_eq_true', ha, and_assoc]
  simp only [Bool.and_eq_true, canonical_iff, orderedAll_iff, h1, h2, h3]
  exact ⟨fun ⟨⟨⟨⟨a, b⟩, c⟩, d⟩, e⟩ => ⟨⟨a, c, d⟩, b, e⟩, fun ⟨⟨a, c, d⟩, b, e⟩ => ⟨⟨⟨⟨a, b⟩, c⟩, d⟩, e⟩⟩

theorem Tally.joined {s : State} (h : Tally s) {slot : Nat} {r : Record} {n : Agent} (hr : s.record slot = some r)
    (hp : r.hasPart n = true) : (s.session n).state.joined = true := by
  cases hj : (s.session n).state.joined with
  | true => rfl
  | false =>
    have := (h.out n hj).1
    have := partCount_pos hr hp
    omega

/-- A change after which every agent has as many parts as before, with the sessions and the cells of the agents that
are not joined as they were. -/
theorem Tally.move {s t : State} (h : Tally s) (hc : Canon t) (hp : ∀ n, t.partCount n = s.partCount n)
    (hs : ∀ n, (t.session n).state.joined = (s.session n).state.joined ∧
      (t.session n).leaseCount = (s.session n).leaseCount ∧
      ((s.session n).window = [] → (t.session n).window = []) ∧
      ((s.session n).standby = none → (t.session n).standby = none))
    (hcell : ∀ n, t.cells.get n = s.cells.get n ∨ (s.session n).state.joined = true ∨
      (s.cells.get n = [] → t.cells.get n = [])) : Tally t := by
  refine ⟨hc, fun n => ?_, fun n hj => ?_⟩
  · rw [(hs n).2.1, hp, h.count]
  · obtain ⟨a, b, c, d⟩ := hs n
    rw [a] at hj
    obtain ⟨e, f, g, i⟩ := h.out n hj
    refine ⟨by rw [hp, e], c f, ?_, d i⟩
    rcases hcell n with hx | hx | hx
    · rw [hx, g]
    · rw [hj] at hx; cases hx
    · exact hx g

theorem session_same (s : State) (n : Agent) : (s.session n).state.joined = (s.session n).state.joined ∧
    (s.session n).leaseCount = (s.session n).leaseCount ∧
    ((s.session n).window = [] → (s.session n).window = []) ∧
    ((s.session n).standby = none → (s.session n).standby = none) := ⟨rfl, rfl, id, id⟩

theorem partCount_congr {s t : State} (h : t.records = s.records) (n : Agent) : t.partCount n = s.partCount n := by
  rw [State.partCount, State.partCount, h]

theorem Tally.same {s t : State} (h : Tally s) (hr : t.records = s.records) (hg : t.generations = s.generations)
    (hc : t.cells = s.cells) (hs : t.sessions = s.sessions) : Tally t := by
  have he : ∀ n, t.session n = s.session n := fun n => by rw [State.session, State.session, hs]
  refine h.move (h.canon.same hr hg hc) (partCount_congr hr) (fun n => ?_) fun n => Or.inl (by rw [hc])
  rw [he]
  exact session_same s n

/-- A record replaced by one in which the same agents have parts. -/
theorem Tally.put {s : State} (h : Tally s) {slot : Nat} {r x : Record} (hr : s.record slot = some r)
    (hx : ∀ n, x.hasPart n = r.hasPart n) : Tally (s.putRecord slot x) := by
  refine h.move (h.canon.putRecord (h.canon.slot_lt hr) x) (fun n => ?_) (fun n => session_same s n)
    fun _ => Or.inl rfl
  have := partCount_put h.canon hr x n
  rw [hx] at this
  omega

theorem Tally.post {s : State} (h : Tally s) {slot : Nat} (hl : slot < Config.slots) {n : Agent}
    (hj : (s.session n).state.joined = true) (x : Notice) : Tally (s.post slot n x) := by
  refine h.move (h.canon.post hl n x) (fun _ => rfl) (fun m => session_same s m) fun m => ?_
  by_cases hm : m = n
  · subst hm; exact Or.inr (Or.inl hj)
  · left
    show (s.cells.set n _).get m = _
    rw [PerAgent.get_set_ne _ hm]

theorem Tally.grantCheck {s : State} (h : Tally s) (slot : Nat) : Tally (s.grantCheck slot) := by
  cases hr : s.record slot with
  | none => rw [grantCheck_none hr]; exact h
  | some r =>
    have hl := h.canon.slot_lt hr
    obtain ⟨granted, hq, ha⟩ := grantRun_split (s.grantEnv slot) r.queue.length s.epochSource r
    have hj : ∀ p ∈ (grantRun (s.grantEnv slot) r.queue.length s.epochSource r).2.2,
        (s.session p.1).state.joined = true := by
      intro p hp
      refine h.joined hr (hasPart_iff.2 (Or.inr ?_))
      have : p.1 ∈ granted.map fun c => c.agent := by rw [ha]; exact List.mem_map.2 ⟨p, hp, rfl⟩
      obtain ⟨c, hc, he⟩ := List.mem_map.1 this
      exact ⟨c, by rw [hq]; exact List.mem_append_left _ hc, he⟩
    have hfold : ∀ (l : List (Agent × Notice)) (t : State), Tally t → (∀ p ∈ l, (t.session p.1).state.joined = true) →
        Tally (l.foldl (fun t p => t.post slot p.1 p.2) t) := by
      intro l
      induction l with
      | nil => exact fun _ ht _ => ht
      | cons p l ih =>
        exact fun t ht hp => ih _ (ht.post hl (hp p (by simp)) p.2) fun q hq => hp q (List.mem_cons_of_mem _ hq)
    unfold State.grantCheck
    simp only [hr]
    refine hfold _ _ ?_ hj
    exact (h.put hr fun n => grantRun_hasPart _ _ _ _ n).same rfl rfl rfl rfl

theorem Tally.grantAll {s : State} (h : Tally s) : Tally s.grantAll := by
  have hf : ∀ (l : List Nat) (t : State), Tally t → Tally (l.foldl State.grantCheck t) := by
    intro l
    induction l with
    | nil => exact fun _ ht => ht
    | cons x l ih => exact fun t ht => ih _ (ht.grantCheck x)
  exact hf _ _ h

/-- The sessions after each of the listed agents has lost a part. -/
theorem foldl_losePart (l : List Agent) (hl : l.Nodup) (s : State) (m : Agent) :
    (l.foldl State.losePart s).session m =
      if m ∈ l then { s.session m with leaseCount := (s.session m).leaseCount - 1 } else s.session m := by
  induction l generalizing s with
  | nil => simp
  | cons n l ih =>
    rw [List.nodup_cons] at hl
    rw [List.foldl_cons, ih hl.2]
    by_cases hm : m = n
    · subst hm
      simp [hl.1, State.losePart]
    · simp [hm, State.losePart, setSession_session]

/-- Losing kept leases reaches the kept sets alone. -/
theorem foldl_loseKept (l : List Agent) (s : State) (m : Agent) :
    ((l.foldl State.loseKept s).session m).state = (s.session m).state ∧
    ((l.foldl State.loseKept s).session m).leaseCount = (s.session m).leaseCount ∧
    ((l.foldl State.loseKept s).session m).window = (s.session m).window ∧
    ((s.session m).standby = none → ((l.foldl State.loseKept s).session m).standby = none) := by
  induction l generalizing s with
  | nil => exact ⟨rfl, rfl, rfl, id⟩
  | cons n l ih =>
    obtain ⟨a, b, c, d⟩ := ih (s.loseKept n)
    have : ((s.loseKept n).session m).state = (s.session m).state ∧
        ((s.loseKept n).session m).leaseCount = (s.session m).leaseCount ∧
        ((s.loseKept n).session m).window = (s.session m).window ∧
        ((s.session m).standby = none → ((s.loseKept n).session m).standby = none) := by
      simp only [State.loseKept, setSession_session]
      split
      · rename_i hm
        subst hm
        exact ⟨rfl, rfl, rfl, fun h => by simp [h]⟩
      · exact ⟨rfl, rfl, rfl, id⟩
    exact ⟨a.trans this.1, b.trans this.2.1, c.trans this.2.2.1, fun h => d (this.2.2.2 h)⟩

/-- The sessions after a retirement (R16). -/
theorem retire_session {s : State} {slot : Nat} {r : Record} (hr : s.record slot = some r) (m : Agent) :
    ((s.retire slot).session m).state = (s.session m).state ∧
    ((s.retire slot).session m).leaseCount =
      (if r.hasPart m then (s.session m).leaseCount - 1 else (s.session m).leaseCount) ∧
    ((s.retire slot).session m).window = (s.session m).window ∧
    ((s.session m).standby = none → ((s.retire slot).session m).standby = none) := by
  unfold State.retire
  simp only [hr]
  have hn : (agents.filter r.hasPart).Nodup := List.Nodup.filter _ (by decide)
  have h1 := foldl_losePart (agents.filter r.hasPart) hn s m
  have hmem : m ∈ agents.filter r.hasPart ↔ r.hasPart m = true := by
    rw [List.mem_filter]
    refine ⟨fun h => h.2, fun h => ⟨?_, h⟩⟩
    fin_cases m <;> simp [agents]
  obtain ⟨a, b, c, d⟩ := foldl_loseKept ((r.holders.filter fun h => h.status == .kept).map fun h => h.agent)
    ((agents.filter r.hasPart).foldl State.losePart s) m
  generalize ((r.holders.filter fun h => h.status == .kept).map fun h => h.agent).foldl State.loseKept
    ((agents.filter r.hasPart).foldl State.losePart s) = u at a b c d ⊢
  show (u.session m).state = _ ∧ (u.session m).leaseCount = _ ∧ (u.session m).window = _ ∧ (_ → (u.session m).standby = _)
  cases hp : r.hasPart m with
  | false =>
    rw [h1.trans (if_neg (by rw [hmem]; simp [hp]))] at a b c d
    exact ⟨a, by simpa using b, c, d⟩
  | true =>
    rw [h1.trans (if_pos (hmem.2 hp))] at a b c d
    exact ⟨a, by simpa using b, c, d⟩

theorem partCount_retire {s : State} {slot : Nat} {r : Record} (hr : s.record slot = some r) (n : Agent) :
    (s.retire slot).partCount n + (r.hasPart n).toNat = s.partCount n := by
  rw [partCount_eq, partCount_eq, (retire_fields hr).1]
  exact countP_drop (fun r => r.hasPart n) hr

theorem Tally.retire {s : State} (h : Tally s) (slot : Nat) : Tally (s.retire slot) := by
  cases hr : s.record slot with
  | none => simpa [State.retire, hr] using h
  | some r =>
    refine ⟨h.canon.retire slot, fun n => ?_, fun n hj => ?_⟩
    · have h1 := (retire_session hr n).2.1
      have h2 := partCount_retire hr n
      have h3 := h.count n
      rw [h1]
      cases hp : r.hasPart n <;> simp only [hp, if_true, Bool.false_eq_true, if_false, Bool.toNat_true,
        Bool.toNat_false] at * <;> omega
    · obtain ⟨a, _, c, d⟩ := retire_session hr n
      rw [a] at hj
      obtain ⟨e, f, g, i⟩ := h.out n hj
      have h2 := partCount_retire hr n
      exact ⟨by omega, c.trans f, by rw [(retire_fields hr).2.2.1, g], d i⟩

theorem Tally.retireIfEmpty {s : State} (h : Tally s) (slot : Nat) : Tally (s.retireIfEmpty slot) := by
  unfold State.retireIfEmpty
  split
  · exact h
  · split
    · exact h.retire slot
    · exact h

theorem dropAgent_hasPart (r : Record) (n m : Agent) : (r.dropAgent n).hasPart m = (r.hasPart m && m != n) := by
  rw [Record.hasPart, dropAgent_holds, dropAgent_waits, Record.hasPart, Bool.and_or_distrib_right]

/-- An agent's part leaves a record together with one of its lease count. -/
theorem Tally.losePart {s : State} (h : Tally s) {slot : Nat} {r x : Record} {n : Agent}
    (hr : s.record slot = some r) (hp : r.hasPart n = true) (hx : ∀ m, x.hasPart m = (r.hasPart m && m != n)) :
    Tally ((s.putRecord slot x).losePart n) := by
  have hcount : ∀ m, ((s.putRecord slot x).losePart n).partCount m = if m = n then s.partCount m - 1 else s.partCount m := by
    intro m
    have h1 := partCount_put h.canon hr x m
    have h2 : ((s.putRecord slot x).losePart n).partCount m = (s.putRecord slot x).partCount m := rfl
    rw [h2]
    rw [hx] at h1
    split
    · rename_i hm; subst hm; simp [hp] at h1; omega
    · rename_i hm
      have hmn : (m != n) = true := by rw [bne_iff_ne]; exact hm
      rw [hmn, Bool.and_true] at h1
      omega
  refine ⟨(h.canon.putRecord (h.canon.slot_lt hr) x).setSession n _, fun m => ?_, fun m hj => ?_⟩
  · rw [hcount, State.losePart, setSession_session]
    split
    · rename_i hm; subst hm
      show (s.session m).leaseCount - 1 = _
      rw [h.count]
    · exact h.count m
  · rw [State.losePart, setSession_session] at hj ⊢
    rw [← State.losePart, hcount]
    split at hj
    · rename_i hm; subst hm
      have := h.joined hr hp
      rw [show ((s.putRecord slot x).session m) = s.session m from rfl, this] at hj
      cases hj
    · rename_i hm
      obtain ⟨e, f, g, i⟩ := h.out m hj
      simp only [hm, if_false]
      exact ⟨e, f, g, i⟩

theorem Tally.leaveRecord {s : State} (h : Tally s) {slot : Nat} {r : Record} {n : Agent} (k : Option NoticeKind)
    (hr : s.record slot = some r) (hp : r.hasPart n = true) : Tally (s.leaveRecord slot n k) := by
  have hl := h.canon.slot_lt hr
  unfold State.leaveRecord
  simp only [hr]
  refine Tally.retireIfEmpty (Tally.grantCheck ?_ slot) slot
  have h1 := h.losePart (x := r.dropAgent n) hr hp (dropAgent_hasPart r n)
  cases k with
  | none => exact h1
  | some k =>
    have hj : ((((s.putRecord slot (r.dropAgent n)).losePart n)).session n).state.joined = true := by
      rw [State.losePart, setSession_session_same]
      exact h.joined hr hp
    exact (h1.post hl hj { kind := k, gen := s.generation slot, lifetime := none, epoch := none })

/-! ### Other slots -/

theorem post_record (s : State) (slot i : Nat) (n : Agent) (x : Notice) :
    (s.post slot n x).record i = s.record i := rfl

theorem putRecord_record_same (s : State) (slot : Nat) (r : Record) : (s.putRecord slot r).record slot = some r :=
  Sparse.find_put_same _ _ _

theorem putRecord_record_ne (s : State) {slot i : Nat} (h : i ≠ slot) (r : Record) :
    (s.putRecord slot r).record i = s.record i := Sparse.find_put_ne h _ _

theorem grantCheck_record_ne (s : State) {slot i : Nat} (h : i ≠ slot) :
    (s.grantCheck slot).record i = s.record i := by
  cases hr : s.record slot with
  | none => rw [grantCheck_none hr]
  | some r =>
    rw [State.record, (grantCheck_fields hr).1, Sparse.find_put_ne h]
    rfl

theorem grantCheck_record_same {s : State} {slot : Nat} {r : Record} (hr : s.record slot = some r) :
    (s.grantCheck slot).record slot = some (grantRun (s.grantEnv slot) r.queue.length s.epochSource r).1 := by
  rw [State.record, (grantCheck_fields hr).1, Sparse.find_put_same]

theorem retire_record_ne (s : State) {slot i : Nat} (h : i ≠ slot) : (s.retire slot).record i = s.record i := by
  cases hr : s.record slot with
  | none => simp [State.retire, hr]
  | some r =>
    rw [State.record, (retire_fields hr).1, Sparse.find_drop_ne h]
    rfl

theorem retireIfEmpty_record_ne (s : State) {slot i : Nat} (h : i ≠ slot) :
    (s.retireIfEmpty slot).record i = s.record i := by
  unfold State.retireIfEmpty
  split
  · rfl
  · split
    · exact retire_record_ne s h
    · rfl

theorem retireIfEmpty_record {s : State} {slot i : Nat} {x : Record} (hc : Canon s)
    (hr : (s.retireIfEmpty slot).record i = some x) : s.record i = some x := by
  unfold State.retireIfEmpty at hr
  split at hr
  · exact hr
  · rename_i r hs
    split at hr
    · have hw : Sparse.wf Config.slots (Sparse.drop slot s.records) = true := Sparse.wf_drop hc.records
      rw [State.record, (retire_fields hs).1] at hr
      exact (Sparse.mem_iff_find hc.records).1 (Sparse.mem_drop (Sparse.mem_of_find hr))
    · exact hr

theorem leaveRecord_record_ne (s : State) {slot i : Nat} (h : i ≠ slot) (n : Agent) (k : Option NoticeKind) :
    (s.leaveRecord slot n k).record i = s.record i := by
  unfold State.leaveRecord
  split
  · rfl
  · simp only
    rw [retireIfEmpty_record_ne _ h, grantCheck_record_ne _ h]
    cases k <;> exact putRecord_record_ne s h _

/-- An agent that left a record has no part in it. -/
theorem leaveRecord_gone {s : State} (hc : Canon s) {slot : Nat} {n : Agent} {k : Option NoticeKind} {x : Record}
    (hx : (s.leaveRecord slot n k).record slot = some x) : x.hasPart n = false := by
  cases hr : s.record slot with
  | none => simp [State.leaveRecord, hr] at hx
  | some r =>
    have hl := hc.slot_lt hr
    unfold State.leaveRecord at hx
    simp only [hr] at hx
    have key : ∀ t : State, Canon t → t.record slot = some (r.dropAgent n) →
        ((t.losePart n).grantCheck slot |>.retireIfEmpty slot).record slot = some x → x.hasPart n = false := by
      intro t ht hrec hx
      have hcl : Canon (t.losePart n) := ht.setSession n _
      have h1 := retireIfEmpty_record (hcl.grantCheck slot) hx
      have h2 : (t.losePart n).record slot = some (r.dropAgent n) := hrec
      rw [grantCheck_record_same h2] at h1
      cases h1
      rw [grantRun_hasPart, dropAgent_hasPart]
      simp
    cases k with
    | none => exact key _ (hc.putRecord hl _) (putRecord_record_same _ _ _) hx
    | some k => exact key _ ((hc.putRecord hl _).post hl n _) (putRecord_record_same _ _ _) hx

theorem partSlots_nodup {s : State} (hc : Canon s) (n : Agent) : (s.partSlots n).Nodup := by
  have : ∀ (b : Nat) (t : List (Nat × Record)), Sparse.wf b t = true → (Sparse.keys t).Nodup := by
    intro b t
    induction t with
    | nil => simp [Sparse.keys]
    | cons p t ih =>
      obtain ⟨i, x⟩ := p
      intro hw
      rw [Sparse.wf_cons] at hw
      simp only [Sparse.keys, List.map_cons, List.nodup_cons, List.mem_map, not_exists, not_and]
      refine ⟨fun p hp he => ?_, ih hw.2.2⟩
      have := hw.2.1 p hp
      omega
  exact this Config.slots _ (wf_sublist List.filter_sublist hc.records)

theorem mem_partSlots {s : State} (hc : Canon s) {n : Agent} {slot : Nat} :
    slot ∈ s.partSlots n ↔ ∃ r, s.record slot = some r ∧ r.hasPart n = true := by
  simp only [State.partSlots, Sparse.keys, List.mem_map, List.mem_filter]
  constructor
  · rintro ⟨p, ⟨hp, hh⟩, rfl⟩
    exact ⟨p.2, (Sparse.mem_iff_find hc.records).1 hp, hh⟩
  · rintro ⟨r, hr, hh⟩
    exact ⟨(slot, r), ⟨Sparse.mem_of_find hr, hh⟩, rfl⟩

/-- What a removal leaves (R104): the other slots as they were, and in the visited ones no part of the agent. -/
theorem removal_fold {n : Agent} (l : List Nat) (hl : l.Nodup) {s : State} (hc : Canon s) :
    (∀ i, i ∉ l → (l.foldl (fun t slot => t.leaveRecord slot n none) s).record i = s.record i) ∧
    ∀ i x, i ∈ l → (l.foldl (fun t slot => t.leaveRecord slot n none) s).record i = some x → x.hasPart n = false := by
  induction l generalizing s with
  | nil => exact ⟨fun _ _ => rfl, fun _ _ h => by simp at h⟩
  | cons a l ih =>
    rw [List.nodup_cons] at hl
    obtain ⟨h1, h2⟩ := ih hl.2 (hc.leaveRecord a n none)
    refine ⟨fun i hi => ?_, fun i x hi hx => ?_⟩
    · simp only [List.mem_cons, not_or] at hi
      rw [List.foldl_cons, h1 i hi.2, leaveRecord_record_ne s hi.1]
    · rw [List.foldl_cons] at hx
      rcases List.mem_cons.1 hi with rfl | hi
      · rw [h1 i hl.1] at hx
        exact leaveRecord_gone hc hx
      · exact h2 i x hi hx

theorem removeAgent_gone {s : State} (hc : Canon s) {n : Agent} {slot : Nat} {x : Record}
    (hx : (s.removeAgent n).record slot = some x) : x.hasPart n = false := by
  obtain ⟨h1, h2⟩ := removal_fold (n := n) (s.partSlots n) (partSlots_nodup hc n) hc
  by_cases hm : slot ∈ s.partSlots n
  · exact h2 slot x hm hx
  · have hx' : s.record slot = some x := (h1 slot hm).symm.trans hx
    cases hp : x.hasPart n with
    | false => rfl
    | true => exact absurd ((mem_partSlots hc).2 ⟨x, hx', hp⟩) hm

theorem removeAgent_partCount {s : State} (hc : Canon s) (n : Agent) : (s.removeAgent n).partCount n = 0 := by
  rw [partCount_eq, List.countP_eq_zero]
  intro p hp
  have := removeAgent_gone hc ((Sparse.mem_iff_find (hc.removeAgent n).records).1 hp)
  simp [this]

theorem Tally.removeAgent {s : State} (h : Tally s) (n : Agent) : Tally (s.removeAgent n) := by
  have hf : ∀ (l : List Nat) (t : State), l.Nodup → Tally t →
      (∀ i ∈ l, ∃ r, t.record i = some r ∧ r.hasPart n = true) →
      Tally (l.foldl (fun t slot => t.leaveRecord slot n none) t) := by
    intro l
    induction l with
    | nil => exact fun _ _ ht _ => ht
    | cons a l ih =>
      intro t hl ht hp
      rw [List.nodup_cons] at hl
      obtain ⟨r, hr, hpr⟩ := hp a (by simp)
      refine ih _ hl.2 (ht.leaveRecord none hr hpr) fun i hi => ?_
      obtain ⟨x, hx, hxp⟩ := hp i (List.mem_cons_of_mem _ hi)
      refine ⟨x, ?_, hxp⟩
      rw [leaveRecord_record_ne t (fun he => hl.1 (by rw [← he]; exact hi))]
      exact hx
  exact hf _ _ (partSlots_nodup h.canon n) h fun i hi => (mem_partSlots h.canon).1 hi

/-! ### Entering standby -/

theorem dropClaim_hasPart_of_holds {r : Record} {n : Agent} (h : r.holds n = true) (m : Agent) :
    (r.dropClaim n).hasPart m = r.hasPart m := by
  rw [Record.hasPart, dropClaim_waits, dropClaim_holds, Record.hasPart]
  by_cases hm : m = n
  · subst hm; simp [h]
  · have : (m != n) = true := by rw [bne_iff_ne]; exact hm
    rw [this, Bool.and_true]

theorem holders_map_hasPart (r : Record) (g : Holder → Holder) (hg : ∀ h, (g h).agent = h.agent) (m : Agent) :
    ({ r with holders := r.holders.map g } : Record).hasPart m = r.hasPart m := by
  refine hasPart_of_agents (a := { r with holders := r.holders.map g }) (b := r) ?_ rfl m
  simp only [List.map_map]
  exact List.map_congr_left fun x _ => hg x

theorem mapHolder_hasPart (r : Record) (n : Agent) (f : Holder → Holder) (hf : ∀ h, (f h).agent = h.agent) (m : Agent) :
    (r.mapHolder n f).hasPart m = r.hasPart m := hasPart_of_agents (mapHolder_agents r n f hf) rfl m

theorem Tally.enterStandbyAt {n : Agent} {mask : Byte} {p : State × EntryCount} (h : Tally p.1) (slot : Nat) :
    Tally (State.enterStandbyAt n mask p slot).1 := by
  unfold State.enterStandbyAt
  simp only
  split
  · exact h
  · rename_i r hr
    have h3 : ∀ (t : State) (b : Bool), Tally t →
        Tally (if b then
          match t.record slot with
          | some r3 => t.putRecord slot (r3.mapHolder n keepHolder)
          | none => t
          else t) := by
      intro t b ht; cases b
      · exact ht
      · simp only [if_true]
        split
        · rename_i r3 hr3
          exact ht.put hr3 (mapHolder_hasPart r3 n keepHolder fun _ => rfl)
        · exact ht
    have h2 : ∀ (t : State) (b : Bool), Tally t → Tally (if b then (t.grantCheck slot).retireIfEmpty slot else t) := by
      intro t b ht; cases b
      · exact ht
      · exact (ht.grantCheck slot).retireIfEmpty slot
    refine h3 _ _ (h2 _ _ ?_)
    have hd : ∀ m, (r.dropClaim n |>.dropHolder n).hasPart m = (r.hasPart m && m != n) := dropAgent_hasPart r n
    have hdh : (r.dropClaim n |>.dropHolder n).holds n = false := by
      have := dropAgent_holds r n n
      simp only [bne_self_eq_false, Bool.and_false] at this
      exact this
    cases hh : r.holds n with
    | true =>
      have hp : r.hasPart n = true := by simp [Record.hasPart, hh]
      cases hs : maskSelects mask slot with
      | true =>
        simp only [Bool.not_true, Bool.and_false, Bool.false_eq_true, if_false, dropClaim_holds, hh]
        exact h.put hr (dropClaim_hasPart_of_holds hh)
      | false =>
        simp only [Bool.not_false, Bool.and_true, if_true, Bool.or_true, hdh]
        exact h.losePart hr hp hd
    | false =>
      simp only [Bool.false_and, Bool.false_eq_true, if_false, Bool.or_false, dropClaim_holds, hh, Bool.not_false,
        Bool.and_true]
      cases hw : r.waits n with
      | true =>
        simp only [if_true]
        have hp : r.hasPart n = true := by simp [Record.hasPart, hw]
        refine h.losePart hr hp fun m => ?_
        rw [← hd, dropHolder_eq]
        exact hh
      | false =>
        simp only [Bool.false_eq_true, if_false]
        exact h.put hr fun m => by rw [dropClaim_eq hw]

theorem Tally.enterStandby {s : State} (h : Tally s) (n : Agent) (mask : Byte) (d : Nat) :
    Tally (s.enterStandby n mask d).1 := by
  have hf : ∀ (l : List Nat) (p : State × EntryCount), Tally p.1 →
      Tally (l.foldl (State.enterStandbyAt n mask) p).1 := by
    intro l
    induction l with
    | nil => exact fun _ hp => hp
    | cons i l ih => exact fun p hp => ih _ (Tally.enterStandbyAt hp i)
  have h1 := hf (s.partSlots n) (s, { kept := 0, left := 0 }) h
  unfold State.enterStandby
  simp only
  generalize (s.partSlots n).foldl (State.enterStandbyAt n mask) (s, { kept := 0, left := 0 }) = p at h1 ⊢
  refine ⟨h1.canon.setSession n _, fun m => ?_, fun m hj => ?_⟩
  · rw [setSession_session]
    split
    · rename_i hm; subst hm; exact h1.count m
    · exact h1.count m
  · rw [setSession_session] at hj ⊢
    split at hj
    · simp [AgentState.joined] at hj
    · rename_i hm
      simp only [hm, if_false]
      exact h1.out m hj

/-! ### The table before its sweep -/

theorem Swept.of_ready {s : State} (h : s.table = .ready) : Swept s := Or.inl h

theorem Swept.of_record {s : State} (h : Swept s) {slot : Nat} {r : Record} (hr : s.record slot = some r) :
    s.table = .ready := by
  rcases h with h | ⟨h, _⟩
  · exact h
  · rw [State.record, h] at hr; cases hr

theorem Swept.of_joined {s : State} (h : Swept s) {n : Agent} (hj : (s.session n).state.joined = true) :
    s.table = .ready := by
  rcases h with h | ⟨_, _, h⟩
  · exact h
  · rw [h n] at hj; cases hj

theorem Swept.same {s t : State} (h : Swept s) (ht : t.table = s.table) (hr : s.records = [] → t.records = [])
    (hg : t.generations = s.generations)
    (hs : ∀ n, (t.session n).state.joined = (s.session n).state.joined) : Swept t := by
  rcases h with h | ⟨a, b, c⟩
  · exact Or.inl (ht.trans h)
  · exact Or.inr ⟨hr a, hg.trans b, fun n => (hs n).trans (c n)⟩

theorem Swept.changeTime {s : State} (h : Swept s) (m : Monitor) : Swept (s.changeTime m) := by
  have ht : (s.changeTime m).table = s.table := by
    unfold State.changeTime
    simp only
    split
    · exact (grantAll_tableOnly _).2.1
    · rfl
  rcases h with h | ⟨a, b, c⟩
  · exact Or.inl (ht.trans h)
  · refine Or.inr ?_
    unfold State.changeTime State.grantAll
    simp only
    split
    · have : Sparse.keys (s.setMonitor { m with
          divider := m.timeState.divider, agentFlags := s.flagsSet, managementFlag := true }).records = [] := by
        show Sparse.keys s.records = []
        rw [a]; rfl
      rw [this]
      exact ⟨a, b, c⟩
    · exact ⟨a, b, c⟩

theorem Tally.setCount {s : State} (h : Tally s) {n : Agent} (a : Session) (hn : a.leaseCount = (s.session n).leaseCount)
    (hj : a.state.joined = false → (s.session n).state.joined = false ∧
      ((s.session n).window = [] → a.window = []) ∧ ((s.session n).standby = none → a.standby = none)) :
    Tally (s.setSession n a) := by
  refine ⟨h.canon.setSession n a, fun m => ?_, fun m hm => ?_⟩
  · rw [setSession_session]
    split
    · rename_i he; subst he; exact hn.trans (h.count m)
    · exact h.count m
  · rw [setSession_session] at hm ⊢
    split at hm
    · rename_i he; subst he
      obtain ⟨x, y, z⟩ := hj hm
      obtain ⟨e, f, g, i⟩ := h.out m x
      simp only [if_true]
      exact ⟨e, y f, g, z i⟩
    · rename_i he
      simp only [he, if_false]
      exact h.out m hm

theorem Tally.gain {s : State} (h : Tally s) {slot : Nat} {x : Record} {n : Agent}
    (hj : (s.session n).state.joined = true) (hc : Canon (s.putRecord slot x))
    (hp : ∀ m, (s.putRecord slot x).partCount m = if m = n then s.partCount m + 1 else s.partCount m) :
    Tally ((s.putRecord slot x).gainPart n) := by
  refine ⟨hc.setSession n _, fun m => ?_, fun m hm => ?_⟩
  · show (((s.putRecord slot x).gainPart n).session m).leaseCount = (s.putRecord slot x).partCount m
    rw [hp, State.gainPart, setSession_session]
    split
    · rename_i he; subst he
      show (s.session m).leaseCount + 1 = _
      rw [h.count]
    · exact h.count m
  · have hpc : ((s.putRecord slot x).gainPart n).partCount m = (s.putRecord slot x).partCount m := rfl
    rw [hpc, hp]
    rw [State.gainPart, setSession_session] at hm ⊢
    split at hm
    · rename_i he; subst he
      have : (s.session m).state.joined = false := hm
      rw [hj] at this; cases this
    · rename_i he
      simp only [he, if_false]
      exact h.out m hm

theorem partCount_map {s t : State} (f : Nat × Record → Nat × Record) (hr : t.records = s.records.map f)
    (hf : ∀ p n, (f p).2.hasPart n = p.2.hasPart n) (n : Agent) : t.partCount n = s.partCount n := by
  rw [partCount_eq, partCount_eq, hr, List.countP_map]
  congr 1
  funext p
  exact hf p n

theorem Tally.grantNow {s : State} (h : Tally s) {slot : Nat} {r : Record} {n : Agent} (m : Mode) (requested : Nat)
    (hj : (s.session n).state.joined = true) (hr : s.record slot = some r) (hp : r.hasPart n = false) :
    Tally (s.grantNow slot r n m requested).1 := by
  have key : ∀ x : Record, (∀ k, x.hasPart k = (decide (k = n) || r.hasPart k)) →
      Tally ((s.putRecord slot x).gainPart n) := by
    intro x hx
    refine h.gain hj (h.canon.putRecord (h.canon.slot_lt hr) x) fun k => ?_
    have := partCount_put h.canon hr x k
    rw [hx] at this
    split
    · rename_i he; subst he; simp [hp] at this; exact this
    · rename_i he; simp [he] at this; exact this
  cases m with
  | shared => exact key _ fun k => insertHolder_hasPart r _ r.lastEpoch k
  | exclusive => exact (key _ fun k => insertHolder_hasPart r _ _ k).same rfl rfl rfl rfl

theorem newRecord_hasPart (key : List Byte) (b : Bool) (n : Agent) : (newRecord key b).hasPart n = false := rfl

theorem Tally.create {s : State} (h : Tally s) {slot : Nat} {key : List Byte} {n : Agent} (m : Mode) (requested : Nat)
    (hj : (s.session n).state.joined = true) (hr : s.record slot = none) (hk : slot ∈ homeSlots key) :
    Tally (s.grantNow slot (newRecord key false) n m requested).1 := by
  have key : ∀ x : Record, (∀ k, x.hasPart k = decide (k = n)) → Tally ((s.putRecord slot x).gainPart n) := by
    intro x hx
    refine h.gain hj (h.canon.putRecord (homeSlots_lt hk) x) fun k => ?_
    have := partCount_new hr x k
    rw [hx] at this
    split
    · rename_i he; subst he; simpa using this
    · rename_i he; simpa [he] using this
  cases m with
  | shared =>
    refine key _ fun k => ?_
    rw [← Bool.or_false (decide (k = n)), ← newRecord_hasPart _ false k]
    exact insertHolder_hasPart (newRecord _ false) (newHolder n .shared _ none) 0 k
  | exclusive =>
    refine (key _ fun k => ?_).same rfl rfl rfl rfl
    rw [← Bool.or_false (decide (k = n)), ← newRecord_hasPart _ false k]
    exact insertHolder_hasPart (newRecord _ false) (newHolder n .exclusive _ _) _ k

/-! ### The law of the counts -/

theorem counted_of_ready {s : State} (h1 : Tally s) (h2 : AllRec (fun _ => Ordered) s) (h3 : s.table = .ready) :
    Counted s := ⟨h1, h2, Or.inl h3⟩

theorem Counted.cleared {t : State} (hr : t.records = []) (hg : t.generations = [])
    (hs : ∀ n, t.session n = Session.reset) (hc : ∀ n, t.cells.get n = []) : Counted t := by
  refine ⟨⟨Canon.cleared hr hg hc, fun n => ?_, fun n _ => ?_⟩, AllRec.nil hr,
    Or.inr ⟨hr, hg, fun n => by rw [hs]; rfl⟩⟩
  · rw [hs, partCount_eq, hr]; rfl
  · rw [hs, partCount_eq, hr, hc]; exact ⟨rfl, rfl, rfl, rfl⟩

theorem Counted.holdReset (s : State) : Counted s.holdReset :=
  Counted.cleared rfl rfl (fun n => PerAgent.get_all _ n) fun n => PerAgent.get_all _ n

/-- The lease counts and the rest of `Counted` are kept by every event. -/
theorem counted_law : StateLaw Counted where
  plain {s t} hr hg he hc hm ht hst hs h := by
    refine ⟨?_, ordered_law.state.plain hr hg he hc hm ht hst hs h.2.1, ?_⟩
    · refine h.1.move (h.1.canon.same hr hg hc) (partCount_congr hr) (fun n => ?_) fun n => Or.inl (by rw [hc])
      obtain ⟨a, b, c, d⟩ := hs n
      exact ⟨by rw [a], b, fun hx => c.trans hx, fun hx => d.trans hx⟩
    · exact h.2.2.same ht (fun hx => hr.trans hx) hg fun n => by rw [(hs n).1]
  setting h hc hl := ⟨h.1.same rfl rfl rfl rfl, ordered_law.state.setting h.2.1 hc hl,
    h.2.2.same rfl (fun hx => hx) rfl fun _ => rfl⟩
  leave {s slot r n} k h hr hp ha := counted_of_ready (h.1.leaveRecord k hr hp) (ordered_law.state.leave k h.2.1 hr hp ha)
    ((leaveRecord_tableOnly s slot n k).2.1.trans (h.2.2.of_record hr))
  expireUpgrade {s slot r n} h hr hq := by
    refine counted_of_ready ?_ (ordered_law.state.expireUpgrade h.2.1 hr hq)
      ((expireUpgrade_tableOnly s slot n).2.1.trans (h.2.2.of_record hr))
    unfold State.expireUpgrade
    simp only [hr]
    obtain ⟨c, hc, rfl, hk⟩ := hq
    have hh : r.holds c.agent = true := ((h.2.1.of_record hr).2.1 c hc).1 hk
    refine Tally.grantCheck (Tally.post (h.1.put hr (dropClaim_hasPart_of_holds hh)) (h.1.canon.slot_lt hr) ?_ _) slot
    exact h.1.joined hr (by simp [Record.hasPart, hh])
  changeTime {s} m h := by
    refine ⟨?_, ordered_law.state.changeTime m h.2.1, h.2.2.changeTime m⟩
    unfold State.changeTime
    simp only
    split
    · exact Tally.grantAll (h.1.same rfl rfl rfl rfl)
    · exact h.1.same rfl rfl rfl rfl
  tick {s} h := by
    have hses : ∀ n, s.tick.session n = tickSession (s.session n) := by intro n; fin_cases n <;> rfl
    refine ⟨?_, ordered_law.state.tick h.2.1, ?_⟩
    · refine h.1.move (canon_law.tick h.1.canon)
        (partCount_map (fun p => (p.1, tickRecord p.2)) rfl fun p n => ?_) (fun n => ?_) fun n => Or.inl rfl
      · refine hasPart_of_agents ?_ ?_ n
        · simp only [tickRecord, List.map_map]
          exact List.map_congr_left fun x _ => (tickHolder_fixed x).1
        · simp only [tickRecord, List.map_map]
          exact List.map_congr_left fun c _ => rfl
      · rw [hses]
        exact ⟨rfl, rfl, fun hx => by simp [tickSession, hx], fun hx => by simp [tickSession, hx]⟩
    · exact h.2.2.same rfl (fun hx => by simp [State.tick, hx]) rfl fun n => by rw [hses]; rfl
  resume {s n} h hn := by
    refine counted_of_ready ?_ (ordered_law.state.resume h.2.1 hn) (h.2.2.of_joined (n := n) (by rw [hn]; rfl))
    have h1 : Tally ({ s with
        records := s.records.map fun (p : Nat × Record) =>
          (p.1, { p.2 with holders := p.2.holders.map (resumeHolder n) }) } : State) := by
      refine h.1.move (h.1.canon.mapRecords
        (fun p => (p.1, { p.2 with holders := p.2.holders.map (resumeHolder n) })) (fun _ => rfl) rfl rfl rfl)
        (partCount_map (fun p => (p.1, { p.2 with holders := p.2.holders.map (resumeHolder n) })) rfl fun p m => ?_)
        (fun m => session_same s m) fun _ => Or.inl rfl
      exact holders_map_hasPart p.2 (resumeHolder n) (fun x => (resumeHolder_fixed n x).1) m
    exact h1.setCount _ rfl fun hx => by simp [AgentState.joined] at hx
  window {s} n w h hw := by
    refine ⟨?_, ordered_law.state.window n w h.2.1 hw, ?_⟩
    · refine h.1.setCount _ rfl fun hj => ⟨hj, fun hx => ?_, fun hx => hx⟩
      show w = []
      rw [List.eq_nil_iff_forall_not_mem]
      intro x hxw
      have := hw.subset hxw
      rw [hx] at this
      cases this
    · refine h.2.2.same rfl (fun hx => hx) rfl fun m => ?_
      rw [setSession_session]; split
      · rename_i he; subst he; rfl
      · rfl
  ends {s n} number st h ht hj hst := by
    refine counted_of_ready ?_ (ordered_law.state.ends number st h.2.1 ht hj hst)
      ((endSession_tableOnly s n).2.1.trans ht)
    have h1 := h.1.removeAgent n
    have h0 := removeAgent_partCount h.1.canon n
    refine ⟨(h.1.canon.endSession n).setSession n _, fun m => ?_, fun m hm => ?_⟩
    · show _ = (s.removeAgent n).partCount m
      rw [setSession_session]
      split
      · rename_i he; subst he
        rw [h0]
        simp [State.endSession]
      · rename_i he
        simp only [State.endSession, setSession_session, he, if_false]
        exact h1.count m
    · show (s.removeAgent n).partCount m = 0 ∧ _
      rw [setSession_session] at hm ⊢
      split at hm
      · rename_i he; subst he
        simp only [if_true, h0, true_and]
        refine ⟨?_, ?_, ?_⟩
        · simp [State.endSession]
        · exact PerAgent.get_set_same _ _ _
        · simp [State.endSession]
      · rename_i he
        simp only [he, if_false]
        have hse : (s.endSession n).session m = (s.removeAgent n).session m := by
          simp only [State.endSession, setSession_session, he, if_false]; rfl
        rw [hse] at hm ⊢
        obtain ⟨a, b, c, d⟩ := h1.out m hm
        refine ⟨a, b, ?_, d⟩
        show ((s.removeAgent n).cells.set n []).get m = []
        rw [PerAgent.get_set_ne _ he]
        exact c
  starts {s n} number h ht hj := by
    refine counted_of_ready ?_ (ordered_law.state.starts number h.2.1 ht hj) ht
    obtain ⟨p0, w0, c0, b0⟩ := h.1.out n hj
    refine ⟨canon_law.starts number h.1.canon ht hj, fun m => ?_, fun m hm => ?_⟩
    · show _ = s.partCount m
      rw [setSession_session]
      split
      · rename_i he; subst he
        rw [p0]
        simp [State.clearStanding]
      · rename_i he
        simp only [State.clearStanding, setSession_session, he, if_false]
        exact h.1.count m
    · show s.partCount m = 0 ∧ _
      rw [setSession_session] at hm ⊢
      split at hm
      · simp [AgentState.joined] at hm
      · rename_i he
        simp only [he, if_false]
        have hse : (s.clearStanding n).session m = s.session m := by
          simp only [State.clearStanding, setSession_session, he, if_false]; rfl
        rw [hse] at hm ⊢
        obtain ⟨a, b, c, d⟩ := h.1.out m hm
        refine ⟨a, b, ?_, d⟩
        show (s.cells.set n []).get m = []
        rw [PerAgent.get_set_ne _ he]
        exact c
  notices {s} n h := by
    refine ⟨?_, ordered_law.state.notices n h.2.1, h.2.2.same rfl (fun hx => hx) rfl fun _ => rfl⟩
    refine h.1.move (canon_law.notices n h.1.canon) (fun _ => rfl) (fun m => session_same s m) fun m => ?_
    right; right
    intro hx
    show (s.cells.set n _).get m = []
    rw [PerAgent.get_set]
    split
    · rename_i he; subst he; rw [hx]; rfl
    · exact hx
  create {s n slot key} m requested h ht hn hs hk hw hf hkl hq hb := by
    refine counted_of_ready ?_ (ordered_law.state.create m requested h.2.1 ht hn hs hk hw hf hkl hq hb) (by cases m <;> exact ht)
    have hj : (s.session n).state.joined = true := by rw [hn]; rfl
    have h1 : Tally (s.addCreation n) := h.1.setCount _ rfl fun hx => by
      have : (s.session n).state.joined = false := hx
      rw [hj] at this; cases this
    have hj1 : ((s.addCreation n).session n).state.joined = true := by
      rw [State.addCreation, setSession_session_same]; exact hj
    exact h1.create m requested hj1 hs hk
  grantNow {s n slot r} m requested h ht hn hr hq hp hc hw hu :=
    counted_of_ready (h.1.grantNow m requested (by rw [hn]; rfl) hr hp)
      (ordered_law.state.grantNow m requested h.2.1 ht hn hr hq hp hc hw hu) (by cases m <;> exact ht)
  enqueue {s slot r} c h ht hn hr hp hk hq hu := by
    refine counted_of_ready ?_ (ordered_law.state.enqueue c h.2.1 ht hn hr hp hk hq hu) ht
    refine h.1.gain (by rw [hn]; rfl) (h.1.canon.putRecord (h.1.canon.slot_lt hr) _) fun m => ?_
    have h1 := partCount_put h.1.canon hr { r with queue := r.queue ++ [c] } m
    have h2 : ({ r with queue := r.queue ++ [c] } : Record).hasPart m = (r.hasPart m || decide (m = c.agent)) := by
      rw [Bool.eq_iff_iff, Bool.or_eq_true, hasPart_iff, hasPart_iff, decide_eq_true_eq]
      simp only [List.mem_append, List.mem_singleton]
      constructor
      · rintro (hx | ⟨d, hd | rfl, rfl⟩)
        · exact Or.inl (Or.inl hx)
        · exact Or.inl (Or.inr ⟨d, hd, rfl⟩)
        · exact Or.inr rfl
      · rintro ((hx | ⟨d, hd, rfl⟩) | rfl)
        · exact Or.inl hx
        · exact Or.inr ⟨d, Or.inl hd, rfl⟩
        · exact Or.inr ⟨c, Or.inr rfl, rfl⟩
    rw [h2] at h1
    split
    · rename_i he; subst he; simp [hp] at h1; exact h1
    · rename_i he; simp [he] at h1; exact h1
  upgradeNow {s slot r n x} requested h hr hx hw hu ho hs := by
    refine counted_of_ready ?_ (ordered_law.state.upgradeNow requested h.2.1 hr hx hw hu ho hs) (h.2.2.of_record hr)
    refine Tally.same (s := s.putRecord slot _) (h.1.put hr fun m => ?_) rfl rfl rfl rfl
    exact mapHolder_hasPart r n (upgraded (lifetime s.settings s.monitor.timeState requested) (s.epochSource + 1))
      (fun _ => rfl) m
  enqueueUpgrade {s slot r n x} q h hr hx hw hu hb ha := by
    refine counted_of_ready ?_ (ordered_law.state.enqueueUpgrade q h.2.1 hr hx hw hu hb ha) (h.2.2.of_record hr)
    refine h.1.put hr fun m => hasPart_ext ?_
    have hh : ∃ y ∈ r.holders, y.agent = n := holds_iff.1 (by simp [Record.holds, hx])
    rw [hasPart_iff, hasPart_iff]
    simp only [List.mem_cons]
    constructor
    · rintro (hy | ⟨d, rfl | hd, rfl⟩)
      · exact Or.inl hy
      · exact Or.inl hh
      · exact Or.inr ⟨d, hd, rfl⟩
    · rintro (hy | ⟨d, hd, rfl⟩)
      · exact Or.inl hy
      · exact Or.inr ⟨d, Or.inr hd, rfl⟩
  downgrade {s slot r} n h hr := counted_of_ready
    (Tally.grantCheck (h.1.put hr (mapHolder_hasPart r n downgraded fun _ => rfl)) slot)
    (ordered_law.state.downgrade n h.2.1 hr)
    ((grantCheck_tableOnly _ slot).2.1.trans (h.2.2.of_record hr))
  entries {s slot r} g h hr hg hm := by
    refine counted_of_ready (h.1.put hr fun m => ?_) (ordered_law.state.entries g h.2.1 hr hg hm) (h.2.2.of_record hr)
    exact holders_map_hasPart r g (fun x => (hg x).1) m
  renewAll {s} n mask life h hl := by
    refine ⟨?_, ordered_law.state.renewAll n mask life h.2.1 hl,
      h.2.2.same rfl (fun hx => by simp [hx]) rfl fun _ => rfl⟩
    refine h.1.move (canon_law.renewAll n mask life h.1.canon hl)
      (partCount_map (renewRecord n mask life) rfl fun p m => ?_) (fun m => session_same s m) fun _ => Or.inl rfl
    unfold renewRecord
    split
    · refine holders_map_hasPart p.2 (fun x => if renewable n x then renewed life x else x) (fun x => ?_) m
      split <;> rfl
    · rfl
  words v h hr hv := counted_of_ready (h.1.put hr fun _ => rfl) (ordered_law.state.words v h.2.1 hr hv) (h.2.2.of_record hr)
  mark b h hr hm := counted_of_ready (h.1.put hr fun _ => rfl) (ordered_law.state.mark b h.2.1 hr hm) (h.2.2.of_record hr)
  standby {s v n} mask d h ht hn hv hrec := counted_of_ready (h.1.enterStandby n mask d)
    (ordered_law.state.standby mask d h.2.1 ht hn hv.2.1 hrec) ((enterStandby_tableOnly s n mask d).2.1.trans ht)
  define {s slot key} h ht hs hk hf hl := by
    refine counted_of_ready ?_ (ordered_law.state.define h.2.1 ht hs hk hf hl) ht
    refine h.1.move (h.1.canon.putRecord (homeSlots_lt hk) _) (fun m => ?_) (fun m => session_same s m)
      fun _ => Or.inl rfl
    have := partCount_new hs (newRecord key true) m
    simpa [newRecord_hasPart] using this
  retire {s slot r} h hr := by
    have hf : ∀ (l : List Agent) (t : State), (∀ n ∈ l, (t.session n).state.joined = true) → Tally t →
        Tally (l.foldl (fun t n => t.postPlain slot n (retireNotice r n)) t) := by
      intro l
      induction l with
      | nil => exact fun _ _ ht => ht
      | cons n l ih =>
        exact fun t hj ht => ih _ (fun m hm => hj m (List.mem_cons_of_mem _ hm))
          (ht.post (h.1.canon.slot_lt hr) (hj n (by simp)) _)
    refine counted_of_ready (Tally.retire (hf _ _ (fun n hn => ?_) h.1) slot) (ordered_law.state.retire h.2.1 hr) ?_
    · exact h.1.joined hr (List.mem_filter.1 hn).2
    · refine ((retire_tableOnly _ slot).2.1.trans ?_).trans (h.2.2.of_record hr)
      have hp : ∀ (t : State) (n : Agent), TableOnly t (t.postPlain slot n (retireNotice r n)) :=
        fun t n => post_tableOnly t slot n _
      exact (TableOnly.foldl hp (agents.filter r.hasPart) s).2.1
  retireEmpty {s slot r} h hr he := counted_of_ready (h.1.retire slot) (ordered_law.state.retireEmpty h.2.1 hr he)
    ((retire_tableOnly s slot).2.1.trans (h.2.2.of_record hr))
  cleared _ hr hg hs hc _ := Counted.cleared hr hg hs hc
  sweep {s} h ht := by
    rcases h.2.2 with hx | ⟨a, b, c⟩
    · rw [ht] at hx; cases hx
    · have h1 : Tally s.sweep := h.1.same a.symm b.symm rfl rfl
      exact counted_of_ready h1 (ordered_law.state.sweep h.2.1 ht) rfl

end Sys2Proof.Machine
end

