-- ==== Sys2Proof/Laws/Epochs.lean ====
section
/-! SUPPORT. The epoch source never falls but at a full reset (R28, R30): the law of a lower bound on it. -/

namespace Sys2Proof.Machine

/-- The epoch source has reached `e`. -/
def Issued (e : Nat) (s : State) : Prop := e ≤ s.epochSource.toNat

theorem Issued.same {e : Nat} {s t : State} (h : Issued e s) (he : t.epochSource = s.epochSource) : Issued e t := by
  unfold Issued at *; rw [he]; exact h

theorem Issued.grantCheck {e : Nat} {s : State} (h : Issued e s) (slot : Nat) : Issued e (s.grantCheck slot) :=
  Nat.le_trans h (grantCheck_source_le s slot)

/-- A grant check after a change that leaves the epoch source. -/
theorem Issued.checked {e : Nat} {s t : State} (h : Issued e s) (he : t.epochSource = s.epochSource) (slot : Nat) :
    Issued e (t.grantCheck slot) := (h.same he).grantCheck slot

theorem Issued.retire {e : Nat} {s : State} (h : Issued e s) (slot : Nat) : Issued e (s.retire slot) := by
  cases hr : s.record slot with
  | none => simpa [State.retire, hr] using h
  | some r => exact h.same (retire_fields hr).2.2.2

theorem Issued.retireIfEmpty {e : Nat} {s : State} (h : Issued e s) (slot : Nat) : Issued e (s.retireIfEmpty slot) := by
  unfold State.retireIfEmpty
  split
  · exact h
  · split
    · exact h.retire slot
    · exact h

theorem Issued.leaveRecord {e : Nat} {s : State} (h : Issued e s) (slot : Nat) (n : Agent) (k : Option NoticeKind) :
    Issued e (s.leaveRecord slot n k) := by
  unfold State.leaveRecord
  split
  · exact h
  · refine Issued.retireIfEmpty (Issued.grantCheck ?_ slot) slot
    cases k <;> exact h.same rfl

theorem Issued.foldl {e : Nat} {β : Type} {f : State → β → State} (hf : ∀ s x, Issued e s → Issued e (f s x))
    (l : List β) {s : State} (h : Issued e s) : Issued e (l.foldl f s) := by
  induction l generalizing s with
  | nil => exact h
  | cons x l ih => exact ih (hf s x h)

theorem Issued.enterStandbyAt {e : Nat} {n : Agent} {mask : Byte} {p : State × EntryCount} (h : Issued e p.1)
    (slot : Nat) : Issued e (State.enterStandbyAt n mask p slot).1 := by
  unfold State.enterStandbyAt
  simp only
  split
  · exact h
  · have h1 : ∀ (x : Record) (b : Bool), Issued e (if b then (p.1.putRecord slot x).losePart n
        else p.1.putRecord slot x) := by
      intro x b; cases b <;> exact h.same rfl
    have h2 : ∀ (t : State) (b : Bool), Issued e t →
        Issued e (if b then (t.grantCheck slot).retireIfEmpty slot else t) := by
      intro t b ht; cases b
      · exact ht
      · exact (ht.grantCheck slot).retireIfEmpty slot
    have h3 : ∀ (t : State) (b : Bool), Issued e t →
        Issued e (if b then
          match t.record slot with
          | some r3 => t.putRecord slot (r3.mapHolder n keepHolder)
          | none => t
          else t) := by
      intro t b ht; cases b
      · exact ht
      · simp only [if_true]
        split
        · exact ht.same rfl
        · exact ht
    exact h3 _ _ (h2 _ _ (h1 _ _))

theorem Issued.enterStandby {e : Nat} {s : State} (h : Issued e s) (n : Agent) (mask : Byte) (d : Nat) :
    Issued e (s.enterStandby n mask d).1 := by
  have hf : ∀ (l : List Nat) (p : State × EntryCount), Issued e p.1 →
      Issued e (l.foldl (State.enterStandbyAt n mask) p).1 := by
    intro l
    induction l with
    | nil => exact fun _ hp => hp
    | cons i l ih => exact fun p hp => ih _ (Issued.enterStandbyAt hp i)
  have h1 := hf (s.partSlots n) (s, { kept := 0, left := 0 }) h
  exact h1.same rfl

theorem Issued.grantNow {e : Nat} {s : State} (h : Issued e s) (slot : Nat) (r : Record) (n : Agent) (m : Mode)
    (requested : Nat) (hw : withheld s.monitor.timeState s.epochSource m.takesEpoch = false) :
    Issued e (s.grantNow slot r n m requested).1 := by
  cases m with
  | shared => exact h.same rfl
  | exclusive =>
    show e ≤ (s.epochSource + 1).toNat
    rw [succ_toNat (not_exhausted hw)]
    exact Nat.le_trans h (Nat.le_succ _)

/-- A lower bound on the epoch source is kept by every event. -/
theorem issued_law (e : Nat) : StateLaw (Issued e) where
  plain _ _ he _ _ _ _ _ h := h.same he
  setting h _ _ := h.same rfl
  leave k h _ _ _ := h.leaveRecord _ _ k
  expireUpgrade {s slot r n} h hr _ := by
    unfold State.expireUpgrade
    simp only [hr]
    exact h.checked (t := (s.putRecord slot (r.dropClaim n)).postPlain slot n .waitExpired) rfl slot
  changeTime {s} m h := by
    unfold State.changeTime
    simp only
    split
    · exact Issued.foldl (fun _ x ht => ht.grantCheck x) _ (h.same rfl)
    · exact h.same rfl
  tick h := h.same rfl
  resume h _ := h.same rfl
  window _ _ h _ := h.same rfl
  ends {s n} number st h _ _ _ := by
    have h1 : Issued e (s.removeAgent n) := Issued.foldl (fun _ x ht => ht.leaveRecord x n none) _ h
    exact h1.same rfl
  starts _ h _ _ := h.same rfl
  notices _ h := h.same rfl
  create {s n slot key} m requested h _ _ _ _ hw _ _ _ _ :=
    Issued.grantNow (s := s.addCreation n) (h.same rfl) slot _ n m requested hw
  grantNow m requested h _ _ _ _ _ _ hw _ := h.grantNow _ _ _ m requested hw
  enqueue _ h _ _ _ _ _ _ _ := h.same rfl
  upgradeNow {s slot r n x} requested h _ _ _ _ _ hs := by
    show e ≤ (s.epochSource + 1).toNat
    rw [succ_toNat (not_exhausted hs)]
    exact Nat.le_trans h (Nat.le_succ _)
  enqueueUpgrade _ h _ _ _ _ _ _ := h.same rfl
  downgrade {s slot r} n h _ := h.checked (t := s.putRecord slot (r.mapHolder n downgraded)) rfl slot
  entries _ h _ _ _ := h.same rfl
  renewAll _ _ _ h _ := h.same rfl
  words _ h _ _ := h.same rfl
  mark _ h _ _ := h.same rfl
  standby mask d h _ _ _ _ := h.enterStandby _ mask d
  define h _ _ _ _ _ := h.same rfl
  retire {s slot r} h _ := by
    have hf : ∀ (t : State) (n : Agent), Issued e t → Issued e (t.postPlain slot n (retireNotice r n)) :=
      fun _ _ ht => ht.same rfl
    exact Issued.retire (Issued.foldl hf (agents.filter r.hasPart) h) slot
  retireEmpty h _ _ := h.retire _
  cleared h _ _ _ _ he := h.same he
  sweep h _ := h.same rfl

end Sys2Proof.Machine
end

