-- ==== Sys2Proof/Laws/Rows.lean ====
section
/-! SUPPORT. Where the entries of a table come from: the relation that every operation of the table keeps but the
creation of records, the entry of claims and the changes of standby, and what it carries over. -/

namespace Sys2Proof.Machine

/-- `p` is a later form of record `q`: the same key, no agent newly waits, and a holder entry is an old one, its
status unchanged, or a RUNNING one of an agent that waited. -/
def RowRec (q p : Record) : Prop :=
  p.key = q.key ∧ (∀ n, p.waits n = true → q.waits n = true) ∧
  ∀ h ∈ p.holders,
    (∃ g ∈ q.holders, g.agent = h.agent ∧ g.status = h.status ∧ (h.remaining = g.remaining ∨ 1 ≤ h.remaining)) ∨
    (h.status = .running ∧ 1 ≤ h.remaining ∧ q.waits h.agent = true)

theorem RowRec.refl (r : Record) : RowRec r r :=
  ⟨rfl, fun _ h => h, fun h hh => Or.inl ⟨h, hh, rfl, rfl, Or.inl rfl⟩⟩

theorem RowRec.trans {a b c : Record} (h : RowRec a b) (k : RowRec b c) : RowRec a c := by
  obtain ⟨h1, h2, h3⟩ := h
  obtain ⟨k1, k2, k3⟩ := k
  refine ⟨k1.trans h1, fun n hn => h2 n (k2 n hn), fun x hx => ?_⟩
  rcases k3 x hx with ⟨y, hy, e1, e2, e3⟩ | ⟨e1, e2, e3⟩
  · rcases h3 y hy with ⟨z, hz, f1, f2, f3⟩ | ⟨f1, f2, f3⟩
    · refine Or.inl ⟨z, hz, f1.trans e1, f2.trans e2, ?_⟩
      rcases e3 with e3 | e3
      · rcases f3 with f3 | f3
        · exact Or.inl (e3.trans f3)
        · exact Or.inr (by omega)
      · exact Or.inr e3
    · refine Or.inr ⟨e2.symm.trans f1, ?_, e1 ▸ f3⟩
      rcases e3 with e3 | e3
      · omega
      · exact e3
  · exact Or.inr ⟨e1, e2, h2 _ e3⟩

theorem RowRec.filter (r : Record) (a : Holder → Bool) (b : Claim → Bool) :
    RowRec r { r with holders := r.holders.filter a, queue := r.queue.filter b } := by
  refine ⟨rfl, fun n hn => ?_, fun h hh => Or.inl ⟨h, (List.mem_filter.1 hh).1, rfl, rfl, Or.inl rfl⟩⟩
  rw [waits_iff] at hn ⊢
  obtain ⟨c, hc, e⟩ := hn
  exact ⟨c, (List.mem_filter.1 hc).1, e⟩

theorem RowRec.dropAgent (r : Record) (n : Agent) : RowRec r (r.dropAgent n) := RowRec.filter r _ _

theorem RowRec.dropClaim (r : Record) (n : Agent) : RowRec r (r.dropClaim n) := by
  have h := RowRec.filter r (fun _ => true) fun c => c.agent != n
  rwa [List.filter_true] at h

theorem RowRec.map (r : Record) (g : Holder → Holder) (hg : ∀ h, (g h).agent = h.agent ∧ (g h).status = h.status)
    (hm : ∀ h, (g h).remaining = h.remaining ∨ 1 ≤ (g h).remaining) :
    RowRec r { r with holders := r.holders.map g } := by
  refine ⟨rfl, fun _ hn => hn, fun h hh => ?_⟩
  obtain ⟨x, hx, rfl⟩ := List.mem_map.1 hh
  exact Or.inl ⟨x, hx, (hg x).1.symm, (hg x).2.symm, hm x⟩

theorem RowRec.mapHolder (r : Record) (n : Agent) (f : Holder → Holder)
    (hf : ∀ h, (f h).agent = h.agent ∧ (f h).status = h.status)
    (hm : ∀ h, (f h).remaining = h.remaining ∨ 1 ≤ (f h).remaining) : RowRec r (r.mapHolder n f) := by
  refine RowRec.map r (fun h => if h.agent == n then f h else h) (fun h => ?_) fun h => ?_
  · split
    · exact hf h
    · exact ⟨rfl, rfl⟩
  · split
    · exact hm h
    · exact Or.inl rfl

/-- A record whose key, holders and queue stand. -/
theorem RowRec.of_eq {r x : Record} (hk : x.key = r.key) (hh : x.holders = r.holders) (hq : x.queue = r.queue) :
    RowRec r x := by
  refine ⟨hk, fun n hn => ?_, fun h hm => Or.inl ⟨h, hh ▸ hm, rfl, rfl, Or.inl rfl⟩⟩
  rw [waits_iff] at hn ⊢
  rwa [hq] at hn

theorem RowRec.grantFirst {env : GrantEnv} {e : Epoch} {r : Record} {c : Claim} {rest : List Claim}
    (hq : r.queue = c :: rest) : RowRec r (grantFirst env e r c rest).1 := by
  have hw : ∀ n, (∃ d ∈ rest, d.agent = n) → r.waits n = true := by
    rintro n ⟨d, hd, e⟩
    rw [waits_iff, hq]
    exact ⟨d, List.mem_cons_of_mem _ hd, e⟩
  have hc : r.waits c.agent = true := by rw [waits_iff, hq]; exact ⟨c, by simp, rfl⟩
  have hl := lifetime_pos env.settings env.timeState c.requested
  have hins : ∀ (m : Mode) (e : Option Epoch), ∀ h ∈ insertHolder (newHolder c.agent m
      (lifetime env.settings env.timeState c.requested) e) r.holders,
      (∃ g ∈ r.holders, g.agent = h.agent ∧ g.status = h.status ∧ (h.remaining = g.remaining ∨ 1 ≤ h.remaining)) ∨
      (h.status = .running ∧ 1 ≤ h.remaining ∧ r.waits h.agent = true) := by
    intro m e h hh
    rcases mem_insertHolder.1 hh with rfl | hh
    · exact Or.inr ⟨rfl, hl, hc⟩
    · exact Or.inl ⟨h, hh, rfl, rfl, Or.inl rfl⟩
  unfold Machine.grantFirst
  cases hk : c.kind with
  | shared => exact ⟨rfl, fun n hn => hw n (waits_iff.1 hn), hins _ _⟩
  | exclusive => exact ⟨rfl, fun n hn => hw n (waits_iff.1 hn), hins _ _⟩
  | upgrade =>
    refine ⟨rfl, fun n hn => hw n (waits_iff.1 hn), ?_⟩
    exact (RowRec.mapHolder r c.agent (upgraded (lifetime env.settings env.timeState c.requested) (e + 1))
      (fun _ => ⟨rfl, rfl⟩) fun _ => Or.inr hl).2.2

theorem RowRec.grantRun (env : GrantEnv) (fuel : Nat) (e : Epoch) (r : Record) :
    RowRec r (grantRun env fuel e r).1 :=
  grantRun_induction env (fun _ x => RowRec r x) (fun _ _ _ _ hq _ h => h.trans (RowRec.grantFirst hq)) fuel e r
    (RowRec.refl r)

/-! ### The table -/

/-- Every record of `t` is a later form of a record of `s` in the same slot. -/
def Rows (s t : State) : Prop := ∀ p ∈ t.records, ∃ q ∈ s.records, q.1 = p.1 ∧ RowRec q.2 p.2

theorem Rows.same {s t : State} (h : t.records = s.records) : Rows s t :=
  fun p hp => ⟨p, h ▸ hp, rfl, RowRec.refl _⟩

theorem Rows.refl (s : State) : Rows s s := Rows.same rfl

theorem Rows.trans {s t u : State} (h : Rows s t) (k : Rows t u) : Rows s u := by
  intro p hp
  obtain ⟨q, hq, e, r⟩ := k p hp
  obtain ⟨o, ho, e', r'⟩ := h q hq
  exact ⟨o, ho, e'.trans e, r'.trans r⟩

theorem Rows.subset {s t : State} (h : ∀ p ∈ t.records, p ∈ s.records) : Rows s t :=
  fun p hp => ⟨p, h p hp, rfl, RowRec.refl _⟩

theorem Rows.put {s t : State} {slot : Nat} {r x : Record} (hr : s.record slot = some r) (hx : RowRec r x)
    (ht : t.records = Sparse.put slot x s.records) : Rows s t := by
  intro p hp
  rw [ht] at hp
  rcases Sparse.mem_put hp with rfl | hp
  · exact ⟨_, Sparse.mem_of_find hr, rfl, hx⟩
  · exact ⟨p, hp, rfl, RowRec.refl _⟩

theorem Rows.map {s t : State} (f : Nat × Record → Nat × Record) (hf : ∀ p, (f p).1 = p.1 ∧ RowRec p.2 (f p).2)
    (ht : t.records = s.records.map f) : Rows s t := by
  intro p hp
  rw [ht] at hp
  obtain ⟨q, hq, rfl⟩ := List.mem_map.1 hp
  exact ⟨q, hq, (hf q).1.symm, (hf q).2⟩

theorem Rows.foldl {β : Type} {f : State → β → State} (hf : ∀ s x, Rows s (f s x)) (l : List β) (s : State) :
    Rows s (l.foldl f s) := foldl_keeps Rows Rows.refl (fun _ _ _ => Rows.trans) f hf l s

theorem Rows.grantCheck (s : State) (slot : Nat) : Rows s (s.grantCheck slot) := by
  cases hr : s.record slot with
  | none => rw [grantCheck_none hr]; exact Rows.refl s
  | some r => exact Rows.put hr (RowRec.grantRun _ _ _ _) (grantCheck_fields hr).1

theorem Rows.grantAll (s : State) : Rows s s.grantAll := Rows.foldl Rows.grantCheck _ s

theorem Rows.retire (s : State) (slot : Nat) : Rows s (s.retire slot) := by
  cases hr : s.record slot with
  | none => exact Rows.same (by simp [State.retire, hr])
  | some r => exact Rows.subset fun p hp => Sparse.mem_drop ((retire_fields hr).1 ▸ hp)

theorem Rows.retireIfEmpty (s : State) (slot : Nat) : Rows s (s.retireIfEmpty slot) := by
  unfold State.retireIfEmpty
  split
  · exact Rows.refl s
  · split
    · exact Rows.retire s slot
    · exact Rows.refl s

theorem Rows.leaveRecord (s : State) (slot : Nat) (n : Agent) (k : Option NoticeKind) :
    Rows s (s.leaveRecord slot n k) := by
  unfold State.leaveRecord
  split
  · exact Rows.refl s
  · rename_i r hr
    refine Rows.trans ?_ ((Rows.grantCheck _ slot).trans (Rows.retireIfEmpty _ slot))
    cases k <;> exact Rows.put hr (RowRec.dropAgent r n) rfl

theorem Rows.removeAgent (s : State) (n : Agent) : Rows s (s.removeAgent n) :=
  Rows.foldl (fun t i => Rows.leaveRecord t i n none) _ s

theorem Rows.expireUpgrade (s : State) (slot : Nat) (n : Agent) : Rows s (s.expireUpgrade slot n) := by
  unfold State.expireUpgrade
  split
  · exact Rows.refl s
  · rename_i r hr
    refine Rows.trans ?_ (Rows.grantCheck _ slot)
    exact Rows.put hr (RowRec.dropClaim r n) rfl

theorem Rows.takePart (s : State) (slot : Nat) (p : DuePart) : Rows s (s.takePart slot p) := by
  cases p with
  | lease n => exact Rows.leaveRecord s slot n _
  | wait n => exact Rows.leaveRecord s slot n _
  | upgradeWait n => exact Rows.expireUpgrade s slot n

theorem Rows.settleRecord (slot fuel : Nat) (s : State) : Rows s (State.settleRecord slot fuel s) := by
  induction fuel generalizing s with
  | zero => exact Rows.refl s
  | succ k ih =>
    unfold State.settleRecord
    split
    · exact Rows.refl s
    · exact (Rows.takePart _ _ _).trans (ih _)
    · refine Rows.trans ?_ ((Rows.takePart _ _ _).trans (ih _))
      exact Rows.same rfl

theorem Rows.settleSlots (s : State) (l : List Nat) : Rows s (s.settleSlots l) :=
  Rows.foldl (fun _ _ => Rows.settleRecord _ _ _) l s

theorem Rows.changeTime (s : State) (m : Monitor) : Rows s (s.changeTime m) := by
  unfold State.changeTime
  simp only
  split
  · exact Rows.trans (Rows.same rfl) (Rows.grantAll _)
  · exact Rows.same rfl

theorem Rows.settleMonitor (s : State) : Rows s s.settleMonitor := by
  unfold State.settleMonitor
  split
  · exact Rows.changeTime s _
  · exact Rows.refl s

theorem Rows.settleCore (s : State) : Rows s s.settleCore := by
  have h0 : Rows s ({ s with choices := s.choices + 1 } : State) := Rows.same rfl
  unfold State.settleCore
  simp only
  split
  · split
    · exact h0.trans ((Rows.settleMonitor _).trans (Rows.settleSlots _ _))
    · exact h0.trans ((Rows.settleSlots _ _).trans (Rows.settleMonitor _))
  · exact (Rows.settleSlots _ _).trans (Rows.settleMonitor _)

theorem Rows.retireRule (s : State) (slot : Nat) (r : Record) :
    Rows s (((agents.filter r.hasPart).foldl (fun t n => t.postPlain slot n (retireNotice r n)) s).retire slot) := by
  have h : ∀ (l : List Agent) (t : State), Rows t (l.foldl (fun t n => t.postPlain slot n (retireNotice r n)) t) := by
    intro l
    induction l with
    | nil => exact Rows.refl
    | cons n l ih => exact fun t => Rows.trans (Rows.same rfl) (ih _)
  exact (h _ s).trans (Rows.retire _ slot)

/-! ### What the relation carries over -/

/-- Every KEPT lease has at least one tick remaining. -/
def KeptAlive (s : State) : Prop := ∀ p ∈ s.records, ∀ h ∈ p.2.holders, h.status = .kept → 1 ≤ h.remaining

theorem keptAlive_iff (s : State) : s.keptAlive = true ↔ KeptAlive s := by
  simp only [State.keptAlive, State.everyRecord, List.all_eq_true, Bool.or_eq_true, bne_iff_ne, ne_eq,
    decide_eq_true_eq, KeptAlive]
  exact forall₄_congr fun p _ h _ => by rw [imp_iff_not_or]

theorem KeptAlive.rows {s t : State} (h : KeptAlive s) (hr : Rows s t) : KeptAlive t := by
  intro p hp x hx hk
  obtain ⟨q, hq, _, _, _, hh⟩ := hr p hp
  rcases hh x hx with ⟨g, hg, _, e, f⟩ | ⟨e, _, _⟩
  · have := h q hq g hg (e.trans hk)
    omega
  · rw [hk] at e; cases e

/-- Every lease has at least one tick remaining. -/
def Alive (s : State) : Prop := ∀ p ∈ s.records, ∀ h ∈ p.2.holders, 1 ≤ h.remaining

theorem Alive.rows {s t : State} (h : Alive s) (hr : Rows s t) : Alive t := by
  intro p hp x hx
  obtain ⟨q, hq, _, _, _, hh⟩ := hr p hp
  rcases hh x hx with ⟨g, hg, _, _, f⟩ | ⟨_, f, _⟩
  · have := h q hq g hg
    omega
  · exact f

theorem Alive.kept {s : State} (h : Alive s) : KeptAlive s := fun p hp x hx _ => h p hp x hx

/-- R4. -/
def Placed (s : State) : Prop :=
  (∀ p ∈ s.records, p.1 ∈ homeSlots p.2.key) ∧ ∀ p ∈ s.records, ∀ q ∈ s.records, p.2.key = q.2.key → p.1 = q.1

theorem Placed.rows {s t : State} (h : Placed s) (hr : Rows s t) : Placed t := by
  refine ⟨fun p hp => ?_, fun p hp q hq e => ?_⟩
  · obtain ⟨o, ho, e, k, _⟩ := hr p hp
    rw [k, ← e]
    exact h.1 o ho
  · obtain ⟨a, ha, ea, ka, _⟩ := hr p hp
    obtain ⟨b, hb, eb, kb, _⟩ := hr q hq
    rw [← ea, ← eb]
    exact h.2 a ha b hb (ka.symm.trans (e.trans kb))

end Sys2Proof.Machine
end

