-- ==== Sys2Proof/Laws/Settling.lean ====
section
/-! SUPPORT. Settling takes the whole tick: after it no part is due, whatever was due before and in whatever order the
parts were taken (R39, R66, R134). -/

namespace Sys2Proof.Machine

/-! ### What is due in one record -/

/-- How many expiries are due in a record. -/
def Record.dueCount (r : Record) : Nat := r.holders.countP Holder.due + r.queue.countP Claim.due

theorem dueParts_length (r : Record) : r.dueParts.length = r.dueCount := by
  simp only [Record.dueParts, List.length_append, List.length_map, Record.dueCount, List.countP_eq_length_filter]

theorem dueParts_nil {r : Record} : r.dueParts = [] ↔ r.dueCount = 0 := by
  rw [← dueParts_length, List.length_eq_zero_iff]

theorem dueParts_none {s : State} {slot : Nat} (h : s.record slot = none) : s.dueParts slot = [] := by
  simp [State.dueParts, h]

theorem dueParts_some {s : State} {slot : Nat} {r : Record} (h : s.record slot = some r) :
    s.dueParts slot = r.dueParts := by simp [State.dueParts, h]

theorem countP_filter_le {α : Type} (p q : α → Bool) (l : List α) : (l.filter q).countP p ≤ l.countP p :=
  List.Sublist.countP_le List.filter_sublist

/-- Something that is counted and filtered out lowers the count. -/
theorem countP_filter_lt {α : Type} {p q : α → Bool} {l : List α} {x : α} (hx : x ∈ l) (hp : p x = true)
    (hq : q x = false) : (l.filter q).countP p < l.countP p := by
  induction l with
  | nil => cases hx
  | cons a l ih =>
    have hle := countP_filter_le p q l
    rcases List.mem_cons.1 hx with rfl | hx
    · simp only [List.filter_cons, hq, List.countP_cons, hp, if_true, Bool.false_eq_true, if_false]
      omega
    · have := ih hx
      rw [List.filter_cons, List.countP_cons]
      split
      · rw [List.countP_cons]; omega
      · omega

theorem not_due_of_pos {h : Holder} (hr : 1 ≤ h.remaining) : h.due = false := by
  simp only [Holder.due, Bool.and_eq_false_iff, beq_eq_false_iff_ne]
  right; omega

theorem insertHolder_countP (p : Holder → Bool) (h : Holder) (l : List Holder) :
    (insertHolder h l).countP p = l.countP p + (p h).toNat := by
  induction l with
  | nil => simp only [insertHolder, List.countP_cons, List.countP_nil]; cases p h <;> rfl
  | cons g l ih =>
    simp only [insertHolder]
    split
    · simp only [List.countP_cons]; cases p h <;> rfl
    · simp only [List.countP_cons, ih]; omega

theorem countP_map_le {p : Holder → Bool} {g : Holder → Holder} (hg : ∀ h, p (g h) = true → p h = true)
    (l : List Holder) : (l.map g).countP p ≤ l.countP p := by
  rw [List.countP_map]
  exact List.countP_mono_left fun x _ hx => hg x hx

theorem grantFirst_dueCount (env : GrantEnv) (e : Epoch) {r : Record} {c : Claim} {rest : List Claim}
    (hq : r.queue = c :: rest) : (grantFirst env e r c rest).1.dueCount ≤ r.dueCount := by
  have hl := lifetime_pos env.settings env.timeState c.requested
  have hn : ∀ (m : Mode) (e : Option Epoch),
      (newHolder c.agent m (lifetime env.settings env.timeState c.requested) e).due = false := fun m e => not_due_of_pos hl
  have hr : rest.countP Claim.due ≤ r.queue.countP Claim.due := by
    rw [hq, List.countP_cons]; omega
  unfold grantFirst Record.dueCount
  cases c.kind with
  | shared => simp only [insertHolder_countP, hn, Bool.toNat_false]; omega
  | exclusive => simp only [insertHolder_countP, hn, Bool.toNat_false]; omega
  | upgrade =>
    simp only [Record.mapHolder]
    have : (r.holders.map fun h => if h.agent == c.agent then
        upgraded (lifetime env.settings env.timeState c.requested) (e + 1) h else h).countP Holder.due
        ≤ r.holders.countP Holder.due := by
      refine countP_map_le (fun h hd => ?_) _
      split at hd
      · have hf : (upgraded (lifetime env.settings env.timeState c.requested) (e + 1) h).due = false :=
          not_due_of_pos hl
        rw [hf] at hd; cases hd
      · exact hd
    omega

theorem grantRun_dueCount (env : GrantEnv) (fuel : Nat) (e : Epoch) (r : Record) :
    (grantRun env fuel e r).1.dueCount ≤ r.dueCount :=
  grantRun_induction env (fun _ x => x.dueCount ≤ r.dueCount)
    (fun _ _ _ _ hq _ h => Nat.le_trans (grantFirst_dueCount env _ hq) h) fuel e r (Nat.le_refl _)

/-! ### What is due in a slot -/

theorem grantCheck_due (s : State) (slot : Nat) :
    ((s.grantCheck slot).dueParts slot).length ≤ (s.dueParts slot).length := by
  cases hr : s.record slot with
  | none => rw [grantCheck_none hr]
  | some r =>
    rw [dueParts_some (grantCheck_record_same hr), dueParts_some hr, dueParts_length, dueParts_length]
    exact grantRun_dueCount _ _ _ _

theorem retireIfEmpty_due {s : State} (hc : Canon s) (slot : Nat) :
    ((s.retireIfEmpty slot).dueParts slot).length ≤ (s.dueParts slot).length := by
  cases hr : (s.retireIfEmpty slot).record slot with
  | none => rw [dueParts_none hr]; exact Nat.zero_le _
  | some r => rw [dueParts_some hr, dueParts_some (retireIfEmpty_record hc hr)]

/-- The taking of a part that is due leaves fewer due in its slot. -/
theorem takePart_due {s : State} (hc : Canon s) {slot : Nat} {p : DuePart} (hp : p ∈ s.dueParts slot) :
    ((s.takePart slot p).dueParts slot).length < (s.dueParts slot).length := by
  obtain ⟨r, hr⟩ := due_record hp
  have hp' := (due_of_record hr).1 hp
  have hl := hc.slot_lt hr
  have leave : ∀ (n : Agent) (k : NoticeKind), (r.dropAgent n).dueCount < r.dueCount →
      ((s.leaveRecord slot n (some k)).dueParts slot).length < (s.dueParts slot).length := by
    intro n k hlt
    unfold State.leaveRecord
    simp only [hr]
    have h1 : Canon (((s.putRecord slot (r.dropAgent n)).postPlain slot n k).losePart n) :=
      ((hc.putRecord hl _).post hl n _).setSession n _
    have h2 : (((s.putRecord slot (r.dropAgent n)).postPlain slot n k).losePart n).record slot = some (r.dropAgent n) :=
      putRecord_record_same _ _ _
    have h3 := grantCheck_due (((s.putRecord slot (r.dropAgent n)).postPlain slot n k).losePart n) slot
    have h4 := retireIfEmpty_due (h1.grantCheck slot) slot
    rw [dueParts_some h2, dueParts_length] at h3
    rw [dueParts_some hr, dueParts_length]
    omega
  have hh := countP_filter_le Holder.due (fun h : Holder => h.agent != (match p with
    | .lease n => n | .wait n => n | .upgradeWait n => n)) r.holders
  cases p with
  | lease n =>
    refine leave n .expired ?_
    obtain ⟨x, hx, ha, hs, h0⟩ := lease_mem_dueParts.1 hp'
    have h1 := countP_filter_lt (q := fun h : Holder => h.agent != n) hx
      (show Holder.due x = true by simp [Holder.due, hs, h0]) (by simp [ha])
    have h2 := countP_filter_le Claim.due (fun c : Claim => c.agent != n) r.queue
    simp only [Record.dueCount, Record.dropAgent, Record.dropHolder, Record.dropClaim]
    omega
  | wait n =>
    refine leave n .waitExpired ?_
    obtain ⟨c, hcq, ha, _, h0⟩ := wait_mem_dueParts.1 hp'
    have h1 := countP_filter_lt (q := fun c : Claim => c.agent != n) hcq
      (show Claim.due c = true by simp [Claim.due, h0]) (by simp [ha])
    simp only [Record.dueCount, Record.dropAgent, Record.dropHolder, Record.dropClaim]
    simp only at hh
    omega
  | upgradeWait n =>
    obtain ⟨c, hcq, ha, _, h0⟩ := upgrade_mem_dueParts.1 hp'
    have h1 := countP_filter_lt (q := fun c : Claim => c.agent != n) hcq
      (show Claim.due c = true by simp [Claim.due, h0]) (by simp [ha])
    simp only [State.takePart, State.expireUpgrade, hr]
    have h2 : ((s.putRecord slot (r.dropClaim n)).postPlain slot n .waitExpired).record slot = some (r.dropClaim n) :=
      putRecord_record_same _ _ _
    have h3 := grantCheck_due ((s.putRecord slot (r.dropClaim n)).postPlain slot n .waitExpired) slot
    rw [dueParts_some h2, dueParts_length] at h3
    rw [dueParts_some hr, dueParts_length]
    simp only [Record.dueCount, Record.dropClaim] at h3 ⊢
    omega

theorem expireUpgrade_record_ne (s : State) {slot i : Nat} (h : i ≠ slot) (n : Agent) :
    (s.expireUpgrade slot n).record i = s.record i := by
  unfold State.expireUpgrade
  split
  · rfl
  · rw [grantCheck_record_ne _ h]
    exact putRecord_record_ne s h _

theorem takePart_record_ne (s : State) {slot i : Nat} (h : i ≠ slot) (p : DuePart) :
    (s.takePart slot p).record i = s.record i := by
  cases p with
  | lease n => exact leaveRecord_record_ne s h n _
  | wait n => exact leaveRecord_record_ne s h n _
  | upgradeWait n => exact expireUpgrade_record_ne s h n

theorem settleRecord_record_ne (slot fuel : Nat) (s : State) {i : Nat} (h : i ≠ slot) :
    (State.settleRecord slot fuel s).record i = s.record i := by
  induction fuel generalizing s with
  | zero => rfl
  | succ k ih =>
    unfold State.settleRecord
    split
    · rfl
    · rw [ih, takePart_record_ne _ h]
    · rw [ih, takePart_record_ne _ h]; rfl

theorem dueParts_congr {s t : State} {i : Nat} (h : t.record i = s.record i) : t.dueParts i = s.dueParts i := by
  simp only [State.dueParts, h]

/-- With fuel for every expiry due in a slot, none is left. -/
theorem settleRecord_none (slot fuel : Nat) {s : State} (hc : Canon s) (hf : (s.dueParts slot).length ≤ fuel) :
    (State.settleRecord slot fuel s).dueParts slot = [] := by
  induction fuel generalizing s with
  | zero => exact List.length_eq_zero_iff.1 (Nat.le_zero.1 hf)
  | succ k ih =>
    unfold State.settleRecord
    split
    · assumption
    · rename_i p hp
      have hm : p ∈ s.dueParts slot := by rw [hp]; simp
      have := takePart_due hc hm
      exact ih (canon_law.takePart hc hm) (by omega)
    · rename_i p q rest hp
      have hc1 : Canon ({ s with choices := s.choices + 1 } : State) := hc.same rfl rfl rfl
      have hm : (p :: q :: rest).getD (Config.expiryOrder s.choices % (rest.length + 2)) p ∈
          ({ s with choices := s.choices + 1 } : State).dueParts slot := by
        show _ ∈ s.dueParts slot
        rw [hp]
        have hl : Config.expiryOrder s.choices % (rest.length + 2) < (p :: q :: rest).length := by
          simp only [List.length_cons]; exact Nat.mod_lt _ (by omega)
        rw [List.getD_eq_getElem _ _ hl]
        exact List.getElem_mem hl
      have h1 := takePart_due hc1 hm
      have h2 : (({ s with choices := s.choices + 1 } : State).dueParts slot).length = (s.dueParts slot).length := rfl
      exact ih (canon_law.takePart hc1 hm) (by omega)

/-- Settling slots leaves nothing due in them, and every other slot's record as it was. -/
theorem settleSlots_spec {s : State} (hc : Canon s) (l : List Nat) :
    (∀ i ∈ l, (s.settleSlots l).dueParts i = []) ∧
    (∀ i, s.dueParts i = [] → (s.settleSlots l).dueParts i = []) ∧
    ∀ i, i ∉ l → (s.settleSlots l).record i = s.record i := by
  induction l generalizing s with
  | nil => exact ⟨by simp, fun _ h => h, fun _ _ => rfl⟩
  | cons a l ih =>
    have hc1 : Canon (State.settleRecord a (s.dueParts a).length s) := canon_law.settleRecord _ _ hc
    obtain ⟨h1, h2, h3⟩ := ih hc1
    have hs : s.settleSlots (a :: l) = (State.settleRecord a (s.dueParts a).length s).settleSlots l := rfl
    have ha := settleRecord_none a (s.dueParts a).length hc (Nat.le_refl _)
    rw [hs]
    refine ⟨fun i hi => ?_, fun i hi => ?_, fun i hi => ?_⟩
    · rcases List.mem_cons.1 hi with rfl | hi
      · exact h2 _ ha
      · exact h1 i hi
    · by_cases he : i = a
      · subst he; exact h2 _ ha
      · exact h2 i ((dueParts_congr (settleRecord_record_ne a _ s he)).trans hi)
    · simp only [List.mem_cons, not_or] at hi
      rw [h3 i hi.2, settleRecord_record_ne a _ s hi.1]

theorem mem_dueSlots {s : State} (hc : Canon s) {slot : Nat} : slot ∈ s.dueSlots ↔ s.dueParts slot ≠ [] := by
  simp only [State.dueSlots, Sparse.keys, List.mem_map, List.mem_filter, Bool.not_eq_true', List.isEmpty_eq_false_iff]
  constructor
  · rintro ⟨p, ⟨hp, hd⟩, rfl⟩
    rw [dueParts_some ((Sparse.mem_iff_find hc.records).1 hp)]
    exact hd
  · intro hd
    cases hr : s.record slot with
    | none => exact absurd (dueParts_none hr) hd
    | some r =>
      rw [dueParts_some hr] at hd
      exact ⟨(slot, r), ⟨Sparse.mem_of_find hr, hd⟩, rfl⟩

theorem dueSlots_nil {s : State} (hc : Canon s) : s.dueSlots = [] ↔ ∀ i, s.dueParts i = [] := by
  rw [List.eq_nil_iff_forall_not_mem]
  exact forall_congr' fun i => by rw [mem_dueSlots hc, not_not]

theorem settleTable_none {s : State} (hc : Canon s) : s.settleTable.dueSlots = [] := by
  refine (dueSlots_nil (canon_law.settleSlots hc s.dueSlots)).2 fun i => ?_
  obtain ⟨h1, h2, _⟩ := settleSlots_spec hc s.dueSlots
  by_cases hi : i ∈ s.dueSlots
  · exact h1 i hi
  · exact h2 i (not_not.1 fun hn => hi ((mem_dueSlots hc).2 hn))

/-- After the slots below one are settled, the lowest slot with an expiry due is not below it. -/
theorem settleBelow_spec {s : State} (hc : Canon s) (slot : Nat) :
    (∀ i ∈ (s.settleBelow slot).dueSlots, slot ≤ i) ∧
    ∀ i, slot ≤ i → (s.settleBelow slot).record i = s.record i := by
  have hcb : Canon (s.settleBelow slot) := canon_law.settleSlots hc _
  obtain ⟨h1, h2, h3⟩ := settleSlots_spec hc (s.dueSlots.filter fun i => decide (i < slot))
  refine ⟨fun i hi => ?_, fun i hi => ?_⟩
  · by_contra hlt
    rw [mem_dueSlots hcb] at hi
    by_cases hm : i ∈ s.dueSlots
    · exact hi (h1 i (List.mem_filter.2 ⟨hm, by simpa using hlt⟩))
    · exact hi (h2 i (not_not.1 fun hn => hm ((mem_dueSlots hc).2 hn)))
  · refine h3 i fun hm => ?_
    have := (List.mem_filter.1 hm).2
    simp only [decide_eq_true_eq] at this
    omega

/-- With nothing due below a slot, settling below it changes nothing. -/
theorem settleBelow_of_none {s : State} {slot : Nat} (h : ∀ i ∈ s.dueSlots, slot ≤ i) : s.settleBelow slot = s := by
  have : (s.dueSlots.filter fun i => decide (i < slot)) = [] := by
    rw [List.filter_eq_nil_iff]
    intro i hi
    have := h i hi
    simp only [decide_eq_true_eq]
    omega
  simp only [State.settleBelow, this]
  rfl

/-! ### The monitor -/

theorem settleRecord_monitor (slot fuel : Nat) (s : State) :
    (State.settleRecord slot fuel s).monitor = s.monitor ∧ (State.settleRecord slot fuel s).settings = s.settings ∧
    (State.settleRecord slot fuel s).held = s.held := by
  induction fuel generalizing s with
  | zero => exact ⟨rfl, rfl, rfl⟩
  | succ k ih =>
    unfold State.settleRecord
    split
    · exact ⟨rfl, rfl, rfl⟩
    · rename_i p _
      obtain ⟨a, b, c⟩ := ih (s.takePart slot p)
      have := takePart_tableOnly s slot p
      exact ⟨a.trans this.2.2.2.1, b.trans this.2.2.2.2.2.1, c.trans this.1⟩
    · rename_i p q rest _
      obtain ⟨a, b, c⟩ := ih (({ s with choices := s.choices + 1 } : State).takePart slot
        ((p :: q :: rest).getD (Config.expiryOrder s.choices % (rest.length + 2)) p))
      have := takePart_tableOnly ({ s with choices := s.choices + 1 } : State) slot
        ((p :: q :: rest).getD (Config.expiryOrder s.choices % (rest.length + 2)) p)
      exact ⟨a.trans this.2.2.2.1, b.trans this.2.2.2.2.2.1, c.trans this.1⟩

theorem settleSlots_monitor (s : State) (l : List Nat) :
    (s.settleSlots l).monitor = s.monitor ∧ (s.settleSlots l).settings = s.settings ∧
    (s.settleSlots l).held = s.held := by
  induction l generalizing s with
  | nil => exact ⟨rfl, rfl, rfl⟩
  | cons a l ih =>
    obtain ⟨x, y, z⟩ := ih (State.settleRecord a (s.dueParts a).length s)
    obtain ⟨x', y', z'⟩ := settleRecord_monitor a (s.dueParts a).length s
    exact ⟨x.trans x', y.trans y', z.trans z'⟩

theorem limitDue_congr {s t : State} (h : t.monitor = s.monitor) (k : t.settings = s.settings) :
    t.limitDue = s.limitDue := by simp only [State.limitDue, h, k]

/-- The change to UNSAFE runs no grant check: it withholds (R31). -/
theorem reachLimit_eq (s : State) : s.reachLimit = s.setMonitor
    { s.monitor with timeState := .unsafeTime, divider := .running 0, agentFlags := s.flagsSet,
                     managementFlag := true } := by
  unfold State.reachLimit State.changeTime
  have : s.monitor.timeState.resumes .unsafeTime = false := by simp [TimeState.resumes, TimeState.permits]
  simp only [this, Bool.false_eq_true, if_false]
  rfl

theorem settleMonitor_none (s : State) : s.settleMonitor.limitDue = false := by
  unfold State.settleMonitor
  split
  · rw [reachLimit_eq]; rfl
  · rename_i h; simpa using h

theorem settleMonitor_fields (s : State) : s.settleMonitor.records = s.records ∧
    s.settleMonitor.sessions = s.sessions ∧ s.settleMonitor.settings = s.settings := by
  unfold State.settleMonitor
  split
  · rw [reachLimit_eq]; exact ⟨rfl, rfl, rfl⟩
  · exact ⟨rfl, rfl, rfl⟩

theorem dueSlots_congr {s t : State} (h : t.records = s.records) : t.dueSlots = s.dueSlots := by
  simp only [State.dueSlots, h]

/-- After settling them nothing is due in the table and the monitor. -/
theorem settleCore_none {s : State} (hc : Canon s) :
    s.settleCore.dueSlots = [] ∧ s.settleCore.limitDue = false := by
  have hc0 : Canon ({ s with choices := s.choices + 1 } : State) := hc.same rfl rfl rfl
  have key : ∀ u : State, Canon u → u.settleTable.settleMonitor.dueSlots = [] ∧
      u.settleTable.settleMonitor.limitDue = false := fun u hu =>
    ⟨(dueSlots_congr (settleMonitor_fields _).1).trans (settleTable_none hu), settleMonitor_none _⟩
  have key' : ∀ u : State, Canon u → u.settleMonitor.settleTable.dueSlots = [] ∧
      u.settleMonitor.settleTable.limitDue = false := fun u hu =>
    ⟨settleTable_none (canon_law.settleMonitor hu), by
      obtain ⟨a, b, _⟩ := settleSlots_monitor u.settleMonitor u.settleMonitor.dueSlots
      exact (limitDue_congr a b).trans (settleMonitor_none u)⟩
  unfold State.settleCore
  simp only
  split
  · split
    · exact key' _ hc0
    · exact key _ hc0
  · exact key _ hc

/-! ### The sessions -/

/-- A kept lease resumes with ticks remaining, so a resumption makes no expiry due. -/
theorem resumeStandby_alive {s : State} (hk : KeptAlive s) (n : Agent) (hc : Canon s) (h : s.dueSlots = []) :
    (s.resumeStandby n).dueSlots = [] := by
  have hc' : Canon (s.resumeStandby n) := hc.mapRecords
    (fun p => (p.1, { p.2 with holders := p.2.holders.map (resumeHolder n) })) (fun _ => rfl) rfl rfl rfl
  have hall : ∀ p ∈ s.records, p.2.dueCount = 0 := by
    intro p hp
    have := (dueSlots_nil hc).1 h p.1
    rw [dueParts_some ((Sparse.mem_iff_find hc.records).1 hp), dueParts_nil] at this
    exact this
  have hnew : ∀ p ∈ (s.resumeStandby n).records, p.2.dueParts = [] := by
    intro p hp
    obtain ⟨q, hq, rfl⟩ := List.mem_map.1 hp
    rw [dueParts_nil]
    have h0 := hall q hq
    simp only [Record.dueCount] at h0 ⊢
    have hz : q.2.holders.countP Holder.due = 0 := by omega
    have : (q.2.holders.map (resumeHolder n)).countP Holder.due = 0 := by
      rw [List.countP_eq_zero] at hz ⊢
      intro x hx
      obtain ⟨y, hy, rfl⟩ := List.mem_map.1 hx
      have hd := hz y hy
      unfold resumeHolder
      split
      · rename_i hk'
        rw [not_due_of_pos (h := { y with status := .running }) (hk q hq y hy hk'.2)]
        simp
      · exact hd
    omega
  simp only [State.dueSlots, Sparse.keys, List.map_eq_nil_iff, List.filter_eq_nil_iff]
  intro p hp
  simp [hnew p hp]

theorem KeptAlive.resumeStandby {s : State} (h : KeptAlive s) (n : Agent) : KeptAlive (s.resumeStandby n) := by
  intro p hp x hx hk
  obtain ⟨q, hq, rfl⟩ := List.mem_map.1 hp
  obtain ⟨y, hy, rfl⟩ := List.mem_map.1 hx
  unfold resumeHolder at hk ⊢
  split at hk
  · cases hk
  · rename_i hn
    rw [if_neg hn]
    exact h q hq y hy hk

/-- What is settled in a session stays settled: nothing due in the table and the monitor, and for the agents listed. -/
structure SettledFor (l : List Agent) (s : State) : Prop where
  canon : Canon s
  kept : KeptAlive s
  table : s.dueSlots = []
  limit : s.limitDue = false
  standby : ∀ n ∈ l, s.standbyDue n = false
  entry : ∀ n ∈ l, s.entryDue n = false

theorem SettledFor.setWindow {l : List Agent} {s : State} (h : SettledFor l s) {n : Agent} (w : List Nat)
    (hw : w.Sublist (s.session n).window) : SettledFor l (s.setSession n { s.session n with window := w }) := by
  have key : ∀ m, (s.setSession n { s.session n with window := w }).standbyDue m = s.standbyDue m := by
    intro m
    simp only [State.standbyDue, setSession_session]
    split
    · rename_i hm; subst hm; rfl
    · rfl
  have key' : ∀ m, s.entryDue m = false →
      (s.setSession n { s.session n with window := w }).entryDue m = false := by
    intro m hm
    simp only [State.entryDue, setSession_session, List.any_eq_false] at hm ⊢
    split
    · rename_i he; subst he; exact fun x hx => hm x (hw.subset hx)
    · exact hm
  exact ⟨h.canon.setSession n _, fun p hp => h.kept p hp, h.table, h.limit, fun m hm => (key m).trans (h.standby m hm),
    fun m hm => key' m (h.entry m hm)⟩

theorem ageOut_entryDue (s : State) (n : Agent) : (s.ageOut n).entryDue n = false := by
  simp only [State.ageOut, State.entryDue, setSession_session_same, List.any_eq_false, List.mem_filter,
    decide_eq_true_eq, State.setSession_settings]
  exact fun x h hle => absurd h.2 (Nat.not_lt.2 (of_decide_eq_true hle))

/-- The window's part of a session's settling. -/
theorem SettledFor.ageOut {l : List Agent} {s : State} (h : SettledFor l s) (n : Agent) :
    SettledFor l (if s.entryDue n then s.ageOut n else s) ∧
    (if s.entryDue n then s.ageOut n else s).entryDue n = false ∧
    ∀ m, (if s.entryDue n then s.ageOut n else s).standbyDue m = s.standbyDue m := by
  split
  · refine ⟨h.setWindow _ List.filter_sublist, ageOut_entryDue s n, fun m => ?_⟩
    simp only [State.ageOut, State.standbyDue, setSession_session]
    split
    · rename_i hm; subst hm; rfl
    · rfl
  · rename_i he
    exact ⟨h, by simpa using he, fun _ => rfl⟩

theorem expireStandby_session (s : State) (n m : Agent) :
    (s.expireStandby n).session m =
      if m = n then { s.session n with standby := none, state := .active, lapsed := true } else s.session m := by
  simp only [State.expireStandby, State.resumeStandby, setSession_session]
  split
  · rfl
  · rfl

theorem SettledFor.expireStandby {l : List Agent} {s : State} (h : SettledFor l s) (n : Agent) :
    SettledFor l (s.expireStandby n) ∧ (s.expireStandby n).standbyDue n = false := by
  have hd : (s.expireStandby n).standbyDue n = false := by
    simp only [State.standbyDue, expireStandby_session]; simp
  refine ⟨⟨?_, ?_, ?_, h.limit, fun m hm => ?_, fun m hm => ?_⟩, hd⟩
  · exact (h.canon.mapRecords (fun p => (p.1, { p.2 with holders := p.2.holders.map (resumeHolder n) })) (fun _ => rfl)
      (t := s.expireStandby n) rfl rfl rfl)
  · exact h.kept.resumeStandby n
  · exact (dueSlots_congr (s := s.resumeStandby n) rfl).trans (resumeStandby_alive h.kept n h.canon h.table)
  · by_cases he : m = n
    · subst he; exact hd
    · have := h.standby m hm
      simp only [State.standbyDue, expireStandby_session, he, if_false] at this ⊢
      exact this
  · have hs : (s.expireStandby n).settings = s.settings := rfl
    have := h.entry m hm
    simp only [State.entryDue, expireStandby_session, hs] at this ⊢
    by_cases he : m = n
    · subst he; simpa using this
    · simpa [he] using this

theorem SettledFor.settleSession {l : List Agent} {s : State} (h : SettledFor l s) (n : Agent) :
    SettledFor (n :: l) (s.settleSession n) := by
  unfold State.settleSession
  simp only
  have h1 : SettledFor l (if s.standbyDue n then s.expireStandby n else s) ∧
      (if s.standbyDue n then s.expireStandby n else s).standbyDue n = false := by
    split
    · exact h.expireStandby n
    · rename_i hn; exact ⟨h, by simpa using hn⟩
  generalize (if s.standbyDue n then s.expireStandby n else s) = u at h1 ⊢
  obtain ⟨h1, h2⟩ := h1
  obtain ⟨a, b, c⟩ := h1.ageOut n
  refine ⟨a.canon, a.kept, a.table, a.limit, fun m hm => ?_, fun m hm => ?_⟩
  · rcases List.mem_cons.1 hm with rfl | hm
    · rw [c]; exact h2
    · exact a.standby m hm
  · rcases List.mem_cons.1 hm with rfl | hm
    · exact b
    · exact a.entry m hm

theorem SettledFor.foldl (l : List Agent) {k : List Agent} {s : State} (h : SettledFor k s) :
    SettledFor (l.reverse ++ k) (l.foldl State.settleSession s) := by
  induction l generalizing k s with
  | nil => exact h
  | cons n l ih =>
    have := ih (h.settleSession n)
    simpa using this

theorem mem_agents (n : Agent) : n ∈ agents := by fin_cases n <;> simp [agents]

theorem SettledFor.settleCore {s : State} (hc : Canon s) (hk : KeptAlive s) : SettledFor [] s.settleCore := by
  obtain ⟨a, b⟩ := settleCore_none hc
  exact ⟨canon_law.settleCore hc, hk.rows (Rows.settleCore s), a, b, by simp, by simp⟩

/-- Settling leaves no part of the tick due. -/
theorem settle_spec {s : State} (hc : Canon s) (hk : KeptAlive s) :
    s.settle.quiet = true ∧ Canon s.settle ∧ KeptAlive s.settle := by
  have h := SettledFor.foldl agents (SettledFor.settleCore hc hk)
  refine ⟨(State.quiet_iff _).2 ⟨h.table, h.limit, fun n => ⟨h.standby n ?_, h.entry n ?_⟩⟩, h.canon, h.kept⟩
  · simp [mem_agents]
  · simp [mem_agents]

/-- What comes before a WAKE leaves nothing due but perhaps the agent's own standby expiry. -/
theorem settleForWake_spec {s : State} (hc : Canon s) (hk : KeptAlive s) (n : Agent) :
    (s.settleForWake n).quietBut n = true := by
  have h := SettledFor.foldl (agents.filter fun m => m != n) (SettledFor.settleCore hc hk)
  have hm : ∀ m, m ≠ n → m ∈ (agents.filter fun m => m != n).reverse ++ [] := by
    intro m hm
    simp [mem_agents, hm]
  obtain ⟨a, b, c⟩ := h.ageOut n
  rw [State.quietBut_iff]
  refine ⟨a.table, a.limit, fun m hne => a.standby m (hm m hne), fun m => ?_⟩
  by_cases he : m = n
  · subst he; exact b
  · exact a.entry m (hm m he)

/-- A settled state whose kept leases have ticks remaining has no lease without. -/
theorem alive_of_settled {s : State} (hc : Canon s) (hk : KeptAlive s) (h : s.dueSlots = []) : Alive s := by
  intro p hp x hx
  have := (dueSlots_nil hc).1 h p.1
  rw [dueParts_some ((Sparse.mem_iff_find hc.records).1 hp), dueParts_nil] at this
  have hz : p.2.holders.countP Holder.due = 0 := by unfold Record.dueCount at this; omega
  rw [List.countP_eq_zero] at hz
  have hd := hz x hx
  cases hs : x.status with
  | kept => exact hk p hp x hx hs
  | running =>
    simp only [Holder.due, hs, beq_self_eq_true, Bool.true_and, beq_iff_eq] at hd
    omega

/-! ### The order in which a tick is taken -/

theorem settleRecord_nil {slot : Nat} {s : State} (h : s.dueParts slot = []) (fuel : Nat) :
    State.settleRecord slot fuel s = s := by
  cases fuel with
  | zero => rfl
  | succ k => simp only [State.settleRecord, h]

/-- R66: an expiry of the slot that is due comes first; which one is a free value where several are due (log 3). -/
theorem settleRecord_step {slot : Nat} {s : State} (h : s.dueParts slot ≠ []) :
    ∃ (u : State) (p : DuePart), (u = s ∨ u = { s with choices := s.choices + 1 }) ∧ p ∈ s.dueParts slot ∧
      ∀ fuel, State.settleRecord slot (fuel + 1) s = State.settleRecord slot fuel (u.takePart slot p) := by
  cases hd : s.dueParts slot with
  | nil => exact absurd hd h
  | cons p l =>
    cases l with
    | nil => exact ⟨s, p, Or.inl rfl, by simp, fun fuel => by simp only [State.settleRecord, hd]⟩
    | cons q rest =>
      refine ⟨{ s with choices := s.choices + 1 },
        (p :: q :: rest).getD (Config.expiryOrder s.choices % (rest.length + 2)) p, Or.inr rfl, ?_,
        fun fuel => by simp only [State.settleRecord, hd]⟩
      have hl : Config.expiryOrder s.choices % (rest.length + 2) < (p :: q :: rest).length := by
        simp only [List.length_cons]
        exact Nat.mod_lt _ (by omega)
      rw [List.getD_eq_getElem _ _ hl]
      exact List.getElem_mem hl

/-- A state that has used a free order differs in nothing else. -/
theorem canon_chosen {s u : State} (hc : Canon s) (h : u = s ∨ u = { s with choices := s.choices + 1 }) : Canon u := by
  rcases h with rfl | rfl
  · exact hc
  · exact hc.same rfl rfl rfl

theorem record_chosen {s u : State} (h : u = s ∨ u = { s with choices := s.choices + 1 }) (i : Nat) :
    u.record i = s.record i := by
  rcases h with rfl | rfl <;> rfl

/-- Any fuel that is enough for the expiries due does the same. -/
theorem settleRecord_enough (slot : Nat) {k m : Nat} {s : State} (hc : Canon s) (hk : (s.dueParts slot).length ≤ k)
    (hm : (s.dueParts slot).length ≤ m) : State.settleRecord slot k s = State.settleRecord slot m s := by
  by_cases hn : s.dueParts slot = []
  · rw [settleRecord_nil hn, settleRecord_nil hn]
  · have hpos : 0 < (s.dueParts slot).length := List.length_pos_iff.2 hn
    induction k generalizing m s with
    | zero => omega
    | succ k ih =>
      obtain ⟨u, p, hu, hp, hstep⟩ := settleRecord_step hn
      have hcu := canon_chosen hc hu
      have hdu : u.dueParts slot = s.dueParts slot := dueParts_congr (record_chosen hu slot)
      have hpu : p ∈ u.dueParts slot := hdu ▸ hp
      have hlt := takePart_due hcu hpu
      rw [hdu] at hlt
      obtain ⟨m, rfl⟩ : ∃ j, m = j + 1 := ⟨m - 1, by omega⟩
      rw [hstep, hstep]
      by_cases hz : (u.takePart slot p).dueParts slot = []
      · rw [settleRecord_nil hz, settleRecord_nil hz]
      · exact ih (canon_law.takePart hcu hpu) (by omega) (by omega) hz (List.length_pos_iff.2 hz)

/-- The slots with an expiry due are in ascending order. -/
theorem dueSlots_pairwise {s : State} (hc : Canon s) : s.dueSlots.Pairwise (· < ·) := by
  have key : ∀ l : List (Nat × Record), Sparse.wf Config.slots l = true → (Sparse.keys l).Pairwise (· < ·) := by
    intro l
    induction l with
    | nil => exact fun _ => List.Pairwise.nil
    | cons a l ih =>
      intro h
      obtain ⟨_, h2, h3⟩ := Sparse.wf_cons.1 h
      refine List.Pairwise.cons (fun k hk => ?_) (ih h3)
      obtain ⟨p, hp, rfl⟩ := List.mem_map.1 hk
      exact h2 p hp
  exact key _ (wf_sublist List.filter_sublist hc.records)

/-- R39: an expiry of the lowest slot that has one due comes first, and then the rest of the tick. -/
theorem settleTable_head {s : State} (hc : Canon s) {slot : Nat} {others : List Nat}
    (h : s.dueSlots = slot :: others) : ∃ (u : State) (p : DuePart),
      (u = s ∨ u = { s with choices := s.choices + 1 }) ∧ p ∈ s.dueParts slot ∧
      s.settleTable = (u.takePart slot p).settleTable := by
  have hn : s.dueParts slot ≠ [] := (mem_dueSlots hc).1 (by rw [h]; simp)
  obtain ⟨u, p, hu, hp, hstep⟩ := settleRecord_step hn
  refine ⟨u, p, hu, hp, ?_⟩
  have hcu := canon_chosen hc hu
  have hdu : u.dueParts slot = s.dueParts slot := dueParts_congr (record_chosen hu slot)
  have hpu : p ∈ u.dueParts slot := hdu ▸ hp
  have hlt := takePart_due hcu hpu
  rw [hdu] at hlt
  have hct := canon_law.takePart hcu hpu
  have hother : ∀ i, i ≠ slot → (u.takePart slot p).dueParts i = s.dueParts i := fun i hi =>
    dueParts_congr ((takePart_record_ne u hi p).trans (record_chosen hu i))
  have hasc := dueSlots_pairwise hc
  rw [h, List.pairwise_cons] at hasc
  obtain ⟨m, hm⟩ : ∃ j, (s.dueParts slot).length = j + 1 := ⟨(s.dueParts slot).length - 1, by omega⟩
  have hs : s.settleTable = (State.settleRecord slot m (u.takePart slot p)).settleSlots others := by
    unfold State.settleTable
    rw [h]
    show State.settleSlots (State.settleRecord slot (s.dueParts slot).length s) others = _
    rw [hm, hstep]
  rw [hs]
  by_cases hz : (u.takePart slot p).dueParts slot = []
  · have ho : (u.takePart slot p).dueSlots = others := by
      refine (dueSlots_pairwise hct).eq_of_mem_iff hasc.2 fun i => ?_
      rw [mem_dueSlots hct]
      by_cases hi : i = slot
      · subst hi
        exact ⟨fun hne => absurd hz hne, fun hmem => absurd (hasc.1 _ hmem) (Nat.lt_irrefl _)⟩
      · rw [hother i hi, ← mem_dueSlots hc, h, List.mem_cons]
        exact ⟨fun ha => ha.resolve_left hi, Or.inr⟩
    rw [settleRecord_nil hz, State.settleTable, ho]
  · have ho : (u.takePart slot p).dueSlots = slot :: others := by
      refine (dueSlots_pairwise hct).eq_of_mem_iff (List.pairwise_cons.2 hasc) fun i => ?_
      rw [mem_dueSlots hct]
      by_cases hi : i = slot
      · subst hi
        exact ⟨fun _ => by simp, fun _ => hz⟩
      · rw [hother i hi, ← mem_dueSlots hc, h]
    rw [State.settleTable, ho]
    show _ = State.settleSlots (State.settleRecord slot _ _) others
    rw [settleRecord_enough slot hct (by omega) (Nat.le_refl _)]

end Sys2Proof.Machine
end

