-- ==== Sys2Proof/Laws/Forms.lean ====
section
/-! SUPPORT. The form of the record table: records as R5, R6, R9 and R51 make them, each in its key's home bucket and no
key twice (R4), and kept leases with ticks remaining (R122); the law of all of it. -/

namespace Sys2Proof.Machine

/-! ### Single records -/

/-- R6. -/
def Asc (r : Record) : Prop := r.holders.Pairwise fun g h => g.agent.val < h.agent.val

theorem asc_iff (r : Record) : ascending r.holders = true ↔ Asc r := by
  unfold Asc
  induction r.holders with
  | nil => simp [ascending]
  | cons h l ih => simp [ascending, ih]

/-- R5, R75. -/
def Shaped (r : Record) : Prop := keyLengthOk r.key.length = true ∧ r.value.length = 8

theorem shaped_iff (r : Record) : r.shaped = true ↔ Shaped r := by simp [Record.shaped, Shaped]

theorem insertHolder_pairwise {h : Holder} {l : List Holder} (hl : l.Pairwise fun g h => g.agent.val < h.agent.val)
    (hn : ∀ g ∈ l, g.agent ≠ h.agent) : (insertHolder h l).Pairwise fun g h => g.agent.val < h.agent.val := by
  induction l with
  | nil => simp [insertHolder]
  | cons g l ih =>
    rw [List.pairwise_cons] at hl
    simp only [insertHolder]
    split
    · rename_i hlt
      rw [List.pairwise_cons, List.pairwise_cons]
      refine ⟨fun x hx => ?_, hl⟩
      rcases List.mem_cons.1 hx with rfl | hx
      · exact hlt
      · exact Nat.lt_trans hlt (hl.1 x hx)
    · rename_i hge
      rw [List.pairwise_cons]
      refine ⟨fun x hx => ?_, ih hl.2 fun x hx => hn x (List.mem_cons_of_mem _ hx)⟩
      rcases mem_insertHolder.1 hx with rfl | hx
      · have : g.agent.val ≠ x.agent.val := fun e => hn g (by simp) (Fin.ext e)
        omega
      · exact hl.1 x hx

theorem Asc.map {r : Record} (h : Asc r) (g : Holder → Holder) (hg : ∀ x, (g x).agent = x.agent) :
    (r.holders.map g).Pairwise fun g h => g.agent.val < h.agent.val := by
  rw [List.pairwise_map]
  simp only [hg]
  exact h

theorem Asc.mapHolder {r : Record} (h : Asc r) (n : Agent) (f : Holder → Holder) (hf : ∀ x, (f x).agent = x.agent) :
    Asc (r.mapHolder n f) := by
  refine h.map (fun x => if x.agent == n then f x else x) fun x => ?_
  split
  · exact hf x
  · rfl

theorem not_holds_of_part {r : Record} {n : Agent} (h : r.hasPart n = false) : ∀ g ∈ r.holders, g.agent ≠ n := by
  intro g hg e
  have : r.hasPart n = true := hasPart_iff.2 (Or.inl ⟨g, hg, e⟩)
  rw [h] at this; cases this

/-- What R5, R6 and R51 say of one record. -/
def FormRec (r : Record) : Prop := Ordered r ∧ Asc r ∧ Shaped r

theorem formRec_law : RecordLaw (fun _ => FormRec) where
  mono _ h := h
  grant {env e r c rest} hq hg h := by
    refine ⟨h.1.grant hq, ?_, ?_⟩
    · have hn : c.kind ≠ .upgrade → ∀ g ∈ r.holders, g.agent ≠ c.agent := by
        intro hk g hg e
        have h1 := (h.1.2.1 c (by rw [hq]; simp)).not.1 hk
        exact h1 (holds_iff.2 ⟨g, hg, e⟩)
      unfold grantFirst
      cases hk : c.kind with
      | shared => exact insertHolder_pairwise h.2.1 (hn (by rw [hk]; simp))
      | exclusive => exact insertHolder_pairwise h.2.1 (hn (by rw [hk]; simp))
      | upgrade => exact h.2.1.mapHolder c.agent _ fun _ => rfl
    · obtain ⟨a, _, b⟩ := grantFirst_fixed env e r c rest
      exact ⟨a ▸ h.2.2.1, b ▸ h.2.2.2⟩
  dropAgent n h := ⟨ordered_law.dropAgent (e := 0) n h.1, h.2.1.filter _, h.2.2⟩
  dropClaim n h := ⟨ordered_law.dropClaim (e := 0) n h.1, h.2.1, h.2.2⟩
  holders g hg h := ⟨ordered_law.holders (e := 0) g hg h.1, h.2.1.map g fun x => (hg x).1, h.2.2⟩
  claims g hg h := ⟨ordered_law.claims (e := 0) g hg h.1, h.2.1, h.2.2⟩
  words v hv h := ⟨h.1, h.2.1, h.2.2.1, hv⟩
  mark b h := h
  create key b hk := ⟨Ordered.of_nil rfl, List.Pairwise.nil, hk, rfl⟩
  shared n life hq hp _ h := ⟨Ordered.of_nil hq, insertHolder_pairwise h.2.1 (not_holds_of_part hp), h.2.2⟩
  exclusive n life hq hp _ _ h := ⟨Ordered.of_nil hq, insertHolder_pairwise h.2.1 (not_holds_of_part hp), h.2.2⟩
  enqueue c hp hk h := ⟨ordered_law.enqueue (e := 0) c hp hk h.1, h.2.1, h.2.2⟩
  upgrade n life hx hw hu ho he h :=
    ⟨h.1.holders rfl (mapHolder_agents _ n _ fun _ => rfl), h.2.1.mapHolder n _ fun _ => rfl, h.2.2⟩
  enqueueUpgrade c hx hw hu hk h := ⟨ordered_law.enqueueUpgrade (e := 0) c hx hw hu hk h.1, h.2.1, h.2.2⟩
  downgrade n h := ⟨h.1.holders rfl (mapHolder_agents _ n _ fun _ => rfl), h.2.1.mapHolder n _ fun _ => rfl, h.2.2⟩

/-! ### No transient record stands empty (R9) -/

theorem empty_iff {r : Record} : r.empty = true ↔ ∀ n, r.hasPart n = false := by
  constructor
  · intro h n
    simp only [Record.empty, Bool.and_eq_true, List.isEmpty_iff] at h
    simp [Record.hasPart, Record.holds, Record.holder, Record.waits, Record.claim, h.1, h.2]
  · intro h
    have h' : ∀ n, ¬ ((∃ x ∈ r.holders, x.agent = n) ∨ ∃ c ∈ r.queue, c.agent = n) := by
      intro n hn
      have := h n
      rw [hasPart_iff.2 hn] at this; cases this
    simp only [Record.empty, Bool.and_eq_true, List.isEmpty_iff]
    exact ⟨List.eq_nil_iff_forall_not_mem.2 fun x hx => h' x.agent (Or.inl ⟨x, hx, rfl⟩),
      List.eq_nil_iff_forall_not_mem.2 fun c hc => h' c.agent (Or.inr ⟨c, hc, rfl⟩)⟩

theorem occupied_iff {r : Record} : r.occupied = true ↔ r.persistent = true ∨ ∃ n, r.hasPart n = true := by
  unfold Record.occupied
  rw [Bool.or_eq_true, Bool.not_eq_true', Bool.eq_false_iff, ne_eq, empty_iff]
  simp

/-- R9, but perhaps in one slot. -/
def OccBut (slot : Nat) (s : State) : Prop := ∀ p ∈ s.records, p.1 ≠ slot → p.2.occupied = true

/-- R9. -/
def Occ (s : State) : Prop := ∀ p ∈ s.records, p.2.occupied = true

theorem Occ.but {s : State} (h : Occ s) (slot : Nat) : OccBut slot s := fun p hp _ => h p hp

theorem Occ.same {s t : State} (h : Occ s) (hr : t.records = s.records) : Occ t := fun p hp => h p (hr ▸ hp)

theorem OccBut.same {slot : Nat} {s t : State} (h : OccBut slot s) (hr : t.records = s.records) : OccBut slot t :=
  fun p hp => h p (hr ▸ hp)

theorem Occ.putBut {s : State} (h : Occ s) (slot : Nat) (r : Record) : OccBut slot (s.putRecord slot r) := by
  intro p hp hne
  rcases Sparse.mem_put hp with rfl | hp
  · exact absurd rfl hne
  · exact h p hp

theorem Occ.put {s : State} (h : Occ s) (slot : Nat) {r : Record} (hr : r.occupied = true) :
    Occ (s.putRecord slot r) := by
  intro p hp
  rcases Sparse.mem_put hp with rfl | hp
  · exact hr
  · exact h p hp

theorem Occ.of_record {s : State} (h : Occ s) {slot : Nat} {r : Record} (hr : s.record slot = some r) :
    r.occupied = true := h _ (Sparse.mem_of_find hr)

theorem occupied_of_parts {r x : Record} (hp : x.persistent = r.persistent) (hh : ∀ n, x.hasPart n = r.hasPart n)
    (h : r.occupied = true) : x.occupied = true := by
  rw [occupied_iff] at *
  simpa only [hp, hh] using h

theorem grantRun_occupied {env : GrantEnv} {fuel : Nat} {e : Epoch} {r : Record} (h : r.occupied = true) :
    (grantRun env fuel e r).1.occupied = true :=
  occupied_of_parts (grantRun_fixed env fuel e r).2.1 (grantRun_hasPart env fuel e r) h

theorem OccBut.grantCheck {slot : Nat} {s : State} (h : OccBut slot s) (i : Nat) : OccBut slot (s.grantCheck i) := by
  cases hr : s.record i with
  | none => rw [grantCheck_none hr]; exact h
  | some r =>
    intro p hp hne
    rw [(grantCheck_fields hr).1] at hp
    rcases Sparse.mem_put hp with rfl | hp
    · exact grantRun_occupied (h (i, r) (Sparse.mem_of_find hr) hne)
    · exact h p hp hne

theorem Occ.grantCheck {s : State} (h : Occ s) (i : Nat) : Occ (s.grantCheck i) := by
  cases hr : s.record i with
  | none => rw [grantCheck_none hr]; exact h
  | some r =>
    intro p hp
    rw [(grantCheck_fields hr).1] at hp
    rcases Sparse.mem_put hp with rfl | hp
    · exact grantRun_occupied (h.of_record hr)
    · exact h p hp

theorem Occ.subset {s t : State} (h : Occ s) (hr : ∀ p ∈ t.records, p ∈ s.records) : Occ t := fun p hp => h p (hr p hp)

theorem Occ.retire {s : State} (h : Occ s) (slot : Nat) : Occ (s.retire slot) := by
  cases hr : s.record slot with
  | none => exact h.same (by simp [State.retire, hr])
  | some r => exact h.subset fun p hp => Sparse.mem_drop ((retire_fields hr).1 ▸ hp)

/-- The retirement of an empty transient record leaves none. -/
theorem OccBut.retireIfEmpty {slot : Nat} {s : State} (hc : Canon s) (h : OccBut slot s) :
    Occ (s.retireIfEmpty slot) := by
  unfold State.retireIfEmpty
  cases hr : s.record slot with
  | none =>
    intro p hp
    refine h p hp ?_
    rintro rfl
    have := (Sparse.mem_iff_find hc.records).1 hp
    rw [State.record, this] at hr; cases hr
  | some r =>
    simp only
    split
    · intro p hp
      rw [(retire_fields hr).1] at hp
      refine h p (Sparse.mem_drop hp) ?_
      rintro rfl
      have hw : Sparse.wf Config.slots (Sparse.drop p.1 s.records) = true := Sparse.wf_drop hc.records
      have h1 := (Sparse.mem_iff_find hw).1 hp
      rw [Sparse.find_drop_same hc.records] at h1; cases h1
    · rename_i hn
      intro p hp
      by_cases he : p.1 = slot
      · subst he
        have h1 := (Sparse.mem_iff_find hc.records).1 hp
        rw [State.record, h1] at hr
        cases hr
        simp only [Bool.and_eq_true, Bool.not_eq_true', not_and, Bool.not_eq_true] at hn
        unfold Record.occupied
        cases hpers : p.2.persistent
        · simp [hn hpers]
        · rfl
      · exact h p hp he

theorem Occ.leaveRecord {s : State} (hc : Canon s) (h : Occ s) (slot : Nat) (n : Agent) (k : Option NoticeKind) :
    Occ (s.leaveRecord slot n k) := by
  unfold State.leaveRecord
  split
  · exact h
  · rename_i r hr
    have hl := hc.slot_lt hr
    have h1 := h.putBut slot (r.dropAgent n)
    cases k with
    | none =>
      refine OccBut.retireIfEmpty (((hc.putRecord hl _).setSession n _).grantCheck slot) (OccBut.grantCheck ?_ slot)
      exact h1.same rfl
    | some k =>
      refine OccBut.retireIfEmpty ((((hc.putRecord hl _).post hl n _).setSession n _).grantCheck slot)
        (OccBut.grantCheck ?_ slot)
      exact h1.same rfl

theorem Occ.removeAgent {s : State} (hc : Canon s) (h : Occ s) (n : Agent) : Occ (s.removeAgent n) := by
  have hf : ∀ (l : List Nat) (t : State), Canon t → Occ t →
      Occ (l.foldl (fun t slot => t.leaveRecord slot n none) t) := by
    intro l
    induction l with
    | nil => exact fun _ _ ht => ht
    | cons a l ih => exact fun t hct ht => ih _ (hct.leaveRecord a n none) (ht.leaveRecord hct a n none)
  exact hf _ s hc h

theorem Occ.map {s t : State} (h : Occ s) (f : Nat × Record → Nat × Record)
    (hf : ∀ p, (f p).2.persistent = p.2.persistent ∧ ∀ n, (f p).2.hasPart n = p.2.hasPart n)
    (hr : t.records = s.records.map f) : Occ t := by
  intro p hp
  rw [hr] at hp
  obtain ⟨q, hq, rfl⟩ := List.mem_map.1 hp
  exact occupied_of_parts (hf q).1 (hf q).2 (h q hq)

theorem holds_occupied {r : Record} {n : Agent} (h : r.holds n = true) : r.occupied = true :=
  occupied_iff.2 (Or.inr ⟨n, by simp [Record.hasPart, h]⟩)

theorem Occ.enterStandbyAt {n : Agent} {mask : Byte} {p : State × EntryCount} (hc : Canon p.1) (h : Occ p.1)
    (slot : Nat) : Occ (State.enterStandbyAt n mask p slot).1 := by
  unfold State.enterStandbyAt
  simp only
  split
  · exact h
  · rename_i r hr
    have hl := hc.slot_lt hr
    have h3 : ∀ (t : State) (b : Bool), Occ t →
        Occ (if b then
          match t.record slot with
          | some r3 => t.putRecord slot (r3.mapHolder n keepHolder)
          | none => t
          else t) := by
      intro t b ht; cases b
      · exact ht
      · simp only [if_true]
        split
        · rename_i r3 hr3
          exact ht.put slot (occupied_of_parts (r := r3) rfl (mapHolder_hasPart r3 n keepHolder fun _ => rfl)
            (ht.of_record hr3))
        · exact ht
    have h1 : ∀ (x : Record) (b : Bool), Canon (if b then (p.1.putRecord slot x).losePart n
        else p.1.putRecord slot x) := by
      intro x b; cases b
      · exact hc.putRecord hl x
      · exact (hc.putRecord hl x).setSession n _
    have h2 : ∀ (x : Record) (b : Bool), OccBut slot (if b then (p.1.putRecord slot x).losePart n
        else p.1.putRecord slot x) := by
      intro x b; cases b
      · exact h.putBut slot x
      · exact (h.putBut slot x).same rfl
    refine h3 _ _ ?_
    cases hw : r.waits n with
    | true =>
      simp only [Bool.true_or, if_true]
      exact OccBut.retireIfEmpty ((h1 _ _).grantCheck slot) ((h2 _ _).grantCheck slot)
    | false =>
      simp only [Bool.false_or]
      cases hx : (r.holds n && !maskSelects mask slot) with
      | true =>
        simp only [if_true]
        exact OccBut.retireIfEmpty ((h1 _ _).grantCheck slot) ((h2 _ _).grantCheck slot)
      | false =>
        simp only [Bool.false_eq_true, if_false, Bool.false_and, dropClaim_eq hw]
        exact h.put slot (h.of_record hr)

theorem Occ.enterStandby {s : State} (hc : Canon s) (h : Occ s) (n : Agent) (mask : Byte) (d : Nat) :
    Occ (s.enterStandby n mask d).1 := by
  have hf : ∀ (l : List Nat) (p : State × EntryCount), Canon p.1 → Occ p.1 →
      Occ (l.foldl (State.enterStandbyAt n mask) p).1 := by
    intro l
    induction l with
    | nil => exact fun _ _ hp => hp
    | cons i l ih => exact fun p hpc hp => ih _ (Canon.enterStandbyAt hpc i) (Occ.enterStandbyAt hpc hp i)
  exact (hf (s.partSlots n) (s, { kept := 0, left := 0 }) hc h).same rfl

/-! ### Keys and kept leases -/

theorem findAmong_none {s : State} {key : List Byte} {l : List Nat} (h : s.findAmong key l = none) {slot : Nat}
    (hs : slot ∈ l) {r : Record} (hr : s.record slot = some r) : r.key ≠ key := by
  induction l with
  | nil => cases hs
  | cons i l ih =>
    simp only [State.findAmong] at h
    rcases List.mem_cons.1 hs with rfl | hs
    · rw [hr] at h
      simp only at h
      split at h
      · cases h
      · assumption
    · split at h
      · split at h
        · cases h
        · exact ih h hs
      · exact ih h hs

/-- A key that is not found stands in no record. -/
theorem findKey_none {s : State} (hc : Canon s) (hp : Placed s) {key : List Byte} (h : s.findKey key = none) :
    ∀ p ∈ s.records, p.2.key ≠ key := by
  intro p hm e
  have hs := hp.1 p hm
  rw [e] at hs
  exact findAmong_none h hs ((Sparse.mem_iff_find hc.records).1 hm) e

theorem Placed.create {s t : State} (hc : Canon s) (h : Placed s) {slot : Nat} {x : Record}
    (hs : slot ∈ homeSlots x.key) (hf : s.findKey x.key = none) (ht : t.records = Sparse.put slot x s.records) :
    Placed t := by
  have hn := findKey_none hc h hf
  refine ⟨fun p hp => ?_, fun p hp q hq e => ?_⟩
  · rw [ht] at hp
    rcases Sparse.mem_put hp with rfl | hp
    · exact hs
    · exact h.1 p hp
  · rw [ht] at hp hq
    rcases Sparse.mem_put hp with rfl | hp <;> rcases Sparse.mem_put hq with rfl | hq
    · rfl
    · exact absurd e.symm (hn q hq)
    · exact absurd e (hn p hp)
    · exact h.2 p hp q hq e

/-- An entry of a slot's record replaced or added where the others stand, for properties of single holders. -/
theorem KeptAlive.put {s t : State} (h : KeptAlive s) {slot : Nat} {x : Record}
    (hx : ∀ y ∈ x.holders, y.status = .kept → 1 ≤ y.remaining) (ht : t.records = Sparse.put slot x s.records) :
    KeptAlive t := by
  intro p hp
  rw [ht] at hp
  rcases Sparse.mem_put hp with rfl | hp
  · exact hx
  · exact h p hp

theorem KeptAlive.of_record {s : State} (h : KeptAlive s) {slot : Nat} {r : Record} (hr : s.record slot = some r) :
    ∀ y ∈ r.holders, y.status = .kept → 1 ≤ y.remaining := h _ (Sparse.mem_of_find hr)

theorem insertHolder_kept {h : Holder} {l : List Holder} (hr : h.status = .running)
    (hl : ∀ y ∈ l, y.status = .kept → 1 ≤ y.remaining) :
    ∀ y ∈ insertHolder h l, y.status = .kept → 1 ≤ y.remaining := by
  intro y hy hk
  rcases mem_insertHolder.1 hy with rfl | hy
  · rw [hr] at hk; cases hk
  · exact hl y hy hk

/-- At one record of a standby's entry every lease keeps a tick remaining. -/
theorem Alive.enterStandbyAt {n : Agent} {mask : Byte} {p : State × EntryCount} (h : Alive p.1) (slot : Nat) :
    Alive (State.enterStandbyAt n mask p slot).1 := by
  unfold State.enterStandbyAt
  simp only
  split
  · exact h
  · rename_i r hr
    have h3 : ∀ (t : State) (b : Bool), Alive t →
        Alive (if b then
          match t.record slot with
          | some r3 => t.putRecord slot (r3.mapHolder n keepHolder)
          | none => t
          else t) := by
      intro t b ht; cases b
      · exact ht
      · simp only [if_true]
        split
        · rename_i r3 hr3
          intro q hq y hy
          rcases Sparse.mem_put hq with rfl | hq
          · obtain ⟨z, hz, rfl⟩ := List.mem_map.1 hy
            have := ht _ (Sparse.mem_of_find hr3) z hz
            split
            · exact this
            · exact this
          · exact ht q hq y hy
        · exact ht
    have h2 : ∀ (t : State) (b : Bool), Alive t → Alive (if b then (t.grantCheck slot).retireIfEmpty slot else t) := by
      intro t b ht; cases b
      · exact ht
      · exact ht.rows ((Rows.grantCheck t slot).trans (Rows.retireIfEmpty _ slot))
    have h1 : ∀ (x : Record) (b : Bool), RowRec r x → Alive (if b then (p.1.putRecord slot x).losePart n
        else p.1.putRecord slot x) := by
      intro x b hx; cases b
      · exact h.rows (Rows.put hr hx rfl)
      · exact h.rows (Rows.put hr hx rfl)
    refine h3 _ _ (h2 _ _ (h1 _ _ ?_))
    split
    · exact RowRec.dropAgent r n
    · exact RowRec.dropClaim r n

theorem Alive.enterStandby {s : State} (h : Alive s) (n : Agent) (mask : Byte) (d : Nat) :
    Alive (s.enterStandby n mask d).1 := by
  have hf : ∀ (l : List Nat) (p : State × EntryCount), Alive p.1 →
      Alive (l.foldl (State.enterStandbyAt n mask) p).1 := by
    intro l
    induction l with
    | nil => exact fun _ hp => hp
    | cons i l ih => exact fun p hp => ih _ (Alive.enterStandbyAt hp i)
  exact hf (s.partSlots n) (s, { kept := 0, left := 0 }) h

theorem placed_of_keys {s t : State} (h : Placed s)
    (hr : ∀ p ∈ t.records, ∃ q ∈ s.records, q.1 = p.1 ∧ p.2.key = q.2.key) : Placed t := by
  refine ⟨fun p hp => ?_, fun p hp q hq e => ?_⟩
  · obtain ⟨o, ho, e, k⟩ := hr p hp
    rw [k, ← e]; exact h.1 o ho
  · obtain ⟨a, ha, ea, ka⟩ := hr p hp
    obtain ⟨b, hb, eb, kb⟩ := hr q hq
    rw [← ea, ← eb]
    exact h.2 a ha b hb (ka.symm.trans (e.trans kb))

theorem Placed.put {s t : State} (h : Placed s) {slot : Nat} {r x : Record} (hr : s.record slot = some r)
    (hx : x.key = r.key) (ht : t.records = Sparse.put slot x s.records) : Placed t := by
  refine placed_of_keys h fun p hp => ?_
  rw [ht] at hp
  rcases Sparse.mem_put hp with rfl | hp
  · exact ⟨_, Sparse.mem_of_find hr, rfl, hx⟩
  · exact ⟨p, hp, rfl, rfl⟩

theorem Placed.map {s t : State} (h : Placed s) (f : Nat × Record → Nat × Record)
    (hf : ∀ p, (f p).1 = p.1 ∧ (f p).2.key = p.2.key) (ht : t.records = s.records.map f) : Placed t := by
  refine placed_of_keys h fun p hp => ?_
  rw [ht] at hp
  obtain ⟨q, hq, rfl⟩ := List.mem_map.1 hp
  exact ⟨q, hq, (hf q).1.symm, (hf q).2⟩

theorem Placed.enterStandbyAt {n : Agent} {mask : Byte} {p : State × EntryCount} (h : Placed p.1) (slot : Nat) :
    Placed (State.enterStandbyAt n mask p slot).1 := by
  unfold State.enterStandbyAt
  simp only
  split
  · exact h
  · rename_i r hr
    have h3 : ∀ (t : State) (b : Bool), Placed t →
        Placed (if b then
          match t.record slot with
          | some r3 => t.putRecord slot (r3.mapHolder n keepHolder)
          | none => t
          else t) := by
      intro t b ht; cases b
      · exact ht
      · simp only [if_true]
        split
        · rename_i r3 hr3; exact ht.put (x := r3.mapHolder n keepHolder) hr3 rfl rfl
        · exact ht
    have h2 : ∀ (t : State) (b : Bool), Placed t → Placed (if b then (t.grantCheck slot).retireIfEmpty slot else t) := by
      intro t b ht; cases b
      · exact ht
      · exact ht.rows ((Rows.grantCheck t slot).trans (Rows.retireIfEmpty _ slot))
    have h1 : ∀ (x : Record) (b : Bool), RowRec r x → Placed (if b then (p.1.putRecord slot x).losePart n
        else p.1.putRecord slot x) := by
      intro x b hx; cases b
      · exact h.rows (Rows.put hr hx rfl)
      · exact h.rows (Rows.put hr hx rfl)
    refine h3 _ _ (h2 _ _ (h1 _ _ ?_))
    split
    · exact RowRec.dropAgent r n
    · exact RowRec.dropClaim r n

theorem Placed.enterStandby {s : State} (h : Placed s) (n : Agent) (mask : Byte) (d : Nat) :
    Placed (s.enterStandby n mask d).1 := by
  have hf : ∀ (l : List Nat) (p : State × EntryCount), Placed p.1 →
      Placed (l.foldl (State.enterStandbyAt n mask) p).1 := by
    intro l
    induction l with
    | nil => exact fun _ hp => hp
    | cons i l ih => exact fun p hp => ih _ (Placed.enterStandbyAt hp i)
  exact hf (s.partSlots n) (s, { kept := 0, left := 0 }) h

/-! ### The law -/

/-- The form of the whole table. -/
structure Formed (s : State) : Prop where
  canon : Canon s
  recs : AllRec (fun _ => FormRec) s
  occ : Occ s
  placed : Placed s
  kept : KeptAlive s

theorem placed_iff {s : State} (hc : Canon s) : s.placed = true ↔ Placed s := by
  have hn : ∀ (b : Nat) (t : List (Nat × Record)), Sparse.wf b t = true →
      ((t.map fun p => p.2.key).Nodup ↔ ∀ p ∈ t, ∀ q ∈ t, p.2.key = q.2.key → p.1 = q.1) := by
    intro b t
    induction t with
    | nil => simp
    | cons a t ih =>
      intro hw
      obtain ⟨i, x⟩ := a
      rw [Sparse.wf_cons] at hw
      rw [List.map_cons, List.nodup_cons, ih hw.2.2]
      constructor
      · rintro ⟨h1, h2⟩ p hp q hq e
        rcases List.mem_cons.1 hp with rfl | hp <;> rcases List.mem_cons.1 hq with rfl | hq
        · rfl
        · exact absurd (List.mem_map.2 ⟨q, hq, e.symm⟩) h1
        · exact absurd (List.mem_map.2 ⟨p, hp, e⟩) h1
        · exact h2 p hp q hq e
      · intro h
        refine ⟨fun hm => ?_, fun p hp q hq => h p (List.mem_cons_of_mem _ hp) q (List.mem_cons_of_mem _ hq)⟩
        obtain ⟨q, hq, e⟩ := List.mem_map.1 hm
        have h1 := h (i, x) (by simp) q (List.mem_cons_of_mem _ hq) e.symm
        have h2 := hw.2.1 q hq
        simp only at h1
        omega
  unfold State.placed Placed
  simp only [Bool.and_eq_true, List.all_eq_true, List.contains_iff_mem, decide_eq_true_eq, hn _ _ hc.records]

theorem formed_iff (s : State) :
    (s.canonical && s.recordsFormed && s.placed && s.keptAlive) = true ↔ Formed s := by
  have h1 : s.recordsFormed = true ↔ AllRec (fun _ => FormRec) s ∧ Occ s := by
    simp only [State.recordsFormed, State.everyRecord, List.all_eq_true, Bool.and_eq_true, asc_iff, ordered_iff,
      shaped_iff, AllRec, Occ, FormRec]
    exact ⟨fun h => ⟨fun p hp => ⟨(h p hp).1.1.2, (h p hp).1.1.1, (h p hp).2⟩, fun p hp => (h p hp).1.2⟩,
      fun h p hp => ⟨⟨⟨(h.1 p hp).2.1, (h.1 p hp).1⟩, h.2 p hp⟩, (h.1 p hp).2.2⟩⟩
  simp only [Bool.and_eq_true, h1, canonical_iff, keptAlive_iff]
  constructor
  · rintro ⟨⟨⟨a, b, c⟩, d⟩, e⟩
    exact ⟨a, b, c, (placed_iff a).1 d, e⟩
  · rintro ⟨a, b, c, d, e⟩
    exact ⟨⟨⟨a, b, c⟩, (placed_iff a).2 d⟩, e⟩

theorem Formed.cleared {t : State} (hr : t.records = []) (hg : t.generations = []) (hc : ∀ n, t.cells.get n = []) :
    Formed t := by
  have hn : ∀ p, p ∉ t.records := fun p hp => by rw [hr] at hp; cases hp
  exact ⟨Canon.cleared hr hg hc, AllRec.nil hr, fun p hp => absurd hp (hn p),
    ⟨fun p hp => absurd hp (hn p), fun p hp => absurd hp (hn p)⟩, fun p hp => absurd hp (hn p)⟩

theorem Formed.holdReset (s : State) : Formed s.holdReset :=
  Formed.cleared rfl rfl fun n => PerAgent.get_all _ n

theorem Occ.foldlGrantCheck {s : State} (h : Occ s) (l : List Nat) : Occ (l.foldl State.grantCheck s) := by
  induction l generalizing s with
  | nil => exact h
  | cons x l ih => exact ih (h.grantCheck x)

theorem Occ.changeTime {s : State} (h : Occ s) (m : Monitor) : Occ (s.changeTime m) := by
  unfold State.changeTime
  simp only
  split
  · refine Occ.foldlGrantCheck ?_ _
    exact h.same rfl
  · exact h.same rfl

/-- A change of the records from a record to a later form of it. -/
theorem Formed.move {s t : State} (h : Formed s) (hc : Canon t) (hf : AllRec (fun _ => FormRec) t) (ho : Occ t)
    (hr : Rows s t) : Formed t := ⟨hc, hf, ho, h.placed.rows hr, h.kept.rows hr⟩

theorem insertHolder_occupied {r : Record} {h : Holder} {e : Epoch} :
    ({ r with lastEpoch := e, holders := insertHolder h r.holders } : Record).occupied = true :=
  occupied_iff.2 (Or.inr ⟨h.agent, by rw [insertHolder_hasPart]; simp⟩)

theorem grantNow_records (s : State) (slot : Nat) (r : Record) (n : Agent) (m : Mode) (requested : Nat) :
    ∃ (h : Holder) (e : Epoch), h.status = .running ∧ h.agent = n ∧
      (s.grantNow slot r n m requested).1.records =
        Sparse.put slot { r with lastEpoch := e, holders := insertHolder h r.holders } s.records := by
  cases m with
  | shared => exact ⟨_, r.lastEpoch, rfl, rfl, rfl⟩
  | exclusive => exact ⟨_, _, rfl, rfl, rfl⟩

/-- The form of the table is kept by every event. -/
theorem formed_law : StateLaw Formed where
  plain hr hg he hc hm ht hst hs h :=
    h.move (canon_law.plain hr hg he hc hm ht hst hs h.canon) (formRec_law.state.plain hr hg he hc hm ht hst hs h.recs)
      (h.occ.same hr) (Rows.same hr)
  setting h hc hl := h.move (canon_law.setting h.canon hc hl) (formRec_law.state.setting h.recs hc hl) (h.occ.same rfl)
    (Rows.same rfl)
  leave {s slot r n} k h hr hp ha := h.move (canon_law.leave k h.canon hr hp ha) (formRec_law.state.leave k h.recs hr hp ha)
    (h.occ.leaveRecord h.canon slot n k) (Rows.leaveRecord s slot n k)
  expireUpgrade {s slot r n} h hr hq := by
    refine h.move (canon_law.expireUpgrade h.canon hr hq) (formRec_law.state.expireUpgrade h.recs hr hq) ?_
      (Rows.expireUpgrade s slot n)
    unfold State.expireUpgrade
    simp only [hr]
    obtain ⟨c, hc, rfl, hk⟩ := hq
    have hh : r.holds c.agent = true := ((h.recs.of_record hr).1.2.1 c hc).1 hk
    refine Occ.grantCheck ?_ slot
    exact (h.occ.put slot (holds_occupied (n := c.agent) (r := r.dropClaim c.agent) hh)).same rfl
  changeTime {s} m h := h.move (canon_law.changeTime m h.canon) (formRec_law.state.changeTime m h.recs)
    (h.occ.changeTime m) (Rows.changeTime s m)
  tick {s} h := by
    refine ⟨canon_law.tick h.canon, formRec_law.state.tick h.recs,
      h.occ.map (fun p => (p.1, tickRecord p.2)) (fun p => ⟨rfl, fun n => hasPart_of_agents ?_ ?_ n⟩) rfl,
      h.placed.map (fun p => (p.1, tickRecord p.2)) (fun _ => ⟨rfl, rfl⟩) rfl, ?_⟩
    · simp only [tickRecord, List.map_map]
      exact List.map_congr_left fun x _ => (tickHolder_fixed x).1
    · simp only [tickRecord, List.map_map]
      exact List.map_congr_left fun c _ => rfl
    · intro p hp x hx hk
      obtain ⟨q, hq, rfl⟩ := List.mem_map.1 hp
      obtain ⟨y, hy, rfl⟩ := List.mem_map.1 hx
      unfold tickHolder at hk ⊢
      cases hs : y.status with
      | running => rw [hs] at hk; simp at hk
      | kept => simpa [hs] using h.kept q hq y hy hs
  resume {s n} h hn := by
    refine ⟨canon_law.resume h.canon hn, formRec_law.state.resume h.recs hn,
      h.occ.map (fun p => (p.1, { p.2 with holders := p.2.holders.map (resumeHolder n) }))
        (fun p => ⟨rfl, fun m => holders_map_hasPart p.2 (resumeHolder n) (fun x => (resumeHolder_fixed n x).1) m⟩) rfl,
      h.placed.map (fun p => (p.1, { p.2 with holders := p.2.holders.map (resumeHolder n) })) (fun _ => ⟨rfl, rfl⟩) rfl,
      h.kept.resumeStandby n⟩
  window n w h hw := h.move (canon_law.window n w h.canon hw) (formRec_law.state.window n w h.recs hw) (h.occ.same rfl)
    (Rows.same rfl)
  ends {s n} number st h ht hj hst := h.move (canon_law.ends number st h.canon ht hj hst)
    (formRec_law.state.ends number st h.recs ht hj hst) (Occ.same (h.occ.removeAgent h.canon n) rfl)
    ((Rows.removeAgent s n).trans (Rows.same rfl))
  starts number h ht hj := h.move (canon_law.starts number h.canon ht hj)
    (formRec_law.state.starts number h.recs ht hj) (h.occ.same rfl) (Rows.same rfl)
  notices n h := h.move (canon_law.notices n h.canon) (formRec_law.state.notices n h.recs) (h.occ.same rfl)
    (Rows.same rfl)
  create {s n slot key} m requested h ht hn hs hk hw hf hl hq hb := by
    obtain ⟨x, e, hx, _, hrec⟩ := grantNow_records (s.addCreation n) slot (newRecord key false) n m requested
    refine ⟨canon_law.create m requested h.canon ht hn hs hk hw hf hl hq hb,
      formRec_law.state.create m requested h.recs ht hn hs hk hw hf hl hq hb, ?_,
      h.placed.create (x := { newRecord key false with
        lastEpoch := e, holders := insertHolder x (newRecord key false).holders }) h.canon hk hf hrec, ?_⟩
    · exact Occ.same (s := s.putRecord slot _) (h.occ.put slot insertHolder_occupied) hrec
    · exact h.kept.put (insertHolder_kept hx (by simp [newRecord])) hrec
  grantNow {s n slot r} m requested h ht hn hr hq hp hc hw hu := by
    obtain ⟨x, e, hx, _, hrec⟩ := grantNow_records s slot r n m requested
    refine ⟨canon_law.grantNow m requested h.canon ht hn hr hq hp hc hw hu,
      formRec_law.state.grantNow m requested h.recs ht hn hr hq hp hc hw hu, ?_, h.placed.put hr (by rfl) hrec, ?_⟩
    · exact Occ.same (s := s.putRecord slot _) (h.occ.put slot insertHolder_occupied) hrec
    · exact h.kept.put (insertHolder_kept hx (h.kept.of_record hr)) hrec
  enqueue {s slot r} c h ht hn hr hp hk hq hu := by
    refine ⟨canon_law.enqueue c h.canon ht hn hr hp hk hq hu, formRec_law.state.enqueue c h.recs ht hn hr hp hk hq hu, ?_,
      h.placed.put (x := { r with queue := r.queue ++ [c] }) hr rfl rfl,
      h.kept.put (x := { r with queue := r.queue ++ [c] }) (KeptAlive.of_record (r := r) h.kept hr) rfl⟩
    refine Occ.same (s := s.putRecord slot { r with queue := r.queue ++ [c] }) (h.occ.put slot ?_) rfl
    exact occupied_iff.2 (Or.inr ⟨c.agent, hasPart_iff.2 (Or.inr ⟨c, by simp, rfl⟩)⟩)
  upgradeNow {s slot r n x} requested h hr hx hw hu ho hs := by
    have hrow : RowRec r { r.mapHolder n (upgraded (lifetime s.settings s.monitor.timeState requested)
        (s.epochSource + 1)) with lastEpoch := s.epochSource + 1 } :=
      RowRec.mapHolder r n (upgraded (lifetime s.settings s.monitor.timeState requested) (s.epochSource + 1))
        (fun _ => ⟨rfl, rfl⟩) fun _ => Or.inr (lifetime_pos ..)
    refine h.move (canon_law.upgradeNow requested h.canon hr hx hw hu ho hs)
      (formRec_law.state.upgradeNow requested h.recs hr hx hw hu ho hs) ?_ (Rows.put hr hrow rfl)
    refine Occ.same (s := s.putRecord slot { r.mapHolder n (upgraded (lifetime s.settings s.monitor.timeState requested)
        (s.epochSource + 1)) with lastEpoch := s.epochSource + 1 })
      (h.occ.put slot (occupied_of_parts (r := r) rfl (fun m => ?_) (h.occ.of_record hr))) rfl
    exact mapHolder_hasPart r n (upgraded (lifetime s.settings s.monitor.timeState requested) (s.epochSource + 1))
      (fun _ => rfl) m
  enqueueUpgrade {s slot r n x} q h hr hx hw hu hb ha := by
    obtain ⟨c, hc⟩ : ∃ c : Claim, (s.enqueueUpgrade slot r n q).1 = s.putRecord slot { r with queue := c :: r.queue } :=
      ⟨_, rfl⟩
    have h1 := canon_law.enqueueUpgrade q h.canon hr hx hw hu hb ha
    have h2 := formRec_law.state.enqueueUpgrade q h.recs hr hx hw hu hb ha
    rw [hc] at h1 h2 ⊢
    refine ⟨h1, h2, h.occ.put slot (holds_occupied (n := n) ?_),
      h.placed.put (x := { r with queue := c :: r.queue }) hr rfl rfl,
      h.kept.put (x := { r with queue := c :: r.queue }) (KeptAlive.of_record (r := r) h.kept hr) rfl⟩
    show r.holds n = true
    simp [Record.holds, hx]
  downgrade {s slot r} n h hr := by
    have hrow : RowRec r (r.mapHolder n downgraded) :=
      RowRec.mapHolder r n downgraded (fun _ => ⟨rfl, rfl⟩) fun _ => Or.inl rfl
    refine h.move (canon_law.downgrade n h.canon hr) (formRec_law.state.downgrade n h.recs hr) ?_
      (Rows.trans (Rows.put hr hrow rfl) (Rows.grantCheck _ slot))
    refine Occ.grantCheck (h.occ.put slot (r := r.mapHolder n downgraded)
      (occupied_of_parts (r := r) rfl (fun m => ?_) (h.occ.of_record hr))) slot
    exact mapHolder_hasPart r n downgraded (fun _ => rfl) m
  entries {s slot r} g h hr hg hm := by
    refine h.move (canon_law.entries g h.canon hr hg hm) (formRec_law.state.entries g h.recs hr hg hm) ?_
      (Rows.put hr (RowRec.map r g (fun x => ⟨(hg x).1, (hg x).2.2.2⟩) hm) rfl)
    exact h.occ.put slot (occupied_of_parts (r := r) rfl (holders_map_hasPart r g fun x => (hg x).1)
      (h.occ.of_record hr))
  renewAll {s} n mask life h hl := by
    have hg : ∀ x : Holder, (if renewable n x then renewed life x else x).agent = x.agent := by
      intro x; split <;> rfl
    refine h.move (canon_law.renewAll n mask life h.canon hl) (formRec_law.state.renewAll n mask life h.recs hl)
      (h.occ.map (renewRecord n mask life) (fun p => ?_) rfl)
      (Rows.map (renewRecord n mask life) (fun p => ⟨renewRecord_slot n mask life p, ?_⟩) rfl)
    · unfold renewRecord
      split
      · exact ⟨rfl, holders_map_hasPart p.2 (fun x => if renewable n x then renewed life x else x) hg⟩
      · exact ⟨rfl, fun _ => rfl⟩
    · unfold renewRecord
      split
      · refine RowRec.map p.2 (fun x => if renewable n x then renewed life x else x) (fun x => ⟨hg x, ?_⟩) fun x => ?_
        · split <;> rfl
        · split
          · exact Or.inr hl
          · exact Or.inl rfl
      · exact RowRec.refl _
  words {s slot r} v h hr hv := by
    refine h.move (canon_law.words v h.canon hr hv) (formRec_law.state.words v h.recs hr hv) ?_
      (Rows.put (x := { r with value := v }) hr (RowRec.of_eq rfl rfl rfl) rfl)
    exact h.occ.put slot (occupied_of_parts (r := r) rfl (fun _ => rfl) (h.occ.of_record hr))
  mark {s slot r} b h hr hm := by
    refine h.move (canon_law.mark b h.canon hr hm) (formRec_law.state.mark b h.recs hr hm) ?_
      (Rows.put (x := { r with persistent := b }) hr (RowRec.of_eq rfl rfl rfl) rfl)
    refine h.occ.put slot ?_
    have ho := h.occ.of_record hr
    unfold Record.occupied at ho ⊢
    have he : ({ r with persistent := b } : Record).empty = r.empty := rfl
    rw [he]
    cases b with
    | true => rfl
    | false =>
      rcases hm with hm | hm
      · cases hm
      · cases hp : r.persistent <;> simp_all
  standby {s v n} mask d h ht hn hv hrec := by
    have ha : Alive s := by
      have h1 := settle_spec hv.canon hv.kept
      have h2 := alive_of_settled h1.2.1 h1.2.2 ((State.quiet_iff _).1 h1.1).1
      exact fun p hp => h2 p (hrec ▸ hp)
    exact ⟨canon_law.standby mask d h.canon ht hn hv.canon hrec, formRec_law.state.standby mask d h.recs ht hn hv.recs hrec,
      h.occ.enterStandby h.canon n mask d, h.placed.enterStandby n mask d, (ha.enterStandby n mask d).kept⟩
  define {s slot key} h ht hs hk hf hl := by
    refine ⟨canon_law.define h.canon ht hs hk hf hl, formRec_law.state.define h.recs ht hs hk hf hl,
      h.occ.put slot rfl, h.placed.create (x := newRecord key true) h.canon hk hf rfl, ?_⟩
    exact h.kept.put (x := newRecord key true) (by simp [newRecord]) rfl
  retire {s slot r} h hr := h.move (canon_law.retire h.canon hr) (formRec_law.state.retire h.recs hr)
    (Occ.retire (by
      have hf : ∀ (l : List Agent) (t : State), Occ t →
          Occ (l.foldl (fun t n => t.postPlain slot n (retireNotice r n)) t) := by
        intro l
        induction l with
        | nil => exact fun _ ht => ht
        | cons n l ih => exact fun t ht => ih _ (ht.same rfl)
      exact hf _ s h.occ) slot) (Rows.retireRule s slot r)
  retireEmpty {s slot r} h hr he := h.move (canon_law.retireEmpty h.canon hr he)
    (formRec_law.state.retireEmpty h.recs hr he) (h.occ.retire slot) (Rows.retire s slot)
  cleared _ hr hg _ hc _ := Formed.cleared hr hg hc
  sweep h ht := ⟨canon_law.sweep h.canon ht, formRec_law.state.sweep h.recs ht, fun _ hp => absurd hp List.not_mem_nil,
    ⟨fun _ hp => absurd hp List.not_mem_nil, fun _ hp => absurd hp List.not_mem_nil⟩,
    fun _ hp => absurd hp List.not_mem_nil⟩

end Sys2Proof.Machine
end

