-- ==== Sys2Proof/Laws/Lookup.lean ====
section
/-! SUPPORT. What the shared look-ups say, each once: keys and handles (R4, R11, R13), the holders of a record (R7, R25,
Tables 9, 10), the fields read out of bytes (R179, R182), and the two checks byte by byte (R3, R154). -/

namespace Sys2Proof.Machine

/-! ### Keys, ways and handles -/

/-- R4: a key is absent when no occupied way of its home bucket has it. -/
theorem findKey_eq_none_iff {s : State} {key : List Byte} :
    s.findKey key = none ↔ ∀ slot ∈ homeSlots key, ∀ r, s.record slot = some r → r.key ≠ key := by
  constructor
  · exact fun h slot hs r hr => findAmong_none h hs hr
  · intro h
    cases hf : s.findKey key with
    | none => rfl
    | some p => exact absurd (findKey_record hf).2.1 (h _ (findKey_record hf).2.2 _ (findKey_record hf).1)

/-- R11: the condition under which a handle is honoured, and what it then names. -/
theorem honoured_iff {s : State} {h : Half} {slot : Nat} {r : Record} :
    s.honoured h = some (slot, r) ↔
      slot = handleSlot h ∧ s.record slot = some r ∧ s.generation slot = handleGen h := by
  constructor
  · intro e
    obtain ⟨hr, rfl⟩ := honoured_record e
    refine ⟨rfl, hr, ?_⟩
    unfold State.honoured at e
    rw [hr] at e
    simp only at e
    split at e
    · assumption
    · cases e
  · rintro ⟨rfl, hr, hg⟩
    unfold State.honoured
    rw [hr]
    simp only [if_pos hg]

theorem mem_vacantWays_iff {s : State} {key : List Byte} {slot : Nat} :
    slot ∈ s.vacantWays key ↔ slot ∈ homeSlots key ∧ s.record slot = none := by
  simp [State.vacantWays]

theorem homeSlots_pairwise (key : List Byte) : (homeSlots key).Pairwise (· < ·) := by
  simp only [homeSlots, List.pairwise_cons, List.mem_cons, List.not_mem_nil, or_false, forall_eq_or_imp, forall_eq]
  refine ⟨⟨by omega, by omega, by omega⟩, ⟨by omega, by omega⟩, by omega, nofun, List.Pairwise.nil⟩

/-- R13: the VACANT ways stand in ascending order. -/
theorem vacantWays_pairwise (s : State) (key : List Byte) : (s.vacantWays key).Pairwise (· < ·) :=
  (homeSlots_pairwise key).filter _

/-- R10: an unlisted slot has generation 0, a listed one the generation listed. -/
theorem generation_iff {s : State} (hc : Canon s) {slot gen : Nat} (hg : gen ≠ 0) :
    s.generation slot = gen ↔ (slot, gen) ∈ s.generations := by
  rw [Sparse.mem_iff_find hc.generations, State.generation]
  cases Sparse.find slot s.generations with
  | none => simpa using hg.symm
  | some x => simp

theorem generation_lt {s : State} (hc : Canon s) (slot : Nat) : s.generation slot < 32 := by
  unfold State.generation
  cases h : Sparse.find slot s.generations with
  | none => decide
  | some g => exact (hc.range _ (Sparse.mem_of_find h)).2

theorem record_putRecord (s : State) (slot i : Nat) (x : Record) :
    (s.putRecord slot x).record i = if i = slot then some x else s.record i := by
  unfold State.record State.putRecord
  by_cases h : i = slot
  · rw [h, if_pos rfl, Sparse.find_put_same]
  · rw [if_neg h, Sparse.find_put_ne h]

/-! ### Holders and queues -/

theorem holder_some {r : Record} {n : Agent} {h : Holder} (e : r.holder n = some h) : h ∈ r.holders ∧ h.agent = n :=
  ⟨List.mem_of_find?_eq_some e, by simpa using List.find?_some e⟩

theorem holder_none_iff {r : Record} {n : Agent} : r.holder n = none ↔ ∀ h ∈ r.holders, h.agent ≠ n := by
  simp [Record.holder, List.find?_eq_none]

theorem claim_some {r : Record} {n : Agent} {c : Claim} (e : r.claim n = some c) : c ∈ r.queue ∧ c.agent = n :=
  ⟨List.mem_of_find?_eq_some e, by simpa using List.find?_some e⟩

theorem claim_none_iff {r : Record} {n : Agent} : r.claim n = none ↔ ∀ c ∈ r.queue, c.agent ≠ n := by
  simp [Record.claim, List.find?_eq_none]

theorem exclusiveHeld_iff {r : Record} : r.exclusiveHeld = true ↔ ∃ h ∈ r.holders, h.mode = .exclusive := by
  simp [Record.exclusiveHeld]

theorem exclusiveHeld_false_iff {r : Record} : r.exclusiveHeld = false ↔ ∀ h ∈ r.holders, h.mode = .shared := by
  rw [← Bool.not_eq_true, exclusiveHeld_iff]
  refine ⟨fun h x hx => ?_, fun h ⟨x, hx, e⟩ => ?_⟩
  · cases hm : x.mode with
    | shared => rfl
    | exclusive => exact absurd ⟨x, hx, hm⟩ h
  · rw [h x hx] at e; cases e

/-- R25, SHARED. -/
theorem compatible_shared_iff {r : Record} : r.compatible .shared = true ↔ ∀ h ∈ r.holders, h.mode = .shared := by
  rw [Record.compatible, Bool.not_eq_true', exclusiveHeld_false_iff]

/-- R25, EXCLUSIVE. -/
theorem compatible_exclusive_iff {r : Record} : r.compatible .exclusive = true ↔ r.holders = [] := by
  rw [Record.compatible, List.isEmpty_iff]

/-- Table 9, IDLE. -/
theorem reported_idle {r : Record} (h : r.holders = []) : r.reported = .idle := by
  simp [Record.reported, Record.exclusiveHeld, h]

/-- Table 9, EXCLUSIVE. -/
theorem reported_exclusive {r : Record} (h : ∃ x ∈ r.holders, x.mode = .exclusive) : r.reported = .exclusive := by
  rw [Record.reported, if_pos (exclusiveHeld_iff.2 h)]

/-- Table 9, SHARED and DRAINING. -/
theorem reported_shared {r : Record} (hn : r.holders ≠ []) (h : ∀ x ∈ r.holders, x.mode = .shared) :
    r.reported = match r.queue with
      | [] => .shared
      | c :: _ => if c.kind == .shared then .shared else .draining := by
  have h1 := exclusiveHeld_false_iff.2 h
  have h2 : r.holders.isEmpty = false := by simpa using hn
  cases hq : r.queue <;> simp only [Record.reported, h1, h2, hq, Bool.false_eq_true, if_false]

/-- Table 10: the standing of an agent that holds the record. -/
theorem standing_holder {r : Record} {n : Agent} {h : Holder} (e : r.holder n = some h) : r.standing n =
    match h.mode with
      | .exclusive => .exclusive
      | .shared => if r.waits n then .upgrading else .shared := by
  unfold Record.standing Record.waits
  rw [e]
  cases r.claim n <;> cases hm : h.mode <;> simp [hm]

/-- Table 10: the standing of an agent that does not hold the record. -/
theorem standing_outsider {r : Record} {n : Agent} (h : r.holds n = false) :
    r.standing n = if r.waits n then .queued else .none := by
  have e : r.holder n = none := by simpa [Record.holds] using h
  unfold Record.standing Record.waits
  rw [e]
  cases r.claim n <;> rfl

theorem insertHolder_perm (h : Holder) (l : List Holder) : (insertHolder h l).Perm (h :: l) := by
  induction l with
  | nil => exact List.Perm.refl _
  | cons g l ih =>
    unfold insertHolder
    split
    · exact List.Perm.refl _
    · exact (ih.cons g).trans (List.Perm.swap h g l)

/-- R9: what the last part of an event does to the record it may have emptied. -/
theorem retireIfEmpty_eq {s : State} {slot : Nat} {r : Record} (h : s.record slot = some r) :
    s.retireIfEmpty slot =
      if r.persistent = false ∧ r.holders = [] ∧ r.queue = [] then s.retire slot else s := by
  unfold State.retireIfEmpty
  rw [h]
  simp [Record.empty]

/-! ### Fields out of bytes -/

theorem halfAt_toNat (l : List Byte) (i : Nat) :
    (halfAt l i).toNat = 256 * (l.getD i 0).toNat + (l.getD (i + 1) 0).toNat := by
  simp only [halfAt, BitVec.toNat_append]
  rw [← Nat.shiftLeft_add_eq_or_of_lt (l.getD (i + 1) 0).isLt, Nat.shiftLeft_eq]
  omega

theorem wordAt_toNat (l : List Byte) (i : Nat) :
    (wordAt l i).toNat = 16777216 * (l.getD i 0).toNat + 65536 * (l.getD (i + 1) 0).toNat +
      256 * (l.getD (i + 2) 0).toNat + (l.getD (i + 3) 0).toNat := by
  simp only [wordAt, BitVec.toNat_append]
  rw [← Nat.shiftLeft_add_eq_or_of_lt (l.getD (i + 1) 0).isLt,
    ← Nat.shiftLeft_add_eq_or_of_lt (l.getD (i + 2) 0).isLt,
    ← Nat.shiftLeft_add_eq_or_of_lt (l.getD (i + 3) 0).isLt]
  simp only [Nat.shiftLeft_eq]
  omega

/-- R2, R182: when a mailbox request names a key, and which. -/
theorem validKey_iff {m : Management} {key : List Byte} :
    m.validKey = some key ↔ (1 ≤ m.keyLength ∧ m.keyLength ≤ 24) ∧ key = m.key := by
  have hk : keyLengthOk m.keyLength = true ↔ 1 ≤ m.keyLength ∧ m.keyLength ≤ 24 := by simp [keyLengthOk]
  unfold Management.validKey
  rw [← hk]
  split
  · rename_i h
    rw [Option.some.injEq]
    exact ⟨fun e => ⟨h, e.symm⟩, fun e => e.2.symm⟩
  · rename_i h
    exact ⟨nofun, fun e => absurd e.1 h⟩

/-- R182: the value words of the request fields. -/
theorem words_getD {m : Management} {w : Nat} (h : w < 8) : m.words.getD w 0 = wordAt m.fields (31 + 4 * w) := by
  simp [Management.words, eightWords, List.getD_eq_getElem?_getD, h]

/-! ### The two checks -/

theorem keyHash_concat (key : List Byte) (b : Byte) : keyHash (key ++ [b]) = hashByte (keyHash key) b := by
  simp [keyHash]

theorem frameCheck_concat (bytes : List Byte) (b : Byte) :
    frameCheck (bytes ++ [b]) = checkByte (frameCheck bytes) b := by
  simp [frameCheck]

end Sys2Proof.Machine
end

