-- ==== Sys2Proof/Laws/PerInstr.lean ====
section
/-! SUPPORT. One lemma for each command: how long the transaction is that carries it. -/

namespace Sys2Proof.Laws.TransactionLength

open Sys2Proof

/-- R148: a command that arrives as a transaction with a request in it has at least one whole byte. -/
def Statement (c : Instr) : Prop := c.wellFormed = true → ∀ x, c.carries = some x → 0 < x.2.2

/-- A command that is no request transaction. -/
theorem of_none {c : Instr} (h : c.carries = none) : Statement c := fun _ x hx => by
  rw [h] at hx; cases hx

/-- R153: a request frame has its three bytes beside the body. -/
theorem of_request {c : Instr} {n : Agent} {t : Transfer} {body : List Byte}
    (h : c.carries = some (n, t.start, requestLength body t.extra)) : Statement c := fun _ x hx => by
  rw [h] at hx; cases hx; show 0 < requestLength body t.extra; unfold requestLength; omega

theorem join (n : Agent) (t : Transfer) (body : List Byte) : Statement (.join n t body) := of_request rfl

theorem leave (n : Agent) (t : Transfer) (body : List Byte) : Statement (.leave n t body) := of_request rfl

theorem claim (n : Agent) (t : Transfer) (body : List Byte) : Statement (.claim n t body) := of_request rfl

theorem upgrade (n : Agent) (t : Transfer) (body : List Byte) : Statement (.upgrade n t body) := of_request rfl

theorem downgrade (n : Agent) (t : Transfer) (body : List Byte) : Statement (.downgrade n t body) := of_request rfl

theorem renew (n : Agent) (t : Transfer) (body : List Byte) : Statement (.renew n t body) := of_request rfl

theorem renewSet (n : Agent) (t : Transfer) (body : List Byte) : Statement (.renewSet n t body) := of_request rfl

theorem release (n : Agent) (t : Transfer) (body : List Byte) : Statement (.release n t body) := of_request rfl

theorem lookup (n : Agent) (t : Transfer) (body : List Byte) : Statement (.lookup n t body) := of_request rfl

theorem read (n : Agent) (t : Transfer) (body : List Byte) : Statement (.read n t body) := of_request rfl

theorem write (n : Agent) (t : Transfer) (body : List Byte) : Statement (.write n t body) := of_request rfl

theorem holdings (n : Agent) (t : Transfer) (body : List Byte) : Statement (.holdings n t body) := of_request rfl

theorem notices (n : Agent) (t : Transfer) (body : List Byte) : Statement (.notices n t body) := of_request rfl

theorem time (n : Agent) (t : Transfer) (body : List Byte) : Statement (.time n t body) := of_request rfl

theorem standby (n : Agent) (t : Transfer) (body : List Byte) : Statement (.standby n t body) := of_request rfl

theorem wake (n : Agent) (t : Transfer) (body : List Byte) : Statement (.wake n t body) := of_request rfl

theorem fetchOnlyTransaction (n : Agent) (start : TransactionStart) (total : Nat) : Statement (.fetchOnlyTransaction n start total) := of_none rfl

theorem requestDropped (n : Agent) (start : TransactionStart) (total : Nat) : Statement (.requestDropped n start total) := of_none rfl

theorem badFrame (n : Agent) (start : TransactionStart) (bytes : List Byte) : Statement (.badFrame n start bytes) := by
  intro hw x hx
  cases hx
  cases bytes with
  | nil => cases hw
  | cons b rest => exact Nat.succ_pos _

theorem badRequest (n : Agent) (t : Transfer) (code : Byte) (body : List Byte) : Statement (.badRequest n t code body) := of_request rfl

theorem responseMade (n : Agent) : Statement (.responseMade n) := of_none rfl

theorem set : Statement .set := of_none rfl

theorem define : Statement .define := of_none rfl

theorem retire : Statement .retire := of_none rfl

theorem mark : Statement .mark := of_none rfl

theorem seed : Statement .seed := of_none rfl

theorem inspect : Statement .inspect := of_none rfl

theorem evict : Statement .evict := of_none rfl

theorem softReset : Statement .softReset := of_none rfl

theorem mailboxBadRequest (code : Byte) : Statement (.mailboxBadRequest code) := of_none rfl

theorem statusRead (run : ReadRun) : Statement (.statusRead run) := of_none rfl

theorem resultRead (run : ReadRun) : Statement (.resultRead run) := of_none rfl

theorem registerWrite (address : Option Byte) (data : Option Byte) : Statement (.registerWrite address data) := of_none rfl

theorem powerOnReset : Statement .powerOnReset := of_none rfl

theorem pinReset : Statement .pinReset := of_none rfl

theorem resetEnd : Statement .resetEnd := of_none rfl

theorem sweepComplete : Statement .sweepComplete := of_none rfl

theorem trefPulse (ns : Nat) : Statement (.trefPulse ns) := of_none rfl

theorem missingPulse : Statement .missingPulse := of_none rfl

theorem dividerTick : Statement .dividerTick := of_none rfl

theorem leaseExpiry (slot : Nat) (n : Agent) : Statement (.leaseExpiry slot n) := of_none rfl

theorem waitExpiry (slot : Nat) (n : Agent) : Statement (.waitExpiry slot n) := of_none rfl

theorem upgradeWaitExpiry (slot : Nat) (n : Agent) : Statement (.upgradeWaitExpiry slot n) := of_none rfl

theorem standbyExpiry (n : Agent) : Statement (.standbyExpiry n) := of_none rfl

theorem creationEntryLeaves (n : Agent) : Statement (.creationEntryLeaves n) := of_none rfl

theorem holdoverLimitReached : Statement .holdoverLimitReached := of_none rfl

end Sys2Proof.Laws.TransactionLength
end

