-- ==== Sys2Proof/Laws/Whole.lean ====
section
/-! SUPPORT. Kept sets, quotas and creation windows (R108, R110, R116, R122), together with the form of the table and the
lease counts: the law of all the invariants that relate the records to the sessions. -/

namespace Sys2Proof.Machine

/-! ### The session unit's side of the table's work -/

/-- Retiring an empty record reaches no session. -/
theorem retireIfEmpty_session (s : State) (slot : Nat) (m : Agent) :
    (s.retireIfEmpty slot).session m = s.session m := by
  unfold State.retireIfEmpty
  split
  · rfl
  · rename_i r hr
    split
    · rename_i he
      simp only [Bool.and_eq_true] at he
      have h1 := empty_iff.1 he.2
      have h2 : agents.filter r.hasPart = [] := by
        rw [List.filter_eq_nil_iff]
        intro n _
        simp [h1 n]
      have h3 : r.holders = [] := by
        have := he.2
        simp only [Record.empty, Bool.and_eq_true, List.isEmpty_iff] at this
        exact this.1
      simp only [State.retire, hr, h2, h3, List.filter_nil, List.map_nil, List.foldl_nil]
      rfl
    · rfl

theorem grantCheck_session (s : State) (slot : Nat) (m : Agent) : (s.grantCheck slot).session m = s.session m := by
  rw [State.session, State.session, grantCheck_sessions]

/-- Leaving a record lowers one lease count and reaches no other session. -/
theorem leaveRecord_session {s : State} {slot : Nat} {r : Record} (hr : s.record slot = some r) (n m : Agent)
    (k : Option NoticeKind) : (s.leaveRecord slot n k).session m =
      if m = n then { s.session n with leaseCount := (s.session n).leaseCount - 1 } else s.session m := by
  unfold State.leaveRecord
  simp only [hr]
  rw [retireIfEmpty_session, grantCheck_session]
  cases k with
  | none => rw [State.losePart, setSession_session]; rfl
  | some k => rw [State.losePart, setSession_session]; rfl

theorem leaveRecord_session_ne (s : State) (slot : Nat) {n m : Agent} (h : m ≠ n) (k : Option NoticeKind) :
    (s.leaveRecord slot n k).session m = s.session m := by
  cases hr : s.record slot with
  | none => simp [State.leaveRecord, hr]
  | some r => rw [leaveRecord_session hr, if_neg h]

theorem removeAgent_session_ne (s : State) {n m : Agent} (h : m ≠ n) : (s.removeAgent n).session m = s.session m :=
  foldl_keeps (fun s t => t.session m = s.session m) (fun _ => rfl) (fun _ _ _ a b => b.trans a) _
    (fun t i => leaveRecord_session_ne t i h none) _ s

theorem expireUpgrade_session (s : State) (slot : Nat) (n m : Agent) :
    (s.expireUpgrade slot n).session m = s.session m := by
  unfold State.expireUpgrade
  split
  · rfl
  · rw [grantCheck_session]; rfl

theorem changeTime_session (s : State) (m : Monitor) (n : Agent) : (s.changeTime m).session n = s.session n := by
  unfold State.changeTime
  simp only
  split
  · rw [State.session, grantAll_sessions]; rfl
  · rfl

/-- The kept sets after each of the listed agents has lost a kept lease. -/
theorem foldl_loseKept_session (l : List Agent) (s : State) (m : Agent) :
    (l.foldl State.loseKept s).session m =
      { s.session m with standby := (s.session m).standby.map fun b => { b with kept := b.kept - l.count m } } := by
  have hid : ∀ o : Option Standby, o.map (fun b => { b with kept := b.kept - 0 }) = o := by
    intro o; cases o <;> rfl
  induction l generalizing s with
  | nil =>
    simp only [List.foldl_nil, List.count_nil, hid]
  | cons n l ih =>
    rw [List.foldl_cons, ih]
    by_cases hm : m = n
    · subst hm
      rw [State.loseKept, setSession_session_same, List.count_cons_self]
      cases hb : (s.session m).standby with
      | none => simp
      | some b =>
        simp only [Option.map_some]
        congr 3
        omega
    · rw [State.loseKept, setSession_session, if_neg hm, List.count_cons_of_ne (Ne.symm hm)]

theorem count_filter_kept {r : Record} (h : Asc r) (m : Agent) :
    ((r.holders.filter fun h => h.status == .kept).map fun h => h.agent).count m =
      if r.holders.any fun h => h.agent == m && h.status == .kept then 1 else 0 := by
  unfold Asc at h
  generalize r.holders = l at h ⊢
  induction l with
  | nil => rfl
  | cons x l ih =>
    rw [List.pairwise_cons] at h
    have hn : x.agent = m → ∀ y ∈ l, y.agent ≠ m := by
      intro e y hy e'
      have := h.1 y hy
      rw [e, e'] at this
      omega
    have h0 : x.agent = m → (l.any fun h => h.agent == m && h.status == .kept) = false := by
      intro e
      rw [List.any_eq_false]
      intro y hy
      simp [hn e y hy]
    rw [List.filter_cons, List.any_cons]
    by_cases hs : x.status = .kept
    · simp only [hs, beq_self_eq_true, if_true, List.map_cons, Bool.and_true]
      by_cases e : x.agent = m
      · rw [e, List.count_cons_self, ih h.2, h0 e]; simp
      · rw [List.count_cons_of_ne e, ih h.2]; simp [e]
    · have : (x.status == HolderStatus.kept) = false := by simpa using hs
      simp only [this, Bool.false_eq_true, if_false, Bool.and_false, Bool.false_or]
      exact ih h.2

/-- The sessions after a retirement (R16, R125). -/
theorem retire_session_eq {s : State} {slot : Nat} {r : Record} (hr : s.record slot = some r) (ha : Asc r) (m : Agent) :
    (s.retire slot).session m = { s.session m with
      leaseCount := if r.hasPart m then (s.session m).leaseCount - 1 else (s.session m).leaseCount,
      standby := if r.holders.any fun h => h.agent == m && h.status == .kept
        then (s.session m).standby.map fun b => { b with kept := b.kept - 1 } else (s.session m).standby } := by
  unfold State.retire
  simp only [hr]
  have hn : (agents.filter r.hasPart).Nodup := List.Nodup.filter _ (by decide)
  have h1 := foldl_losePart (agents.filter r.hasPart) hn s m
  have hmem : m ∈ agents.filter r.hasPart ↔ r.hasPart m = true := by
    rw [List.mem_filter]
    exact ⟨fun h => h.2, fun h => ⟨mem_agents m, h⟩⟩
  have h2 := foldl_loseKept_session ((r.holders.filter fun h => h.status == .kept).map fun h => h.agent)
    ((agents.filter r.hasPart).foldl State.losePart s) m
  rw [count_filter_kept ha m] at h2
  show (State.session _ m) = _
  refine Eq.trans (show State.session _ m = State.session _ m from rfl) (h2.trans ?_)
  rw [h1]
  cases hp : r.hasPart m with
  | false =>
    rw [if_neg (by rw [hmem]; simp [hp])]
    split <;> simp
  | true =>
    rw [if_pos (hmem.2 hp)]
    split <;> simp

/-! ### Kept sets -/

/-- What a standby's table side keeps: waiting agents and statuses come from before. -/
def Stat (s t : State) : Prop := ∀ p ∈ t.records, ∃ q ∈ s.records, (∀ n, p.2.waits n = true → q.2.waits n = true) ∧
  ∀ h ∈ p.2.holders, (∃ g ∈ q.2.holders, g.agent = h.agent ∧ g.status = h.status) ∨
    (h.status = .running ∧ q.2.waits h.agent = true)

theorem Rows.stat {s t : State} (h : Rows s t) : Stat s t := by
  intro p hp
  obtain ⟨q, hq, _, _, hw, hh⟩ := h p hp
  refine ⟨q, hq, hw, fun x hx => ?_⟩
  rcases hh x hx with ⟨g, hg, a, b, _⟩ | ⟨a, _, b⟩
  · exact Or.inl ⟨g, hg, a, b⟩
  · exact Or.inr ⟨a, b⟩

/-- A STANDBY agent has no claim, and KEPT leases alone. -/
def AllKept (n : Agent) (s : State) : Prop :=
  ∀ p ∈ s.records, p.2.waits n = false ∧ ∀ h ∈ p.2.holders, h.agent = n → h.status = .kept

/-- Every other agent's leases are RUNNING. -/
def AllRunning (n : Agent) (s : State) : Prop :=
  ∀ p ∈ s.records, ∀ h ∈ p.2.holders, h.agent = n → h.status = .running

theorem AllKept.stat {n : Agent} {s t : State} (h : AllKept n s) (hr : Stat s t) : AllKept n t := by
  intro p hp
  obtain ⟨q, hq, hw, hh⟩ := hr p hp
  obtain ⟨h1, h2⟩ := h q hq
  refine ⟨Bool.eq_false_iff.2 fun hc => ?_, fun x hx e => ?_⟩
  · have := hw n hc
    rw [h1] at this; cases this
  · rcases hh x hx with ⟨g, hg, a, b⟩ | ⟨_, b⟩
    · exact b ▸ h2 g hg (a.trans e)
    · rw [e, h1] at b; cases b

theorem AllRunning.stat {n : Agent} {s t : State} (h : AllRunning n s) (hr : Stat s t) : AllRunning n t := by
  intro p hp x hx e
  obtain ⟨q, hq, _, hh⟩ := hr p hp
  rcases hh x hx with ⟨g, hg, a, b⟩ | ⟨a, _⟩
  · exact b ▸ h q hq g hg (a.trans e)
  · exact a

/-- R116, R122, for one agent. -/
def KeptSet (s : State) (n : Agent) : Prop :=
  ((s.session n).state = .standby → AllKept n s ∧
    ∃ b, (s.session n).standby = some b ∧ b.kept = (s.session n).leaseCount) ∧
  ((s.session n).state ≠ .standby → AllRunning n s ∧ (s.session n).standby = none)

theorem KeptSet.move {s t : State} {n : Agent} (h : KeptSet s n) (hr : Stat s t)
    (hs : (t.session n).state = (s.session n).state) (hb : (s.session n).standby = none → (t.session n).standby = none)
    (hk : ∀ b, (s.session n).state = .standby → (s.session n).standby = some b → b.kept = (s.session n).leaseCount →
      ∃ c, (t.session n).standby = some c ∧ c.kept = (t.session n).leaseCount) : KeptSet t n := by
  refine ⟨fun ht => ?_, fun ht => ?_⟩
  · rw [hs] at ht
    obtain ⟨a, b, c, d⟩ := h.1 ht
    exact ⟨a.stat hr, hk b ht c d⟩
  · rw [hs] at ht
    obtain ⟨a, b⟩ := h.2 ht
    exact ⟨a.stat hr, hb b⟩

theorem KeptSet.stands {s t : State} {n : Agent} (h : KeptSet s n) (hr : Stat s t) (hs : t.session n = s.session n) :
    KeptSet t n := h.move hr (by rw [hs]) (by rw [hs]; exact id) fun b _ hb hk => ⟨b, by rw [hs]; exact hb, by rw [hs]; exact hk⟩

/-- A change of an agent that is not in STANDBY. -/
theorem KeptSet.active {s t : State} {n : Agent} (h : KeptSet s n) (hr : Stat s t)
    (hn : (s.session n).state ≠ .standby) (hs : (t.session n).state ≠ .standby)
    (hb : (t.session n).standby = (s.session n).standby) : KeptSet t n := by
  obtain ⟨a, b⟩ := h.2 hn
  exact ⟨fun hc => absurd hc hs, fun _ => ⟨a.stat hr, hb.trans b⟩⟩

theorem KeptSet.not_standby {s : State} {n : Agent} (h : KeptSet s n) {slot : Nat} {r : Record}
    (hr : s.record slot = some r)
    (ha : (s.session n).state = .active ∨ (∃ h ∈ r.holders, h.agent = n ∧ h.status = .running) ∨ r.waits n = true) :
    (s.session n).state ≠ .standby := by
  intro hs
  obtain ⟨hk, _⟩ := h.1 hs
  obtain ⟨h1, h2⟩ := hk _ (Sparse.mem_of_find hr)
  rcases ha with ha | ⟨x, hx, e, hst⟩ | ha
  · rw [hs] at ha; cases ha
  · have := h2 x hx e
    rw [hst] at this; cases this
  · rw [h1] at ha; cases ha

/-- R108, R110, for one agent. -/
def Within (s : State) (n : Agent) : Prop :=
  (s.session n).leaseCount ≤ s.settings.quota.get n ∧ (s.session n).window.length ≤ s.settings.createBurst

theorem Within.move {s t : State} {n : Agent} (h : Within s n) (hst : t.settings = s.settings)
    (hl : (t.session n).leaseCount ≤ (s.session n).leaseCount)
    (hw : (t.session n).window.length ≤ (s.session n).window.length) : Within t n := by
  unfold Within at *
  rw [hst]
  exact ⟨Nat.le_trans hl h.1, Nat.le_trans hw h.2⟩

theorem Within.stands {s t : State} {n : Agent} (h : Within s n) (hst : t.settings = s.settings)
    (hs : t.session n = s.session n) : Within t n := h.move hst (by rw [hs]) (by rw [hs])

/-! ### Entering standby -/

/-- A claim alone, or a lease of an unselected partition, leaves as by RELEASE (R118 steps 2 and 3). -/
theorem enterStandbyAt_leaves {n : Agent} {mask : Byte} {s : State} {c : EntryCount} {slot : Nat} {r : Record}
    (hr : s.record slot = some r) (hp : r.hasPart n = true)
    (hl : r.holds n = false ∨ maskSelects mask slot = false) :
    State.enterStandbyAt n mask (s, c) slot = (s.leaveRecord slot n none, { c with left := c.left + 1 }) := by
  have hdh : (r.dropAgent n).holds n = false := by rw [dropAgent_holds]; simp
  have heq : (r.dropClaim n).dropHolder n = r.dropAgent n := rfl
  cases h1 : r.holds n with
  | false =>
    have h2 : r.waits n = true := by simpa [Record.hasPart, h1] using hp
    have hdr : r.dropClaim n = r.dropAgent n := (dropHolder_eq (r := r.dropClaim n) h1).symm
    simp only [State.enterStandbyAt, hr, h1, h2, Bool.false_and, Bool.false_eq_true, if_false, Bool.or_false,
      Bool.true_and, hdr, hdh, Bool.not_false, if_true, State.leaveRecord]
  | true =>
    have hm : maskSelects mask slot = false := by
      rcases hl with hl | hl
      · rw [h1] at hl; cases hl
      · exact hl
    simp only [State.enterStandbyAt, hr, h1, hm, Bool.true_and, Bool.not_false, if_true, Bool.or_true, heq, hdh,
      Bool.false_eq_true, if_false, State.leaveRecord]

/-- A lease of a selected partition is kept, after its queued UPGRADE, if any, is withdrawn (R118 steps 1, 4, 5). -/
theorem enterStandbyAt_keeps {n : Agent} {mask : Byte} {s : State} {c : EntryCount} {slot : Nat} {r : Record}
    (hr : s.record slot = some r) (hh : r.holds n = true) (hm : maskSelects mask slot = true) :
    ∃ (u : State) (x : Record), State.enterStandbyAt n mask (s, c) slot =
        (u.putRecord slot (x.mapHolder n keepHolder), { c with kept := c.kept + 1 }) ∧
      u.record slot = some x ∧ RowRec (r.dropClaim n) x ∧ Rows s u ∧ (∀ i, i ≠ slot → u.record i = s.record i) ∧
      (∀ m, u.session m = s.session m) ∧ u.settings = s.settings ∧ (Canon s → Canon u) := by
  have hdc : (r.dropClaim n).holds n = true := hh
  cases hw : r.waits n with
  | false =>
    have hd := dropClaim_eq hw
    refine ⟨s.putRecord slot r, r, ?_, putRecord_record_same _ _ _, by rw [hd]; exact RowRec.refl r,
      Rows.put hr (RowRec.refl r) rfl, fun i hi => putRecord_record_ne s hi r, fun _ => rfl, rfl,
      fun hc => hc.putRecord (hc.slot_lt hr) r⟩
    simp only [State.enterStandbyAt, hr, hh, hw, hm, Bool.not_true, Bool.and_false, Bool.false_eq_true, if_false,
      Bool.or_false, hd, if_true, putRecord_record_same]
  | true =>
    have hrec := grantCheck_record_same (putRecord_record_same s slot (r.dropClaim n))
    have hri : ((s.putRecord slot (r.dropClaim n)).grantCheck slot).retireIfEmpty slot =
        (s.putRecord slot (r.dropClaim n)).grantCheck slot := by
      unfold State.retireIfEmpty
      rw [hrec]
      simp only
      split
      · rename_i he
        simp only [Bool.and_eq_true] at he
        have h1 := empty_iff.1 he.2 n
        rw [grantRun_hasPart, Record.hasPart, hdc] at h1
        simp at h1
      · rfl
    refine ⟨(s.putRecord slot (r.dropClaim n)).grantCheck slot, _, ?_, hrec, RowRec.grantRun _ _ _ _,
      (Rows.put hr (RowRec.dropClaim r n) rfl).trans (Rows.grantCheck _ slot), fun i hi => ?_, fun m => ?_,
      (grantCheck_tableOnly _ slot).2.2.2.2.2.1, fun hc => (hc.putRecord (hc.slot_lt hr) _).grantCheck slot⟩
    · simp only [State.enterStandbyAt, hr, hh, hw, hm, Bool.not_true, Bool.and_false, Bool.false_eq_true, if_false,
        Bool.or_false, hdc, if_true, hri, hrec]
    · rw [grantCheck_record_ne _ hi, putRecord_record_ne s hi]
    · rw [grantCheck_session]; rfl

/-- How far a standby's entry has come; `l` are the slots still to visit. -/
structure Entering (n : Agent) (l : List Nat) (p : State × EntryCount) : Prop where
  canon : Canon p.1
  others : ∀ m, m ≠ n → KeptSet p.1 m
  within : ∀ m, Within p.1 m
  active : (p.1.session n).state = .active ∧ (p.1.session n).standby = none
  visited : ∀ i, i ∉ l → ∀ r, p.1.record i = some r → r.waits n = false ∧ ∀ h ∈ r.holders, h.agent = n → h.status = .kept
  ahead : ∀ i ∈ l, ∃ r, p.1.record i = some r ∧ r.hasPart n = true
  count : p.2.kept + l.length = (p.1.session n).leaseCount

theorem Entering.visit {n : Agent} {mask : Byte} {a : Nat} {l : List Nat} {p : State × EntryCount} (hl : a ∉ l)
    (h : Entering n (a :: l) p) : Entering n l (State.enterStandbyAt n mask p a) := by
  obtain ⟨s, c⟩ := p
  obtain ⟨r, hr, hp⟩ := h.ahead a (by simp)
  have hcount := h.count
  simp only [List.length_cons] at hcount
  by_cases hleave : r.holds n = false ∨ maskSelects mask a = false
  · rw [enterStandbyAt_leaves hr hp hleave]
    have hsn := leaveRecord_session hr n n none
    rw [if_pos rfl] at hsn
    refine ⟨h.canon.leaveRecord a n none, fun m hm => ?_, fun m => ?_, ?_, fun i hi x hx => ?_, fun i hi => ?_, ?_⟩
    · exact (h.others m hm).stands (Rows.leaveRecord s a n none).stat (leaveRecord_session_ne s a hm none)
    · by_cases hm : m = n
      · subst hm
        refine (h.within m).move (leaveRecord_tableOnly s a m none).2.2.2.2.2.1 ?_ ?_
        · rw [hsn]; exact Nat.sub_le _ _
        · rw [hsn]
      · exact (h.within m).stands (leaveRecord_tableOnly s a n none).2.2.2.2.2.1 (leaveRecord_session_ne s a hm none)
    · rw [hsn]; exact h.active
    · by_cases he : i = a
      · subst he
        have hno := leaveRecord_gone h.canon hx
        rw [Record.hasPart, Bool.or_eq_false_iff] at hno
        refine ⟨hno.2, fun y hy e => ?_⟩
        have : x.holds n = true := holds_iff.2 ⟨y, hy, e⟩
        rw [hno.1] at this; cases this
      · rw [leaveRecord_record_ne s he] at hx
        exact h.visited i (by simp [he, hi]) x hx
    · obtain ⟨x, hx, hxp⟩ := h.ahead i (List.mem_cons_of_mem _ hi)
      refine ⟨x, ?_, hxp⟩
      rw [leaveRecord_record_ne s (fun e => hl (by rw [← e]; exact hi))]
      exact hx
    · rw [hsn]
      show c.kept + l.length = (s.session n).leaseCount - 1
      omega
  · simp only [not_or, Bool.not_eq_false] at hleave
    obtain ⟨u, x, he, hx, hrow, hrows, hne, hses, hset, hcan⟩ := enterStandbyAt_keeps (c := c) hr hleave.1 hleave.2
    rw [he]
    have hcu := hcan h.canon
    have hst : ∀ m, m ≠ n → KeptSet u m := fun m hm => (h.others m hm).stands hrows.stat (hses m)
    have hput : ∀ m, m ≠ n → ∀ q ∈ (u.putRecord a (x.mapHolder n keepHolder)).records, ∃ o ∈ u.records,
        (q.2.waits m = true → o.2.waits m = true) ∧
        ∀ y ∈ q.2.holders, y.agent = m → ∃ g ∈ o.2.holders, g.agent = y.agent ∧ g.status = y.status := by
      intro m hm q hq
      rcases Sparse.mem_put hq with rfl | hq
      · refine ⟨_, Sparse.mem_of_find hx, fun hw => hw, fun y hy e => ?_⟩
        obtain ⟨z, hz, rfl⟩ := List.mem_map.1 hy
        by_cases hzn : z.agent = n
        · simp only [hzn, beq_self_eq_true, if_true] at e
          exact absurd (e.symm.trans hzn) hm
        · have hb : (z.agent == n) = false := by simpa using hzn
          simp only [hb, Bool.false_eq_true, if_false]
          exact ⟨z, hz, rfl, rfl⟩
      · exact ⟨q, hq, fun hw => hw, fun y hy _ => ⟨y, hy, rfl, rfl⟩⟩
    refine ⟨hcu.putRecord (hcu.slot_lt hx) _, fun m hm => ?_, fun m => ?_, ?_, fun i hi y hy => ?_, fun i hi => ?_, ?_⟩
    · refine ⟨fun hs => ?_, fun hs => ?_⟩
      · obtain ⟨ak, b⟩ := (hst m hm).1 hs
        refine ⟨fun q hq => ?_, b⟩
        obtain ⟨o, ho, hw, hh⟩ := hput m hm q hq
        refine ⟨Bool.eq_false_iff.2 fun hc => ?_, fun y hy e => ?_⟩
        · have h1 := hw hc
          rw [(ak o ho).1] at h1; cases h1
        · obtain ⟨g, hg, e1, e2⟩ := hh y hy e
          exact e2 ▸ (ak o ho).2 g hg (e1.trans e)
      · obtain ⟨ar, b⟩ := (hst m hm).2 hs
        refine ⟨fun q hq y hy e => ?_, b⟩
        obtain ⟨o, ho, _, hh⟩ := hput m hm q hq
        obtain ⟨g, hg, e1, e2⟩ := hh y hy e
        exact e2 ▸ ar o ho g hg (e1.trans e)
    · exact (h.within m).stands hset (hses m)
    · show (u.session n).state = _ ∧ (u.session n).standby = none
      rw [hses]; exact h.active
    · by_cases hia : i = a
      · subst hia
        rw [putRecord_record_same] at hy
        cases hy
        refine ⟨?_, fun z hz e => ?_⟩
        · show x.waits n = false
          refine Bool.eq_false_iff.2 fun hc => ?_
          have h1 := hrow.2.1 n hc
          rw [dropClaim_waits] at h1
          simp at h1
        · obtain ⟨w, hw, rfl⟩ := List.mem_map.1 hz
          by_cases hwn : w.agent = n
          · simp [hwn, keepHolder]
          · have hb : (w.agent == n) = false := by simpa using hwn
            simp only [hb, Bool.false_eq_true, if_false] at e
            exact absurd e hwn
      · rw [putRecord_record_ne _ hia, hne i hia] at hy
        exact h.visited i (by simp [hia, hi]) y hy
    · obtain ⟨y, hy, hyp⟩ := h.ahead i (List.mem_cons_of_mem _ hi)
      have hia : i ≠ a := fun e => hl (by rw [← e]; exact hi)
      refine ⟨y, ?_, hyp⟩
      rw [putRecord_record_ne _ hia, hne i hia]
      exact hy
    · show c.kept + 1 + l.length = (u.session n).leaseCount
      rw [hses]
      show c.kept + 1 + l.length = (s.session n).leaseCount
      have : c.kept + (l.length + 1) = (s.session n).leaseCount := hcount
      omega

theorem Entering.foldl {n : Agent} {mask : Byte} (l : List Nat) (hl : l.Nodup) {p : State × EntryCount}
    (h : Entering n l p) : Entering n [] (l.foldl (State.enterStandbyAt n mask) p) := by
  induction l generalizing p with
  | nil => exact h
  | cons a l ih =>
    rw [List.nodup_cons] at hl
    exact ih hl.2 (h.visit hl.1)

/-! ### The law -/

/-- All the invariants that relate the records, the sessions, the cells and the settings. -/
structure Whole (s : State) : Prop where
  formed : Formed s
  counted : Counted s
  kept : ∀ n, KeptSet s n
  within : ∀ n, Within s n

theorem whole_iff (s : State) :
    (s.canonical && s.recordsFormed && s.placed && s.keptAlive && s.counted && s.outsidersEmpty && s.sweepEmpty &&
      s.withinQuota && s.windowsBounded && s.standbyKept) = true ↔ Whole s := by
  have hq : s.recordsFormed = true → s.everyRecord Record.queueOrdered = true := by
    simp only [State.recordsFormed, State.everyRecord, List.all_eq_true, Bool.and_eq_true]
    exact fun h p hp => (h p hp).1.1.2
  have hw : (s.withinQuota && s.windowsBounded) = true ↔ ∀ n, Within s n := by
    unfold State.withinQuota State.windowsBounded
    rw [Bool.and_eq_true, all_agents, all_agents]
    simp only [decide_eq_true_eq]
    exact ⟨fun h n => ⟨h.1 n, h.2 n⟩, fun h => ⟨fun n => (h n).1, fun n => (h n).2⟩⟩
  have hk : Counted s → (s.standbyKept = true ↔ ∀ n, KeptSet s n) := by
    intro hc
    have hr : ∀ n, (s.everyRecord fun r => r.holders.all fun h => h.agent != n || h.status == .running) = true ↔
        AllRunning n s := by
      intro n
      simp only [State.everyRecord, List.all_eq_true, Bool.or_eq_true, bne_iff_ne, ne_eq, beq_iff_eq, AllRunning]
      exact forall₄_congr fun p _ h _ => by rw [imp_iff_not_or]
    have hkk : ∀ n, (s.everyRecord fun r => !r.waits n && r.holders.all fun h => h.agent != n || h.status == .kept)
        = true ↔ AllKept n s := by
      intro n
      simp only [State.everyRecord, List.all_eq_true, Bool.and_eq_true, Bool.not_eq_true', Bool.or_eq_true, bne_iff_ne,
        ne_eq, beq_iff_eq, AllKept]
      exact forall₂_congr fun p _ => and_congr_right fun _ => forall₂_congr fun h _ => by rw [imp_iff_not_or]
    unfold State.standbyKept
    rw [all_agents]
    refine forall_congr' fun n => ?_
    unfold KeptSet
    rw [← hr, ← hkk, hc.1.count n]
    cases hs : (s.session n).state with
    | standby =>
      simp only [Bool.and_eq_true, forall_const, ne_eq, not_true_eq_false, false_implies, and_true]
      refine and_congr_right fun _ => ?_
      cases hb : (s.session n).standby <;> simp
    | active => simp
    | unjoined => simp
    | evicted => simp
  constructor
  · intro h
    simp only [Bool.and_eq_true] at h
    obtain ⟨⟨⟨⟨⟨⟨⟨⟨⟨a, b⟩, c⟩, d⟩, e⟩, f⟩, g⟩, i⟩, j⟩, k⟩ := h
    have hc : Counted s := (counted_iff s).1 (by simp [a, hq b, e, f, g])
    exact ⟨(formed_iff s).1 (by simp [a, b, c, d]), hc, (hk hc).1 k, hw.1 (by simp [i, j])⟩
  · intro h
    have h1 := (formed_iff s).2 h.formed
    have h2 := (counted_iff s).2 h.counted
    have h3 := hw.2 h.within
    have h4 := (hk h.counted).2 h.kept
    simp only [Bool.and_eq_true] at *
    exact ⟨⟨⟨⟨⟨⟨h1, h2.1.1.2⟩, h2.1.2⟩, h2.2⟩, h3.1⟩, h3.2⟩, h4⟩

theorem Whole.cleared {t : State} (hr : t.records = []) (hg : t.generations = [])
    (hs : ∀ n, t.session n = Session.reset) (hc : ∀ n, t.cells.get n = []) : Whole t := by
  have hn : ∀ p, p ∉ t.records := fun p hp => by rw [hr] at hp; cases hp
  refine ⟨Formed.cleared hr hg hc, Counted.cleared hr hg hs hc, fun n => ⟨fun h => ?_, fun _ => ⟨fun p hp => ?_, ?_⟩⟩,
    fun n => ?_⟩
  · rw [hs] at h; cases h
  · exact absurd hp (hn p)
  · rw [hs]; rfl
  · unfold Within; rw [hs]; exact ⟨Nat.zero_le _, Nat.zero_le _⟩

theorem Whole.holdReset (s : State) : Whole s.holdReset :=
  Whole.cleared rfl rfl (fun n => PerAgent.get_all _ n) fun n => PerAgent.get_all _ n

/-- A change that reaches no session and no setting. -/
theorem Whole.rows {s t : State} (h : Whole s) (hf : Formed t) (hc : Counted t) (hr : Stat s t)
    (hs : ∀ n, t.session n = s.session n) (hst : t.settings = s.settings) : Whole t :=
  ⟨hf, hc, fun n => (h.kept n).stands hr (hs n), fun n => (h.within n).stands hst (hs n)⟩

theorem change_quota {st st' : Settings} {k : Setting} {v : Nat} (h : st.change k v = some st') (n : Agent)
    (hk : k ≠ .quota n) : st'.quota.get n = st.quota.get n := by
  cases k with
  | quota m =>
    simp only [Settings.change] at h
    split at h
    · cases h
      exact PerAgent.get_set_ne _ (fun e => hk (by rw [e])) _
    · cases h
  | derate => simp only [Settings.change, Option.map_eq_some_iff] at h; obtain ⟨d, _, rfl⟩ := h; rfl
  | timeSource => simp only [Settings.change, Option.map_eq_some_iff] at h; obtain ⟨d, _, rfl⟩ := h; rfl
  | _ =>
    simp only [Settings.change] at h
    split at h
    · cases h; rfl
    · cases h

theorem change_burst {st st' : Settings} {k : Setting} {v : Nat} (h : st.change k v = some st')
    (hk : k ≠ .createBurst) : st'.createBurst = st.createBurst := by
  cases k with
  | createBurst => exact absurd rfl hk
  | derate => simp only [Settings.change, Option.map_eq_some_iff] at h; obtain ⟨d, _, rfl⟩ := h; rfl
  | timeSource => simp only [Settings.change, Option.map_eq_some_iff] at h; obtain ⟨d, _, rfl⟩ := h; rfl
  | _ =>
    simp only [Settings.change] at h
    split at h
    · cases h; rfl
    · cases h

theorem grantNow_session (s : State) (slot : Nat) (r : Record) (n m : Agent) (mode : Mode) (requested : Nat) :
    (s.grantNow slot r n mode requested).1.session m =
      if m = n then { s.session n with leaseCount := (s.session n).leaseCount + 1 } else s.session m := by
  cases mode <;> exact setSession_session _ _ _ _

theorem grantNow_settings (s : State) (slot : Nat) (r : Record) (n : Agent) (mode : Mode) (requested : Nat) :
    (s.grantNow slot r n mode requested).1.settings = s.settings := by cases mode <;> rfl

/-- A holder entry of an agent that is not in STANDBY joins a record. -/
theorem KeptSet.granted {s t : State} {n m : Agent} (h : KeptSet s m) (hn : (s.session n).state = .active) {slot : Nat}
    {r : Record} {x : Holder} {e : Epoch} (hx : x.status = .running) (hxa : x.agent = n)
    (hr : ∀ y ∈ r.holders, (slot, r) ∈ s.records ∨ y ∉ r.holders) (hq : r.queue = [])
    (ht : t.records = Sparse.put slot { r with lastEpoch := e, holders := insertHolder x r.holders } s.records)
    (hs : (t.session m).state = (s.session m).state) (hb : (t.session m).standby = (s.session m).standby)
    (hl : m ≠ n → (t.session m).leaseCount = (s.session m).leaseCount) : KeptSet t m := by
  have hold : ∀ p ∈ t.records, p ∈ s.records ∨
      (p.2.queue = [] ∧ ∀ y ∈ p.2.holders, y = x ∨ (y ∈ r.holders ∧ (slot, r) ∈ s.records)) := by
    intro p hp
    rw [ht] at hp
    rcases Sparse.mem_put hp with rfl | hp
    · refine Or.inr ⟨hq, fun y hy => ?_⟩
      rcases mem_insertHolder.1 hy with hy | hy
      · exact Or.inl hy
      · exact Or.inr ⟨hy, (hr y hy).resolve_right fun hc => hc hy⟩
    · exact Or.inl hp
  refine ⟨fun hst => ?_, fun hst => ?_⟩
  · rw [hs] at hst
    have hmn : m ≠ n := by rintro rfl; rw [hn] at hst; cases hst
    obtain ⟨ak, b, hb1, hb2⟩ := h.1 hst
    refine ⟨fun p hp => ?_, b, hb.trans hb1, (hl hmn).symm ▸ hb2⟩
    rcases hold p hp with hp | ⟨hq0, hh⟩
    · exact ak p hp
    · refine ⟨?_, fun y hy ey => ?_⟩
      · simp [Record.waits, Record.claim, hq0]
      · rcases hh y hy with rfl | ⟨hy, hm⟩
        · exact absurd (ey.symm.trans hxa) hmn
        · exact (ak _ hm).2 y hy ey
  · rw [hs] at hst
    obtain ⟨ar, b⟩ := h.2 hst
    refine ⟨fun p hp y hy ey => ?_, hb.trans b⟩
    rcases hold p hp with hp | ⟨_, hh⟩
    · exact ar p hp y hy ey
    · rcases hh y hy with rfl | ⟨hy, hm⟩
      · exact hx
      · exact ar _ hm y hy ey

/-- A claim of an agent that is not in STANDBY joins a queue. -/
theorem KeptSet.queued {s t : State} {n m : Agent} (h : KeptSet s m) (hn : (s.session n).state = .active) {slot : Nat}
    {r x : Record} (hr : s.record slot = some r) (hh : x.holders = r.holders)
    (hw : ∀ k, x.waits k = true → r.waits k = true ∨ k = n)
    (ht : t.records = Sparse.put slot x s.records)
    (hs : (t.session m).state = (s.session m).state) (hb : (t.session m).standby = (s.session m).standby)
    (hl : m ≠ n → (t.session m).leaseCount = (s.session m).leaseCount) : KeptSet t m := by
  refine ⟨fun hst => ?_, fun hst => ?_⟩
  · rw [hs] at hst
    have hmn : m ≠ n := by rintro rfl; rw [hn] at hst; cases hst
    obtain ⟨ak, b, hb1, hb2⟩ := h.1 hst
    refine ⟨fun p hp => ?_, b, hb.trans hb1, (hl hmn).symm ▸ hb2⟩
    rw [ht] at hp
    rcases Sparse.mem_put hp with rfl | hp
    · obtain ⟨a1, a2⟩ := ak _ (Sparse.mem_of_find hr)
      refine ⟨Bool.eq_false_iff.2 fun hc => ?_, fun y hy => a2 y (hh ▸ hy)⟩
      rcases hw m hc with hc | hc
      · rw [a1] at hc; cases hc
      · exact hmn hc
    · exact ak p hp
  · rw [hs] at hst
    obtain ⟨ar, b⟩ := h.2 hst
    refine ⟨fun p hp y hy ey => ?_, hb.trans b⟩
    rw [ht] at hp
    rcases Sparse.mem_put hp with rfl | hp
    · exact ar _ (Sparse.mem_of_find hr) y (hh ▸ hy) ey
    · exact ar p hp y hy ey

/-- All these invariants are kept by every event. -/
theorem whole_law : StateLaw Whole where
  plain {s t} hr hg he hc hm ht hst hs h := by
    refine ⟨formed_law.plain hr hg he hc hm ht hst hs h.formed, counted_law.plain hr hg he hc hm ht hst hs h.counted,
      fun n => ?_, fun n => ?_⟩
    · obtain ⟨a, b, _, d⟩ := hs n
      exact (h.kept n).move (Rows.same hr).stat a (fun e => d.trans e) fun x _ hx hk => ⟨x, d.trans hx, hk.trans b.symm⟩
    · obtain ⟨_, b, c, _⟩ := hs n
      exact (h.within n).move hst (by rw [b]) (by rw [c])
  setting {s k v st} h hc hl := by
    refine ⟨formed_law.setting h.formed hc hl, counted_law.setting h.counted hc hl,
      fun n => (h.kept n).stands (Rows.same rfl).stat rfl, fun n => ?_⟩
    have hw := h.within n
    refine ⟨?_, ?_⟩
    · show (s.session n).leaseCount ≤ st.quota.get n
      by_cases hk : k = .quota n
      · subst hk
        have hj : (s.session n).state.joined = false := hl
        rw [h.counted.1.count n, (h.counted.1.out n hj).1]
        exact Nat.zero_le _
      · rw [change_quota hc n hk]; exact hw.1
    · show (s.session n).window.length ≤ st.createBurst
      by_cases hk : k = .createBurst
      · subst hk
        have ha : s.anyJoined = false := hl
        have hj : (s.session n).state.joined = false := by
          unfold State.anyJoined at ha
          rw [List.any_eq_false] at ha
          simpa using ha n (mem_agents n)
        rw [(h.counted.1.out n hj).2.1]
        exact Nat.zero_le _
      · rw [change_burst hc hk]; exact hw.2
  leave {s slot r n} k h hr hp ha := by
    have hns := (h.kept n).not_standby hr ha
    have hset : (s.leaveRecord slot n k).settings = s.settings := (leaveRecord_tableOnly s slot n k).2.2.2.2.2.1
    have hsn := leaveRecord_session hr n n k
    rw [if_pos rfl] at hsn
    refine ⟨formed_law.leave k h.formed hr hp ha, counted_law.leave k h.counted hr hp ha, fun m => ?_, fun m => ?_⟩
    · by_cases hm : m = n
      · subst hm
        exact (h.kept m).active (Rows.leaveRecord s slot m k).stat hns (by rw [hsn]; exact hns) (by rw [hsn])
      · exact (h.kept m).stands (Rows.leaveRecord s slot n k).stat (leaveRecord_session_ne s slot hm k)
    · by_cases hm : m = n
      · subst hm
        exact (h.within m).move hset (by rw [hsn]; exact Nat.sub_le _ _) (by rw [hsn])
      · exact (h.within m).stands hset (leaveRecord_session_ne s slot hm k)
  expireUpgrade {s slot r n} h hr hq := h.rows (formed_law.expireUpgrade h.formed hr hq)
    (counted_law.expireUpgrade h.counted hr hq) (Rows.expireUpgrade s slot n).stat (expireUpgrade_session s slot n)
    (expireUpgrade_tableOnly s slot n).2.2.2.2.2.1
  changeTime {s} m h := by
    refine h.rows (formed_law.changeTime m h.formed) (counted_law.changeTime m h.counted) (Rows.changeTime s m).stat
      (changeTime_session s m) ?_
    unfold State.changeTime
    simp only
    split
    · exact (grantAll_tableOnly _).2.2.2.2.2.1
    · rfl
  tick {s} h := by
    have hses : ∀ n, s.tick.session n = tickSession (s.session n) := by intro n; fin_cases n <;> rfl
    refine ⟨formed_law.tick h.formed, counted_law.tick h.counted, fun n => ?_, fun n => ?_⟩
    · refine (h.kept n).move (fun p hp => ?_) (by rw [hses]; rfl) (fun e => by rw [hses]; simp [tickSession, e])
        fun b _ hb hk => ⟨{ b with countdown := b.countdown - 1 }, by rw [hses]; simp [tickSession, hb],
          by rw [hses]; exact hk⟩
      obtain ⟨q, hq, rfl⟩ := List.mem_map.1 hp
      refine ⟨q, hq, fun k hk => ?_, fun x hx => ?_⟩
      · rw [waits_iff] at hk ⊢
        obtain ⟨c, hc, e⟩ := hk
        obtain ⟨d, hd, rfl⟩ := List.mem_map.1 hc
        exact ⟨d, hd, e⟩
      · obtain ⟨y, hy, rfl⟩ := List.mem_map.1 hx
        refine Or.inl ⟨y, hy, ((tickHolder_fixed y).1).symm, ?_⟩
        unfold tickHolder
        split <;> rfl
    · refine (h.within n).move rfl (by rw [hses]; exact Nat.le_refl _) ?_
      rw [hses]; simp [tickSession]
  resume {s n} h hn := by
    obtain ⟨ak, _⟩ := (h.kept n).1 hn
    have hsn : ∀ m, (s.resumeStandby n).session m =
        if m = n then { s.session n with standby := none, state := .active } else s.session m := by
      intro m
      simp only [State.resumeStandby, setSession_session]
      rfl
    refine ⟨formed_law.resume h.formed hn, counted_law.resume h.counted hn, fun m => ?_, fun m => ?_⟩
    · by_cases hm : m = n
      · subst hm
        refine ⟨fun hc => ?_, fun _ => ⟨fun p hp x hx e => ?_, ?_⟩⟩
        · rw [hsn, if_pos rfl] at hc; cases hc
        · obtain ⟨q, hq, rfl⟩ := List.mem_map.1 hp
          obtain ⟨y, hy, rfl⟩ := List.mem_map.1 hx
          rw [(resumeHolder_fixed m y).1] at e
          have hk := (ak q hq).2 y hy e
          simp [resumeHolder, e, hk]
        · rw [hsn, if_pos rfl]
      · have hsm : (s.resumeStandby n).session m = s.session m := by rw [hsn, if_neg hm]
        have hback : ∀ p ∈ (s.resumeStandby n).records, ∃ q ∈ s.records, (p.2.waits m = q.2.waits m) ∧
            ∀ x ∈ p.2.holders, x.agent = m → x ∈ q.2.holders := by
          intro p hp
          obtain ⟨q, hq, rfl⟩ := List.mem_map.1 hp
          refine ⟨q, hq, rfl, fun x hx e => ?_⟩
          obtain ⟨y, hy, rfl⟩ := List.mem_map.1 hx
          rw [(resumeHolder_fixed n y).1] at e
          have : resumeHolder n y = y := by
            unfold resumeHolder
            rw [if_neg]
            exact fun hc => hm (e.symm.trans hc.1)
          rw [this]; exact hy
        refine ⟨fun hs => ?_, fun hs => ?_⟩
        · rw [hsm] at hs ⊢
          obtain ⟨a, b⟩ := (h.kept m).1 hs
          refine ⟨fun p hp => ?_, b⟩
          obtain ⟨q, hq, hw, hh⟩ := hback p hp
          exact ⟨hw.trans (a q hq).1, fun x hx e => (a q hq).2 x (hh x hx e) e⟩
        · rw [hsm] at hs ⊢
          obtain ⟨a, b⟩ := (h.kept m).2 hs
          refine ⟨fun p hp x hx e => ?_, b⟩
          obtain ⟨q, hq, _, hh⟩ := hback p hp
          exact a q hq x (hh x hx e) e
    · refine (h.within m).move rfl ?_ ?_
      · rw [hsn]; split
        · rename_i e; subst e; exact Nat.le_refl _
        · exact Nat.le_refl _
      · rw [hsn]; split
        · rename_i e; subst e; exact Nat.le_refl _
        · exact Nat.le_refl _
  window {s} n w h hw := by
    refine ⟨formed_law.window n w h.formed hw, counted_law.window n w h.counted hw, fun m => ?_, fun m => ?_⟩
    · refine (h.kept m).move (Rows.same rfl).stat ?_ ?_ ?_
      · rw [setSession_session]; split
        · rename_i e; subst e; rfl
        · rfl
      · rw [setSession_session]; split
        · rename_i e; subst e; exact id
        · exact id
      · intro b _ hb hk
        rw [setSession_session]; split
        · rename_i e; subst e; exact ⟨b, hb, hk⟩
        · exact ⟨b, hb, hk⟩
    · refine (h.within m).move rfl ?_ ?_
      · rw [setSession_session]; split
        · rename_i e; subst e; exact Nat.le_refl _
        · exact Nat.le_refl _
      · rw [setSession_session]; split
        · rename_i e; subst e; exact hw.length_le
        · exact Nat.le_refl _
  ends {s n} number st h ht hj hst := by
    have hcan := h.formed.canon
    have hsm : ∀ m, m ≠ n → (((s.endSession n).setSession n
        { (s.endSession n).session n with number := number, state := st }).session m) = s.session m := by
      intro m hm
      rw [setSession_session, if_neg hm, State.endSession]
      simp only
      rw [setSession_session, if_neg hm]
      exact removeAgent_session_ne s hm
    have hsn : (((s.endSession n).setSession n
        { (s.endSession n).session n with number := number, state := st }).session n) =
        { (s.endSession n).session n with number := number, state := st } := setSession_session_same ..
    have hes : (s.endSession n).session n = { (s.removeAgent n).session n with
        leaseCount := 0, window := [], standby := none, lapsed := false } := by
      simp only [State.endSession, setSession_session_same]; rfl
    refine ⟨formed_law.ends number st h.formed ht hj hst, counted_law.ends number st h.counted ht hj hst, fun m => ?_,
      fun m => ?_⟩
    · by_cases hm : m = n
      · subst hm
        refine ⟨fun hc => ?_, fun _ => ⟨fun p hp x hx e => ?_, ?_⟩⟩
        · rw [hsn] at hc; exact absurd hc hst
        · have hrec : (s.removeAgent m).record p.1 = some p.2 :=
            (Sparse.mem_iff_find (hcan.removeAgent m).records).1 hp
          have h0 := removeAgent_gone hcan hrec
          have : p.2.hasPart m = true := hasPart_iff.2 (Or.inl ⟨x, hx, e⟩)
          rw [h0] at this; cases this
        · rw [hsn, hes]
      · exact (h.kept m).stands ((Rows.removeAgent s n).trans (Rows.same rfl)).stat (hsm m hm)
    · have hset : (s.removeAgent n).settings = s.settings := (removeAgent_tableOnly s n).2.2.2.2.2.1
      by_cases hm : m = n
      · subst hm
        unfold Within
        rw [hsn, hes]
        exact ⟨Nat.zero_le _, Nat.zero_le _⟩
      · exact (h.within m).stands hset (hsm m hm)
  starts {s n} number h ht hj := by
    have hns : (s.session n).state ≠ .standby := by intro hc; rw [hc] at hj; cases hj
    have hsm : ∀ m, ((s.clearStanding n).setSession n
        { (s.clearStanding n).session n with number := number, state := .active }).session m =
        if m = n then { s.session n with window := [], standby := none, leaseCount := 0, number := number,
                                         state := .active } else s.session m := by
      intro m
      rw [setSession_session]
      split
      · simp only [State.clearStanding, setSession_session_same]; rfl
      · rename_i hm
        simp only [State.clearStanding, setSession_session, if_neg hm]; rfl
    refine ⟨formed_law.starts number h.formed ht hj, counted_law.starts number h.counted ht hj, fun m => ?_, fun m => ?_⟩
    · by_cases hm : m = n
      · subst hm
        refine (h.kept m).active (Rows.same rfl).stat hns ?_ ?_
        · rw [hsm, if_pos rfl]; simp
        · rw [hsm, if_pos rfl]; exact ((h.kept m).2 hns).2.symm
      · exact (h.kept m).stands (Rows.same rfl).stat (by rw [hsm, if_neg hm])
    · by_cases hm : m = n
      · subst hm
        unfold Within
        rw [hsm, if_pos rfl]
        exact ⟨Nat.zero_le _, Nat.zero_le _⟩
      · exact (h.within m).stands rfl (by rw [hsm, if_neg hm])
  notices n h := h.rows (formed_law.notices n h.formed) (counted_law.notices n h.counted) (Rows.same rfl).stat
    (fun _ => rfl) rfl
  create {s n slot key} m requested h ht hn hs hk hw hf hl hq hb := by
    obtain ⟨x, e, hx, hxa, hrec⟩ := grantNow_records (s.addCreation n) slot (newRecord key false) n m requested
    have hadd : ∀ j, (s.addCreation n).session j =
        if j = n then { s.session n with window := (s.session n).window ++ [0] } else s.session j :=
      fun j => setSession_session _ _ _ _
    have hsm : ∀ j, ((s.addCreation n).grantNow slot (newRecord key false) n m requested).1.session j =
        if j = n then { s.session n with window := (s.session n).window ++ [0],
                                         leaseCount := (s.session n).leaseCount + 1 } else s.session j := by
      intro j
      rw [grantNow_session, hadd, hadd]
      split
      · simp
      · rfl
    refine ⟨formed_law.create m requested h.formed ht hn hs hk hw hf hl hq hb,
      counted_law.create m requested h.counted ht hn hs hk hw hf hl hq hb, fun j => ?_, fun j => ?_⟩
    · refine (h.kept j).granted hn hx hxa (r := newRecord key false) (fun y hy => by simp [newRecord] at hy) rfl hrec ?_ ?_ ?_
      · rw [hsm]; split
        · rename_i e; subst e; rfl
        · rfl
      · rw [hsm]; split
        · rename_i e; subst e; rfl
        · rfl
      · intro hjn; rw [hsm, if_neg hjn]
    · have hset := grantNow_settings (s.addCreation n) slot (newRecord key false) n m requested
      by_cases hj : j = n
      · subst hj
        obtain ⟨w1, w2⟩ := h.within j
        unfold Within
        rw [hset, hsm, if_pos rfl]
        refine ⟨?_, ?_⟩
        · show (s.session j).leaseCount + 1 ≤ s.settings.quota.get j
          omega
        · show ((s.session j).window ++ [0]).length ≤ s.settings.createBurst
          rw [List.length_append, List.length_singleton]
          omega
      · exact (h.within j).stands hset (by rw [hsm, if_neg hj])
  grantNow {s n slot r} m requested h ht hn hr hq hp hc hw hu := by
    obtain ⟨x, e, hx, hxa, hrec⟩ := grantNow_records s slot r n m requested
    have hsm := fun j => grantNow_session s slot r n j m requested
    refine ⟨formed_law.grantNow m requested h.formed ht hn hr hq hp hc hw hu,
      counted_law.grantNow m requested h.counted ht hn hr hq hp hc hw hu, fun j => ?_, fun j => ?_⟩
    · refine (h.kept j).granted hn hx hxa (r := r) (fun y hy => Or.inl (Sparse.mem_of_find hr)) hq hrec ?_ ?_ ?_
      · rw [hsm]; split
        · rename_i e; subst e; rfl
        · rfl
      · rw [hsm]; split
        · rename_i e; subst e; rfl
        · rfl
      · intro hjn; rw [hsm, if_neg hjn]
    · have hset := grantNow_settings s slot r n m requested
      by_cases hj : j = n
      · subst hj
        obtain ⟨w1, w2⟩ := h.within j
        unfold Within
        rw [hset, hsm, if_pos rfl]
        refine ⟨?_, w2⟩
        show (s.session j).leaseCount + 1 ≤ s.settings.quota.get j
        omega
      · exact (h.within j).stands hset (by rw [hsm, if_neg hj])
  enqueue {s slot r} c h ht hn hr hp hk hq hu := by
    have hsm : ∀ j, ((s.putRecord slot { r with queue := r.queue ++ [c] }).gainPart c.agent).session j =
        if j = c.agent then { s.session c.agent with leaseCount := (s.session c.agent).leaseCount + 1 }
        else s.session j := fun j => setSession_session _ _ _ _
    refine ⟨formed_law.enqueue c h.formed ht hn hr hp hk hq hu, counted_law.enqueue c h.counted ht hn hr hp hk hq hu,
      fun j => ?_, fun j => ?_⟩
    · refine (h.kept j).queued (x := { r with queue := r.queue ++ [c] }) hn hr rfl (fun k hk => ?_) rfl ?_ ?_ ?_
      · rw [waits_iff] at hk ⊢
        obtain ⟨d, hd, rfl⟩ := hk
        rcases List.mem_append.1 hd with hd | hd
        · exact Or.inl ⟨d, hd, rfl⟩
        · simp only [List.mem_singleton] at hd
          subst hd
          exact Or.inr rfl
      · rw [hsm]; split
        · rename_i e; rw [e]
        · rfl
      · rw [hsm]; split
        · rename_i e; rw [e]
        · rfl
      · intro hjn; rw [hsm, if_neg hjn]
    · by_cases hj : j = c.agent
      · obtain ⟨w1, w2⟩ := h.within c.agent
        rw [hj]
        unfold Within
        rw [hsm, if_pos rfl]
        refine ⟨?_, w2⟩
        show (s.session c.agent).leaseCount + 1 ≤ s.settings.quota.get c.agent
        omega
      · exact (h.within j).stands rfl (by rw [hsm, if_neg hj])
  upgradeNow {s slot r n x} requested h hr hx hw hu ho hs := by
    have hrow : RowRec r { r.mapHolder n (upgraded (lifetime s.settings s.monitor.timeState requested)
        (s.epochSource + 1)) with lastEpoch := s.epochSource + 1 } :=
      RowRec.mapHolder r n (upgraded (lifetime s.settings s.monitor.timeState requested) (s.epochSource + 1))
        (fun _ => ⟨rfl, rfl⟩) fun _ => Or.inr (lifetime_pos ..)
    exact h.rows (formed_law.upgradeNow requested h.formed hr hx hw hu ho hs)
      (counted_law.upgradeNow requested h.counted hr hx hw hu ho hs) (Rows.put hr hrow rfl).stat (fun _ => rfl) rfl
  enqueueUpgrade {s slot r n x} q h hr hx hw hu hb ha := by
    obtain ⟨c, hca, hc⟩ : ∃ c : Claim, c.agent = n ∧
        (s.enqueueUpgrade slot r n q).1 = s.putRecord slot { r with queue := c :: r.queue } := ⟨_, rfl, rfl⟩
    have h1 := formed_law.enqueueUpgrade q h.formed hr hx hw hu hb ha
    have h2 := counted_law.enqueueUpgrade q h.counted hr hx hw hu hb ha
    rw [hc] at h1 h2 ⊢
    refine ⟨h1, h2, fun j => ?_, fun j => (h.within j).stands rfl rfl⟩
    refine (h.kept j).queued (x := { r with queue := c :: r.queue }) ha hr rfl (fun k hk => ?_) rfl rfl rfl fun _ => rfl
    rw [waits_iff] at hk ⊢
    obtain ⟨d, hd, rfl⟩ := hk
    rcases List.mem_cons.1 hd with rfl | hd
    · exact Or.inr hca
    · exact Or.inl ⟨d, hd, rfl⟩
  downgrade {s slot r} n h hr := by
    have hrow : RowRec r (r.mapHolder n downgraded) :=
      RowRec.mapHolder r n downgraded (fun _ => ⟨rfl, rfl⟩) fun _ => Or.inl rfl
    exact h.rows (formed_law.downgrade n h.formed hr) (counted_law.downgrade n h.counted hr)
      (Rows.trans (Rows.put hr hrow rfl) (Rows.grantCheck _ slot)).stat (fun m => grantCheck_session _ slot m)
      (grantCheck_tableOnly _ slot).2.2.2.2.2.1
  entries {s slot r} g h hr hg hm := h.rows (formed_law.entries g h.formed hr hg hm)
    (counted_law.entries g h.counted hr hg hm)
    (Rows.put hr (RowRec.map r g (fun x => ⟨(hg x).1, (hg x).2.2.2⟩) hm) rfl).stat (fun _ => rfl) rfl
  renewAll {s} n mask life h hl := by
    refine h.rows (formed_law.renewAll n mask life h.formed hl) (counted_law.renewAll n mask life h.counted hl)
      (Rows.map (renewRecord n mask life) (fun p => ⟨renewRecord_slot n mask life p, ?_⟩) rfl).stat (fun _ => rfl) rfl
    unfold renewRecord
    split
    · refine RowRec.map p.2 (fun x => if renewable n x then renewed life x else x) (fun x => ?_) fun x => ?_
      · split <;> exact ⟨rfl, rfl⟩
      · split
        · exact Or.inr hl
        · exact Or.inl rfl
    · exact RowRec.refl _
  words {s slot r} v h hr hv := h.rows (formed_law.words v h.formed hr hv) (counted_law.words v h.counted hr hv)
    (Rows.put (x := { r with value := v }) hr (RowRec.of_eq rfl rfl rfl) rfl).stat (fun _ => rfl) rfl
  mark {s slot r} b h hr hm := h.rows (formed_law.mark b h.formed hr hm) (counted_law.mark b h.counted hr hm)
    (Rows.put (x := { r with persistent := b }) hr (RowRec.of_eq rfl rfl rfl) rfl).stat (fun _ => rfl) rfl
  standby {s v n} mask d h ht hn hv hrec := by
    have hns : (s.session n).state ≠ .standby := by rw [hn]; simp
    have hcan := h.formed.canon
    have h0 : Entering n (s.partSlots n) (s, { kept := 0, left := 0 }) := by
      refine ⟨hcan, fun m _ => h.kept m, h.within, ⟨hn, ((h.kept n).2 hns).2⟩, fun i hi r hr => ?_,
        fun i hi => (mem_partSlots hcan).1 hi, ?_⟩
      · have hp : r.hasPart n = false := Bool.eq_false_iff.2 fun hc => hi ((mem_partSlots hcan).2 ⟨r, hr, hc⟩)
        rw [Record.hasPart, Bool.or_eq_false_iff] at hp
        refine ⟨hp.2, fun y hy e => ?_⟩
        have : r.holds n = true := holds_iff.2 ⟨y, hy, e⟩
        rw [hp.1] at this; cases this
      · show 0 + (s.partSlots n).length = (s.session n).leaseCount
        rw [h.counted.1.count n, State.partCount, State.partSlots, Sparse.keys, List.length_map, Nat.zero_add]
    have h1 := Entering.foldl (mask := mask) (s.partSlots n) (partSlots_nodup hcan n) h0
    refine ⟨formed_law.standby mask d h.formed ht hn hv.formed hrec,
      counted_law.standby mask d h.counted ht hn hv.counted hrec, ?_, ?_⟩
    · unfold State.enterStandby
      simp only
      generalize (s.partSlots n).foldl (State.enterStandbyAt n mask) (s, { kept := 0, left := 0 }) = p at h1 ⊢
      intro m
      by_cases hm : m = n
      · subst hm
        refine ⟨fun _ => ⟨fun q hq => ?_, ?_⟩, fun hc => ?_⟩
        · exact h1.visited q.1 (by simp) q.2 ((Sparse.mem_iff_find h1.canon.records).1 hq)
        · rw [setSession_session_same]
          exact ⟨_, rfl, h1.count⟩
        · rw [setSession_session_same] at hc
          exact absurd rfl hc
      · exact (h1.others m hm).stands (Rows.same rfl).stat (by rw [setSession_session, if_neg hm])
    · unfold State.enterStandby
      simp only
      generalize (s.partSlots n).foldl (State.enterStandbyAt n mask) (s, { kept := 0, left := 0 }) = p at h1 ⊢
      intro m
      refine (h1.within m).move rfl ?_ ?_
      · rw [setSession_session]; split
        · rename_i e; subst e; exact Nat.le_refl _
        · exact Nat.le_refl _
      · rw [setSession_session]; split
        · rename_i e; subst e; exact Nat.le_refl _
        · exact Nat.le_refl _
  define {s slot key} h ht hs hk hf hl := by
    refine ⟨formed_law.define h.formed ht hs hk hf hl, counted_law.define h.counted ht hs hk hf hl, fun n => ?_,
      fun n => (h.within n).stands rfl rfl⟩
    have hmem : ∀ p ∈ (s.putRecord slot (newRecord key true)).records, p ∈ s.records ∨
        (p.2.waits n = false ∧ p.2.holders = []) := by
      intro p hp
      rcases Sparse.mem_put hp with rfl | hp
      · exact Or.inr ⟨rfl, rfl⟩
      · exact Or.inl hp
    refine ⟨fun hst => ?_, fun hst => ?_⟩
    · obtain ⟨a, b⟩ := (h.kept n).1 hst
      refine ⟨fun p hp => ?_, b⟩
      rcases hmem p hp with hp | ⟨h1, h2⟩
      · exact a p hp
      · exact ⟨h1, fun y hy => by rw [h2] at hy; cases hy⟩
    · obtain ⟨a, b⟩ := (h.kept n).2 hst
      refine ⟨fun p hp y hy => ?_, b⟩
      rcases hmem p hp with hp | ⟨_, h2⟩
      · exact a p hp y hy
      · rw [h2] at hy; cases hy
  retire {s slot r} h hr := by
    have hposts : ∀ (l : List Agent) (t : State),
        (l.foldl (fun t n => t.postPlain slot n (retireNotice r n)) t).sessions = t.sessions ∧
        (l.foldl (fun t n => t.postPlain slot n (retireNotice r n)) t).records = t.records ∧
        (l.foldl (fun t n => t.postPlain slot n (retireNotice r n)) t).settings = t.settings := by
      intro l
      induction l with
      | nil => exact fun _ => ⟨rfl, rfl, rfl⟩
      | cons n l ih => exact fun t => ih (t.postPlain slot n (retireNotice r n))
    have h1 := formed_law.retire h.formed hr
    have h2 := counted_law.retire h.counted hr
    have h3 := Rows.retireRule s slot r
    obtain ⟨p1, p2, p3⟩ := hposts (agents.filter r.hasPart) s
    have hasc : Asc r := (h.formed.recs.of_record hr).2.1
    generalize (agents.filter r.hasPart).foldl (fun t n => t.postPlain slot n (retireNotice r n)) s = u
      at h1 h2 h3 p1 p2 p3 ⊢
    have hru : u.record slot = some r := by rw [State.record, p2]; exact hr
    have hsu : ∀ m, u.session m = s.session m := fun m => by rw [State.session, p1]; rfl
    have hses := fun m => retire_session_eq hru hasc m
    refine ⟨h1, h2, fun m => ?_, fun m => ?_⟩
    · refine (h.kept m).move h3.stat ?_ ?_ ?_
      · rw [hses, hsu]
      · intro e
        rw [hses, hsu]
        simp only [e, Option.map_none, ite_self]
      · intro b hst hb hk
        obtain ⟨ak, _⟩ := (h.kept m).1 hst
        obtain ⟨hw, hkk⟩ := ak _ (Sparse.mem_of_find hr)
        have hany : (r.holders.any fun h => h.agent == m && h.status == .kept) = r.hasPart m := by
          rw [Bool.eq_iff_iff, List.any_eq_true, Record.hasPart, hw, Bool.or_false, holds_iff]
          constructor
          · rintro ⟨y, hy, e⟩
            simp only [Bool.and_eq_true, beq_iff_eq] at e
            exact ⟨y, hy, e.1⟩
          · rintro ⟨y, hy, e⟩
            exact ⟨y, hy, by simp [e, hkk y hy e]⟩
        rw [hses, hsu, hany, hb]
        cases r.hasPart m with
        | true => exact ⟨_, rfl, congrArg (· - 1) hk⟩
        | false => exact ⟨b, rfl, hk⟩
    · refine (h.within m).move ((retire_tableOnly u slot).2.2.2.2.2.1.trans p3) ?_ ?_
      · rw [hses, hsu]
        split
        · exact Nat.sub_le _ _
        · exact Nat.le_refl _
      · rw [hses, hsu]
  retireEmpty {s slot r} h hr he := by
    have hses : ∀ m, (s.retire slot).session m = s.session m := by
      intro m
      have hr' : ({ s.putRecord slot { r with persistent := false } with records := s.records } : State) = s := rfl
      have h1 := empty_iff.1 he
      have h2 : agents.filter r.hasPart = [] := by
        rw [List.filter_eq_nil_iff]
        intro n _
        simp [h1 n]
      have h3 : r.holders = [] := by
        simp only [Record.empty, Bool.and_eq_true, List.isEmpty_iff] at he
        exact he.1
      simp only [State.retire, hr, h2, h3, List.filter_nil, List.map_nil, List.foldl_nil]
      rfl
    exact h.rows (formed_law.retireEmpty h.formed hr he) (counted_law.retireEmpty h.counted hr he)
      (Rows.retire s slot).stat hses (retire_tableOnly s slot).2.2.2.2.2.1
  cleared _ hr hg hs hc _ := Whole.cleared hr hg hs hc
  sweep {s} h ht := h.rows (formed_law.sweep h.formed ht) (counted_law.sweep h.counted ht)
    (fun _ hp => absurd hp List.not_mem_nil) (fun _ => rfl) rfl

end Sys2Proof.Machine
end

