-- ==== Sys2Proof/Laws/Window.lean ====
section
/-! SUPPORT. The register window (R165, R166, R168, R174, R182): its length, what one byte read takes and changes, runs
of bytes read, and what a transfer's bytes come to. -/

namespace Sys2Proof.Machine

/-! ### The window -/

theorem holderPlace_length (o : Option Holder) : (holderPlace o).length = 11 := by cases o <;> rfl

theorem claimPlace_length (o : Option Claim) : (claimPlace o).length = 6 := by cases o <;> rfl

theorem summaryBytes_length (o : Option Summary) : (summaryBytes o).length = 136 := by
  cases o with
  | none => rfl
  | some x =>
    simp only [summaryBytes, List.length_append, List.length_flatMap, List.length_cons, List.length_nil, be16, be32,
      keyField, List.length_map, List.length_range, holderPlace_length, claimPlace_length]
    simp [List.range_succ]

theorem window_split (s : State) : ∃ head : List Byte, head.length = 0x78 ∧
    s.window = head ++ summaryBytes s.management.output := by
  refine ⟨_, ?_, rfl⟩
  simp only [List.length_append, Management.fieldsView, List.length_map, List.length_range]
  rfl

theorem window_length (s : State) : s.window.length = 256 := by
  obtain ⟨head, hl, hw⟩ := window_split s
  rw [hw, List.length_append, hl, summaryBytes_length]

theorem window_output (s : State) : s.window.drop 0x78 = summaryBytes s.management.output := by
  obtain ⟨head, hl, hw⟩ := window_split s
  rw [hw, ← hl, List.drop_left]

/-- A byte of the output area. -/
theorem windowByte_output (s : State) {a : Nat} (h : 0x78 ≤ a) :
    s.windowByte a = (summaryBytes s.management.output).getD (a - 0x78) 0 := by
  rw [← window_output, State.windowByte, List.getD_eq_getElem?_getD, List.getD_eq_getElem?_getD, List.getElem?_drop]
  congr 2
  omega

/-- What the bytes of the window depend on. -/
theorem window_congr {s t : State} (h1 : t.statusByte = s.statusByte) (h2 : t.monitor.timeState = s.monitor.timeState)
    (h3 : t.sessions = s.sessions) (h4 : t.settings = s.settings) (h5 : t.management.fields = s.management.fields)
    (h6 : t.management.code = s.management.code) (h7 : t.management.result = s.management.result)
    (h8 : t.management.output = s.management.output) : t.window = s.window := by
  have hf : t.management.fieldsView = s.management.fieldsView := by
    unfold Management.fieldsView Management.keyLength Management.field
    rw [h5]
  have hs : ∀ n, t.session n = s.session n := fun n => by rw [State.session, h3]; rfl
  unfold State.window
  rw [h1, h2, h4, h6, h7, h8, hf, funext hs]

/-- STATUS stands at 05h alone: every other byte stands when only STATUS changes. -/
theorem windowByte_congr {s t : State} (h2 : t.monitor.timeState = s.monitor.timeState)
    (h3 : t.sessions = s.sessions) (h4 : t.settings = s.settings) (h5 : t.management.fields = s.management.fields)
    (h6 : t.management.code = s.management.code) (h7 : t.management.result = s.management.result)
    (h8 : t.management.output = s.management.output) {a : Nat} (ha : a ≠ 5) : t.windowByte a = s.windowByte a := by
  have hf : t.management.fieldsView = s.management.fieldsView := by
    unfold Management.fieldsView Management.keyLength Management.field
    rw [h5]
  have hs : ∀ n, t.session n = s.session n := fun n => by rw [State.session, h3]; rfl
  have key : ∀ (x y : Byte) (post : List Byte),
      ([0x5E, 0x7A, 0x41, 0x60, 0x01, x] ++ post).getD a 0 = ([0x5E, 0x7A, 0x41, 0x60, 0x01, y] ++ post).getD a 0 := by
    intro x y post
    match a, ha with
    | 0, _ | 1, _ | 2, _ | 3, _ | 4, _ => rfl
    | k + 6, _ => rfl
  unfold State.windowByte State.window
  rw [h2, h4, h6, h7, h8, hf, funext hs]
  simp only [List.append_assoc]
  exact key t.statusByte s.statusByte _

/-! ### Latched fields -/

/-- Two latched fields that share an address are one. -/
theorem latchedFields_apart : ∀ f ∈ latchedFields, ∀ g ∈ latchedFields, ∀ a < 0x78,
    f.1 ≤ a → a < f.1 + f.2 → g.1 ≤ a → a < g.1 + g.2 → f = g := by decide +kernel

theorem latchedFields_bound : ∀ f ∈ latchedFields, 0 < f.2 ∧ f.1 + f.2 ≤ 0x78 := by decide +kernel

theorem fieldOf_some {a : Nat} {f : Nat × Nat} (h : fieldOf a = some f) :
    f ∈ latchedFields ∧ f.1 ≤ a ∧ a < f.1 + f.2 := by
  unfold fieldOf at h
  have h1 := List.find?_some h
  simp only [Bool.and_eq_true, decide_eq_true_eq] at h1
  exact ⟨List.mem_of_find?_eq_some h, h1.1, h1.2⟩

theorem fieldOf_none {a : Nat} : fieldOf a = none ↔ ∀ f ∈ latchedFields, a < f.1 ∨ f.1 + f.2 ≤ a := by
  unfold fieldOf
  rw [List.find?_eq_none]
  refine forall_congr' fun f => imp_congr_right fun _ => ?_
  simp only [Bool.and_eq_true, decide_eq_true_eq, not_and_or, not_le, not_lt]

theorem fieldOf_eq {a : Nat} {f : Nat × Nat} (hf : f ∈ latchedFields) (h1 : f.1 ≤ a) (h2 : a < f.1 + f.2) :
    fieldOf a = some f := by
  have hb := (latchedFields_bound f hf).2
  cases h : fieldOf a with
  | none => have := fieldOf_none.1 h f hf; omega
  | some g =>
    obtain ⟨g1, g2, g3⟩ := fieldOf_some h
    rw [latchedFields_apart f hf g g1 a (by omega) h1 h2 g2 g3]

/-! ### One byte read -/

/-- What the taking of a byte leaves of the management port: all but the latches. -/
theorem latchedByte_fields (s : State) (a : Nat) : (s.latchedByte a).2 = { s.management with
    fieldLatch := (s.latchedByte a).2.fieldLatch, outputLatch := (s.latchedByte a).2.outputLatch } := by
  unfold State.latchedByte
  simp only
  split
  · rfl
  · split
    · rfl
    · split
      · rfl
      · split
        · split <;> rfl
        · rfl

/-- What the taking of a byte depends on: the window and the latches. -/
theorem latchedByte_congr {s t : State} (hw : t.window = s.window)
    (hf : t.management.fieldLatch = s.management.fieldLatch)
    (ho : t.management.outputLatch = s.management.outputLatch) (a : Nat) :
    (t.latchedByte a).1 = (s.latchedByte a).1 ∧
    (t.latchedByte a).2.fieldLatch = (s.latchedByte a).2.fieldLatch ∧
    (t.latchedByte a).2.outputLatch = (s.latchedByte a).2.outputLatch := by
  have hs : summaryBytes t.management.output = summaryBytes s.management.output := by
    rw [← window_output, ← window_output, hw]
  have hb : t.windowByte a = s.windowByte a := by rw [State.windowByte, hw]; rfl
  unfold State.latchedByte
  simp only [hs, hb, hw, hf, ho]
  split
  · exact ⟨rfl, rfl, rfl⟩
  · split
    · exact ⟨rfl, hf, ho⟩
    · split
      · exact ⟨rfl, rfl, rfl⟩
      · split
        · split <;> exact ⟨rfl, hf, ho⟩
        · exact ⟨rfl, hf, ho⟩

/-- R165, R168, R174: one byte read, in full. -/
theorem readTake_eq (s : State) : s.readTake = { s with
    monitor := { s.monitor with
      managementFlag := s.monitor.managementFlag && !decide (s.management.pointer = 0x05) },
    management := { s.management with
      pointer := s.management.pointer + 1,
      readOut := s.management.readOut ++ [(s.latchedByte s.management.pointer.toNat).1],
      mailbox := if s.management.mailbox = .done ∧ s.management.pointer = 0x74 then .empty
                 else s.management.mailbox,
      fieldLatch := (s.latchedByte s.management.pointer.toNat).2.fieldLatch,
      outputLatch := (s.latchedByte s.management.pointer.toNat).2.outputLatch } } := by
  have h5 : s.management.pointer.toNat = 5 ↔ s.management.pointer = 0x05 :=
    ⟨fun h => BitVec.eq_of_toNat_eq h, fun h => by rw [h]; rfl⟩
  have h7 : s.management.pointer.toNat = 116 ↔ s.management.pointer = 0x74 :=
    ⟨fun h => BitVec.eq_of_toNat_eq h, fun h => by rw [h]; rfl⟩
  have h := latchedByte_fields s s.management.pointer.toNat
  unfold State.readTake State.readEffect
  dsimp only
  generalize s.latchedByte s.management.pointer.toNat = q at h ⊢
  obtain ⟨x, m⟩ := q
  simp only at h
  generalize m.fieldLatch = l, m.outputLatch = o at h ⊢
  subst h
  simp only [h5, h7, State.setManagement, State.setMonitor]
  by_cases hp : s.management.pointer = 0x05
  · have : ¬ (s.management.mailbox = .done ∧ s.management.pointer = 0x74) := by
      rw [hp]
      exact fun h => absurd h.2 (by decide)
    rw [if_pos hp, if_neg this, decide_eq_true hp]
    simp
  · rw [if_neg hp, decide_eq_false hp]
    by_cases hq : s.management.mailbox = .done ∧ s.management.pointer = 0x74
    · rw [if_pos ⟨hq.2, hq.1⟩, if_pos hq]
      simp
    · rw [if_neg fun h => hq ⟨h.2, h.1⟩, if_neg hq]
      simp

/-- R166: a byte of the output area comes from the latch, or latches the area. -/
theorem latchedByte_output {s : State} {a : Nat} (h : 0x78 ≤ a) : s.latchedByte a =
    ((s.management.outputLatch.getD (summaryBytes s.management.output)).getD (a - 0x78) 0,
      { s.management with
        outputLatch := some (s.management.outputLatch.getD (summaryBytes s.management.output)) }) := by
  unfold State.latchedByte
  rw [if_pos h]

/-- A byte of no field of more than one byte is read as it stands. -/
theorem latchedByte_single {s : State} {a : Nat} (h : a < 0x78)
    (hf : ∀ f ∈ latchedFields, a < f.1 ∨ f.1 + f.2 ≤ a) : s.latchedByte a = (s.windowByte a, s.management) := by
  unfold State.latchedByte
  rw [if_neg (by omega), fieldOf_none.2 hf]

/-- R166: the lowest-addressed byte of a field latches the whole field. -/
theorem latchedByte_first {s : State} {f : Nat × Nat} (hf : f ∈ latchedFields) : s.latchedByte f.1 =
    (s.windowByte f.1, { s.management with fieldLatch := some (f.1, (s.window.drop f.1).take f.2) }) := by
  obtain ⟨h0, h1⟩ := latchedFields_bound f hf
  unfold State.latchedByte
  rw [if_neg (by omega), fieldOf_eq hf (Nat.le_refl _) (by omega)]
  simp [State.windowByte, List.getD_eq_getElem?_getD, h0, List.getElem?_drop]

/-- R166: a later byte of a field comes from the field's latch, or as it stands where there is none. -/
theorem latchedByte_later {s : State} {f : Nat × Nat} (hf : f ∈ latchedFields) {a : Nat} (h1 : f.1 < a)
    (h2 : a < f.1 + f.2) : (s.latchedByte a).2 = s.management ∧
    (∀ bytes, s.management.fieldLatch = some (f.1, bytes) → (s.latchedByte a).1 = bytes.getD (a - f.1) 0) ∧
    ((∀ bytes, s.management.fieldLatch ≠ some (f.1, bytes)) → (s.latchedByte a).1 = s.windowByte a) := by
  have hb := (latchedFields_bound f hf).2
  have hfo : fieldOf a = some (f.1, f.2) := fieldOf_eq hf (by omega) h2
  unfold State.latchedByte
  rw [if_neg (by omega), hfo]
  simp only [if_neg (show ¬ a = f.1 by omega)]
  cases hl : s.management.fieldLatch with
  | none => exact ⟨rfl, nofun, fun _ => rfl⟩
  | some x =>
    obtain ⟨base, l⟩ := x
    simp only [Option.some.injEq, Prod.mk.injEq, ne_eq, not_and]
    by_cases he : base = f.1
    · rw [if_pos he]
      exact ⟨rfl, fun b h => by rw [← h.2], fun h => absurd rfl (h l he)⟩
    · rw [if_neg he]
      exact ⟨rfl, fun b h => absurd h.1 he, fun _ => rfl⟩

/-! ### Runs of bytes read -/

theorem readMany_succ (k : Nat) (s : State) : State.readMany (k + 1) s = (State.readMany k s).readTake := by
  induction k generalizing s with
  | zero => rfl
  | succ k ih => rw [State.readMany, ih]; rfl

/-- The record of bytes read takes no part in a read. -/
theorem readTake_readOut (s : State) (l : List Byte) :
    (s.setManagement { s.management with readOut := l }).readTake =
      s.readTake.setManagement { s.readTake.management with
        readOut := l ++ [(s.latchedByte s.management.pointer.toNat).1] } := by
  obtain ⟨h1, h2, h3⟩ := latchedByte_congr (s := s) (t := s.setManagement { s.management with readOut := l }) rfl rfl rfl
    s.management.pointer.toNat
  rw [readTake_eq, readTake_eq]
  have hp : (s.setManagement { s.management with readOut := l }).management.pointer = s.management.pointer := rfl
  rw [hp, h1, h2, h3]
  rfl

/-- How far a transfer that began at `a` in state `s` has come after `k` bytes, within the window. -/
structure Reading (s : State) (a : Byte) (k : Nat) (u : State) : Prop where
  pointer : u.management.pointer = a + BitVec.ofNat 8 k
  ahead : ∀ i, a.toNat + k ≤ i → u.windowByte i = s.windowByte i
  output : u.management.output = s.management.output
  area : ∀ l, u.management.outputLatch = some l → l = summaryBytes s.management.output
  field : ∀ base l, u.management.fieldLatch = some (base, l) →
    ∀ f ∈ latchedFields, f.1 = base → ∀ j < f.2, l.getD j 0 = s.windowByte (base + j)
  out : u.management.readOut = (List.range k).map fun i => s.windowByte (a.toNat + i)

theorem Reading.pointer_toNat {s u : State} {a : Byte} {k : Nat} (h : Reading s a k u) (hk : a.toNat + k < 256) :
    u.management.pointer.toNat = a.toNat + k := by
  rw [h.pointer, BitVec.toNat_add, BitVec.toNat_ofNat]
  omega

/-- The next byte read is the window's byte as it stood when the transfer began. -/
theorem Reading.byte {s u : State} {a : Byte} {k : Nat} (h : Reading s a k u) :
    (u.latchedByte (a.toNat + k)).1 = s.windowByte (a.toNat + k) := by
  have hnow := h.ahead (a.toNat + k) (Nat.le_refl _)
  by_cases ho : 0x78 ≤ a.toNat + k
  · rw [latchedByte_output ho, windowByte_output s ho]
    cases hl : u.management.outputLatch with
    | none => simp only [Option.getD_none, h.output]
    | some l => rw [h.area l hl, Option.getD_some]
  · cases hf : fieldOf (a.toNat + k) with
    | none => rw [latchedByte_single (by omega) (fieldOf_none.1 hf)]; exact hnow
    | some f =>
      obtain ⟨h1, h2, h3⟩ := fieldOf_some hf
      rcases Nat.eq_or_lt_of_le h2 with he | hlt
      · rw [← he, latchedByte_first h1]
        exact he ▸ hnow
      · obtain ⟨_, p1, p2⟩ := latchedByte_later (s := u) h1 hlt h3
        by_cases hl : ∃ l, u.management.fieldLatch = some (f.1, l)
        · obtain ⟨l, hl⟩ := hl
          rw [p1 l hl, h.field _ _ hl f h1 rfl _ (by omega)]
          congr 1
          omega
        · rw [p2 fun l hc => hl ⟨l, hc⟩]
          exact hnow

theorem Reading.next {s u : State} {a : Byte} {k : Nat} (h : Reading s a k u) (hk : a.toNat + k < 256) :
    Reading s a (k + 1) u.readTake := by
  have hp := h.pointer_toNat hk
  have hb := h.byte
  rw [readTake_eq, hp]
  refine ⟨?_, fun i hi => ?_, h.output, fun l hl => ?_, fun base l hl => ?_, ?_⟩
  · show u.management.pointer + 1 = _
    rw [h.pointer]
    rw [BitVec.add_assoc, BitVec.ofNat_add]
    rfl
  · rw [← h.ahead i (by omega)]
    by_cases h5 : i = 5
    · have e1 : ¬ u.management.pointer = 0x05 := fun e => by rw [e] at hp; simp at hp; omega
      have e2 : ¬ (u.management.mailbox = .done ∧ u.management.pointer = 0x74) := fun e => by
        rw [e.2] at hp; simp at hp; omega
      have hw : (State.window _) = u.window := window_congr (s := u)
        (t := { u with
          monitor := { u.monitor with
            managementFlag := u.monitor.managementFlag && !decide (u.management.pointer = 0x05) },
          management := { u.management with
            pointer := u.management.pointer + 1,
            readOut := u.management.readOut ++ [(u.latchedByte (a.toNat + k)).1],
            mailbox := if u.management.mailbox = .done ∧ u.management.pointer = 0x74 then .empty
                       else u.management.mailbox,
            fieldLatch := (u.latchedByte (a.toNat + k)).2.fieldLatch,
            outputLatch := (u.latchedByte (a.toNat + k)).2.outputLatch } })
        (by simp only [State.statusByte, e1, e2, decide_false, Bool.not_false, Bool.and_true, if_false])
        rfl rfl rfl rfl rfl rfl rfl
      rw [State.windowByte, hw]; rfl
    · have hw := windowByte_congr (s := u) (t := u.readTake) (a := i)
      rw [readTake_eq, hp] at hw
      exact hw rfl rfl rfl rfl rfl rfl rfl h5
  · by_cases ho : 0x78 ≤ a.toNat + k
    · rw [latchedByte_output ho] at hl
      simp only [Option.some.injEq] at hl
      rw [← hl]
      cases hq : u.management.outputLatch with
      | none => rw [Option.getD_none, h.output]
      | some x => rw [Option.getD_some, h.area x hq]
    · refine h.area l (Eq.trans ?_ hl)
      cases hf : fieldOf (a.toNat + k) with
      | none => rw [latchedByte_single (by omega) (fieldOf_none.1 hf)]
      | some f =>
        obtain ⟨h1, h2, h3⟩ := fieldOf_some hf
        rcases Nat.eq_or_lt_of_le h2 with he | hlt
        · rw [← he, latchedByte_first h1]
        · rw [(latchedByte_later (s := u) h1 hlt h3).1]
  · by_cases ho : 0x78 ≤ a.toNat + k
    · rw [latchedByte_output ho] at hl
      exact h.field base l hl
    · cases hf : fieldOf (a.toNat + k) with
      | none =>
        rw [latchedByte_single (by omega) (fieldOf_none.1 hf)] at hl
        exact h.field base l hl
      | some f =>
        obtain ⟨h1, h2, h3⟩ := fieldOf_some hf
        rcases Nat.eq_or_lt_of_le h2 with he | hlt
        · rw [← he, latchedByte_first h1] at hl
          simp only [Option.some.injEq, Prod.mk.injEq] at hl
          obtain ⟨rfl, rfl⟩ := hl
          intro g hg hgf j hj
          have hgb := (latchedFields_bound g hg)
          have hfg : g = f := latchedFields_apart g hg f h1 f.1 (by omega) (by omega) (by omega) (Nat.le_refl _) (by omega)
          rw [hfg] at hj
          rw [← h.ahead (f.1 + j) (by omega)]
          simp [State.windowByte, List.getD_eq_getElem?_getD, hj, List.getElem?_drop]
        · rw [(latchedByte_later (s := u) h1 hlt h3).1] at hl
          exact h.field base l hl
  · show u.management.readOut ++ [_] = _
    rw [h.out, hb, List.range_succ, List.map_append]
    rfl

/-- R165, R166: a run that begins a transfer at `a` and ends within the window reads the window's bytes from there. -/
theorem readMany_window {s : State} {a : Byte} (k : Nat) (hk : a.toNat + k ≤ 256) :
    Reading s a k (State.readMany k (s.setManagement (s.management.beginRead (.addressed a)))) := by
  induction k with
  | zero =>
    refine ⟨by simp [State.readMany, State.setManagement, Management.beginRead], fun _ _ => rfl, rfl,
      fun _ hl => ?_, fun _ _ hl => ?_, rfl⟩
    · cases hl
    · cases hl
  | succ k ih =>
    rw [readMany_succ]
    exact (ih (by omega)).next (by omega)

/-- The same bytes, cut out of the window. -/
theorem window_run (s : State) {a k : Nat} (h : a + k ≤ 256) :
    ((List.range k).map fun i => s.windowByte (a + i)) = (s.window.drop a).take k := by
  apply List.ext_getElem
  · simp [window_length]
    omega
  · intro i h1 h2
    have hi : i < k := by simpa using h1
    have hl : a + i < s.window.length := by rw [window_length]; omega
    simp [State.windowByte, List.getD_eq_getElem?_getD, hl]

/-- No part of a tick comes due by reading. -/
theorem readMany_quiet (k : Nat) (s : State) : (State.readMany k s).quiet = s.quiet ∧
    (State.readMany k s).held = s.held ∧ (State.readMany k s).management.listening = s.management.listening := by
  induction k with
  | zero => exact ⟨rfl, rfl, rfl⟩
  | succ k ih =>
    rw [readMany_succ, readTake_eq]
    exact ih

/-- When the port takes part in a transfer (R165). -/
theorem takesPart_iff {s : State} {b : Bool} :
    s.takesPart b = true ↔ s.held = false ∧ (b = true ∨ s.management.listening = true) := by
  simp [State.takesPart]

/-- When the port acknowledges a byte (R165). -/
theorem acknowledges_iff {s : State} {target : BitVec 7} {b : Bool} {x : BusByte} :
    s.acknowledges target b x = true ↔
      target = 0x3A ∧ s.held = false ∧ (b = true ∨ s.management.listening = true) := by
  simp only [State.acknowledges, Bool.and_eq_true, beq_iff_eq, takesPart_iff]
  exact Iff.rfl

/-- A run of a read transfer that the port takes part in. -/
theorem readRun_takes {s : State} {run : ReadRun} (hq : s.quiet = true) (hh : s.held = false)
    (hl : run.start.isNew = true ∨ s.management.listening = true) :
    s.readRun run = State.readMany run.count (s.setManagement (s.management.beginRead run.start)) := by
  unfold State.readRun
  simp only [State.settle_of_quiet hq]
  rw [if_pos (takesPart_iff.2 ⟨hh, hl⟩)]

/-- A run of a read transfer that the port takes no part in. -/
theorem readRun_apart {s : State} {run : ReadRun} (hq : s.quiet = true)
    (hl : s.held = true ∨ run.start.isNew = false ∧ s.management.listening = false) : s.readRun run = s := by
  unfold State.readRun
  simp only [State.settle_of_quiet hq]
  rw [if_neg]
  rw [takesPart_iff]
  rcases hl with h | ⟨h1, h2⟩ <;> simp [*]

/-- An address byte of a write transfer that the port takes part in. -/
theorem writeRun_address {s : State} {address : Option Byte} (hq : s.quiet = true) (hh : s.held = false)
    (hl : address.isSome = true ∨ s.management.listening = true) :
    s.writeRun address none = s.setManagement (s.management.addressed address) := by
  unfold State.writeRun
  simp only [State.settle_of_quiet hq]
  rw [if_pos (takesPart_iff.2 ⟨hh, hl⟩)]

/-- A byte written in a write transfer that the port takes part in. -/
theorem writeRun_byte {s : State} {address : Option Byte} {v : Byte} (hq : s.quiet = true) (hh : s.held = false)
    (hl : address.isSome = true ∨ s.management.listening = true) :
    s.writeRun address (some v) = (s.setManagement (s.management.addressed address)).writeTake v := by
  unfold State.writeRun
  simp only [State.settle_of_quiet hq]
  rw [if_pos (takesPart_iff.2 ⟨hh, hl⟩)]

/-- The bytes of a write transfer that the port takes no part in. -/
theorem writeRun_apart {s : State} {address data : Option Byte} (hq : s.quiet = true)
    (hl : s.held = true ∨ address = none ∧ s.management.listening = false) : s.writeRun address data = s := by
  unfold State.writeRun
  simp only [State.settle_of_quiet hq]
  rw [if_neg]
  rw [takesPart_iff]
  rcases hl with h | ⟨h1, h2⟩ <;> simp [*]

end Sys2Proof.Machine
end

