-- ==== Sys2Proof/Tests/Slice0.lean ====
section
/-! SUPPORT. The model's own tests: ill-formed terms that the check refuses, steps the manual works out, and for each
statement with hypotheses a witness that meets them, clause by clause. -/

namespace Sys2Proof.Tests

open Sys2Proof Sys2Proof.Machine

set_option Elab.async false

/-! ### Small states -/

/-- The state after a command; the state itself if the command stops. -/
def after (c : Instr) (s : State) : State :=
  match exec c s with
  | .next t => t
  | _ => s

/-- What the port of an agent has decided to answer. -/
def said (t : State) (n : Agent) : Option Answer :=
  match (t.port n).state with
  | .working r => some r.answer
  | _ => none

/-- A transfer begun now with nothing after the frame. -/
def now : Transfer := Transfer.now 0

def activeAs (number : Half) : Session := { Session.reset with state := .active, number := number }

def lockedMonitor : Monitor :=
  { timeState := .locked, lastPulse := .present 0, good := 8, elapsed := 0, divider := .stopped,
    agentFlags := PerAgent.all false, managementFlag := false }

/-- An empty READY table, the time base LOCKED, nobody joined. -/
def opened : State := { State.reset with table := .ready, monitor := lockedMonitor }

/-- The same with all four agents ACTIVE in sessions 1 to 4. -/
def ready : State :=
  { opened with sessions := ⟨activeAs 1, activeAs 2, activeAs 3, activeAs 4⟩, sessionCounter := 4 }

def atTime (ts : TimeState) (s : State) : State :=
  { s with monitor := { s.monitor with timeState := ts, good := 0, divider := .running 0 } }

/-- The key "123456789", whose home slots are 472 to 475 (Table 7). -/
def key9 : List Byte := [0x31, 0x32, 0x33, 0x34, 0x35, 0x36, 0x37, 0x38, 0x39]

def exclusiveOf (n : Agent) : Holder := newHolder n .exclusive 200 (some 1)
def sharedOf (n : Agent) : Holder := newHolder n .shared 5000 none
def claimOf (n : Agent) (k : ClaimKind) (wait : Nat) : Claim := { agent := n, kind := k, requested := 0, wait := wait }

/-- A transient record of `key9`. -/
def recordWith (holders : List Holder) (queue : List Claim) : Record :=
  { newRecord key9 false with lastEpoch := 1, holders := holders, queue := queue }

/-- A record placed in a slot, with the lease counts of its agents; the epoch source has issued 1. -/
def place (slot : Nat) (r : Record) (s : State) : State :=
  { (agents.filter r.hasPart).foldl State.gainPart (s.putRecord slot r) with epochSource := 1 }

/-- Agent 0 holds slot 472 EXCLUSIVE. -/
def heldExclusive : State := place 472 (recordWith [exclusiveOf 0] []) ready
/-- Agent 0 holds slot 472 SHARED. -/
def heldShared : State := place 472 (recordWith [sharedOf 0] []) ready
/-- Agents 0 and 2 hold slot 472 SHARED. -/
def heldByTwo : State := place 472 (recordWith [sharedOf 0, sharedOf 2] []) ready
/-- Agents 0 and 2 hold slot 472 SHARED, agent 2's UPGRADE is queued before agent 1's SHARED claim. -/
def draining : State :=
  place 472 (recordWith [sharedOf 0, sharedOf 2] [claimOf 2 .upgrade 400, claimOf 1 .shared 1000]) ready
/-- Agent 0 holds slot 472 EXCLUSIVE, agent 1's EXCLUSIVE claim waits. -/
def contended : State := place 472 (recordWith [exclusiveOf 0] [claimOf 1 .exclusive 300]) ready

def handle9 : Half := 0x01D8

def keyPad (key : List Byte) : List Byte := [byteOf key.length] ++ key ++ List.replicate (24 - key.length) 0
def claimBody (m : Mode) (requested wait : Half) : List Byte :=
  [m.code, 0] ++ be16 requested ++ be16 wait ++ keyPad key9
def upgradeBody (wait : Half) : List Byte := be16 handle9 ++ be16 0 ++ be16 wait ++ [0]
def writeBody (epoch : Epoch) (mask : Byte) : List Byte :=
  be16 handle9 ++ be32 epoch ++ [mask, 0] ++ (List.replicate 8 (0xAABBCCDD : Word)).flatMap be32

/-- The request field registers of a mailbox request. -/
def fieldsOf (setting : Byte) (value : Half) (agent persistence mask keyLength : Byte) : List Byte :=
  [setting] ++ be16 value ++ [agent, persistence, mask, keyLength] ++ key9 ++ List.replicate 15 0
    ++ (List.replicate 8 (0x01020304 : Word)).flatMap be32

def withFields (f : List Byte) (s : State) : State := s.setManagement { s.management with fields := f }

/-- The fields name `key9`, agent 1, persistence on and word 0. -/
def naming (s : State) : State := withFields (fieldsOf 0x08 100 1 1 0x01 9) s

def response0 : Response :=
  { answer := .okRenew 5000, notice := false, timeChange := false, overrun := false, lapsed := false,
    sessionLow := 1 }

def withPort (p : PortState) (s : State) : State := s.setPort 0 { s.port 0 with state := p }
def withMailbox (m : MailboxState) (s : State) : State := s.setManagement { s.management with mailbox := m }

/-- Agent 0 in STANDBY with its lease of slot 472 KEPT. -/
def inStandby : State :=
  (place 472 (recordWith [keepHolder (exclusiveOf 0)] []) ready).setSession 0
    { activeAs 1 with state := .standby, leaseCount := 1, standby := some { kept := 1, countdown := 1000 } }

/-! ### The check of a command refuses -/

theorem test_ill_formed_body :
    (Instr.join 0 now (List.replicate 49 0)).wellFormed = false ∧
    (Instr.wake 0 now (List.replicate 49 0)).wellFormed = false ∧
    (Instr.claim 0 now (List.replicate 48 0)).wellFormed = true := by decide +kernel

theorem test_ill_formed_transaction :
    (Instr.fetchOnlyTransaction 0 .atPresent 0).wellFormed = false ∧
    (Instr.requestDropped 0 .atPresent 0).wellFormed = false := by decide +kernel

theorem test_ill_formed_bad_frame :
    (Instr.badFrame 0 .atPresent []).wellFormed = false ∧
    (Instr.badFrame 0 .atPresent [0x00, 0x01]).wellFormed = false ∧
    (Instr.badFrame 0 .atPresent [0x01, 0x00, 0x15]).wellFormed = false ∧
    (Instr.badFrame 0 .atPresent [0x01, 0x00, 0x14]).wellFormed = true := by decide +kernel

theorem test_ill_formed_bad_request :
    (Instr.badRequest 0 now 0x00 []).wellFormed = false ∧
    (Instr.badRequest 0 now 0x41 []).wellFormed = false ∧
    (Instr.badRequest 0 now 0x42 (List.replicate 49 0)).wellFormed = false ∧
    (Instr.badRequest 0 now 0x42 []).wellFormed = true := by decide +kernel

theorem test_ill_formed_register_commands :
    (Instr.mailboxBadRequest 0x08).wellFormed = false ∧ (Instr.mailboxBadRequest 0x09).wellFormed = true ∧
    (Instr.statusRead { start := .addressed 0x06, count := 255 }).wellFormed = false ∧
    (Instr.statusRead { start := .addressed 0x06, count := 256 }).wellFormed = true ∧
    (Instr.statusRead { start := .continued, count := 0 }).wellFormed = false ∧
    (Instr.resultRead { start := .addressed 0x70, count := 4 }).wellFormed = false ∧
    (Instr.resultRead { start := .addressed 0x70, count := 5 }).wellFormed = true ∧
    (Instr.registerWrite none none).wellFormed = false := by decide +kernel

theorem test_ill_formed_slots :
    (Instr.leaseExpiry 2048 0).wellFormed = false ∧ (Instr.waitExpiry 2048 0).wellFormed = false ∧
    (Instr.upgradeWaitExpiry 2048 0).wellFormed = false ∧
    (Instr.leaseExpiry 2047 0).wellFormed = true := by decide +kernel

/-! ### Agent requests -/

/-- 9.3.1 and 12.5: the answer of a JOIN. -/
theorem test_join :
    said (after (.join 3 now []) opened) 3 = some (.okJoin 1 512 5000 50 30000 .locked) ∧
    ((after (.join 3 now []) opened).session 3) = activeAs 1 := by decide +kernel

/-- R102: a rejoin gives up the lease, which goes to the claim behind it. -/
theorem test_rejoin :
    (after (.join 0 now []) contended).record 472 =
      some { recordWith [newHolder 1 .exclusive 5000 (some 2)] [] with lastEpoch := 2 } ∧
    ((after (.join 0 now []) contended).session 0).number = 5 := by decide +kernel

theorem test_leave :
    ((after (.leave 0 now []) heldExclusive).session 0) = Session.reset ∧
    (after (.leave 0 now []) heldExclusive).records = [] ∧
    (after (.leave 0 now []) heldExclusive).generation 472 = 1 := by decide +kernel

/-- 12.1 event 1. -/
theorem test_claim_creates :
    said (after (.claim 0 now (claimBody .exclusive 200 0)) ready) 0 =
      some (.granted 0x01D8 .exclusive 200 (some 1)) ∧
    ((after (.claim 0 now (claimBody .exclusive 200 0)) ready).session 0).window = [0] := by decide +kernel

/-- 12.1 event 2. -/
theorem test_claim_queues :
    said (after (.claim 1 now (claimBody .exclusive 0 300)) heldExclusive) 1 = some (.queued 0x01D8 1 300) ∧
    ((after (.claim 1 now (claimBody .exclusive 0 300)) heldExclusive).session 1).leaseCount = 1 := by
  decide +kernel

/-- 12.2 step 3. -/
theorem test_upgrade_queues :
    said (after (.upgrade 2 now (upgradeBody 400)) heldByTwo) 2 = some (.queued 0x01D8 1 400) := by decide +kernel

theorem test_upgrade_granted :
    said (after (.upgrade 0 now (upgradeBody 0)) heldShared) 0 =
      some (.granted 0x01D8 .exclusive 5000 (some 2)) := by decide +kernel

/-- 12.2 step 7. -/
theorem test_downgrade :
    ((after (.downgrade 2 now (be16 handle9))
      (place 472 (recordWith [exclusiveOf 2] [claimOf 1 .shared 900]) ready)).record 472).map
        (fun r => (r.holders.map fun h => (h.agent, h.mode, h.epoch), r.queue.length, r.lastEpoch)) =
      some ([(1, .shared, none), (2, .shared, none)], 0, 1) := by decide +kernel

/-- 12.3: 5000 × 3/4 in HOLDOVER. -/
theorem test_renew :
    said (after (.renew 0 now (be16 handle9 ++ be16 0 ++ [0])) (atTime .holdover heldExclusive)) 0 =
      some (.okRenew 3750) := by decide +kernel

/-- Slot 472 lies in partition 1. -/
theorem test_renew_set :
    said (after (.renewSet 0 now ([0x02, 0] ++ be16 100)) heldExclusive) 0 = some (.okRenewSet 100 1) ∧
    said (after (.renewSet 0 now ([0xFD, 0] ++ be16 100)) heldExclusive) 0 = some (.okRenewSet 100 0) := by
  decide +kernel

/-- 12.1 event 5. -/
theorem test_release :
    (after (.release 0 now (be16 handle9)) heldExclusive).record 472 = none ∧
    (after (.release 0 now (be16 handle9)) heldExclusive).handle 472 = 0x09D8 := by decide +kernel

theorem test_lookup :
    said (after (.lookup 1 now ([0] ++ keyPad key9)) draining) 1 = some (.okLookup
      { state := .draining, handle := some 0x01D8, persistent := false, holderCount := 2, exclusive := none,
        queueLength := 2, firstKind := some .upgrade, lastEpoch := 1, standing := .queued, freeWays := 3 }) := by
  decide +kernel

theorem test_read :
    said (after (.read 3 now ([7, 2, 0] ++ keyPad key9)) heldShared) 3 =
      some (.okRead 0x01D8 .shared 1 7 2 [0, 0]) := by decide +kernel

/-- 12.1 events 4 and 8. -/
theorem test_write :
    said (after (.write 0 now (writeBody 1 0x01)) heldExclusive) 0 = some (.okWrite 200) ∧
    ((after (.write 0 now (writeBody 1 0x01)) heldExclusive).record 472).map (fun r => r.value.take 2) =
      some [0xAABBCCDD, 0] ∧
    said (after (.write 0 now (writeBody 1 0x01)) ready) 0 = some (.refused .noSuchLease) := by decide +kernel

theorem test_holdings :
    said (after (.holdings 2 now [0, 0, 0]) draining) 2 = some (.okHoldings 0xFFFF
      [{ handle := 0x01D8, mode := .shared, status := .upgrading, remaining := 5000, epoch := none }]) := by
  decide +kernel

/-- 12.1 event 6: the handle is formed from the stored generation. -/
theorem test_notices :
    said (after (.notices 0 now []) (ready.postPlain 472 0 .expired)) 0 = some (.okNotices false
      [{ handle := 0x01D8, kind := .expired, lifetime := none, epoch := none }]) := by decide +kernel

theorem test_time :
    said (after (.time 2 now []) (atTime .drift ready)) 2 = some (.okTime .drift true .threeQuarters 0 0) := by
  decide +kernel

/-- 12.4 event 1: one lease kept, one record left. -/
theorem test_standby :
    said (after (.standby 0 now ([0x02, 0] ++ be16 1000))
      (place 1600 { recordWith [sharedOf 0] [] with key := [0x41] } heldExclusive)) 0 =
      some (.okStandby 1 1 1000) := by decide +kernel

/-- 12.4 event 2. -/
theorem test_wake :
    said (after (.wake 0 now []) inStandby) 0 = some (.okWake 1 false) ∧
    said (after (.wake 0 now []) (ready.setSession 0 { activeAs 1 with lapsed := true })) 0 =
      some (.okWake 0 true) := by decide +kernel

/-! ### Port events -/

/-- 12.5 transaction 1: the response, a 7-byte frame, then filler. -/
theorem test_fetch_only :
    ((after (.fetchOnlyTransaction 0 .atPresent 9) (withPort (.ready response0) ready)).port 0) =
      { state := .idle, overrun := false, sdo := response0.frame ++ [0, 0], cut := none } ∧
    response0.frame.length = 7 := by decide +kernel

/-- 12.5: the JOIN of 3 bytes does not collect the 7-byte response. -/
theorem test_request_dropped :
    ((after (.requestDropped 0 .atPresent 3) (withPort (.ready response0) ready)).port 0) =
      { state := .ready response0, overrun := true, sdo := response0.frame.take 3, cut := none } := by decide +kernel

/-- A SOFT_RESET in READY: the response's first byte is 42h. -/
def cutOff : State :=
  after .softReset (withPort (.ready { response0 with answer := .refused .badField }) ready)

/-- R145, R164: bits are read from the start, most significant first; SDO_n after a SOFT_RESET 7 bits into a response,
and 9 bits into one begun in WORKING. -/
theorem test_sdo_line :
    decodeBits 2 .atPresent (([0x32, 0x00, 0xD3] : List Byte).flatMap (fun b => bitPlaces.map fun i => b.getLsbD i) ++
      [true, false, true]) = some (.time 2 now []) ∧
    (after (.time 0 { start := .beforeReset false 7, extra := 0 } []) cutOff).port 0 =
      { state := .idle, overrun := false, sdo := [0x42, 0x00, 0x00], cut := none } ∧
    ((after (.time 0 { start := .beforeReset true 9, extra := 0 } []) cutOff).port 0).sdo = [0xFF, 0x80, 0x00] ∧
    cutOff.sdoLine 0 (.beforeReset false 7) false 6 = .driven true ∧
    cutOff.sdoLine 0 (.beforeReset false 6) false 6 = .driven false ∧
    cutOff.sdoLine 0 (.beforeReset false 7) true 6 = .released := by decide +kernel

theorem test_bad_frame :
    said (after (.badFrame 0 .atPresent [0x01, 0x00, 0x14]) ready) 0 = some (.refused .badFrame) := by
  decide +kernel

theorem test_bad_request :
    said (after (.badRequest 0 now 0x42 []) State.reset) 0 = some (.refused .badRequest) := by decide +kernel

theorem test_response_made :
    ((after (.responseMade 0) (withPort (.working response0) ready)).port 0).state = .ready response0 := by
  decide +kernel

/-! ### Mailbox requests and registers -/

theorem test_set :
    (after .set (withFields (fieldsOf 0x01 50 0 0 0 9) ready)).settings.defaultLife = 50 ∧
    (after .set (withFields (fieldsOf 0x01 49 0 0 0 9) ready)).management.result = some .badValue := by
  decide +kernel

theorem test_define :
    (after .define (naming ready)).record 472 = some (newRecord key9 true) := by decide +kernel

theorem test_retire :
    (after .retire (naming contended)).records = [] ∧
    ((after .retire (naming contended)).cells.get 0).map (fun p => (p.1, p.2.kind)) = [(472, .revoked)] ∧
    ((after .retire (naming contended)).cells.get 1).map (fun p => (p.1, p.2.kind)) = [(472, .cancelled)] := by
  decide +kernel

theorem test_mark :
    ((after .mark (naming heldShared)).record 472).map (fun r => r.persistent) = some true := by decide +kernel

theorem test_seed :
    ((after .seed (naming (place 472 { newRecord key9 true with lastEpoch := 1 } ready))).record 472).map
      (fun r => r.value.take 2) = some [0x01020304, 0] := by decide +kernel

theorem test_inspect :
    (after .inspect (naming heldShared)).management.output =
      some { handle := 0x01D8, freeWays := 3, record := recordWith [sharedOf 0] [] } := by decide +kernel

theorem test_evict :
    ((after .evict (naming contended)).session 1).state = .evicted ∧
    ((after .evict (naming contended)).record 472).map (fun r => r.queue) = some [] := by decide +kernel

theorem test_soft_reset :
    (after .softReset heldExclusive).records = [] ∧ (after .softReset heldExclusive).epochSource = 1 ∧
    (after .softReset heldExclusive).table = .initializing := by decide +kernel

theorem test_mailbox_bad_request :
    (after (.mailboxBadRequest 0x09) ready).management.result = some .badRequest := by decide +kernel

/-- A write transfer of the address byte alone has brought the pointer to `a`. -/
def addressedAt (a : Byte) (s : State) : State := after (.registerWrite (some a) none) s

/-- Table 79: table READY, flag set; the read clears the flag. -/
theorem test_status_read :
    (after (.statusRead { start := .addressed 0x05, count := 1 })
      (ready.setMonitor { lockedMonitor with managementFlag := true })).management.readOut = [0x03] ∧
    (after (.statusRead { start := .addressed 0x05, count := 1 })
      (ready.setMonitor { lockedMonitor with managementFlag := true })).monitor.managementFlag = false := by
  decide +kernel

theorem test_result_read :
    (after (.resultRead { start := .addressed 0x74, count := 1 }) (after .define (naming ready))).management.mailbox =
      .empty ∧
    (after (.resultRead { start := .addressed 0x74, count := 1 }) (after .define (naming ready))).management.readOut =
      [0x00] := by decide +kernel

/-- R165: a new transfer reads from the pointer as it stands, and its latches are new. -/
theorem test_read_from_the_standing_pointer :
    let s := after (.statusRead { start := .addressed 0x18, count := 2 }) ready
    let t := s.setManagement { s.management with pointer := 0x1A, fieldLatch := some (0x1A, [7, 7]) }
    (after (.statusRead { start := .standing, count := 2 }) t).management.readOut = [0x00, 0x32] ∧
    (after (.statusRead { start := .standing, count := 2 }) t).management.pointer = 0x1C := by decide +kernel

/-- R165: the target address 3Ah and every byte written to it are acknowledged; another address is not, and nothing is
while a reset is held or before a START. -/
theorem test_acknowledges :
    (ready.acknowledges 0x3A true (.target true) && ready.acknowledges 0x3A true (.target false) &&
      (addressedAt 0x00 ready).acknowledges 0x3A false (.registerAddress 0xFF) &&
      (addressedAt 0x00 ready).acknowledges 0x3A false (.written 0x00 0x12)) = true ∧
    ready.acknowledges 0x3B true (.target true) = false ∧
    State.resetHeld.acknowledges 0x3A true (.target true) = false ∧
    State.reset.acknowledges 0x3A false (.written 0x34 0x12) = false := by decide +kernel

/-- R165, R176: the code byte 08h in a transfer whose address byte came earlier. -/
theorem test_soft_reset_in_a_transfer_under_way :
    after (.registerWrite none (some 0x08)) (addressedAt 0x73 heldExclusive) =
      after .softReset (addressedAt 0x73 heldExclusive) := by decide +kernel

theorem test_register_write :
    (after (.registerWrite (some 0x37) (some 0x02)) ready).management.agentNumber = 2 ∧
    (after (.registerWrite (some 0x73) (some 0x06)) ready).management.mailbox = .busy := by decide +kernel

/-! ### Resets and the time base -/

theorem test_full_resets :
    (after .powerOnReset heldExclusive).held = true ∧ (after .pinReset heldExclusive).epochSource = 0 := by
  decide +kernel

theorem test_reset_end :
    after .resetEnd State.resetHeld = State.reset := by decide +kernel

theorem test_sweep_complete :
    (after .sweepComplete State.reset).table = .ready := by decide +kernel

/-- R130, R137: in DRIFT a divider tick comes 1000 µs after the last pulse; a pulse 10 µs after it is in band at 1010 µs,
and one at 501 µs after it is late, so HOLDOVER comes first and the acquisition starts anew. -/
theorem test_oscillator_time :
    (after .dividerTick (atTime .drift ready)).monitor.lastPulse = .present 1000000 ∧
    (after (.trefPulse 10000) (after .dividerTick (atTime .drift ready))).monitor.good = 1 ∧
    (after (.trefPulse 10000) (after .dividerTick (atTime .drift ready))).monitor.divider = .running 10000 ∧
    (after (.trefPulse 501000) (after .dividerTick (atTime .drift ready))).monitor.timeState = .acquiring := by
  decide +kernel

/-- R132, R133: a pulse out of the band at 989999 ns, the edge of the band at 990000 ns. -/
theorem test_tref_pulse :
    (after (.trefPulse 989999) ready).monitor.timeState = .drift ∧
    (after (.trefPulse 990000) ready).monitor.timeState = .locked := by decide +kernel

/-- 12.3: the missing pulse. -/
theorem test_missing_pulse :
    (after .missingPulse heldExclusive).monitor.timeState = .holdover ∧
    (after .missingPulse heldExclusive).monitor.managementFlag = true := by decide +kernel

theorem test_divider_tick :
    ((after .dividerTick (atTime .holdover heldExclusive)).record 472).map
      (fun r => r.holders.map fun h => h.remaining) = some [199] ∧
    after .dividerTick ready = ready := by decide +kernel

/-! ### Parts of a tick -/

/-- Agent 0's lease of slot 472 is due, agent 1's claim waits. -/
def leaseDue : State :=
  place 472 (recordWith [{ exclusiveOf 0 with remaining := 0 }] [claimOf 1 .exclusive 150]) ready

/-- 12.1, tick 200. -/
theorem test_lease_expiry :
    (after (.leaseExpiry 472 0) leaseDue).record 472 =
      some { recordWith [newHolder 1 .exclusive 5000 (some 2)] [] with lastEpoch := 2 } ∧
    ((after (.leaseExpiry 472 0) leaseDue).cells.get 0).map (fun p => p.2.kind) = [.expired] ∧
    ((after (.leaseExpiry 472 0) leaseDue).cells.get 1).map (fun p => p.2.kind) = [.granted] := by decide +kernel

def waitDue : State := place 472 (recordWith [exclusiveOf 0] [claimOf 1 .exclusive 0]) ready

theorem test_wait_expiry :
    ((after (.waitExpiry 472 1) waitDue).cells.get 1).map (fun p => p.2.kind) = [.waitExpired] ∧
    ((after (.waitExpiry 472 1) waitDue).session 1).leaseCount = 0 := by decide +kernel

def upgradeDue : State :=
  place 472 (recordWith [sharedOf 0, sharedOf 2] [claimOf 2 .upgrade 0, claimOf 1 .shared 1000]) ready

/-- R65: the SHARED claim behind the upgrade is granted. -/
theorem test_upgrade_wait_expiry :
    ((after (.upgradeWaitExpiry 472 2) upgradeDue).record 472).map
      (fun r => (r.holders.map fun h => h.agent, r.queue)) = some ([0, 1, 2], []) := by decide +kernel

def standbyOver : State :=
  inStandby.setSession 0 { inStandby.session 0 with standby := some { kept := 1, countdown := 0 } }

/-- 12.4, the 1000th tick. -/
theorem test_standby_expiry :
    ((after (.standbyExpiry 0) standbyOver).session 0) = { activeAs 1 with leaseCount := 1, lapsed := true } ∧
    (after (.standbyExpiry 0) standbyOver).record 472 = some (recordWith [exclusiveOf 0] []) := by decide +kernel

/-- R124: the same leases at the same counts whether the WAKE comes before the expiry or after it. -/
theorem test_wake_before_expiry :
    said (after (.wake 0 now []) standbyOver) 0 = some (.okWake 1 false) ∧
    said (after (.wake 0 now []) (after (.standbyExpiry 0) standbyOver)) 0 = some (.okWake 0 true) ∧
    (after (.wake 0 now []) standbyOver).records = (after (.standbyExpiry 0) standbyOver).records := by
  decide +kernel

def entryOver : State := ready.setSession 0 { activeAs 1 with window := [100, 99] }

theorem test_creation_entry_leaves :
    ((after (.creationEntryLeaves 0) entryOver).session 0).window = [99] := by decide +kernel

def limitReached : State :=
  { atTime .holdover ready with monitor := { (atTime .holdover ready).monitor with elapsed := 2000 } }

/-- 12.3, tick 2000. -/
theorem test_holdover_limit_reached :
    (after .holdoverLimitReached limitReached).monitor.timeState = .unsafeTime ∧
    (after .holdoverLimitReached limitReached).monitor.agentFlags = PerAgent.all true := by decide +kernel

/-! ### Witnesses for the hypotheses of the statements

One theorem for each statement, named after it: concrete states and operands that meet the hypotheses of each clause
together, at the ends of a range where the clause has one. -/

theorem witness_StepRunsTheFrontCommand : State.reset.pending = [] ∧ State.reset.quiet = true := by decide +kernel

theorem witness_ResetEndAndSweepOpenTheTable :
    (State.resetHeld.quiet = true ∧ State.resetHeld.held = true) ∧
    (State.reset.quiet = true ∧ State.reset.held = false ∧ State.reset.table = .initializing) ∧
    (heldExclusive.quiet = true ∧ heldExclusive.held = false ∧ heldExclusive.table = .ready) := by decide +kernel

theorem witness_SoftResetKeepsEpochsSettingsAndTimeBase :
    (heldExclusive.quiet = true ∧ heldExclusive.held = false ∧ heldExclusive.management.mailbox ≠ .busy) ∧
    ((addressedAt 0x73 heldExclusive).quiet = true ∧ (addressedAt 0x73 heldExclusive).held = false ∧
      (addressedAt 0x73 heldExclusive).management.mailbox ≠ .busy ∧
      (addressedAt 0x73 heldExclusive).management.listening = true ∧
      (addressedAt 0x73 heldExclusive).management.pointer = 0x73) ∧
    ((withMailbox .busy heldExclusive).quiet = true ∧ (withMailbox .busy heldExclusive).held = false ∧
      (withMailbox .busy heldExclusive).management.mailbox = .busy) := by decide +kernel

theorem witness_KeysHandlesAndFramesAreRead :
    ((0 : Nat) < 32 ∧ (0 : Nat) < 2048) ∧ ((31 : Nat) < 32 ∧ (2047 : Nat) < 2048) := by decide

theorem witness_RequestFramesDecodeToTheirCommands :
    ([] : List Byte).length ≤ 48 ∧ (List.replicate 48 (0xFF : Byte)).length ≤ 48 ∧
    requestOfCode 0x03 = none ∧ requestOfCode 0x16 = none ∧ requestOfCode 0x42 = none := by decide +kernel

theorem witness_OtherBytesDecodeToTheirEvents :
    ((0x42 : Byte) ≠ 0 ∧ requestOfCode 0x42 = none ∧ (List.replicate 48 (0 : Byte)).length ≤ 48) ∧
    ((0x01 : Byte) ≠ 0 ∧ ([] : List Byte).length ≤ 48 ∧
      (0x14 : Byte) ≠ frameCheck (0x01 :: byteOf ([] : List Byte).length :: [])) ∧
    ((0x01 : Byte) ≠ 0 ∧ 48 < (49 : Byte).toNat) ∧
    ((0x01 : Byte) ≠ 0 ∧ ([0] : List Byte).length < (1 : Byte).toNat + 1) ∧
    (([] : List Bool).length < 8 ∧ (List.replicate 7 true).length < 8) := by decide +kernel

theorem witness_RequestFieldsStandWhereTableSeventyThreePutsThem :
    (1 ≤ ([0x41] : List Byte).length ∧ ([0x41] : List Byte).length + (List.replicate 23 (0 : Byte)).length = 24) ∧
    (1 ≤ (List.replicate 24 (0x41 : Byte)).length ∧
      (List.replicate 24 (0x41 : Byte)).length + ([] : List Byte).length = 24) ∧
    (1 : Byte) ≠ 0 ∧ ((0 : Byte).toNat ≤ 7 ∧ 1 ≤ (1 : Byte).toNat ∧ (1 : Byte).toNat ≤ 8) ∧
    ((7 : Byte).toNat ≤ 7 ∧ 1 ≤ (8 : Byte).toNat ∧ (8 : Byte).toNat ≤ 8) ∧ (2047 : Half).toNat ≤ 2047 ∧
    (1 : Half) ≠ 0 := by decide +kernel

/-- A port in WORKING, in READY and in IDLE. -/
def atWork : State := withPort (.working response0) ready
def atRest : State := withPort (.ready response0) ready

theorem witness_TransactionsBegunInWorkingAreDropped :
    (atWork.quiet = true ∧ atWork.held = false ∧ (atWork.port 0).state = .working response0 ∧
      (Instr.time 0 now []).carries = some (0, .atPresent, 3)) ∧
    (atRest.quiet = true ∧ atRest.held = false ∧ (atRest.port 0).state ≠ .idle ∧
      (Instr.time 0 { start := .whileWorking, extra := 1 } []).carries = some (0, .whileWorking, 4)) ∧
    (State.resetHeld.quiet = true ∧ State.resetHeld.held = true ∧
      (Instr.badFrame 0 .atPresent [0x01]).carries = some (0, .atPresent, 1)) ∧
    (atRest.quiet = true ∧ (atRest.port 0).cut = none ∧
      (Instr.time 0 { start := .beforeReset true 9, extra := 0 } []).carries = some (0, .beforeReset true 9, 3)) ∧
    (((after .softReset atRest).port 0).cut = some (.ready response0) ∧
      ((after .pinReset atWork).port 0).cut = some (.working response0) ∧
      ((after .pinReset ready).port 0).cut = some .idle ∧ (after .softReset atRest).quiet = true ∧
      (after .pinReset atWork).quiet = true) := by decide +kernel

/-- The response is 7 bytes: 7 collect it, 6 do not. -/
theorem witness_TransactionsCollectOnlyWholeResponses :
    (ready.quiet = true ∧ ready.held = false ∧ (ready.port 0).state = .idle) ∧
    (atRest.quiet = true ∧ atRest.held = false ∧ (atRest.port 0).state = .ready response0 ∧
      response0.frame.length ≤ 7 ∧ 6 < response0.frame.length) ∧
    (Instr.time 0 { start := .atPresent, extra := 3 } []).carries = some (0, .atPresent, 6) := by decide +kernel

theorem witness_FrameErrorsAndUnknownCodesAreAnswered :
    (State.reset.quiet = true ∧ State.reset.portOpen 0 1 = true) ∧
    (atRest.quiet = true ∧ atRest.portOpen 0 7 = true) ∧
    ready.hears 0 [] 0 = true ∧ atRest.hears 0 [] 4 = true ∧
    (atRest.port 0).state = .ready response0 ∧ response0.frame.length ≤ 7 ∧ atRest.portOpen 0 6 = false := by
  decide +kernel

theorem witness_MakingAResponseReportsOverrun :
    (atWork.quiet = true ∧ (atWork.port 0).state = .working response0) ∧
    (ready.quiet = true ∧ (ready.port 0).state = .idle) := by decide +kernel

/-- `s` with agent 0 in a given state. -/
def standingAs (st : AgentState) (s : State) : State := s.setSession 0 { s.session 0 with state := st }

theorem witness_RequestsAreRefusedBeforeTheirRule :
    (State.reset.hears 0 [] 0 = true ∧ State.reset.table = .initializing ∧ Request.join ≠ .time) ∧
    (opened.hears 0 [] 0 = true ∧ opened.table = .ready ∧ (opened.session 0).state = .unjoined) ∧
    ((standingAs .evicted opened).hears 0 [] 0 = true ∧
      ((standingAs .evicted opened).session 0).state = .evicted) ∧
    (inStandby.hears 0 [] 0 = true ∧ inStandby.table = .ready ∧ (inStandby.session 0).state = .standby ∧
      Request.lookup ≠ .leave ∧ Request.lookup ≠ .notices ∧ Request.lookup ≠ .wake) := by decide +kernel

/-- A body with a wrong length, a mode or a key length out of range, and a field that the request forbids; a body where
there is none to be, from each agent state and in both table states. -/
theorem witness_WrongFieldsAreAnsweredBadField :
    (State.reset.hears 0 [0] 0 = true ∧ State.reset.table = .initializing) ∧
    (opened.hears 0 [0] 0 = true ∧ opened.table = .ready ∧ (opened.session 0).state = .unjoined) ∧
    ((standingAs .evicted opened).hears 0 [0] 0 = true ∧
      ((standingAs .evicted opened).session 0).state = .evicted) ∧
    (inStandby.hears 0 [0] 0 = true ∧ inStandby.table = .ready ∧ (inStandby.session 0).state = .standby) ∧
    (ready.hears 0 [0] 0 = true ∧ (ready.session 0).state = .active) ∧
    ready.serves 0 [0] 0 = true ∧ parseClaim [0] = none ∧ parseUpgrade [0] = none ∧ parseHandle [0] = none ∧
    parseRenew [0] = none ∧ parseRenewSet [0, 0, 0, 0] = none ∧ parseLookup [0] = none ∧
    parseRead ([8, 1, 0] ++ keyPad key9) = none ∧ parseRead ([0, 9, 0] ++ keyPad key9) = none ∧
    parseWrite [0] = none ∧ parseHoldings (be16 2048 ++ [0]) = none ∧ parseStandby [1, 0, 0, 0] = none ∧
    parseClaim ([3, 0] ++ be16 0 ++ be16 0 ++ keyPad key9) = none ∧
    parseClaim ([1, 0] ++ be16 0 ++ be16 0 ++ [25] ++ List.replicate 24 0) = none := by decide +kernel

theorem witness_RequestsReachNoOtherPortOrSetting :
    heldExclusive.quiet = true ∧
    exec (requestCommand .release 0 now (be16 handle9)) heldExclusive =
      .next (after (.release 0 now (be16 handle9)) heldExclusive) := ⟨by decide +kernel, rfl⟩

theorem witness_LookupReportsAndChangesNothing :
    (heldShared.serves 1 ([0] ++ keyPad key9) 0 = true ∧ parseLookup ([0] ++ keyPad key9) = some key9 ∧
      heldShared.findKey key9 = some (472, recordWith [sharedOf 0] [])) ∧
    (ready.serves 1 ([0] ++ keyPad key9) 0 = true ∧ ready.findKey key9 = none) := by decide +kernel

/-- Each reported state of Table 9 and each standing of Table 10 on a record that has it. -/
theorem witness_ReportedStatesAndStandings :
    ((recordWith [] [claimOf 1 .exclusive 300]).reported = .idle ∧
      (recordWith [exclusiveOf 0] [claimOf 1 .exclusive 300]).reported = .exclusive ∧
      (recordWith [sharedOf 0] []).reported = .shared ∧
      (recordWith [sharedOf 0] [claimOf 1 .shared 300]).reported = .shared ∧
      (recordWith [sharedOf 0] [claimOf 1 .exclusive 300]).reported = .draining) ∧
    (let r := recordWith [sharedOf 0, sharedOf 2] [claimOf 2 .upgrade 400, claimOf 1 .shared 1000];
      r.reported = .draining ∧ agents.map r.standing = [.shared, .queued, .upgrading, .none]) ∧
    (recordWith [exclusiveOf 0] []).standing 0 = .exclusive := by decide +kernel

theorem witness_ReadReturnsWordsInOrder :
    (heldShared.serves 1 ([7, 8, 0] ++ keyPad key9) 0 = true ∧
      parseRead ([7, 8, 0] ++ keyPad key9) = some (7, 8, key9) ∧
      heldShared.findKey key9 = some (472, recordWith [sharedOf 0] [])) ∧
    (ready.serves 1 ([7, 8, 0] ++ keyPad key9) 0 = true ∧ ready.findKey key9 = none) := by decide +kernel

/-- Agent 0 holds slots 10 to 15: six parts, so five are shown and the fifth is slot 14. -/
def sixParts : State :=
  [10, 11, 12, 13, 14, 15].foldl (fun s i => place i { recordWith [sharedOf 0] [] with key := [byteOf i] } s) ready

theorem witness_HoldingsListsTheCallersParts :
    (heldShared.serves 0 [0, 0, 0] 0 = true ∧ parseHoldings [0, 0, 0] = some 0 ∧
      ((heldShared.partSlots 0).filter fun i => decide (0 ≤ i)).length ≤ 5) ∧
    (sixParts.serves 0 [0, 10, 0] 0 = true ∧ parseHoldings [0, 10, 0] = some 10 ∧
      5 < ((sixParts.partSlots 0).filter fun i => decide (10 ≤ i)).length ∧
      ((sixParts.partSlots 0).filter fun i => decide (10 ≤ i))[4]? = some 14) := by decide +kernel

theorem witness_NoticesEmptiesTheSixLowestCells :
    ready.hears 0 [] 0 = true ∧ ready.table = .ready ∧ (ready.session 0).state.joined = true := by decide +kernel

theorem witness_TimeAnswersInEveryState :
    ready.hears 0 [] 0 = true ∧ State.reset.hears 0 [] 0 = true ∧ (ready.session 0).state.joined = true ∧
    (State.reset.session 0).state.joined = false := by decide +kernel

theorem witness_LifetimesAreClampedAndDerated : Settings.reset.inRange = true := by decide +kernel

theorem witness_GrantCheckEndsAtABlockedClaim :
    (claimOf 1 .shared 5).kind = .shared ∧ (claimOf 1 .exclusive 5).kind = .exclusive ∧
    (claimOf 1 .upgrade 5).kind = .upgrade ∧
    ((∀ g ∈ [sharedOf 0, sharedOf 2], g.agent ≠ (sharedOf 1).agent) ∧
      [sharedOf 0, sharedOf 2].Pairwise (fun x y => x.agent.val < y.agent.val) ∧
      insertHolder (sharedOf 1) [sharedOf 0, sharedOf 2] = [sharedOf 0, sharedOf 1, sharedOf 2]) ∧
    ready.record 472 = none ∧
    (heldShared.canonical = true ∧ heldShared.record 472 = some (recordWith [sharedOf 0] [])) ∧
    (contended.canonical = true ∧
      contended.record 472 = some (recordWith [exclusiveOf 0] [claimOf 1 .exclusive 300]) ∧
      (recordWith [exclusiveOf 0] [claimOf 1 .exclusive 300]).claimCompatible (claimOf 1 .exclusive 300) = false) ∧
    (let r := recordWith [sharedOf 0] [claimOf 1 .shared 300];
      (place 472 r ready).record 472 = some r ∧ r.claimCompatible (claimOf 1 .shared 300) = true ∧
      withheld .locked 1 false = false ∧ withheld .acquiring 1 false = true ∧
      withheld .locked 0xFFFFFFFF true = true) := by decide +kernel

/-- The fields of a claim of `key9`. -/
def asking (m : Mode) (wait : Nat) : ClaimFields := { mode := m, requested := 0, wait := wait, key := key9 }

def full (s : State) : State := s.setSession 1 { s.session 1 with leaseCount := 512 }
/-- The record is there and nobody has a part in it. -/
def unheld : State := place 472 { recordWith [] [] with persistent := true } ready

theorem witness_ClaimOnAPresentKeyIsDecidedInOrder :
    (heldExclusive.serves 0 (claimBody .shared 0 0) 0 = true ∧
      parseClaim (claimBody .shared 0 0) = some (asking .shared 0) ∧
      heldExclusive.findKey key9 = some (472, recordWith [exclusiveOf 0] []) ∧
      (recordWith [exclusiveOf 0] []).holds 0 = true) ∧
    ((full heldExclusive).serves 1 (claimBody .shared 0 0) 0 = true ∧
      (recordWith [exclusiveOf 0] []).holds 1 = false ∧ (recordWith [exclusiveOf 0] []).waits 1 = false ∧
      ((full heldExclusive).session 1).leaseCount = (full heldExclusive).settings.quota.get 1) ∧
    (heldExclusive.serves 1 (claimBody .shared 0 1) 0 = true ∧
      parseClaim (claimBody .shared 0 1) = some (asking .shared 1) ∧
      (heldExclusive.session 1).leaseCount ≠ heldExclusive.settings.quota.get 1 ∧
      (recordWith [exclusiveOf 0] []).compatible .shared = false) := by decide +kernel

theorem witness_ClaimOnAPresentKeyGrantsAndWithholds :
    (unheld.serves 1 (claimBody .exclusive 0 0) 0 = true ∧
      unheld.findKey key9 = some (472, { recordWith [] [] with persistent := true }) ∧
      (recordWith [] []).compatible .exclusive = true ∧ (recordWith [] []).compatible .shared = true ∧
      withheld unheld.monitor.timeState unheld.epochSource true = false) ∧
    ((atTime .unsafeTime unheld).serves 1 (claimBody .exclusive 0 0) 0 = true ∧
      (atTime .unsafeTime unheld).monitor.timeState.permits = false) ∧
    (({ unheld with epochSource := 0xFFFFFFFF } : State).serves 1 (claimBody .exclusive 0 0) 0 = true ∧
      withheld unheld.monitor.timeState 0xFFFFFFFF true = true ∧
      unheld.monitor.timeState.permits = true) := by decide +kernel

/-- All four home slots of `key9` taken by other keys. -/
def bucketFull : State :=
  [472, 473, 474, 475].foldl (fun s i => place i { recordWith [sharedOf 0] [] with key := [byteOf i] } s) ready

def burstUsed : State := ready.setSession 1 { activeAs 2 with window := [40, 30, 20, 10] }

theorem witness_VacantWays :
    (heldShared.vacantWays key9 = [473, 474, 475] ∧ heldShared.freeWays key9 = 3) ∧
    (bucketFull.vacantWays key9 = [] ∧ bucketFull.findKey key9 = none ∧
      bucketFull.findKey [byteOf 472] = none) := by decide +kernel

theorem witness_ClaimOnAnAbsentKeyIsDecidedInOrder :
    (parseClaim (claimBody .shared 0 0) = some (asking .shared 0) ∧
      parseClaim (claimBody .exclusive 0 0) = some (asking .exclusive 0)) ∧
    ((atTime .acquiring ready).serves 1 (claimBody .shared 0 0) 0 = true ∧
      (atTime .acquiring ready).findKey key9 = none ∧
      (atTime .acquiring ready).monitor.timeState.permits = false) ∧
    (({ ready with epochSource := 0xFFFFFFFF } : State).serves 1 (claimBody .exclusive 0 0) 0 = true ∧
      exhausted 0xFFFFFFFF = true) ∧
    ((full ready).serves 1 (claimBody .shared 0 0) 0 = true ∧
      ((full ready).session 1).leaseCount = (full ready).settings.quota.get 1) ∧
    (bucketFull.serves 1 (claimBody .shared 0 0) 0 = true ∧ bucketFull.findKey key9 = none ∧
      bucketFull.vacantWays key9 = []) ∧
    (burstUsed.serves 1 (claimBody .shared 0 0) 0 = true ∧ burstUsed.findKey key9 = none ∧
      burstUsed.vacantWays key9 = [472, 473, 474, 475] ∧
      (burstUsed.session 1).window.length = burstUsed.settings.createBurst) ∧
    (ready.serves 1 (claimBody .exclusive 0 0) 0 = true ∧ ready.findKey key9 = none ∧
      ready.monitor.timeState.permits = true ∧ exhausted ready.epochSource = false ∧
      (ready.session 1).leaseCount ≠ ready.settings.quota.get 1 ∧
      ready.vacantWays key9 = [472, 473, 474, 475] ∧
      (ready.session 1).window.length ≠ ready.settings.createBurst) := by decide +kernel

def upgrading (wait : Nat) : UpgradeFields := { handle := handle9, requested := 0, wait := wait }

/-- A handle is honoured in its own generation alone. -/
theorem witness_HandlesAreHonouredInTheirGeneration :
    (let s := { heldShared with generations := [(472, 1)] };
      s.canonical = true ∧ s.generation 472 = 1 ∧ s.honoured handle9 = none ∧
      s.honoured 0x09D8 = some (472, recordWith [sharedOf 0] [])) ∧
    (heldShared.honoured handle9 = some (472, recordWith [sharedOf 0] []) ∧ heldShared.honoured 0x09D8 = none) ∧
    ready.honoured handle9 = none := by decide +kernel

theorem witness_UpgradeIsDecidedInOrder :
    (parseUpgrade (upgradeBody 0) = some (upgrading 0) ∧ parseUpgrade (upgradeBody 9) = some (upgrading 9)) ∧
    (ready.serves 0 (upgradeBody 0) 0 = true ∧ ready.honoured handle9 = none) ∧
    (heldShared.serves 1 (upgradeBody 0) 0 = true ∧
      heldShared.honoured handle9 = some (472, recordWith [sharedOf 0] []) ∧
      (recordWith [sharedOf 0] []).holder 1 = none) ∧
    (heldExclusive.serves 0 (upgradeBody 0) 0 = true ∧
      (recordWith [exclusiveOf 0] []).holder 0 = some (exclusiveOf 0) ∧ (exclusiveOf 0).mode = .exclusive) ∧
    (draining.serves 2 (upgradeBody 0) 0 = true ∧ draining.serves 0 (upgradeBody 0) 0 = true ∧
      draining.honoured handle9 =
        some (472, recordWith [sharedOf 0, sharedOf 2] [claimOf 2 .upgrade 400, claimOf 1 .shared 1000])) ∧
    (heldByTwo.serves 0 (upgradeBody 9) 0 = true ∧
      (recordWith [sharedOf 0, sharedOf 2] []).onlyHolder 0 = false) ∧
    ((atTime .unsafeTime heldShared).serves 0 (upgradeBody 0) 0 = true ∧
      (recordWith [sharedOf 0] []).onlyHolder 0 = true ∧
      withheld (atTime .unsafeTime heldShared).monitor.timeState heldShared.epochSource true = true) ∧
    (({ heldShared with epochSource := 0xFFFFFFFF } : State).serves 0 (upgradeBody 0) 0 = true ∧
      heldShared.monitor.timeState.permits = true ∧
      withheld heldShared.monitor.timeState 0xFFFFFFFF true = true) := by decide +kernel

/-- Agent 0 alone holds SHARED; an EXCLUSIVE claim of agent 1 waits behind it. -/
theorem witness_UpgradeIsGrantedAtOnce :
    let r := recordWith [sharedOf 0] [claimOf 1 .exclusive 300]
    let s := place 472 r ready
    s.serves 0 (upgradeBody 0) 0 = true ∧ parseUpgrade (upgradeBody 0) = some (upgrading 0) ∧
    s.honoured handle9 = some (472, r) ∧ r.holder 0 = some (sharedOf 0) ∧ (sharedOf 0).mode = .shared ∧
    r.waits 0 = false ∧ (∀ c ∈ r.queue, c.kind ≠ .upgrade) ∧ r.onlyHolder 0 = true ∧
    withheld s.monitor.timeState s.epochSource true = false := by decide +kernel

theorem witness_DowngradeSharesAnExclusiveLease :
    parseHandle (be16 handle9) = some handle9 ∧
    (ready.serves 0 (be16 handle9) 0 = true ∧ ready.honoured handle9 = none) ∧
    (heldShared.serves 1 (be16 handle9) 0 = true ∧ heldShared.serves 0 (be16 handle9) 0 = true ∧
      heldShared.honoured handle9 = some (472, recordWith [sharedOf 0] []) ∧
      (recordWith [sharedOf 0] []).holder 1 = none ∧
      (recordWith [sharedOf 0] []).holder 0 = some (sharedOf 0)) ∧
    (heldExclusive.serves 0 (be16 handle9) 0 = true ∧
      heldExclusive.honoured handle9 = some (472, recordWith [exclusiveOf 0] []) ∧
      (recordWith [exclusiveOf 0] []).holder 0 = some (exclusiveOf 0)) := by decide +kernel

theorem witness_RenewSetsTheCallersLifetime :
    let body := be16 handle9 ++ be16 0 ++ [0]
    (ready.serves 0 [0] 0 = true ∧ parseRenew [0] = none) ∧
    (parseRenew body = some (handle9, 0) ∧ ready.serves 0 body 0 = true ∧ ready.honoured handle9 = none) ∧
    (heldShared.serves 1 body 0 = true ∧ heldShared.serves 0 body 0 = true ∧
      heldShared.honoured handle9 = some (472, recordWith [sharedOf 0] []) ∧
      (recordWith [sharedOf 0] []).holds 1 = false ∧ (recordWith [sharedOf 0] []).holds 0 = true ∧
      heldShared.monitor.timeState.permits = true) ∧
    ((atTime .unsafeTime heldShared).serves 0 body 0 = true ∧
      (atTime .unsafeTime heldShared).monitor.timeState.permits = false) := by decide +kernel

theorem witness_RenewSetRenewsTheSelectedPartitions :
    let body := [0x02, 0] ++ be16 0
    (ready.serves 0 [0, 0, 0, 0] 0 = true ∧ parseRenewSet [0, 0, 0, 0] = none) ∧
    (parseRenewSet body = some (0x02, 0) ∧ heldShared.serves 0 body 0 = true ∧
      heldShared.monitor.timeState.permits = true) ∧
    ((atTime .unsafeTime heldShared).serves 0 body 0 = true ∧
      (atTime .unsafeTime heldShared).monitor.timeState.permits = false) := by decide +kernel

theorem witness_RecordsRetireWhenEmptyAndTransient :
    (let r := recordWith [] [];
      (place 472 r ready).record 472 = some r ∧ r.persistent = false ∧ r.holders = [] ∧ r.queue = []) ∧
    unheld.record 472 = some { recordWith [] [] with persistent := true } ∧ ready.record 472 = none := by
  decide +kernel

theorem witness_ReleaseRemovesTheCallersPart :
    parseHandle (be16 handle9) = some handle9 ∧
    (ready.serves 0 (be16 handle9) 0 = true ∧ ready.honoured handle9 = none) ∧
    (contended.serves 0 (be16 handle9) 0 = true ∧ contended.serves 1 (be16 handle9) 0 = true ∧
      contended.serves 2 (be16 handle9) 0 = true ∧
      contended.honoured handle9 = some (472, recordWith [exclusiveOf 0] [claimOf 1 .exclusive 300]) ∧
      (recordWith [exclusiveOf 0] [claimOf 1 .exclusive 300]).holds 0 = true ∧
      (recordWith [exclusiveOf 0] [claimOf 1 .exclusive 300]).waits 1 = true ∧
      (recordWith [exclusiveOf 0] [claimOf 1 .exclusive 300]).holds 2 = false ∧
      (recordWith [exclusiveOf 0] [claimOf 1 .exclusive 300]).waits 2 = false) := by decide +kernel

theorem witness_RetirementVacatesTheSlot :
    (contended.canonical = true ∧
      contended.record 472 = some (recordWith [exclusiveOf 0] [claimOf 1 .exclusive 300]) ∧
      ascending (recordWith [exclusiveOf 0] [claimOf 1 .exclusive 300]).holders = true) ∧
    (inStandby.canonical = true ∧ inStandby.record 472 = some (recordWith [keepHolder (exclusiveOf 0)] []) ∧
      ascending (recordWith [keepHolder (exclusiveOf 0)] []).holders = true ∧
      (keepHolder (exclusiveOf 0)).status = .kept) := by decide +kernel

def writing (epoch : Epoch) (mask : Byte) : WriteFields :=
  { handle := handle9, epoch := epoch, mask := mask, words := List.replicate 8 0xAABBCCDD }

theorem witness_WriteIsFencedByTheEpoch :
    (ready.serves 0 [0] 0 = true ∧ parseWrite [0] = none) ∧
    (parseWrite (writeBody 1 0) = some (writing 1 0) ∧ parseWrite (writeBody 2 0xFF) = some (writing 2 0xFF)) ∧
    (ready.serves 0 (writeBody 1 0) 0 = true ∧ ready.honoured handle9 = none) ∧
    (heldShared.serves 1 (writeBody 1 0) 0 = true ∧ heldShared.serves 0 (writeBody 1 0) 0 = true ∧
      heldShared.honoured handle9 = some (472, recordWith [sharedOf 0] []) ∧
      (recordWith [sharedOf 0] []).holder 1 = none ∧
      (recordWith [sharedOf 0] []).holder 0 = some (sharedOf 0)) ∧
    (heldExclusive.serves 0 (writeBody 1 0) 0 = true ∧ heldExclusive.serves 0 (writeBody 2 0xFF) 0 = true ∧
      heldExclusive.honoured handle9 = some (472, recordWith [exclusiveOf 0] []) ∧
      (recordWith [exclusiveOf 0] []).holder 0 = some (exclusiveOf 0) ∧ (exclusiveOf 0).epoch = some 1 ∧
      (recordWith [exclusiveOf 0] []).value.length = 8) := by decide +kernel

theorem witness_JoinStartsASession :
    (opened.hears 0 [] 0 = true ∧ opened.table = .ready ∧ (opened.session 0).state.joined = false) ∧
    ({ opened with sessionCounter := 0xFFFF } : State).hears 0 [] 0 = true := by decide +kernel

theorem witness_LeaveAndRejoinEndTheSession :
    (contended.hears 0 [] 0 = true ∧ contended.table = .ready ∧ (contended.session 0).state.joined = true) ∧
    (contended.canonical = true ∧
      contended.record 472 = some (recordWith [exclusiveOf 0] [claimOf 1 .exclusive 300]) ∧
      (recordWith [exclusiveOf 0] [claimOf 1 .exclusive 300]).holds 2 = false ∧
      (recordWith [exclusiveOf 0] [claimOf 1 .exclusive 300]).waits 2 = false) ∧
    (heldExclusive.record 472 = some (recordWith [exclusiveOf 0] []) ∧
      let u := ((heldExclusive.putRecord 472 (recordWith [] [])).setSession 0
        { heldExclusive.session 0 with leaseCount := (heldExclusive.session 0).leaseCount - 1 }).grantCheck 472
      u.record 472 = some (recordWith [] []) ∧ (recordWith [] []).persistent = false) ∧
    (contended.partSlots 1 = [472] ∧
      let u := ((contended.putRecord 472 (recordWith [exclusiveOf 0] [])).setSession 1
        { contended.session 1 with leaseCount := (contended.session 1).leaseCount - 1 }).grantCheck 472
      u.record 472 = some (recordWith [exclusiveOf 0] [])) := by decide +kernel

/-- Durations 20000 and 20001 are the two sides of STANDBY_MAX. -/
theorem witness_StandbyIsEnteredOrRefused :
    (contended.serves 0 ([0x02, 0] ++ be16 20000) 0 = true ∧
      parseStandby ([0x02, 0] ++ be16 20000) = some (0x02, 20000) ∧ contended.settings.standbyMax ≠ 0 ∧
      20000 ≤ contended.settings.standbyMax) ∧
    (contended.serves 0 ([0x02, 0] ++ be16 20001) 0 = true ∧
      parseStandby ([0x02, 0] ++ be16 20001) = some (0x02, 20001) ∧ contended.settings.standbyMax < 20001) ∧
    (let r := recordWith [exclusiveOf 0] [claimOf 1 .exclusive 300];
      contended.record 472 = some r ∧ (r.holds 1 = false ∧ r.waits 1 = true) ∧
      (r.holds 0 = true ∧ r.waits 0 = false ∧ (0xFD : Byte).getLsbD (472 / 256) = false ∧
        (0x02 : Byte).getLsbD (472 / 256) = true)) ∧
    (let r := recordWith [sharedOf 0, sharedOf 2] [claimOf 2 .upgrade 400, claimOf 1 .shared 1000];
      draining.record 472 = some r ∧ r.holds 2 = true ∧ r.waits 2 = true ∧
      (((draining.putRecord 472 { r with queue := r.queue.filter fun c => c.agent != 2 }).grantCheck 472).record
        472).isSome = true) := by decide +kernel

theorem witness_WakeResumesOrAcknowledges :
    (inStandby.quietBut 0 = true ∧ inStandby.portOpen 0 (requestLength [] 0) = true ∧ inStandby.table = .ready ∧
      (inStandby.session 0).state = .standby ∧
      (inStandby.session 0).standby = some { kept := 1, countdown := 1000 }) ∧
    (standbyOver.quietBut 0 = true ∧ standbyOver.quiet = false ∧
      standbyOver.portOpen 0 (requestLength [] 0) = true ∧ standbyOver.table = .ready ∧
      (standbyOver.session 0).state = .standby ∧
      (standbyOver.session 0).standby = some { kept := 1, countdown := 0 }) ∧
    (ready.quietBut 0 = true ∧ ready.portOpen 0 (requestLength [] 0) = true ∧ ready.table = .ready ∧
      (ready.session 0).state = .active) := by decide +kernel

/-- The fields of a SET of setting `id` to `v`. -/
def setting (id : Byte) (v : Half) (s : State) : State := withFields (fieldsOf id v 0 0 0 9) s

def openTo (s : State) (k : Setting) (st : Settings) : Prop :=
  s.mailboxOpen = true ∧ Setting.ofId s.management.settingId = some k ∧
    s.settings.change k s.management.settingValue = some st

theorem witness_SetIsDecidedInOrder :
    ((setting 0x0E 1 ready).mailboxOpen = true ∧
      Setting.ofId (setting 0x0E 1 ready).management.settingId = none) ∧
    ((setting 0x05 9 opened).mailboxOpen = true ∧
      Setting.ofId (setting 0x05 9 opened).management.settingId = some .createBurst ∧
      Settings.reset.change .createBurst 9 = none) ∧
    (openTo (setting 0x05 8 ready) .createBurst { Settings.reset with createBurst := 8 } ∧
      (ready.session 0).state.joined = true) ∧
    (openTo (setting 0x06 1 opened) .createSpan { Settings.reset with createSpan := 1 } ∧
      ∀ n : Agent, (opened.session n).state.joined = false) ∧
    openTo (setting 0x0D 2048 opened) (.quota 3)
      { Settings.reset with quota := { Settings.reset.quota with a3 := 2048 } } ∧
    (openTo (setting 0x0A 0 ready) (.quota 0) { Settings.reset with quota := ⟨0, 512, 512, 512⟩ } ∧
      (ready.session 0).state.joined = true) := by
  unfold openTo
  decide +kernel

theorem witness_SetPerformsEachSetting :
    openTo (setting 0x01 30000 ready) .defaultLife { Settings.reset with defaultLife := 30000 } ∧
    openTo (setting 0x02 1 ready) .minLife { Settings.reset with minLife := 1 } ∧
    openTo (setting 0x03 65535 ready) .maxLife { Settings.reset with maxLife := 65535 } ∧
    openTo (setting 0x04 3 ready) .derate { Settings.reset with derate := .sevenEighths } ∧
    openTo (setting 0x07 0 ready) .standbyMax { Settings.reset with standbyMax := 0 } ∧
    (let s := setting 0x08 100 { atTime .holdover ready with
        monitor := { (atTime .holdover ready).monitor with elapsed := 100 } };
      openTo s .holdoverMax { Settings.reset with holdoverMax := 100 } ∧ s.monitor.timeState = .holdover ∧
      s.monitor.elapsed = 100) ∧
    openTo (setting 0x08 101 ready) .holdoverMax { Settings.reset with holdoverMax := 101 } ∧
    openTo (setting 0x09 0 ready) .timeSource Settings.reset ∧
    openTo (setting 0x09 1 ready) .timeSource { Settings.reset with timeSource := .internal } ∧
    (let s := setting 0x09 0 { atTime .freeRun ready with
        settings := { Settings.reset with timeSource := .internal } };
      openTo s .timeSource Settings.reset ∧ s.settings.timeSource = .internal) := by
  unfold openTo
  decide +kernel

/-- Each setting's values at the ends of its range, and the first values beyond them. -/
theorem witness_SettingsTakeTheirRanges :
    let st := Settings.reset
    let taken := fun k v => (st.change k v).isSome
    st.inRange = true ∧ 0x0D < (0x0E : Byte).toNat ∧ 0x0D < (0xFF : Byte).toNat ∧
    [49, 50, 30000, 30001].map (taken .defaultLife) = [false, true, true, false] ∧
    [0, 1, 5000, 5001].map (taken .minLife) = [false, true, true, false] ∧
    [4999, 5000, 65535, 65536].map (taken .maxLife) = [false, true, true, false] ∧
    [0, 3, 4].map (taken .derate) = [true, true, false] ∧ [0, 1, 8, 9].map (taken .createBurst) =
      [false, true, true, false] ∧ [0, 1, 65535].map (taken .createSpan) = [false, true, true] ∧
    [0, 65535].map (taken .standbyMax) = [true, true] ∧ [0, 1, 65535].map (taken .holdoverMax) = [false, true, true] ∧
    [0, 1, 2].map (taken .timeSource) = [true, true, false] ∧
    [0, 2048, 2049].map (taken (.quota 3)) = [true, true, false] := by decide +kernel

theorem witness_MailboxRequestsTestKeyThenTable :
    ((withFields (fieldsOf 0 0 0 1 0 0) ready).mailboxOpen = true ∧
      (withFields (fieldsOf 0 0 0 1 0 0) ready).management.keyLength = 0 ∧
      (withFields (fieldsOf 0 0 0 1 0 0) ready).management.persistence.toNat ≤ 1) ∧
    ((withFields (fieldsOf 0 0 0 2 0 25) ready).mailboxOpen = true ∧
      24 < (withFields (fieldsOf 0 0 0 2 0 25) ready).management.keyLength ∧
      1 < (withFields (fieldsOf 0 0 0 2 0 25) ready).management.persistence.toNat) ∧
    ((withFields (fieldsOf 0 0 0 0 0 24) State.reset).mailboxOpen = true ∧
      (withFields (fieldsOf 0 0 0 0 0 24) State.reset).management.keyLength = 24 ∧
      (withFields (fieldsOf 0 0 0 0 0 24) State.reset).table = .initializing) ∧
    ((naming ready).mailboxOpen = true ∧ (naming ready).table = .ready ∧
      (naming ready).management.validKey = some key9 ∧ (naming ready).findKey key9 = none) ∧
    ((naming heldShared).mailboxOpen = true ∧
      (naming heldShared).findKey key9 = some (472, recordWith [sharedOf 0] [])) := by decide +kernel

theorem witness_AStartedRequestIsTakenWhileBusy :
    ((naming ready).mailboxOpen = true ∧ exec (.registerWrite (some 0x73) (some 0x02)) (naming ready) =
      .next (after (.registerWrite (some 0x73) (some 0x02)) (naming ready))) ∧
    ((withMailbox .busy ready).quiet = true ∧ (withMailbox .busy ready).held = false ∧
      (withMailbox .busy ready).management.mailbox = .busy ∧
      (withMailbox .busy ready).management.code ≠ 0x02) ∧
    (State.resetHeld.quiet = true ∧ State.resetHeld.held = true) :=
  ⟨⟨by decide +kernel, rfl⟩, by decide +kernel, by decide +kernel⟩

/-- A MARK with persistence off. -/
def markingOff (s : State) : State := withFields (fieldsOf 0 0 0 0 0 9) s

theorem witness_DefineAndMarkSetPersistence :
    ((naming heldShared).mailboxOpen = true ∧ (naming heldShared).table = .ready ∧
      (naming heldShared).management.validKey = some key9 ∧
      (naming heldShared).findKey key9 = some (472, recordWith [sharedOf 0] []) ∧
      (naming heldShared).management.persistence = 0x01) ∧
    ((markingOff unheld).mailboxOpen = true ∧ (markingOff unheld).management.validKey = some key9 ∧
      (markingOff unheld).findKey key9 = some (472, { recordWith [] [] with persistent := true }) ∧
      (markingOff unheld).management.persistence = 0x00) ∧
    ((markingOff heldShared).mailboxOpen = true ∧
      (markingOff heldShared).findKey key9 = some (472, recordWith [sharedOf 0] []) ∧
      (markingOff heldShared).management.persistence = 0x00) ∧
    ((naming ready).findKey key9 = none ∧ (naming ready).vacantWays key9 = [472, 473, 474, 475]) ∧
    ((naming bucketFull).mailboxOpen = true ∧ (naming bucketFull).findKey key9 = none ∧
      (naming bucketFull).vacantWays key9 = []) := by decide +kernel

theorem witness_RetireRevokesAndCancels :
    ((naming ready).mailboxOpen = true ∧ (naming ready).table = .ready ∧
      (naming ready).management.validKey = some key9 ∧ (naming ready).findKey key9 = none) ∧
    ((naming draining).mailboxOpen = true ∧ (naming draining).management.validKey = some key9 ∧
      (naming draining).findKey key9 =
        some (472, recordWith [sharedOf 0, sharedOf 2] [claimOf 2 .upgrade 400, claimOf 1 .shared 1000])) := by
  decide +kernel

theorem witness_SeedWritesAnUnheldRecord :
    ((withFields (fieldsOf 0 0 0 0 0 25) ready).mailboxOpen = true ∧
      (withFields (fieldsOf 0 0 0 0 0 25) ready).management.keyLength = 25) ∧
    ((naming State.reset).mailboxOpen = true ∧ (naming State.reset).management.validKey = some key9 ∧
      (naming State.reset).table = .initializing) ∧
    ((naming ready).mailboxOpen = true ∧ (naming ready).findKey key9 = none) ∧
    ((naming heldShared).mailboxOpen = true ∧
      (naming heldShared).findKey key9 = some (472, recordWith [sharedOf 0] [])) ∧
    ((naming unheld).mailboxOpen = true ∧
      (naming unheld).findKey key9 = some (472, { recordWith [] [] with persistent := true }) ∧
      (recordWith [] []).value.length = 8 ∧ (markingOff unheld).management.wordMask = 0) := by decide +kernel

/-- Agent numbers 3 and 4 are the two sides of the bound. -/
theorem witness_EvictRemovesAJoinedAgent :
    ((withFields (fieldsOf 0 0 4 0 0 9) ready).mailboxOpen = true ∧
      3 < (withFields (fieldsOf 0 0 4 0 0 9) ready).management.agentNumber.toNat) ∧
    ((withFields (fieldsOf 0 0 3 0 0 9) ready).mailboxOpen = true ∧
      (withFields (fieldsOf 0 0 3 0 0 9) ready).management.agentNumber.toNat = (3 : Agent).val ∧
      (ready.session 3).state.joined = true ∧ ready.table = .ready) ∧
    ((withFields (fieldsOf 0 0 3 0 0 9) opened).mailboxOpen = true ∧ opened.table = .ready ∧
      (opened.session 3).state.joined = false) ∧
    ((withFields (fieldsOf 0 0 3 0 0 9) State.reset).mailboxOpen = true ∧
      State.reset.table = .initializing) := by decide +kernel

/-- The management port addressed at `a`, with what its two latches hold. -/
def addressed (a : Byte) (field : Option (Nat × List Byte)) (output : Option (List Byte)) (s : State) : State :=
  s.setManagement { s.management with
    listening := true, pointer := a, fieldLatch := field, outputLatch := output }

/-- The ends of an agent view's field, the bytes before and after it, and the ends of the output area. -/
theorem witness_ReadRunsTakeStatusAndResult :
    (ready.quiet = true ∧ ready.held = false ∧ ReadStart.addressed 0x05 ≠ .continued ∧ ReadStart.standing ≠ .continued) ∧
    (let s := after (.registerWrite (some 0x73) none) ready;
      s.quiet = true ∧ s.held = false ∧ s.management.listening = true) ∧
    (withMailbox .done ready).management.mailbox = .done ∧
    (State.resetHeld.quiet = true ∧ State.resetHeld.held = true) ∧
    (State.reset.quiet = true ∧ State.reset.management.listening = false) ∧
    (let s := addressed 0x0A (some (0x08, [1, 2, 3])) none ready;
      s.quiet = true ∧ s.held = false ∧ s.management.listening = true ∧ (0x08, 3) ∈ latchedFields ∧
      s.management.fieldLatch = some (0x08, [1, 2, 3]) ∧ 0x08 < s.management.pointer.toNat ∧
      s.management.pointer.toNat < 0x08 + 3 ∧
      (after (.statusRead { start := .continued, count := 1 }) s).management.readOut = [3]) ∧
    (let s := addressed 0x08 none none ready;
      s.quiet = true ∧ s.held = false ∧ s.management.listening = true ∧ s.management.pointer.toNat = 0x08) ∧
    (let s := addressed 0x09 none none ready;
      s.quiet = true ∧ s.management.listening = true ∧ s.management.fieldLatch = none) ∧
    (let s := addressed 0x0B none none ready;
      s.quiet = true ∧ s.management.listening = true ∧
      ∀ f ∈ latchedFields, s.management.pointer.toNat < f.1 ∨ f.1 + f.2 ≤ s.management.pointer.toNat) ∧
    (let s := addressed 0x78 none none ready;
      s.quiet = true ∧ s.management.listening = true ∧ 0x78 ≤ s.management.pointer.toNat ∧
      s.management.outputLatch = none) ∧
    (let s := addressed 0xFF none (some (List.replicate 136 7)) ready;
      s.quiet = true ∧ s.management.outputLatch = some (List.replicate 136 7) ∧
      (after (.statusRead { start := .continued, count := 1 }) s).management.readOut = [7]) := by decide +kernel

theorem witness_AByteReadIsTheWindowsByte :
    ready.quiet = true ∧ ready.held = false ∧ (0x00 : Byte).toNat + 256 ≤ 256 ∧ (0xFF : Byte).toNat + 1 ≤ 256 ∧
    (addressedAt 0xFF ready).quiet = true ∧ (addressedAt 0xFF ready).management.pointer = 0xFF := by decide +kernel

/-- The bytes stored at the ends of each request field are the field's. -/
theorem witness_RequestFieldsStandWhereTheyAreWritten :
    let put := fun (a v : Byte) (s : State) => after (.registerWrite (some a) (some v)) s
    let m := (put 0x34 1 (put 0x35 2 (put 0x36 3 (put 0x37 4 (put 0x38 5 (put 0x39 6 (put 0x3A 24 (put 0x3B 8
      (put 0x52 9 (put 0x53 10 (put 0x72 11 ready))))))))))).management
    m.settingId = 1 ∧ m.settingValue = 0x0203 ∧ m.agentNumber = 4 ∧ m.persistence = 5 ∧ m.wordMask = 6 ∧
    m.keyLength = 24 ∧ m.validKey = some (8 :: List.replicate 22 0 ++ [9]) ∧
    m.words = 0x0A000000 :: List.replicate 6 0 ++ [11] := by decide +kernel

/-- Addresses 33h, 34h, 72h, 73h and 74h: the clauses' ends. -/
theorem witness_WritesReachTheRequestFields :
    (ready.quiet = true ∧ ready.held = false ∧ ready.management.mailbox ≠ .busy) ∧
    (withMailbox .busy ready).management.mailbox = .busy ∧
    ((0x33 : Byte).toNat < 0x34 ∧ 0x34 ≤ (0x34 : Byte).toNat ∧ (0x72 : Byte).toNat ≤ 0x72 ∧
      (0x73 : Byte).toNat = 0x73 ∧ 0x73 < (0x74 : Byte).toNat ∧ (0x06 : Byte) ≠ 0x08) ∧
    (addressedAt 0x73 ready).management.pointer.toNat = 0x73 ∧
    (let s := after (.registerWrite (some 0x33) none) ready;
      s.quiet = true ∧ s.held = false ∧ s.management.listening = true) ∧
    (State.resetHeld.quiet = true ∧ State.resetHeld.held = true) ∧
    (State.reset.quiet = true ∧ State.reset.management.listening = false) := by decide +kernel

def noPulse (s : State) : State := s.setMonitor { s.monitor with lastPulse := .absent }

theorem witness_TimeBaseFollowsTheReference :
    (State.resetHeld.quiet = true ∧ State.resetHeld.held = true) ∧
    ((atTime .freeRun { ready with settings := { Settings.reset with timeSource := .internal } }).quiet = true) ∧
    (ready.quiet = true ∧ ready.held = false ∧ ready.settings.timeSource = .reference ∧
      ready.monitor.lastPulse = .present 0 ∧ ready.monitor.timeState = .locked ∧ 0 + 1500000 ≤ 1500000 ∧
      1500000 < 0 + 1500001) ∧
    ((atTime .drift ready).monitor.lastPulse = .present 0 ∧ (atTime .acquiring ready).quiet = true ∧
      (atTime .acquiring ready).monitor.lastPulse = .present 0) ∧
    ((atTime .drift ready).quiet = true ∧ (atTime .drift ready).monitor.timeState = .drift ∧
      (atTime .drift ready).monitor.good + 1 ≠ 8) ∧
    (let s := (atTime .acquiring ready).setMonitor { (atTime .acquiring ready).monitor with good := 7 };
      s.quiet = true ∧ s.monitor.lastPulse = .present 0 ∧ s.monitor.good + 1 = 8) ∧
    ((noPulse (atTime .acquiring ready)).quiet = true ∧
      (noPulse (atTime .acquiring ready)).monitor.lastPulse = .absent) ∧
    ((noPulse (atTime .holdover ready)).quiet = true ∧
      (noPulse (atTime .holdover ready)).monitor.timeState = .holdover) := by decide +kernel

theorem witness_ChangesOfTimeStateSetTheFlags :
    (atTime .unsafeTime ready).monitor.timeState = .unsafeTime ∧ lockedMonitor.timeState ≠ .acquiring ∧
    lockedMonitor.timeState ≠ .unsafeTime ∧ ready.monitor.timeState ≠ .acquiring ∧
    ready.monitor.timeState ≠ .unsafeTime := by decide +kernel

theorem witness_ATickCountsEverythingByOne :
    ((atTime .drift ready).quiet = true ∧ (atTime .drift ready).held = false ∧
      (atTime .drift ready).monitor.divider = .running 0) ∧
    (ready.quiet = true ∧ ready.monitor.divider = .stopped) := by decide +kernel

/-- Slots 472 and 473 have a lease due, and so has the holdover limit. -/
def bothDue : State :=
  { place 473 { recordWith [{ sharedOf 1 with remaining := 0 }] [] with key := [0x41] } leaseDue with
    monitor := limitReached.monitor }

theorem witness_ExpiriesAreTakenWhole :
    (ready.record 472 = none ∧ ∀ i ∈ ready.dueSlots, 472 ≤ i) ∧
    (leaseDue.record 472 = some
        (recordWith [{ exclusiveOf 0 with remaining := 0 }] [claimOf 1 .exclusive 150]) ∧
      (∀ i ∈ leaseDue.dueSlots, 472 ≤ i) ∧ ({ exclusiveOf 0 with remaining := 0 } : Holder).status = .running ∧
      (claimOf 1 .exclusive 150).wait ≠ 0) ∧
    (waitDue.record 472 = some (recordWith [exclusiveOf 0] [claimOf 1 .exclusive 0]) ∧
      (∀ i ∈ waitDue.dueSlots, 472 ≤ i) ∧ (claimOf 1 .exclusive 0).kind ≠ .upgrade ∧
      (exclusiveOf 0).remaining ≠ 0) ∧
    (upgradeDue.record 472 =
        some (recordWith [sharedOf 0, sharedOf 2] [claimOf 2 .upgrade 0, claimOf 1 .shared 1000]) ∧
      (∀ i ∈ upgradeDue.dueSlots, 472 ≤ i) ∧ (claimOf 2 .upgrade 0).kind = .upgrade) := by decide +kernel

/-- A tick in its middle: slots due with the limit and without it, the limit alone, and sessions alone. -/
theorem witness_TicksAreSettledWhole :
    ((bothDue.canonical && bothDue.keptAlive) = true ∧ bothDue.dueSlots = [472, 473] ∧ bothDue.limitDue = true) ∧
    ((leaseDue.canonical && leaseDue.keptAlive) = true ∧ leaseDue.dueSlots = 472 :: [] ∧
      leaseDue.limitDue = false) ∧
    ((limitReached.canonical && limitReached.keptAlive) = true ∧ limitReached.dueSlots = [] ∧
      limitReached.limitDue = true) ∧
    ((standbyOver.canonical && standbyOver.keptAlive) = true ∧ standbyOver.dueSlots = [] ∧
      standbyOver.limitDue = false ∧ standbyOver.settle.quiet = true) ∧
    (Instr.time 0 now []).tickPart = false ∧ (Instr.time 0 now []).fullReset = false := by decide +kernel

theorem witness_StandbyWindowAndHoldoverRunOut :
    ((standbyOver.session 0).state = .standby ∧
      (standbyOver.session 0).standby = some { kept := 1, countdown := 0 }) ∧
    ((inStandby.session 0).state = .standby ∧
      (inStandby.session 0).standby = some { kept := 1, countdown := 1000 }) ∧
    (ready.session 0).state ≠ .standby ∧
    ((entryOver.session 0).window = 100 :: [99] ∧ entryOver.settings.createSpan ≤ 100) ∧
    (let s := ready.setSession 0 { activeAs 1 with window := [99] };
      ∀ age ∈ (s.session 0).window, age < s.settings.createSpan) ∧
    (limitReached.monitor.timeState = .holdover ∧
      limitReached.settings.holdoverMax ≤ limitReached.monitor.elapsed) ∧
    (atTime .holdover ready).monitor.elapsed < (atTime .holdover ready).settings.holdoverMax := by decide +kernel

/-- A step from a contended table. -/
def stepping : State := { atTime .drift contended with pending := [.dividerTick] }

theorem witness_InvariantsOfEveryStep :
    (stepping.exclusivity && stepping.fencing) = true ∧ stepping.canonical = true ∧
    (stepping.canonical && stepping.frontsBlocked) = true ∧
    (stepping.settings.inRange && stepping.sourceMatches && stepping.monitorFormed) = true ∧
    (stepping.canonical && stepping.everyRecord Record.queueOrdered && stepping.counted &&
      stepping.outsidersEmpty && stepping.sweepEmpty) = true ∧
    (stepping.canonical && stepping.recordsFormed && stepping.placed && stepping.keptAlive && stepping.counted &&
      stepping.outsidersEmpty && stepping.sweepEmpty && stepping.withinQuota && stepping.windowsBounded &&
      stepping.standbyKept) = true ∧
    (inStandby.canonical && inStandby.recordsFormed && inStandby.placed && inStandby.keptAlive && inStandby.counted &&
      inStandby.outsidersEmpty && inStandby.sweepEmpty && inStandby.withinQuota && inStandby.windowsBounded &&
      inStandby.standbyKept) = true ∧
    step stepping = .next (after .dividerTick (atTime .drift contended)) :=
  ⟨by decide +kernel, by decide +kernel, by decide +kernel, by decide +kernel, by decide +kernel, by decide +kernel,
    by decide +kernel, rfl⟩

theorem witness_EpochsNeverFall :
    (Instr.claim 1 now (claimBody .exclusive 0 0)).fullReset = false ∧
    exec (.claim 1 now (claimBody .exclusive 0 0)) unheld =
      .next (after (.claim 1 now (claimBody .exclusive 0 0)) unheld) := ⟨by decide +kernel, rfl⟩

end Sys2Proof.Tests
end

section
/-! The agent requests about leases: CLAIM on a present key (R33 to R35), RENEW (R42), RENEW_SET (R43) and RELEASE
(R44, R67). First the state in which a request is taken, then what each rule answers in each of its cases, as one
equation per case over any state; then the statements. -/

namespace Sys2Proof.Machine

/-! ### The state in which a request is taken -/

/-- The asked state differs from the present one in the caller's port alone. What is read through a field agrees by
`rfl`; a key is looked for by recursion, so this reading has its law. -/
@[simp] theorem State.asked_findKey (s : State) (n : Agent) (body : List Byte) (extra : Nat) (key : List Byte) :
    (s.asked n body extra).findKey key = s.findKey key := State.findKey_congr rfl key

section
variable {s v : State} {a : Answer} {n : Agent} {body : List Byte} {extra : Nat}

/-- A request of an ACTIVE agent, sent now with the table READY, comes to what its rule gives in the asked state. -/
theorem State.request_of_rule (hs : s.serves n body extra = true) (k : Request) {rule : State → State × Answer}
    (hr : rule (s.asked n body extra) = (v, a)) :
    s.request k n (Transfer.now extra) body rule = v.answer n a := by
  rw [State.request_serves hs, hr]

theorem exec_claim_of_rule (hs : s.serves n body extra = true)
    (hr : claimRule n body (s.asked n body extra) = (v, a)) :
    exec (.claim n (Transfer.now extra) body) s = .next (v.answer n a) :=
  congrArg Host.Outcome.next (State.request_of_rule hs .claim hr)

theorem exec_renew_of_rule (hs : s.serves n body extra = true)
    (hr : renewRule n body (s.asked n body extra) = (v, a)) :
    exec (.renew n (Transfer.now extra) body) s = .next (v.answer n a) :=
  congrArg Host.Outcome.next (State.request_of_rule hs .renew hr)

theorem exec_renewSet_of_rule (hs : s.serves n body extra = true)
    (hr : renewSetRule n body (s.asked n body extra) = (v, a)) :
    exec (.renewSet n (Transfer.now extra) body) s = .next (v.answer n a) :=
  congrArg Host.Outcome.next (State.request_of_rule hs .renewSet hr)

theorem exec_release_of_rule (hs : s.serves n body extra = true)
    (hr : releaseRule n body (s.asked n body extra) = (v, a)) :
    exec (.release n (Transfer.now extra) body) s = .next (v.answer n a) :=
  congrArg Host.Outcome.next (State.request_of_rule hs .release hr)

end

/-! ### Parts and lease counts (R38) -/

theorem hasPart_eq_true {r : Record} {n : Agent} (h : r.holds n = true ∨ r.waits n = true) : r.hasPart n = true := by
  rwa [Record.hasPart, Bool.or_eq_true]

theorem hasPart_eq_false {r : Record} {n : Agent} (hh : r.holds n = false) (hw : r.waits n = false) :
    r.hasPart n = false := by
  rw [Record.hasPart, hh, hw, Bool.or_false]

theorem State.gainPart_eq (s : State) (n : Agent) :
    s.gainPart n = s.setSession n { s.session n with leaseCount := (s.session n).leaseCount + 1 } := rfl

theorem State.losePart_eq (s : State) (n : Agent) :
    s.losePart n = s.setSession n { s.session n with leaseCount := (s.session n).leaseCount - 1 } := rfl

/-! ### CLAIM on a present key (R33 to R35) -/

/-- In the canonical form the occupied slots are the entries of the record list. -/
theorem record_eq_some_iff_mem {s : State} (hc : s.canonical = true) {slot : Nat} {r : Record} :
    s.record slot = some r ↔ (slot, r) ∈ s.records :=
  (Sparse.mem_iff_find ((canonical_iff s).1 hc).records).symm

/-- What a slot holds after one slot is written: the record written there, the old one elsewhere. -/
theorem putRecord_record_eq_some_iff {s : State} {slot i : Nat} {r x : Record} :
    (s.putRecord slot x).record i = some r ↔ (i = slot ∧ r = x) ∨ (i ≠ slot ∧ s.record i = some r) := by
  rw [record_putRecord]
  by_cases hi : i = slot
  · simp [hi, eq_comm]
  · simp [hi]

/-- R33 test 3 fails: the immediate grant of a CLAIM does not happen. -/
theorem claim_not_grantable_iff {ts : TimeState} {source : Epoch} {r : Record} {m : Mode} :
    (r.queue.isEmpty && r.compatible m && !withheld ts source m.takesEpoch) = false ↔
      r.queue ≠ [] ∨ r.compatible m = false ∨ withheld ts source m.takesEpoch = true := by
  simp only [Bool.and_eq_false_iff, Bool.not_eq_false', List.isEmpty_eq_false_iff, or_assoc]

section
variable {u : State} {slot : Nat} {r : Record} {n : Agent} {q : ClaimFields} {body : List Byte}

theorem claimRule_present (hp : parseClaim body = some q) (hk : u.findKey q.key = some (slot, r)) :
    claimRule n body u = u.claimPresent slot r n q := by
  simp only [claimRule, hp, hk]

/-- R33 test 1. -/
theorem claimPresent_hasPart (h : r.hasPart n = true) :
    u.claimPresent slot r n q = (u, .refused .alreadyHeld) := if_pos h

/-- R33 test 2. -/
theorem claimPresent_atQuota (h : r.hasPart n = false) (hq : (u.session n).leaseCount = u.settings.quota.get n) :
    u.claimPresent slot r n q = (u, .refused .quota) := by
  simp only [State.claimPresent, h, hq, Bool.false_eq_true, if_false, if_true]

section
variable (h : r.hasPart n = false) (hq : (u.session n).leaseCount ≠ u.settings.quota.get n)
include h hq

/-- R33 test 3. -/
theorem claimPresent_grant (he : r.queue = []) (hc : r.compatible q.mode = true)
    (hw : withheld u.monitor.timeState u.epochSource q.mode.takesEpoch = false) :
    u.claimPresent slot r n q = u.grantNow slot r n q.mode q.requested := by
  simp only [State.claimPresent, h, hq, he, hc, hw, List.isEmpty_nil, Bool.not_false, Bool.and_self,
    Bool.false_eq_true, if_false, if_true]

variable (hb : r.queue ≠ [] ∨ r.compatible q.mode = false ∨
  withheld u.monitor.timeState u.epochSource q.mode.takesEpoch = true)
include hb

/-- R33 test 4: the refusal names the obstacle of R34. -/
theorem claimPresent_noWait {code : RefusalCode} (hwait : q.wait = 0) (ho : u.claimObstacle r q.mode = code) :
    u.claimPresent slot r n q = (u, .refused code) := by
  simp only [State.claimPresent, h, hq, claim_not_grantable_iff.2 hb, hwait, ho, Bool.false_eq_true, if_false,
    if_true]

/-- R33 test 5. -/
theorem claimPresent_enqueue (hwait : q.wait ≠ 0) : u.claimPresent slot r n q = u.enqueue slot r n q := by
  simp only [State.claimPresent, h, hq, claim_not_grantable_iff.2 hb, hwait, Bool.false_eq_true, if_false]

end

/-- R34: a non-empty queue or an incompatible mode is a CONFLICT, whatever the time state. -/
theorem claimObstacle_conflict {m : Mode} (h : r.queue ≠ [] ∨ r.compatible m = false) :
    u.claimObstacle r m = .conflict := by
  have hb : (!r.compatible m || !r.queue.isEmpty) = true := by
    simpa [or_comm] using h
  exact if_pos hb

/-- R34: without a conflict, a time state that withholds every grant is the obstacle. -/
theorem claimObstacle_timeUnsafe {m : Mode} (he : r.queue = []) (hc : r.compatible m = true)
    (ht : u.monitor.timeState.permits = false) : u.claimObstacle r m = .timeUnsafe := by
  simp [State.claimObstacle, withheldCode, he, hc, ht]

/-- R34: without a conflict, and with grants permitted, the exhausted epoch source is the obstacle. -/
theorem claimObstacle_epochExhausted {m : Mode} (he : r.queue = []) (hc : r.compatible m = true)
    (ht : u.monitor.timeState.permits = true) : u.claimObstacle r m = .epochExhausted := by
  simp [State.claimObstacle, withheldCode, he, hc, ht]

end

/-- A CLAIM served on a present key comes to what the present-key path gives in the asked state. -/
theorem exec_claim_of_present {s v : State} {a : Answer} {n : Agent} {body : List Byte} {extra slot : Nat}
    {q : ClaimFields} {r : Record} (hs : s.serves n body extra = true) (hp : parseClaim body = some q)
    (hk : s.findKey q.key = some (slot, r)) (hc : (s.asked n body extra).claimPresent slot r n q = (v, a)) :
    exec (.claim n (Transfer.now extra) body) s = .next (v.answer n a) := by
  have hk' : (s.asked n body extra).findKey q.key = some (slot, r) := by rw [State.asked_findKey, hk]
  exact exec_claim_of_rule hs ((claimRule_present hp hk').trans hc)

/-- Settles O25: the tests of R33 one after another, each branch by the equation of its case. -/
theorem claimOnAPresentKeyIsDecidedInOrder : Obligations.ClaimOnAPresentKeyIsDecidedInOrder := by
  refine ⟨fun s key => ⟨fun slot r h => ?_, findKey_eq_none_iff⟩,
    fun r => ⟨compatible_shared_iff, compatible_exclusive_iff⟩, ⟨rfl, rfl⟩, State.gainPart_eq,
    fun s slot i r x hc => ⟨record_eq_some_iff_mem hc, putRecord_record_eq_some_iff⟩, ?_⟩
  · obtain ⟨hr, hkey, hslot⟩ := findKey_record h
    exact ⟨hslot, hr, hkey⟩
  intro s n body extra slot q r hs hp hk u life fresh refused
  have runs {v : State} {a : Answer} (h : u.claimPresent slot r n q = (v, a)) :
      exec (.claim n (Transfer.now extra) body) s = .next (v.answer n a) := exec_claim_of_present hs hp hk h
  refine ⟨fun h => runs (claimPresent_hasPart (hasPart_eq_true h)), fun hh hw => ?_⟩
  have hpart : r.hasPart n = false := hasPart_eq_false hh hw
  refine ⟨fun hq => runs (claimPresent_atQuota hpart hq), fun hq => ⟨fun he hc hnw => ?_, fun hb => ⟨fun h0 => ?_,
    fun h0 => runs (claimPresent_enqueue hpart hq hb h0)⟩⟩⟩
  · have hg : u.claimPresent slot r n q = u.grantNow slot r n q.mode q.requested :=
      claimPresent_grant hpart hq he hc hnw
    constructor
    · intro hm
      rw [hm] at hg
      exact runs hg
    · intro hm
      rw [hm] at hg
      exact runs hg
  · have refuses {code : RefusalCode} (ho : u.claimObstacle r q.mode = code) : refused code :=
      runs (claimPresent_noWait (u := u) hpart hq hb h0 ho)
    exact ⟨fun hconf => refuses (claimObstacle_conflict hconf), fun he hc =>
      ⟨fun ht => refuses (claimObstacle_timeUnsafe he hc ht),
        fun ht => refuses (claimObstacle_epochExhausted he hc ht)⟩⟩

/-! ### RENEW (R42) -/

section
variable {u : State} {n : Agent} {body : List Byte} {handle : Half} {requested slot : Nat} {r : Record}

theorem renewRule_badField (hp : parseRenew body = none) : renewRule n body u = (u, .refused .badField) := by
  simp only [renewRule, hp]

theorem renewRule_notHonoured (hp : parseRenew body = some (handle, requested)) (hh : u.honoured handle = none) :
    renewRule n body u = (u, .refused .noSuchLease) := by
  simp only [renewRule, hp, hh]

theorem renewRule_notHolder (hp : parseRenew body = some (handle, requested))
    (hh : u.honoured handle = some (slot, r)) (hn : r.holds n = false) :
    renewRule n body u = (u, .refused .noSuchLease) := by
  simp only [renewRule, hp, hh, hn, Bool.not_false, if_true]

theorem renewRule_timeUnsafe (hp : parseRenew body = some (handle, requested))
    (hh : u.honoured handle = some (slot, r)) (hn : r.holds n = true) (ht : u.monitor.timeState.permits = false) :
    renewRule n body u = (u, .refused .timeUnsafe) := by
  simp only [renewRule, hp, hh, hn, ht, Bool.not_true, Bool.not_false, Bool.false_eq_true, if_false, if_true]

theorem renewRule_renews (hp : parseRenew body = some (handle, requested))
    (hh : u.honoured handle = some (slot, r)) (hn : r.holds n = true) (ht : u.monitor.timeState.permits = true) :
    renewRule n body u =
      (u.putRecord slot (r.mapHolder n (renewed (lifetime u.settings u.monitor.timeState requested))),
       .okRenew (lifetime u.settings u.monitor.timeState requested)) := by
  simp only [renewRule, hp, hh, hn, ht, Bool.not_true, Bool.false_eq_true, if_false]

end

/-- Settles O30: the tests of R42 one after another, each branch by the equation of its case. -/
theorem renewSetsTheCallersLifetime : Obligations.RenewSetsTheCallersLifetime := by
  intro s n body extra hs u refused
  refine ⟨fun hp => exec_renew_of_rule hs (renewRule_badField hp), fun handle requested hp =>
    ⟨fun hh => exec_renew_of_rule hs (renewRule_notHonoured hp hh), fun slot r hh =>
    ⟨fun hn => exec_renew_of_rule hs (renewRule_notHolder hp hh hn), fun hn =>
    ⟨fun ht => exec_renew_of_rule hs (renewRule_timeUnsafe hp hh hn ht), fun ht =>
      exec_renew_of_rule hs (renewRule_renews hp hh hn ht)⟩⟩⟩⟩

/-! ### RENEW_SET (R43) -/

section
variable {u : State} {n : Agent} {body : List Byte} {mask : Byte} {requested : Nat}

theorem renewSetRule_badField (hp : parseRenewSet body = none) :
    renewSetRule n body u = (u, .refused .badField) := by
  simp only [renewSetRule, hp]

theorem renewSetRule_timeUnsafe (hp : parseRenewSet body = some (mask, requested))
    (ht : u.monitor.timeState.permits = false) : renewSetRule n body u = (u, .refused .timeUnsafe) := by
  simp only [renewSetRule, hp, ht, Bool.not_false, if_true]

theorem renewSetRule_renews (hp : parseRenewSet body = some (mask, requested))
    (ht : u.monitor.timeState.permits = true) :
    renewSetRule n body u =
      ({ u with records :=
          u.records.map (renewRecord n mask (lifetime u.settings u.monitor.timeState requested)) },
       .okRenewSet (lifetime u.settings u.monitor.timeState requested) (u.renewCount n mask)) := by
  simp only [renewSetRule, hp, ht, Bool.not_true, Bool.false_eq_true, if_false]

/-- R43: the leases renewed, counted entry by entry of the record list. -/
theorem renewCount_eq_countP : u.renewCount n mask =
    u.records.countP fun p => maskSelects mask p.1 && p.2.holders.any (renewable n) :=
  List.countP_eq_length_filter.symm

end

/-- Settles O31: the tests of R43 one after another, each branch by the equation of its case. -/
theorem renewSetRenewsTheSelectedPartitions : Obligations.RenewSetRenewsTheSelectedPartitions := by
  intro s n body extra hs u refused
  refine ⟨fun hp => exec_renewSet_of_rule hs (renewSetRule_badField hp), fun mask requested hp =>
    ⟨fun ht => exec_renewSet_of_rule hs (renewSetRule_timeUnsafe hp ht), fun ht => ?_⟩⟩
  have hr := renewSetRule_renews (u := u) (n := n) hp ht
  rw [renewCount_eq_countP] at hr
  exact exec_renewSet_of_rule hs hr

/-! ### RELEASE (R44, R67) -/

section
variable {u : State} {n : Agent} {body : List Byte} {handle : Half} {slot : Nat} {r : Record}

/-- R44, R67: what an agent's leaving without a notice comes to, in its order. -/
theorem leaveRecord_silent (hr : u.record slot = some r) :
    u.leaveRecord slot n none =
      (((u.putRecord slot (r.dropAgent n)).losePart n).grantCheck slot).retireIfEmpty slot := by
  simp only [State.leaveRecord, hr]

theorem retireIfEmpty_vacant (hr : u.record slot = none) : u.retireIfEmpty slot = u := by
  simp only [State.retireIfEmpty, hr]

theorem releaseRule_notHonoured (hp : parseHandle body = some handle) (hh : u.honoured handle = none) :
    releaseRule n body u = (u, .refused .noSuchLease) := by
  simp only [releaseRule, hp, hh]

theorem releaseRule_noPart (hp : parseHandle body = some handle) (hh : u.honoured handle = some (slot, r))
    (hn : r.hasPart n = false) : releaseRule n body u = (u, .refused .noSuchLease) := by
  simp only [releaseRule, hp, hh, hn, Bool.false_eq_true, if_false]

theorem releaseRule_releases (hp : parseHandle body = some handle) (hh : u.honoured handle = some (slot, r))
    (hn : r.hasPart n = true) :
    releaseRule n body u =
      ((((u.putRecord slot (r.dropAgent n)).losePart n).grantCheck slot).retireIfEmpty slot, .ok) := by
  simp only [releaseRule, hp, hh, hn, if_true, leaveRecord_silent (honoured_record hh).1]

end

/-- Settles O32: the handle and the caller's part are tested in R44's order, each branch by the equation of its case;
the retirement's two outcomes are the two sides of R9's condition. -/
theorem releaseRemovesTheCallersPart : Obligations.ReleaseRemovesTheCallersPart := by
  refine ⟨State.losePart_eq, fun s slot =>
    ⟨retireIfEmpty_vacant, fun r hr => ⟨fun hp hh hq => ?_, fun hn => ?_⟩⟩, ?_⟩
  · rw [retireIfEmpty_eq hr, if_pos ⟨hp, hh, hq⟩]
  · rw [retireIfEmpty_eq hr, if_neg]
    rintro ⟨hp, hh, hq⟩
    simp [hp, hh, hq] at hn
  · intro s n body extra handle hs hp u refused
    refine ⟨fun hh => exec_release_of_rule hs (releaseRule_notHonoured hp hh), fun slot r hh =>
      ⟨fun hn hw => ?_, fun hn => ?_⟩⟩
    · exact exec_release_of_rule hs (releaseRule_noPart hp hh (hasPart_eq_false hn hw))
    · exact exec_release_of_rule hs (releaseRule_releases hp hh (hasPart_eq_true hn))

end Sys2Proof.Machine
end

section
/-! UPGRADE granted at once (R58 test 7, R59). First the record of an only holder and the conflict of a queued claim
with an EXCLUSIVE holder, then the rule's path to the grant as one equation per definition, then the statement. -/

namespace Sys2Proof.Machine

section
variable {r : Record} {n : Agent} {h : Holder}

/-- R25: the only holder's record has one entry, the one that is looked up for it. -/
theorem holders_eq_of_onlyHolder (ho : r.onlyHolder n = true) (hh : r.holder n = some h) :
    r.holders = [h] ∧ h.agent = n := by
  obtain ⟨x, hx, -⟩ := onlyHolder_eq ho
  obtain ⟨hmem, hagent⟩ := holder_some hh
  rw [hx, List.mem_singleton] at hmem
  exact ⟨by rw [hx, hmem], hagent⟩

/-- A change of its agent's entry changes the only entry. -/
theorem mapHolder_only (hr : r.holders = [h]) (ha : h.agent = n) (f : Holder → Holder) :
    r.mapHolder n f = { r with holders := [f h] } := by
  simp [Record.mapHolder, hr, ha]

theorem upgradeQueued_eq_false_iff : r.upgradeQueued = false ↔ ∀ c ∈ r.queue, c.kind ≠ .upgrade := by
  simp [Record.upgradeQueued]

/-- R25, Table 19: beside an EXCLUSIVE holder neither a SHARED nor an EXCLUSIVE claim is compatible. -/
theorem claimCompatible_eq_false_of_exclusive (hm : h ∈ r.holders) (he : h.mode = .exclusive) {c : Claim}
    (hc : c.kind ≠ .upgrade) : r.claimCompatible c = false := by
  rw [← Bool.not_eq_true, Record.claimCompatible]
  cases hk : c.kind with
  | shared =>
    intro hs
    have hmode : h.mode = .shared := compatible_shared_iff.1 hs h hm
    exact absurd (he.symm.trans hmode) (by decide)
  | exclusive =>
    intro hx
    exact List.ne_nil_of_mem hm (compatible_exclusive_iff.1 hx)
  | upgrade => exact absurd hk hc

end

section
variable {u : State} {slot : Nat} {r : Record} {n : Agent} {h : Holder} {q : UpgradeFields} {body : List Byte}

theorem upgradeRule_held (hp : parseUpgrade body = some q) (hh : u.honoured q.handle = some (slot, r))
    (hn : r.holder n = some h) : upgradeRule n body u = u.upgradeHeld slot r h n q := by
  simp only [upgradeRule, hp, hh, hn]

/-- R58 test 7: an UPGRADE that tests 4 to 6 pass over, of an only holder, and not withheld. -/
theorem upgradeHeld_grant (hm : h.mode = .shared) (hw : r.waits n = false)
    (hq : ∀ c ∈ r.queue, c.kind ≠ .upgrade) (ho : r.onlyHolder n = true)
    (hg : withheld u.monitor.timeState u.epochSource true = false) :
    u.upgradeHeld slot r h n q = u.upgradeNow slot r n q.requested := by
  simp [State.upgradeHeld, hm, hw, upgradeQueued_eq_false_iff.2 hq, ho, hg]

/-- R59: the grant over the record's only entry, which alone changes with the record's last epoch. -/
theorem upgradeNow_only (hr : r.holders = [h]) (ha : h.agent = n) (requested : Nat) :
    u.upgradeNow slot r n requested =
      ({ u.putRecord slot { r with
            lastEpoch := u.epochSource + 1
            holders := [upgraded (lifetime u.settings u.monitor.timeState requested) (u.epochSource + 1) h] }
          with epochSource := u.epochSource + 1 },
       .granted (u.handle slot) .exclusive (lifetime u.settings u.monitor.timeState requested)
         (some (u.epochSource + 1))) := by
  simp only [State.upgradeNow, mapHolder_only hr ha]

end

theorem exec_upgrade_of_rule {s v : State} {a : Answer} {n : Agent} {body : List Byte} {extra : Nat}
    (hs : s.serves n body extra = true) (hr : upgradeRule n body (s.asked n body extra) = (v, a)) :
    exec (.upgrade n (Transfer.now extra) body) s = .next (v.answer n a) :=
  congrArg Host.Outcome.next (State.request_of_rule hs .upgrade hr)

/-- Settles O28: the rule reaches the immediate grant, which turns the only entry EXCLUSIVE; no claim of the queue is
an UPGRADE, so each conflicts with that entry. -/
theorem upgradeIsGrantedAtOnce : Obligations.UpgradeIsGrantedAtOnce := by
  intro s n body extra slot q r h hs hp hh hn hm hw hq ho hg life fresh r1
  obtain ⟨hr, rfl⟩ := holders_eq_of_onlyHolder ho hn
  refine ⟨exec_upgrade_of_rule hs ?_, fun c hc =>
    claimCompatible_eq_false_of_exclusive (List.mem_singleton_self _) rfl (hq c hc)⟩
  calc upgradeRule h.agent body (s.asked h.agent body extra)
      = (s.asked h.agent body extra).upgradeHeld slot r h h.agent q := upgradeRule_held hp hh hn
    _ = (s.asked h.agent body extra).upgradeNow slot r h.agent q.requested := upgradeHeld_grant hm hw hq ho hg
    _ = _ := upgradeNow_only hr rfl q.requested

end Sys2Proof.Machine
end

section
/-! The value words of a record: READ (R76, R77), WRITE (R79, R80) and SEED (R83). First what the two functions on words
give word by word, then what each rule answers in each of its cases, as one equation per case over any state; then the
statements. -/

namespace Sys2Proof.Machine

/-! ### Words read and words replaced (R77, R80) -/

@[simp] theorem readWords_length (value : List Word) (start count : Nat) :
    (readWords value start count).length = count := by
  simp [readWords]

/-- R77: the words go round, word 0 after word 7. -/
theorem readWords_getD (value : List Word) (start : Nat) {count i : Nat} (h : i < count) :
    (readWords value start count).getD i 0 = value.getD ((start + i) % 8) 0 := by
  simp [readWords, List.getD_eq_getElem?_getD, h]

/-- R80: a mask bit chooses between the new and the old word of its number. -/
theorem maskWords_getD (mask : Byte) (new old : List Word) {w : Nat} (h : w < 8) :
    (maskWords mask new old).getD w 0 = if mask.getLsbD w then new.getD w 0 else old.getD w 0 := by
  simp [maskWords, List.getD_eq_getElem?_getD, h]

/-- R80: a mask of 00h chooses the old word at every place. -/
theorem maskWords_zero (new : List Word) {old : List Word} (h : old.length = 8) : maskWords 0 new old = old := by
  refine List.ext_getElem (by rw [maskWords_length, h]) fun w _ hw => ?_
  simp [maskWords, hw]

/-! ### READ (R76, R77) -/

section
variable {u : State} {n : Agent} {body key : List Byte} {start count : Nat}

theorem readRule_noSuchKey (hp : parseRead body = some (start, count, key)) (hk : u.findKey key = none) :
    readRule n body u = (u, .refused .noSuchKey) := by
  simp only [readRule, hp, hk]

theorem readRule_reads {slot : Nat} {r : Record} (hp : parseRead body = some (start, count, key))
    (hk : u.findKey key = some (slot, r)) :
    readRule n body u =
      (u, .okRead (u.handle slot) r.reported r.lastEpoch start count (readWords r.value start count)) := by
  simp only [readRule, hp, hk]

end

theorem exec_read_of_rule {s v : State} {a : Answer} {n : Agent} {body : List Byte} {extra : Nat}
    (hs : s.serves n body extra = true) (hr : readRule n body (s.asked n body extra) = (v, a)) :
    exec (.read n (Transfer.now extra) body) s = .next (v.answer n a) :=
  congrArg Host.Outcome.next (State.request_of_rule hs .read hr)

/-- Settles O19: the key is absent or names a record, and the words read from that record are in the order of R77. -/
theorem readReturnsWordsInOrder : Obligations.ReadReturnsWordsInOrder := by
  intro s n body key extra start count hs hp
  have hkey : (s.asked n body extra).findKey key = s.findKey key := State.asked_findKey s n body extra key
  refine ⟨fun hk => exec_read_of_rule hs (readRule_noSuchKey hp (hkey.trans hk)), fun slot r hk =>
    ⟨readWords r.value start count, readWords_length .., fun i hi => readWords_getD r.value start hi, ?_⟩⟩
  exact exec_read_of_rule hs (readRule_reads hp (hkey.trans hk))

/-! ### WRITE (R79, R80) -/

section
variable {u : State} {n : Agent} {body : List Byte} {q : WriteFields} {slot : Nat} {r : Record} {h : Holder}

theorem writeRule_badField (hp : parseWrite body = none) : writeRule n body u = (u, .refused .badField) := by
  simp only [writeRule, hp]

theorem writeRule_notHonoured (hp : parseWrite body = some q) (hh : u.honoured q.handle = none) :
    writeRule n body u = (u, .refused .noSuchLease) := by
  simp only [writeRule, hp, hh]

theorem writeRule_notHolder (hp : parseWrite body = some q) (hh : u.honoured q.handle = some (slot, r))
    (hn : r.holder n = none) : writeRule n body u = (u, .refused .noSuchLease) := by
  simp only [writeRule, hp, hh, hn]

theorem writeRule_held (hp : parseWrite body = some q) (hh : u.honoured q.handle = some (slot, r))
    (hn : r.holder n = some h) : writeRule n body u = u.writeHeld slot r h q := by
  simp only [writeRule, hp, hh, hn]

/-- R79 test 4. -/
theorem writeHeld_notExclusive (hm : h.mode = .shared) : u.writeHeld slot r h q = (u, .refused .notExclusive) :=
  if_pos hm

/-- R79 test 5, the fence. -/
theorem writeHeld_staleEpoch (hm : h.mode = .exclusive) (he : h.epoch ≠ some q.epoch) :
    u.writeHeld slot r h q = (u, .refused .staleEpoch) := by
  simp only [State.writeHeld, hm, reduceCtorEq, if_false, if_pos he]

/-- R80. -/
theorem writeHeld_writes (hm : h.mode = .exclusive) (he : h.epoch = some q.epoch) :
    u.writeHeld slot r h q =
      (u.putRecord slot { r with value := maskWords q.mask q.words r.value }, .okWrite h.remaining) := by
  simp only [State.writeHeld, hm, he, reduceCtorEq, ne_eq, not_true_eq_false, if_false]

end

theorem exec_write_of_rule {s v : State} {a : Answer} {n : Agent} {body : List Byte} {extra : Nat}
    (hs : s.serves n body extra = true) (hr : writeRule n body (s.asked n body extra) = (v, a)) :
    exec (.write n (Transfer.now extra) body) s = .next (v.answer n a) :=
  congrArg Host.Outcome.next (State.request_of_rule hs .write hr)

/-- Settles O34: the tests of R79 one after another, each branch by the equation of its case; a WRITE that passes stores
the words of R80. -/
theorem writeIsFencedByTheEpoch : Obligations.WriteIsFencedByTheEpoch := by
  intro s n body extra hs u refused
  refine ⟨fun hp => exec_write_of_rule hs (writeRule_badField hp), fun q hp =>
    ⟨fun hh => exec_write_of_rule hs (writeRule_notHonoured hp hh), fun slot r hh =>
    ⟨fun hn => exec_write_of_rule hs (writeRule_notHolder hp hh hn), fun h hn => ?_⟩⟩⟩
  have runs {v : State} {a : Answer} (hw : u.writeHeld slot r h q = (v, a)) :
      exec (.write n (Transfer.now extra) body) s = .next (v.answer n a) :=
    exec_write_of_rule hs ((writeRule_held (u := u) hp hh hn).trans hw)
  refine ⟨fun hm => runs (writeHeld_notExclusive hm), fun hm =>
    ⟨fun he => runs (writeHeld_staleEpoch hm he), fun he =>
    ⟨maskWords q.mask q.words r.value, maskWords_length .., fun w hw => maskWords_getD _ _ _ hw, fun h0 hr => ?_,
      runs (writeHeld_writes hm he)⟩⟩⟩
  rw [h0, maskWords_zero q.words hr]

/-! ### The mailbox requests that name a key (R2, R22, R173) -/

/-- R2: when a mailbox request names no key. -/
theorem validKey_eq_none_iff {m : Management} : m.validKey = none ↔ m.keyLength = 0 ∨ 24 < m.keyLength := by
  rw [Option.eq_none_iff_forall_ne_some]
  constructor
  · intro h
    have hlen : ¬ (1 ≤ m.keyLength ∧ m.keyLength ≤ 24) := fun hl => h m.key (validKey_iff.2 ⟨hl, rfl⟩)
    omega
  · intro h key hk
    obtain ⟨⟨hpos, hmax⟩, -⟩ := validKey_iff.1 hk
    omega

/-- The start of a mailbox request writes the management port alone, so a key is found as before. -/
@[simp] theorem State.begun_findKey (s : State) (code : Byte) (key : List Byte) :
    (s.begun code).findKey key = s.findKey key := State.findKey_congr rfl key

/-- A mailbox request started now, whose rule gives a result and no summary, completes with that result. -/
theorem State.mailboxRequest_of_rule {s v : State} {code : Byte} {rule : State → Completion}
    {result : MailboxResult} (ho : s.mailboxOpen = true) (hr : rule (s.begun code) = v.done result) :
    s.mailboxRequest code rule = v.completes result none := by
  rw [State.mailboxRequest_open ho, State.takeRequest_eq, hr, State.done]

section
variable {u : State} {key : List Byte} {rule : List Byte → Completion}

theorem keyed_badValue (h : u.management.keyLength = 0 ∨ 24 < u.management.keyLength) :
    u.keyed rule = u.done .badValue := by
  simp only [State.keyed, validKey_eq_none_iff.2 h]

theorem keyed_notReady (h : u.management.validKey = some key) (ht : u.table = .initializing) :
    u.keyed rule = u.done .notReady := by
  simp only [State.keyed, h, ht, if_true]

theorem keyed_ready (h : u.management.validKey = some key) (ht : u.table = .ready) : u.keyed rule = rule key := by
  simp only [State.keyed, h, ht, reduceCtorEq, if_false]

end

/-! ### SEED (R83) -/

section
variable {u : State} {key : List Byte} {slot : Nat} {r : Record}

theorem seedRule_noSuchKey (hv : u.management.validKey = some key) (ht : u.table = .ready)
    (hk : u.findKey key = none) : seedRule u = u.done .noSuchKey := by
  rw [seedRule, keyed_ready hv ht, hk]

theorem seedRule_recordBusy (hv : u.management.validKey = some key) (ht : u.table = .ready)
    (hk : u.findKey key = some (slot, r)) (hh : r.holders ≠ []) : seedRule u = u.done .recordBusy := by
  rw [seedRule, keyed_ready hv ht, hk]
  exact if_pos (by simpa using hh)

theorem seedRule_seeds (hv : u.management.validKey = some key) (ht : u.table = .ready)
    (hk : u.findKey key = some (slot, r)) (hh : r.holders = []) :
    seedRule u =
      (u.putRecord slot
        { r with value := maskWords u.management.wordMask u.management.words r.value }).done .ok := by
  rw [seedRule, keyed_ready hv ht, hk]
  exact if_neg (by simp [hh])

end

/-- A SEED started now comes to what its rule gives in the state in which it is taken. -/
theorem exec_seed_of_rule {s v : State} {result : MailboxResult} (ho : s.mailboxOpen = true)
    (hr : seedRule (s.begun 0x05) = v.done result) : exec .seed s = .next (v.completes result none) :=
  congrArg Host.Outcome.next (State.mailboxRequest_of_rule ho hr)

/-- Settles O44: the tests of R83 one after another, each branch by the equation of its case; a SEED that is performed
stores the words of R80, chosen by the mask and the words of the request fields. -/
theorem seedWritesAnUnheldRecord : Obligations.SeedWritesAnUnheldRecord := by
  intro s ho u gives
  refine ⟨fun hl => exec_seed_of_rule ho (keyed_badValue hl), fun key hv =>
    ⟨fun ht => exec_seed_of_rule ho (keyed_notReady hv ht), fun ht => ?_⟩⟩
  have hkey : u.findKey key = s.findKey key := State.begun_findKey s 0x05 key
  refine ⟨fun hk => exec_seed_of_rule ho (seedRule_noSuchKey hv ht (hkey.trans hk)), fun slot r hk =>
    ⟨fun hh => exec_seed_of_rule ho (seedRule_recordBusy hv ht (hkey.trans hk) hh), fun hh =>
    ⟨maskWords s.management.wordMask s.management.words r.value, maskWords_length .., fun w hw =>
      maskWords_getD _ _ _ hw, fun h0 hr => ?_,
      exec_seed_of_rule ho (seedRule_seeds hv ht (hkey.trans hk) hh)⟩⟩⟩
  rw [h0, maskWords_zero _ hr]

end Sys2Proof.Machine
end

section
/-! EVICT (R105). First the session that an eviction leaves, then what the rule answers in each of its cases, as one
equation per case over any state; then the statement. -/

namespace Sys2Proof.Machine

/-- Of two changes of one session the later stands. -/
@[simp] theorem State.setSession_setSession (s : State) (n : Agent) (a b : Session) :
    (s.setSession n a).setSession n b = s.setSession n b := by
  simp only [State.setSession, PerAgent.set_set]

/-- R105: an eviction removes the agent from the table, empties its cells, and writes every field of its session. -/
theorem State.evictAgent_eq (s : State) (n : Agent) :
    s.evictAgent n = ((s.removeAgent n).setCells n []).setSession n
      { state := .evicted, number := 0, leaseCount := 0, window := [], standby := none, lapsed := false } := by
  simp only [State.evictAgent, State.endSession, setSession_session_same, State.setSession_setSession]

section
variable {u : State} {n : Agent}

theorem evictRule_badValue (hn : 3 < u.management.agentNumber.toNat) : evictRule u = u.done .badValue :=
  dif_neg (by omega)

/-- The tests of an EVICT that names agent `n`. -/
theorem evictRule_agent (hn : u.management.agentNumber.toNat = n.val) :
    evictRule u =
      if u.table = .initializing then u.done .notReady
      else if (u.session n).state.joined then (u.evictAgent n).done .ok
      else u.done .ok := by
  have hlt : u.management.agentNumber.toNat < 4 := hn ▸ n.isLt
  have he : (⟨u.management.agentNumber.toNat, hlt⟩ : Agent) = n := Fin.ext hn
  simp only [evictRule, hlt, dite_true, he]

theorem evictRule_notReady (hn : u.management.agentNumber.toNat = n.val) (ht : u.table = .initializing) :
    evictRule u = u.done .notReady := by
  rw [evictRule_agent hn, if_pos ht]

theorem evictRule_notJoined (hn : u.management.agentNumber.toNat = n.val) (ht : u.table = .ready)
    (hj : (u.session n).state.joined = false) : evictRule u = u.done .ok := by
  simp only [evictRule_agent hn, ht, hj, reduceCtorEq, Bool.false_eq_true, if_false]

theorem evictRule_evicts (hn : u.management.agentNumber.toNat = n.val) (ht : u.table = .ready)
    (hj : (u.session n).state.joined = true) : evictRule u = (u.evictAgent n).done .ok := by
  simp only [evictRule_agent hn, ht, hj, reduceCtorEq, if_false, if_true]

end

/-- An EVICT started now comes to what its rule gives in the state in which it is taken. -/
theorem exec_evict_of_rule {s v : State} {result : MailboxResult} (ho : s.mailboxOpen = true)
    (hr : evictRule (s.begun 0x07) = v.done result) : exec .evict s = .next (v.completes result none) :=
  congrArg Host.Outcome.next (State.mailboxRequest_of_rule ho hr)

/-- Settles O45: the tests of R105 one after another, each branch by the equation of its case; what an eviction leaves
is its removal with the whole session written. -/
theorem evictRemovesAJoinedAgent : Obligations.EvictRemovesAJoinedAgent := by
  intro s ho u gives
  refine ⟨fun hb => exec_evict_of_rule ho (evictRule_badValue hb), fun n hn =>
    ⟨fun ht => exec_evict_of_rule ho (evictRule_notReady (n := n) hn ht), fun ht =>
    ⟨fun hj => exec_evict_of_rule ho (evictRule_notJoined (n := n) hn ht hj), fun hj => ?_⟩⟩⟩
  have hev : exec .evict s = .next ((u.evictAgent n).completes .ok none) :=
    exec_evict_of_rule ho (evictRule_evicts hn ht hj)
  rwa [State.evictAgent_eq] at hev

end Sys2Proof.Machine
end

section
/-! The step (log 1) and the invariants that the laws of the machine carry (R25, R28, R38, R56, R98): each invariant is
the decidable form of a property with a law of its own, and the law is kept by every step. -/

namespace Sys2Proof.Machine

/-- Settles O1: the step's two branches, and settling with nothing due. -/
theorem stepRunsTheFrontCommand : Obligations.StepRunsTheFrontCommand := by
  refine ⟨fun c rest s => rfl, fun s hp => ?_⟩
  have hs : step s = .next s.settle := by simp only [step, hp]
  exact ⟨hs, fun hq => by rw [hs, State.settle_of_quiet hq]⟩

/-- Settles O54: the record law of fenced records, carried over the machine. -/
theorem exclusiveHoldersStayAloneAndFenced : Obligations.ExclusiveHoldersStayAloneAndFenced := by
  intro s t h hx
  rw [fencedAll_iff] at h ⊢
  exact fenced_law.state.step (fun _ => AllRec.nil rfl) h hx

/-- Settles O55: the law of the canonical form and the law of the table's form. -/
theorem tablesKeepTheirForm : Obligations.TablesKeepTheirForm := by
  refine ⟨fun s t h hx => ?_, fun s t h hx => ?_⟩
  · rw [canonical_iff] at h ⊢
    exact canon_law.step Canon.holdReset h hx
  · rw [formed_iff] at h ⊢
    exact formed_law.step Formed.holdReset h hx

/-- Settles O56: the law of blocked first claims. -/
theorem firstClaimsStayBlocked : Obligations.FirstClaimsStayBlocked := by
  intro s t h hx
  rw [blocked_iff] at h ⊢
  exact blocked_law.step Blocked.holdReset h hx

/-- Settles O58: the law of the lease counts, and that law with the table's form, the kept sets and the bounds. -/
theorem leaseCountsCountTheTable : Obligations.LeaseCountsCountTheTable := by
  refine ⟨fun s t h hx => ?_, fun s t h hx => ?_⟩
  · rw [counted_iff] at h ⊢
    exact counted_law.step Counted.holdReset h hx
  · rw [whole_iff] at h ⊢
    exact whole_law.step Whole.holdReset h hx

/-- Settles O60: the epoch source of the state before a command is a lower bound that every event but a full reset
keeps. -/
theorem epochsNeverFall : Obligations.EpochsNeverFall := by
  intro c s t hc hx
  have hstart : Issued s.epochSource.toNat s := Nat.le_refl _
  exact (issued_law _).exec (fun hf => absurd (hc.symm.trans hf) Bool.false_ne_true) hstart hx

/-- Settles O59: the tables are empty and nobody is joined, so each invariant is a closed finite fact. -/
theorem resetHasTheInvariants : Obligations.ResetHasTheInvariants := by
  unfold Obligations.ResetHasTheInvariants
  decide

end Sys2Proof.Machine
end

section
/-! What a request of one agent reaches (the frame of R98 to R143 over the ports, the settings and the monitor), one
lemma for each rule; and the induction over the machine for the properties that read the clock and the queue alone. -/

namespace Sys2Proof.Machine

/-! ### The reach of one agent's requests -/

/-- `t` differs from `s` in the table's work, and in the port, the session and the time-change flag of agent `n`. -/
structure CallerOnly (n : Agent) (s t : State) : Prop where
  held : t.held = s.held
  table : t.table = s.table
  settings : t.settings = s.settings
  management : t.management = s.management
  choices : t.choices = s.choices
  pending : t.pending = s.pending
  monitor : { t.monitor with agentFlags := s.monitor.agentFlags } = s.monitor
  port : ∀ m, m ≠ n → t.port m = s.port m
  flag : ∀ m, m ≠ n → t.monitor.agentFlags.get m = s.monitor.agentFlags.get m
  session : ∀ m, m ≠ n → t.session m = s.session m

theorem CallerOnly.trans {n : Agent} {s t u : State} (h : CallerOnly n s t) (k : CallerOnly n t u) :
    CallerOnly n s u where
  held := k.held.trans h.held
  table := k.table.trans h.table
  settings := k.settings.trans h.settings
  management := k.management.trans h.management
  choices := k.choices.trans h.choices
  pending := k.pending.trans h.pending
  monitor := by
    have hk := congrArg (fun m : Monitor => { m with agentFlags := s.monitor.agentFlags }) k.monitor
    exact hk.trans h.monitor
  port m hm := (k.port m hm).trans (h.port m hm)
  flag m hm := (k.flag m hm).trans (h.flag m hm)
  session m hm := (k.session m hm).trans (h.session m hm)

/-- What changes the table's blocks and no other agent's session reaches no more than a request may. -/
theorem CallerOnly.of_tableOnly {n : Agent} {s t : State} (h : TableOnly s t)
    (hs : ∀ m, m ≠ n → t.session m = s.session m) : CallerOnly n s t := by
  obtain ⟨hheld, htable, -, hmonitor, hports, hsettings, hmanagement, hchoices, hpending⟩ := h
  exact ⟨hheld, htable, hsettings, hmanagement, hchoices, hpending, by rw [hmonitor],
    fun m _ => congrArg (PerAgent.get · m) hports, fun m _ => by rw [hmonitor], hs⟩

theorem CallerOnly.refl (n : Agent) (s : State) : CallerOnly n s s := .of_tableOnly (.refl s) fun _ _ => rfl

theorem setSession_session_ne (s : State) {n m : Agent} (h : m ≠ n) (a : Session) :
    (s.setSession n a).session m = s.session m := by
  rw [setSession_session, if_neg h]

/-- A change of the table's blocks that leaves the sessions alone. -/
theorem CallerOnly.of_sessions (n : Agent) {s t : State} (h : TableOnly s t) (hs : t.sessions = s.sessions) :
    CallerOnly n s t := .of_tableOnly h fun m _ => congrArg (PerAgent.get · m) hs

theorem CallerOnly.putRecord (n : Agent) (s : State) (slot : Nat) (r : Record) :
    CallerOnly n s (s.putRecord slot r) := .of_sessions n ⟨rfl, rfl, rfl, rfl, rfl, rfl, rfl, rfl, rfl⟩ rfl

theorem CallerOnly.setSession (s : State) (n : Agent) (a : Session) : CallerOnly n s (s.setSession n a) :=
  .of_tableOnly (setSession_tableOnly s n a) fun _ hm => setSession_session_ne s hm a

theorem CallerOnly.setCells (n : Agent) (s : State) (m : Agent) (c : List (Nat × Notice)) :
    CallerOnly n s (s.setCells m c) := .of_sessions n ⟨rfl, rfl, rfl, rfl, rfl, rfl, rfl, rfl, rfl⟩ rfl

theorem CallerOnly.setPort (s : State) (n : Agent) (p : Port) : CallerOnly n s (s.setPort n p) :=
  ⟨rfl, rfl, rfl, rfl, rfl, rfl, rfl, fun _ hm => PerAgent.get_set_ne s.ports hm p, fun _ _ => rfl, fun _ _ => rfl⟩

/-- The time-change flag of the caller. -/
theorem CallerOnly.setFlag (s : State) (n : Agent) (b : Bool) :
    CallerOnly n s (s.setMonitor { s.monitor with agentFlags := s.monitor.agentFlags.set n b }) :=
  ⟨rfl, rfl, rfl, rfl, rfl, rfl, rfl, fun _ _ => rfl, fun _ hm => PerAgent.get_set_ne s.monitor.agentFlags hm b,
    fun _ _ => rfl⟩

theorem CallerOnly.answer (s : State) (n : Agent) (a : Answer) : CallerOnly n s (s.answer n a) :=
  .setPort s n _

theorem CallerOnly.grantCheck (n : Agent) (s : State) (slot : Nat) : CallerOnly n s (s.grantCheck slot) :=
  .of_sessions n (grantCheck_tableOnly s slot) (grantCheck_sessions s slot)

theorem CallerOnly.leaveRecord (s : State) (slot : Nat) (n : Agent) (k : Option NoticeKind) :
    CallerOnly n s (s.leaveRecord slot n k) :=
  .of_tableOnly (leaveRecord_tableOnly s slot n k) fun _ hm => leaveRecord_session_ne s slot hm k

theorem CallerOnly.endSession (s : State) (n : Agent) : CallerOnly n s (s.endSession n) := by
  have hremove : CallerOnly n s (s.removeAgent n) :=
    .of_tableOnly (removeAgent_tableOnly s n) fun _ hm => removeAgent_session_ne s hm
  exact hremove.trans ((CallerOnly.setCells n _ n []).trans (CallerOnly.setSession _ n _))

theorem CallerOnly.resumeStandby (s : State) (n : Agent) : CallerOnly n s (s.resumeStandby n) :=
  .of_tableOnly (resumeStandby_tableOnly s n) fun _ hm => setSession_session_ne _ hm _

/-! ### Entering standby -/

theorem enterStandbyAt_session_ne (n : Agent) (mask : Byte) (p : State × EntryCount) (slot : Nat) {m : Agent}
    (hm : m ≠ n) : (State.enterStandbyAt n mask p slot).1.session m = p.1.session m := by
  cases hr : p.1.record slot with
  | none => simp only [State.enterStandbyAt, hr]
  | some r =>
    simp only [State.enterStandbyAt, hr]
    have hlose : ∀ (x : Record) (b : Bool), (if b then (p.1.putRecord slot x).losePart n
        else p.1.putRecord slot x).session m = p.1.session m := by
      intro x b
      cases b
      · rfl
      · exact setSession_session_ne _ hm _
    have hcheck : ∀ (t : State) (b : Bool), (if b then (t.grantCheck slot).retireIfEmpty slot else t).session m =
        t.session m := by
      intro t b
      cases b
      · rfl
      · exact (retireIfEmpty_session _ slot m).trans (grantCheck_session t slot m)
    have hkeep : ∀ (t : State) (b : Bool), (if b then
        match t.record slot with
        | some r3 => t.putRecord slot (r3.mapHolder n keepHolder)
        | none => t
        else t).session m = t.session m := by
      intro t b
      cases b
      · rfl
      · simp only [if_true]
        split <;> rfl
    exact (hkeep _ _).trans ((hcheck _ _).trans (hlose _ _))

theorem CallerOnly.enterStandby (s : State) (n : Agent) (mask : Byte) (d : Nat) :
    CallerOnly n s (s.enterStandby n mask d).1 := by
  refine .of_tableOnly (enterStandby_tableOnly s n mask d) fun m hm => ?_
  have hfold : ∀ (l : List Nat) (p : State × EntryCount),
      (l.foldl (State.enterStandbyAt n mask) p).1.session m = p.1.session m := by
    intro l
    induction l with
    | nil => exact fun _ => rfl
    | cons i l ih => exact fun p => (ih _).trans (enterStandbyAt_session_ne n mask p i hm)
  exact (setSession_session_ne _ hm _).trans (hfold _ _)

/-! ### The rules -/

theorem CallerOnly.joinRule (n : Agent) (body : List Byte) (s : State) :
    CallerOnly n s (joinRule n body s).1 := by
  have hstart : ∀ u : State, CallerOnly n u (u.startSession n) := fun u =>
    (CallerOnly.setFlag u n false).trans ⟨rfl, rfl, rfl, rfl, rfl, rfl, rfl, fun _ _ => rfl, fun _ _ => rfl,
      fun _ hm => setSession_session_ne u hm _⟩
  unfold Machine.joinRule
  split
  · exact .refl n s
  · simp only
    split
    · exact (CallerOnly.endSession s n).trans (hstart _)
    · exact ((CallerOnly.setCells n s n []).trans (CallerOnly.setSession _ n _)).trans (hstart _)

theorem CallerOnly.leaveRule (n : Agent) (body : List Byte) (s : State) :
    CallerOnly n s (leaveRule n body s).1 := by
  unfold Machine.leaveRule
  split
  · exact .refl n s
  · exact (CallerOnly.endSession s n).trans (CallerOnly.setSession _ n _)

theorem CallerOnly.grantNow (s : State) (slot : Nat) (r : Record) (n : Agent) (m : Mode) (requested : Nat) :
    CallerOnly n s (s.grantNow slot r n m requested).1 := by
  refine .of_tableOnly ?_ fun k hk => by rw [grantNow_session, if_neg hk]
  cases m <;> exact ⟨rfl, rfl, rfl, rfl, rfl, rfl, rfl, rfl, rfl⟩

theorem CallerOnly.claimRule (n : Agent) (body : List Byte) (s : State) :
    CallerOnly n s (claimRule n body s).1 := by
  unfold Machine.claimRule
  split
  · exact .refl n s
  · split
    · unfold State.claimPresent
      split
      · exact .refl n s
      · split
        · exact .refl n s
        · split
          · exact .grantNow s _ _ n _ _
          · split
            · exact .refl n s
            · exact (CallerOnly.putRecord n s _ _).trans (CallerOnly.setSession _ n _)
    · unfold State.claimAbsent
      split
      · exact .refl n s
      · split
        · exact .refl n s
        · split
          · exact .refl n s
          · split
            · exact .refl n s
            · exact (CallerOnly.setSession s n _).trans (CallerOnly.grantNow _ _ _ n _ _)

theorem CallerOnly.upgradeRule (n : Agent) (body : List Byte) (s : State) :
    CallerOnly n s (upgradeRule n body s).1 := by
  unfold Machine.upgradeRule
  split
  · exact .refl n s
  · split
    · exact .refl n s
    · split
      · exact .refl n s
      · unfold State.upgradeHeld
        split
        · exact .refl n s
        · split
          · exact .refl n s
          · split
            · exact .refl n s
            · split
              · exact .of_sessions n ⟨rfl, rfl, rfl, rfl, rfl, rfl, rfl, rfl, rfl⟩ rfl
              · split
                · exact .refl n s
                · exact .putRecord n s _ _

theorem CallerOnly.downgradeRule (n : Agent) (body : List Byte) (s : State) :
    CallerOnly n s (downgradeRule n body s).1 := by
  unfold Machine.downgradeRule
  split
  · exact .refl n s
  · split
    · exact .refl n s
    · split
      · exact .refl n s
      · split
        · exact .refl n s
        · exact (CallerOnly.putRecord n s _ _).trans (CallerOnly.grantCheck n _ _)

theorem CallerOnly.renewRule (n : Agent) (body : List Byte) (s : State) :
    CallerOnly n s (renewRule n body s).1 := by
  unfold Machine.renewRule
  split
  · exact .refl n s
  · split
    · exact .refl n s
    · split
      · exact .refl n s
      · split
        · exact .refl n s
        · exact .putRecord n s _ _

theorem CallerOnly.renewSetRule (n : Agent) (body : List Byte) (s : State) :
    CallerOnly n s (renewSetRule n body s).1 := by
  unfold Machine.renewSetRule
  split
  · exact .refl n s
  · split
    · exact .refl n s
    · exact .of_sessions n ⟨rfl, rfl, rfl, rfl, rfl, rfl, rfl, rfl, rfl⟩ rfl

theorem CallerOnly.releaseRule (n : Agent) (body : List Byte) (s : State) :
    CallerOnly n s (releaseRule n body s).1 := by
  unfold Machine.releaseRule
  split
  · exact .refl n s
  · split
    · exact .refl n s
    · split
      · exact .leaveRecord s _ n none
      · exact .refl n s

theorem CallerOnly.writeRule (n : Agent) (body : List Byte) (s : State) :
    CallerOnly n s (writeRule n body s).1 := by
  unfold Machine.writeRule
  split
  · exact .refl n s
  · split
    · exact .refl n s
    · split
      · exact .refl n s
      · unfold State.writeHeld
        split
        · exact .refl n s
        · split
          · exact .refl n s
          · exact .putRecord n s _ _

theorem CallerOnly.noticesRule (n : Agent) (body : List Byte) (s : State) :
    CallerOnly n s (noticesRule n body s).1 := by
  unfold Machine.noticesRule
  split
  · exact .refl n s
  · exact .setCells n s n _

theorem CallerOnly.timeRule (n : Agent) (body : List Byte) (s : State) :
    CallerOnly n s (timeRule n body s).1 := by
  unfold Machine.timeRule
  split
  · exact .refl n s
  · simp only
    split
    · exact .setFlag s n false
    · exact .refl n s

theorem CallerOnly.standbyRule (n : Agent) (body : List Byte) (s : State) :
    CallerOnly n s (standbyRule n body s).1 := by
  unfold Machine.standbyRule
  split
  · exact .refl n s
  · split
    · exact .refl n s
    · split
      · exact .refl n s
      · exact .enterStandby s n _ _

theorem CallerOnly.wakeRule (n : Agent) (body : List Byte) (s : State) :
    CallerOnly n s (wakeRule n body s).1 := by
  unfold Machine.wakeRule
  split
  · exact .refl n s
  · simp only
    split
    · exact .resumeStandby s n
    · exact .setSession s n _

/-! ### The sixteen requests as one -/

/-- The rule of each request. -/
def requestRule : Request → Agent → List Byte → State → State × Answer
  | .join => joinRule
  | .leave => leaveRule
  | .claim => claimRule
  | .upgrade => upgradeRule
  | .downgrade => downgradeRule
  | .renew => renewRule
  | .renewSet => renewSetRule
  | .release => releaseRule
  | .lookup => lookupRule
  | .read => readRule
  | .write => writeRule
  | .holdings => holdingsRule
  | .notices => noticesRule
  | .time => timeRule
  | .standby => standbyRule
  | .wake => wakeRule

/-- The command of a request is the request's one shape with its own rule. -/
theorem exec_requestCommand (k : Request) (n : Agent) (x : Transfer) (body : List Byte) (s : State) :
    exec (requestCommand k n x body) s = .next (s.request k n x body (requestRule k n body)) := by
  cases k <;> rfl

/-- Every rule reaches the table's work and its caller alone. -/
theorem CallerOnly.requestRule (k : Request) (n : Agent) (body : List Byte) (s : State) :
    CallerOnly n s (requestRule k n body s).1 := by
  cases k with
  | join => exact .joinRule n body s
  | leave => exact .leaveRule n body s
  | claim => exact .claimRule n body s
  | upgrade => exact .upgradeRule n body s
  | downgrade => exact .downgradeRule n body s
  | renew => exact .renewRule n body s
  | renewSet => exact .renewSetRule n body s
  | release => exact .releaseRule n body s
  | lookup => exact (lookupRule_state n body s).symm ▸ .refl n s
  | read => exact (readRule_state n body s).symm ▸ .refl n s
  | write => exact .writeRule n body s
  | holdings => exact (holdingsRule_state n body s).symm ▸ .refl n s
  | notices => exact .noticesRule n body s
  | time => exact .timeRule n body s
  | standby => exact .standbyRule n body s
  | wake => exact .wakeRule n body s

theorem CallerOnly.accept {n : Agent} {rule : State → State × Answer} (hr : ∀ u, CallerOnly n u (rule u).1)
    (s : State) (k : Request) : CallerOnly n s (s.accept k n rule) := by
  unfold State.accept
  split
  · exact .answer s n _
  · split
    · exact .answer s n _
    · exact (hr s).trans (.answer _ n _)

theorem CallerOnly.transact {n : Agent} {take : State → State} (ht : ∀ u, CallerOnly n u (take u)) (s : State)
    (start : TransactionStart) (total : Nat) (q : Bool) : CallerOnly n s (s.transact n start total q take) := by
  have hshift : ∀ bytes, CallerOnly n s (s.shifted n bytes) := fun bytes => .setPort s n _
  have hdrop : ∀ (u : State) (b : Bool), CallerOnly n u (u.dropped n b) := by
    intro u b
    cases b
    · exact .refl n u
    · exact .setPort u n _
  unfold State.transact
  simp only
  split
  · exact hshift _
  · split
    · exact hshift _
    · split
      · exact .refl n s
      · exact (hshift _).trans (hdrop _ _)
    · split
      · exact (hshift _).trans (ht _)
      · exact (hshift _).trans (hdrop _ _)
      · split
        · exact (hshift _).trans ((CallerOnly.setPort _ n _).trans (ht _))
        · exact (hshift _).trans (hdrop _ _)

/-- A request's transaction and rule, after the parts of a tick that come first. -/
theorem CallerOnly.request (s : State) (k : Request) (n : Agent) (x : Transfer) (body : List Byte) :
    CallerOnly n (s.settleFor k n) (s.request k n x body (Machine.requestRule k n body)) :=
  .transact (fun u => .accept (CallerOnly.requestRule k n body) u k) _ _ _ _

theorem fullReset_requestCommand (k : Request) (n : Agent) (x : Transfer) (body : List Byte) :
    (requestCommand k n x body).fullReset = false := by
  cases k <;> rfl

/-- Settles O17: with nothing due the request's transaction and rule are all that happens, and the epoch source falls
at a full reset alone. -/
theorem requestsReachNoOtherPortOrSetting : Obligations.RequestsReachNoOtherPortOrSetting := by
  intro k s t n x body hq hx
  have hepoch := epochsNeverFall _ s t (fullReset_requestCommand k n x body) hx
  have hreach := CallerOnly.request s k n x body
  rw [State.settleFor_of_quiet hq] at hreach
  rw [exec_requestCommand, Host.Outcome.next.injEq] at hx
  rw [hx] at hreach
  exact ⟨hreach.settings, hreach.management, hreach.table, hreach.held, hreach.choices, hepoch,
    fun m hm => ⟨hreach.port m hm, hreach.flag m hm, hreach.session m hm⟩, hreach.monitor⟩

end Sys2Proof.Machine
end

section
/-! The clock's side of the part (R129 to R138, R169): the properties that read the settings, the time base monitor but
for its flags, the reset line and the queue. Most of a command leaves all of these alone; the law of such a property
names the few events that do not, and is carried over every command once. -/

namespace Sys2Proof.Machine

/-! ### What most operations leave alone -/

/-- `t` has the reset line, the settings, the queue and the time base of `s`; the time-change flags may differ. -/
structure Still (s t : State) : Prop where
  held : t.held = s.held
  settings : t.settings = s.settings
  pending : t.pending = s.pending
  timeState : t.monitor.timeState = s.monitor.timeState
  lastPulse : t.monitor.lastPulse = s.monitor.lastPulse
  good : t.monitor.good = s.monitor.good
  elapsed : t.monitor.elapsed = s.monitor.elapsed
  divider : t.monitor.divider = s.monitor.divider

/-- The same reset line, settings, queue and monitor. -/
theorem Still.of_eq {s t : State} (hheld : t.held = s.held) (hsettings : t.settings = s.settings)
    (hpending : t.pending = s.pending) (hmonitor : t.monitor = s.monitor) : Still s t :=
  ⟨hheld, hsettings, hpending, by rw [hmonitor], by rw [hmonitor], by rw [hmonitor], by rw [hmonitor],
    by rw [hmonitor]⟩

theorem Still.refl (s : State) : Still s s := .of_eq rfl rfl rfl rfl

theorem Still.trans {s t u : State} (h : Still s t) (k : Still t u) : Still s u :=
  ⟨k.held.trans h.held, k.settings.trans h.settings, k.pending.trans h.pending, k.timeState.trans h.timeState,
    k.lastPulse.trans h.lastPulse, k.good.trans h.good, k.elapsed.trans h.elapsed, k.divider.trans h.divider⟩

theorem Still.of_tableOnly {s t : State} (h : TableOnly s t) : Still s t := by
  obtain ⟨hheld, -, -, hmonitor, -, hsettings, -, -, hpending⟩ := h
  exact .of_eq hheld hsettings hpending hmonitor

theorem Still.of_callerOnly {n : Agent} {s t : State} (h : CallerOnly n s t) : Still s t :=
  ⟨h.held, h.settings, h.pending, (congrArg Monitor.timeState h.monitor :), (congrArg Monitor.lastPulse h.monitor :),
    (congrArg Monitor.good h.monitor :), (congrArg Monitor.elapsed h.monitor :), (congrArg Monitor.divider h.monitor :)⟩

theorem Still.setManagement (s : State) (m : Management) : Still s (s.setManagement m) := .of_eq rfl rfl rfl rfl

theorem Still.sweep (s : State) : Still s s.sweep := .of_eq rfl rfl rfl rfl

theorem Still.settleSlots (s : State) (l : List Nat) : Still s (s.settleSlots l) := by
  obtain ⟨hmonitor, hsettings, hheld⟩ := settleSlots_monitor s l
  exact .of_eq hheld hsettings (settleSlots_pending s l) hmonitor

theorem Still.settleSession (s : State) (n : Agent) : Still s (s.settleSession n) := by
  unfold State.settleSession
  simp only
  split <;> split <;> exact .of_eq rfl rfl rfl rfl

theorem Still.settleSessions (l : List Agent) (s : State) : Still s (l.foldl State.settleSession s) :=
  foldl_keeps Still Still.refl (fun _ _ _ => Still.trans) _ Still.settleSession l s

theorem Still.readTake (s : State) : Still s s.readTake := by
  obtain ⟨-, -, -, -, -, hsettings, hpending, hheld, -, -, -, -, hmonitor⟩ := readTake_fields s
  exact ⟨hheld, hsettings, hpending, (congrArg Monitor.timeState hmonitor :), (congrArg Monitor.lastPulse hmonitor :),
    (congrArg Monitor.good hmonitor :), (congrArg Monitor.elapsed hmonitor :), (congrArg Monitor.divider hmonitor :)⟩

theorem Still.readMany (k : Nat) (s : State) : Still s (State.readMany k s) := by
  induction k generalizing s with
  | zero => exact .refl s
  | succ k ih => exact (Still.readTake s).trans (ih _)

/-! ### The mailbox rules that write the table alone -/

/-- Every mailbox rule that tests a key reaches the table alone when its own tests do. -/
theorem TableOnly.keyed {s : State} {rule : List Byte → Completion} (h : ∀ key, TableOnly s (rule key).after) :
    TableOnly s (s.keyed rule).after :=
  keyed_keeps (I := TableOnly s) (.refl s) rule fun key _ _ => h key

theorem putRecord_tableOnly (s : State) (slot : Nat) (r : Record) : TableOnly s (s.putRecord slot r) :=
  ⟨rfl, rfl, rfl, rfl, rfl, rfl, rfl, rfl, rfl⟩

theorem defineRule_tableOnly (s : State) : TableOnly s (defineRule s).after := by
  refine .keyed fun key => ?_
  split
  · exact .refl s
  · split
    · exact .refl s
    · exact putRecord_tableOnly s _ _

theorem retireRule_tableOnly (s : State) : TableOnly s (retireRule s).after := by
  refine .keyed fun key => ?_
  split
  · exact .refl s
  · rename_i slot r hf
    have hposts : ∀ l : List Agent, TableOnly s (l.foldl (fun t n => t.postPlain slot n (retireNotice r n)) s) :=
      fun l => TableOnly.foldl (fun t n => post_tableOnly t slot n _) l s
    exact (hposts _).trans (retire_tableOnly _ slot)

theorem markRule_tableOnly (s : State) : TableOnly s (markRule s).after := by
  unfold markRule
  split
  · exact .refl s
  · refine .keyed fun key => ?_
    split
    · exact .refl s
    · simp only [State.done]
      unfold State.markRecord
      split
      · exact putRecord_tableOnly s _ _
      · split
        · exact retire_tableOnly s _
        · exact putRecord_tableOnly s _ _

theorem seedRule_tableOnly (s : State) : TableOnly s (seedRule s).after := by
  refine .keyed fun key => ?_
  split
  · exact .refl s
  · split
    · exact .refl s
    · exact putRecord_tableOnly s _ _

theorem evictRule_tableOnly (s : State) : TableOnly s (evictRule s).after := by
  unfold evictRule
  simp only
  split
  · split
    · exact .refl s
    · split
      · exact (endSession_tableOnly s _).trans (setSession_tableOnly _ _ _)
      · exact .refl s
  · exact .refl s

/-! ### The law of a property of the clock's side -/

/-- A property of the clock's side that each event of the time base and each change of a setting keeps. -/
structure ClockLaw (I : State → Prop) : Prop where
  still : ∀ {s t : State}, I s → Still s t → I t
  limit : ∀ {s : State}, I s → s.limitDue = true → I s.reachLimit
  setting : ∀ {s : State} {k : Setting} {v : Nat} {st : Settings}, I s → s.held = false →
    s.settings.change k v = some st → I (State.afterSet { s with settings := st } s.settings k)
  advance : ∀ {s : State} (ns : Nat), I s → I (s.setMonitor (s.monitor.advance ns))
  missing : ∀ {s : State}, I s → s.measuring = true → I s.missing
  firstPulse : ∀ {s : State}, I s → s.measuring = true → I s.firstPulse
  interval : ∀ {s : State} (b : Band), I s → s.measuring = true → I (s.interval b)
  dividerTick : ∀ {s : State} {p : Nat}, I s → s.held = false → s.monitor.divider = .running p → I (s.dividerTick p)
  endReset : ∀ {s : State}, I s → s.held = true → I s.endReset

variable {I : State → Prop}

theorem ClockLaw.settleMonitor (L : ClockLaw I) {s : State} (h : I s) : I s.settleMonitor := by
  unfold State.settleMonitor
  split
  · rename_i hd; exact L.limit h hd
  · exact h

theorem ClockLaw.settleCore (L : ClockLaw I) {s : State} (h : I s) : I s.settleCore := by
  have htable : ∀ {u : State}, I u → I u.settleTable := fun hu => L.still hu (.settleSlots _ _)
  have hchosen : I ({ s with choices := s.choices + 1 } : State) := L.still h (.of_eq rfl rfl rfl rfl)
  unfold State.settleCore
  split
  · split
    · exact htable (L.settleMonitor hchosen)
    · exact L.settleMonitor (htable hchosen)
  · exact L.settleMonitor (htable h)

theorem ClockLaw.settle (L : ClockLaw I) {s : State} (h : I s) : I s.settle :=
  L.still (L.settleCore h) (.settleSessions agents s.settleCore)

theorem ClockLaw.settleFor (L : ClockLaw I) {s : State} (h : I s) (k : Request) (n : Agent) :
    I (s.settleFor k n) := by
  unfold State.settleFor
  split
  · have hs := L.still (L.settleCore h) (.settleSessions (agents.filter fun m => m != n) s.settleCore)
    unfold State.settleForWake
    simp only
    split
    · exact L.still hs (.of_eq rfl rfl rfl rfl)
    · exact hs
  · exact L.settle h

theorem ClockLaw.request (L : ClockLaw I) {s : State} (h : I s) (k : Request) (n : Agent) (x : Transfer)
    (body : List Byte) : I (s.request k n x body (requestRule k n body)) :=
  L.still (L.settleFor h k n) (.of_callerOnly (CallerOnly.request s k n x body))

theorem ClockLaw.transact (L : ClockLaw I) {s : State} (h : I s) {n : Agent} {take : State → State}
    (ht : ∀ u, CallerOnly n u (take u)) (start : TransactionStart) (total : Nat) (q : Bool) :
    I (s.transact n start total q take) :=
  L.still h (.of_callerOnly (CallerOnly.transact ht s start total q))

theorem ClockLaw.makeResponse (L : ClockLaw I) {s : State} (h : I s) (n : Agent) : I (s.makeResponse n) := by
  unfold State.makeResponse
  split
  · exact L.still h (.of_callerOnly (CallerOnly.setPort s n _))
  · exact h

/-! ### The mailbox and the registers -/

theorem ClockLaw.mailboxRequest (L : ClockLaw I) {s : State} (h : I s) (code : Byte) {rule : State → Completion}
    (hr : ∀ u, I u → u.held = false → I (rule u).after) : I (s.mailboxRequest code rule) := by
  have hs := L.settle h
  have hset : ∀ (u : State) (m : Management), I u → I (u.setManagement m) := fun u m hu =>
    L.still hu (.setManagement u m)
  unfold State.mailboxRequest
  generalize s.settle = u at hs ⊢
  simp only
  split
  · exact hs
  · rename_i hh
    have hheld : u.held = false := Bool.eq_false_iff.2 hh
    split
    · split
      · exact hset _ _ (hr u hs hheld)
      · exact hset _ _ hs
    · exact hset _ _ (hr _ (hset _ _ hs) hheld)

/-- A mailbox request whose rule reaches the table alone. -/
theorem ClockLaw.tableRequest (L : ClockLaw I) {s : State} (h : I s) (code : Byte) {rule : State → Completion}
    (hr : ∀ u, TableOnly u (rule u).after) : I (s.mailboxRequest code rule) :=
  L.mailboxRequest h code fun u hu _ => L.still hu (.of_tableOnly (hr u))

theorem ClockLaw.setRule (L : ClockLaw I) {s : State} (h : I s) (hh : s.held = false) : I (setRule s).after := by
  unfold Machine.setRule
  split
  · exact h
  · split
    · exact h
    · split
      · exact h
      · rename_i hc _
        exact L.setting h hh hc

theorem ClockLaw.takeSoftReset (L : ClockLaw I) {s : State} (h : I s) : I (s.takeRequest softResetRule) :=
  L.still h (.of_eq rfl rfl rfl rfl)

theorem ClockLaw.readRun (L : ClockLaw I) {s : State} (h : I s) (run : ReadRun) : I (s.readRun run) := by
  have hs := L.settle h
  unfold State.readRun
  generalize s.settle = u at hs ⊢
  simp only
  split
  · exact L.still hs ((Still.setManagement u _).trans (Still.readMany run.count _))
  · exact hs

theorem ClockLaw.writeTake (L : ClockLaw I) {s : State} (h : I s) (v : Byte) : I (s.writeTake v) := by
  have hset : ∀ m : Management, I (s.setManagement m) := fun m => L.still h (.setManagement s m)
  unfold State.writeTake
  simp only
  split
  · exact hset _
  · split
    · exact hset _
    · split
      · split
        · exact L.takeSoftReset (hset _)
        · exact hset _
      · exact hset _

theorem ClockLaw.writeRun (L : ClockLaw I) {s : State} (h : I s) (a d : Option Byte) : I (s.writeRun a d) := by
  have hs := L.settle h
  unfold State.writeRun
  generalize s.settle = u at hs ⊢
  simp only
  split
  · cases d with
    | none => exact L.still hs (.setManagement u _)
    | some v => exact L.writeTake (L.still hs (.setManagement u _)) v
  · exact hs

/-! ### The time base -/

theorem changeTime_tableOnly (s : State) (m : Monitor) :
    TableOnly (s.setMonitor
      { m with divider := m.timeState.divider, agentFlags := s.flagsSet, managementFlag := true })
      (s.changeTime m) := by
  unfold State.changeTime
  simp only
  split
  · exact grantAll_tableOnly _
  · exact .refl _

theorem changeTime_measuring (s : State) (m : Monitor) : (s.changeTime m).measuring = s.measuring := by
  obtain ⟨hheld, -, -, -, -, hsettings, -⟩ := changeTime_tableOnly s m
  simp only [State.measuring, hheld, hsettings, State.setMonitor_held, State.setMonitor_settings]

theorem missing_measuring (s : State) : s.missing.measuring = s.measuring := by
  unfold State.missing
  simp only
  split
  · rfl
  · exact changeTime_measuring _ _
  · exact changeTime_measuring _ _
  · rfl

theorem ClockLaw.pulse (L : ClockLaw I) {s : State} (h : I s) (hm : s.measuring = true) (ns : Nat) :
    I (s.pulse ns) := by
  have hu := L.advance ns h
  have hum : (s.setMonitor (s.monitor.advance ns)).measuring = true := hm
  unfold State.pulse
  generalize s.setMonitor (s.monitor.advance ns) = u at hu hum ⊢
  simp only
  split
  · exact L.firstPulse hu hum
  · exact L.firstPulse hu hum
  · exact L.firstPulse hu hum
  · split
    · exact L.firstPulse (L.missing hu hum) ((missing_measuring u).trans hum)
    · exact L.interval _ hu hum

/-! ### The commands -/

theorem ite_keeps {p : Prop} [Decidable p] {a b : State} (ha : p → I a) (hb : ¬ p → I b) : I (if p then a else b) := by
  split
  · exact ha ‹p›
  · exact hb ‹¬ p›

/-- Every command completes and keeps the property; for a full reset the held reset must have it. -/
theorem ClockLaw.exec (L : ClockLaw I) {s : State} (c : Instr) (hf : c.fullReset = true → I s.holdReset) (h : I s) :
    ∃ t, exec c s = .next t ∧ I t := by
  have hs := L.settle h
  have hbelow : ∀ slot, I (s.settleBelow slot) := fun slot => L.still h (.settleSlots _ _)
  have htake : ∀ (u : State) (slot : Nat) (p : DuePart), I u → I (u.takePart slot p) := fun u slot p hu =>
    L.still hu (.of_tableOnly (takePart_tableOnly u slot p))
  cases c with
  | join n x b => exact ⟨_, rfl, L.request h .join n x b⟩
  | leave n x b => exact ⟨_, rfl, L.request h .leave n x b⟩
  | claim n x b => exact ⟨_, rfl, L.request h .claim n x b⟩
  | upgrade n x b => exact ⟨_, rfl, L.request h .upgrade n x b⟩
  | downgrade n x b => exact ⟨_, rfl, L.request h .downgrade n x b⟩
  | renew n x b => exact ⟨_, rfl, L.request h .renew n x b⟩
  | renewSet n x b => exact ⟨_, rfl, L.request h .renewSet n x b⟩
  | release n x b => exact ⟨_, rfl, L.request h .release n x b⟩
  | lookup n x b => exact ⟨_, rfl, L.request h .lookup n x b⟩
  | read n x b => exact ⟨_, rfl, L.request h .read n x b⟩
  | write n x b => exact ⟨_, rfl, L.request h .write n x b⟩
  | holdings n x b => exact ⟨_, rfl, L.request h .holdings n x b⟩
  | notices n x b => exact ⟨_, rfl, L.request h .notices n x b⟩
  | time n x b => exact ⟨_, rfl, L.request h .time n x b⟩
  | standby n x b => exact ⟨_, rfl, L.request h .standby n x b⟩
  | wake n x b => exact ⟨_, rfl, L.request h .wake n x b⟩
  | fetchOnlyTransaction n start total =>
    exact ⟨_, rfl, L.transact hs (CallerOnly.refl n) start total false⟩
  | requestDropped n start total =>
    exact ⟨_, rfl, ite_keeps (fun _ => L.transact hs (CallerOnly.refl n) start total true) fun _ => hs⟩
  | badFrame n start bytes =>
    exact ⟨_, rfl, L.transact hs (fun u => .answer u n _) start _ true⟩
  | badRequest n x code b =>
    exact ⟨_, rfl, L.transact hs (fun u => .answer u n _) x.start _ true⟩
  | responseMade n => exact ⟨_, rfl, L.makeResponse hs n⟩
  | set => exact ⟨_, rfl, L.mailboxRequest h 0x01 fun _ => L.setRule⟩
  | define => exact ⟨_, rfl, L.tableRequest h 0x02 defineRule_tableOnly⟩
  | retire => exact ⟨_, rfl, L.tableRequest h 0x03 retireRule_tableOnly⟩
  | mark => exact ⟨_, rfl, L.tableRequest h 0x04 markRule_tableOnly⟩
  | seed => exact ⟨_, rfl, L.tableRequest h 0x05 seedRule_tableOnly⟩
  | inspect =>
    exact ⟨_, rfl, L.tableRequest h 0x06 fun u => (inspectRule_after u).symm ▸ TableOnly.refl u⟩
  | evict => exact ⟨_, rfl, L.tableRequest h 0x07 evictRule_tableOnly⟩
  | softReset =>
    refine ⟨_, rfl, ite_keeps (fun _ => hs) fun _ => ?_⟩
    split
    · exact L.still hs (.setManagement _ _)
    · exact L.takeSoftReset (L.still hs (.setManagement _ _))
  | mailboxBadRequest code => exact ⟨_, rfl, L.tableRequest h code TableOnly.refl⟩
  | statusRead run => exact ⟨_, rfl, L.readRun h run⟩
  | resultRead run => exact ⟨_, rfl, L.readRun h run⟩
  | registerWrite a d => exact ⟨_, rfl, L.writeRun h a d⟩
  | powerOnReset => exact ⟨_, rfl, hf rfl⟩
  | pinReset => exact ⟨_, rfl, L.still (hf rfl) (.of_eq rfl rfl rfl rfl)⟩
  | resetEnd =>
    exact ⟨_, rfl, ite_keeps (fun hh => L.endReset hs hh) fun _ => hs⟩
  | sweepComplete =>
    exact ⟨_, rfl, ite_keeps (fun _ => L.still hs (.sweep _)) fun _ => hs⟩
  | trefPulse ns =>
    exact ⟨_, rfl, ite_keeps (fun hm => L.pulse hs hm ns) fun _ => hs⟩
  | missingPulse =>
    exact ⟨_, rfl, ite_keeps (fun hm => L.missing hs (Bool.and_eq_true_iff.1 hm).1) fun _ => hs⟩
  | dividerTick =>
    refine ⟨_, rfl, ite_keeps (fun _ => hs) fun hh => ?_⟩
    split
    · rename_i p hp; exact L.dividerTick hs (Bool.eq_false_iff.2 hh) hp
    · exact hs
  | leaseExpiry slot n =>
    exact ⟨_, rfl, ite_keeps (fun _ => htake _ slot (.lease n) (hbelow slot)) fun _ => hbelow slot⟩
  | waitExpiry slot n =>
    exact ⟨_, rfl, ite_keeps (fun _ => htake _ slot (.wait n) (hbelow slot)) fun _ => hbelow slot⟩
  | upgradeWaitExpiry slot n =>
    exact ⟨_, rfl, ite_keeps (fun _ => htake _ slot (.upgradeWait n) (hbelow slot)) fun _ => hbelow slot⟩
  | standbyExpiry n =>
    exact ⟨_, rfl, ite_keeps (fun _ => L.still h (.of_tableOnly (expireStandby_tableOnly s n))) fun _ => h⟩
  | creationEntryLeaves n => exact ⟨_, rfl, L.still h (.of_eq rfl rfl rfl rfl)⟩
  | holdoverLimitReached => exact ⟨_, rfl, L.settleMonitor h⟩

/-! ### The queue of commands -/

theorem missing_pending (s : State) : s.missing.pending = s.pending := by
  unfold State.missing
  simp only
  split
  · rfl
  · exact changeTime_pending _ _
  · exact changeTime_pending _ _
  · rfl

theorem firstPulse_pending (s : State) : s.firstPulse.pending = s.pending := by
  unfold State.firstPulse
  simp only
  split
  · exact changeTime_pending _ _
  · exact changeTime_pending _ _
  · rfl

theorem interval_pending (s : State) (b : Band) : (s.interval b).pending = s.pending := by
  have hgood : ∀ m : Monitor, (s.countGood m).pending = s.pending := by
    intro m
    unfold State.countGood
    split
    · exact changeTime_pending _ _
    · rfl
  unfold State.interval
  simp only
  split
  · exact hgood _
  · exact hgood _
  · rfl
  · rfl
  · rfl
  · exact changeTime_pending _ _
  · rfl

theorem afterSet_pending (s : State) (old : Settings) (k : Setting) : (s.afterSet old k).pending = s.pending := by
  unfold State.afterSet
  split
  · exact settleMonitor_pending s
  · split
    · rfl
    · exact changeTime_pending _ _
  · rfl

/-- The queue is no event's to change. -/
theorem queue_law (l : List Instr) : ClockLaw fun s => s.pending = l where
  still hs h := h.pending.trans hs
  limit hs _ := (changeTime_pending _ _).trans hs
  setting hs _ _ := (afterSet_pending _ _ _).trans hs
  advance _ hs := hs
  missing hs _ := (missing_pending _).trans hs
  firstPulse hs _ := (firstPulse_pending _).trans hs
  interval b hs _ := (interval_pending _ b).trans hs
  dividerTick hs _ _ := hs
  endReset hs _ := hs

/-- Settles O2: the law of the queue, carried over every command. -/
theorem everyCommandCompletesAndKeepsTheQueue : Obligations.EveryCommandCompletesAndKeepsTheQueue :=
  fun c _ => (queue_law _).exec c (fun _ => rfl) rfl

end Sys2Proof.Machine
end

section
/-! Settings in range, and the time base monitor as its state says (R129 to R137, R169): the property as a structure,
the events of the time base one by one, and its law on the clock's side. -/

namespace Sys2Proof.Machine

/-! ### Settings in range (R169, R170) -/

theorem inRange_iff (st : Settings) : st.inRange = true ↔
    (1 ≤ st.minLife ∧ st.minLife ≤ st.defaultLife ∧ st.defaultLife ≤ st.maxLife ∧ st.maxLife ≤ 65535) ∧
    (1 ≤ st.createBurst ∧ st.createBurst ≤ 8) ∧ (1 ≤ st.createSpan ∧ st.createSpan ≤ 65535) ∧
    st.standbyMax ≤ 65535 ∧ (1 ≤ st.holdoverMax ∧ st.holdoverMax ≤ 65535) ∧ ∀ n, st.quota.get n ≤ 2048 := by
  simp only [Settings.inRange, Bool.and_eq_true, decide_eq_true_eq, all_agents, and_assoc]

/-- Table 62: the values that each setting takes, and the one field that such a value changes. -/
theorem change_eq_some {st st' : Settings} {k : Setting} {v : Nat} : st.change k v = some st' ↔
    match k with
    | .defaultLife => (st.minLife ≤ v ∧ v ≤ st.maxLife) ∧ st' = { st with defaultLife := v }
    | .minLife => (1 ≤ v ∧ v ≤ 65535 ∧ v ≤ st.defaultLife) ∧ st' = { st with minLife := v }
    | .maxLife => (1 ≤ v ∧ v ≤ 65535 ∧ st.defaultLife ≤ v) ∧ st' = { st with maxLife := v }
    | .derate => ∃ d, Derate.ofCode v = some d ∧ st' = { st with derate := d }
    | .createBurst => (1 ≤ v ∧ v ≤ 8) ∧ st' = { st with createBurst := v }
    | .createSpan => (1 ≤ v ∧ v ≤ 65535) ∧ st' = { st with createSpan := v }
    | .standbyMax => v ≤ 65535 ∧ st' = { st with standbyMax := v }
    | .holdoverMax => (1 ≤ v ∧ v ≤ 65535) ∧ st' = { st with holdoverMax := v }
    | .timeSource => ∃ x, TimeSource.ofCode v = some x ∧ st' = { st with timeSource := x }
    | .quota n => v ≤ 2048 ∧ st' = { st with quota := st.quota.set n v } := by
  have hguard : ∀ {p : Prop} [Decidable p] (x : Settings),
      (if p then some x else none) = some st' ↔ p ∧ st' = x := by
    intro p _ x
    by_cases hp : p <;> simp [hp, eq_comm]
  cases k with
  | derate => simp [Settings.change, eq_comm]
  | timeSource => simp [Settings.change, eq_comm]
  | _ => exact hguard _

/-- R170 test 2: a value that a setting takes leaves every setting in its range. -/
theorem change_inRange {st st' : Settings} {k : Setting} {v : Nat} (h : st.inRange = true)
    (hc : st.change k v = some st') : st'.inRange = true := by
  rw [inRange_iff] at h ⊢
  rw [change_eq_some] at hc
  obtain ⟨⟨hmin, hmd, hdm, hmax⟩, hburst, hspan, hstandby, hholdover, hquota⟩ := h
  cases k with
  | defaultLife =>
    obtain ⟨⟨hl, hu⟩, rfl⟩ := hc
    exact ⟨⟨hmin, hl, hu, hmax⟩, hburst, hspan, hstandby, hholdover, hquota⟩
  | minLife =>
    obtain ⟨⟨hl, -, hu⟩, rfl⟩ := hc
    exact ⟨⟨hl, hu, hdm, hmax⟩, hburst, hspan, hstandby, hholdover, hquota⟩
  | maxLife =>
    obtain ⟨⟨-, hu, hl⟩, rfl⟩ := hc
    exact ⟨⟨hmin, hmd, hl, hu⟩, hburst, hspan, hstandby, hholdover, hquota⟩
  | derate =>
    obtain ⟨d, -, rfl⟩ := hc
    exact ⟨⟨hmin, hmd, hdm, hmax⟩, hburst, hspan, hstandby, hholdover, hquota⟩
  | createBurst =>
    obtain ⟨hv, rfl⟩ := hc
    exact ⟨⟨hmin, hmd, hdm, hmax⟩, hv, hspan, hstandby, hholdover, hquota⟩
  | createSpan =>
    obtain ⟨hv, rfl⟩ := hc
    exact ⟨⟨hmin, hmd, hdm, hmax⟩, hburst, hv, hstandby, hholdover, hquota⟩
  | standbyMax =>
    obtain ⟨hv, rfl⟩ := hc
    exact ⟨⟨hmin, hmd, hdm, hmax⟩, hburst, hspan, hv, hholdover, hquota⟩
  | holdoverMax =>
    obtain ⟨hv, rfl⟩ := hc
    exact ⟨⟨hmin, hmd, hdm, hmax⟩, hburst, hspan, hstandby, hv, hquota⟩
  | timeSource =>
    obtain ⟨x, -, rfl⟩ := hc
    exact ⟨⟨hmin, hmd, hdm, hmax⟩, hburst, hspan, hstandby, hholdover, hquota⟩
  | quota n =>
    obtain ⟨hv, rfl⟩ := hc
    refine ⟨⟨hmin, hmd, hdm, hmax⟩, hburst, hspan, hstandby, hholdover, fun m => ?_⟩
    simp only [PerAgent.get_set]
    split
    · exact hv
    · exact hquota m

/-- No setting but TIME_SOURCE changes TIME_SOURCE. -/
theorem change_timeSource {st st' : Settings} {k : Setting} {v : Nat} (hc : st.change k v = some st')
    (hk : k ≠ .timeSource) : st'.timeSource = st.timeSource := by
  rw [change_eq_some] at hc
  cases k with
  | timeSource => exact absurd rfl hk
  | derate => obtain ⟨d, -, rfl⟩ := hc; rfl
  | _ => obtain ⟨-, rfl⟩ := hc; rfl

/-! ### The monitor as its state says -/

/-- R131 to R134, Table 46: the good-interval count and the elapsed count of each time state. -/
def TimeState.fits (ts : TimeState) (good elapsed : Nat) : Prop :=
  match ts with
  | .locked => good = 8 ∧ elapsed = 0
  | .acquiring | .drift => good < 8 ∧ elapsed = 0
  | .holdover | .unsafeTime => good = 0 ∧ elapsed ≤ 65535
  | .freeRun => good = 0 ∧ elapsed = 0

/-- R130, R131, R134: in which time states a last pulse is present, and how old it is at most. -/
def LastPulse.fits (p : LastPulse) (ts : TimeState) : Prop :=
  match p with
  | .absent => ts ≠ .locked ∧ ts ≠ .drift
  | .present since => since ≤ Config.pulseLimit ∧ (ts = .acquiring ∨ ts = .locked ∨ ts = .drift)

/-- R137: when the divider stands, and how far it has come at most. -/
def Divider.fits (d : Divider) (held : Bool) (ts : TimeState) : Prop :=
  match d with
  | .stopped => held = true ∨ ts = .locked
  | .running position => held = false ∧ ts ≠ .locked ∧ position ≤ Config.dividerSpan

/-- The invariant of the settings and the monitor. -/
structure Legal (s : State) : Prop where
  range : s.settings.inRange = true
  source : s.settings.timeSource = .internal ↔ s.monitor.timeState = .freeRun
  counts : s.monitor.timeState.fits s.monitor.good s.monitor.elapsed
  pulse : s.monitor.lastPulse.fits s.monitor.timeState
  divider : s.monitor.divider.fits s.held s.monitor.timeState
  held : s.held = true → s.monitor.timeState = .acquiring

theorem legal_iff (s : State) :
    (s.settings.inRange && s.sourceMatches && s.monitorFormed) = true ↔ Legal s := by
  have hsource : s.sourceMatches = true ↔
      (s.settings.timeSource = .internal ↔ s.monitor.timeState = .freeRun) := by
    rw [State.sourceMatches, beq_iff_eq, Bool.eq_iff_iff, beq_iff_eq, beq_iff_eq]
  have hcounts : (match s.monitor.timeState with
      | .locked => s.monitor.good == 8 && s.monitor.elapsed == 0
      | .acquiring | .drift => decide (s.monitor.good < 8) && s.monitor.elapsed == 0
      | .holdover | .unsafeTime => s.monitor.good == 0 && decide (s.monitor.elapsed ≤ 65535)
      | .freeRun => s.monitor.good == 0 && s.monitor.elapsed == 0) = true ↔
      s.monitor.timeState.fits s.monitor.good s.monitor.elapsed := by
    cases s.monitor.timeState <;> simp [TimeState.fits]
  have hdivider : (match s.monitor.divider with
      | .stopped => s.held || s.monitor.timeState == .locked
      | .running position =>
        !(s.held || s.monitor.timeState == .locked) && decide (position ≤ Config.dividerSpan)) = true ↔
      s.monitor.divider.fits s.held s.monitor.timeState := by
    cases s.monitor.divider <;> simp [Divider.fits, and_assoc]
  have hpulse : (match s.monitor.lastPulse with
      | .absent => s.monitor.timeState != .locked && s.monitor.timeState != .drift
      | .present since => decide (since ≤ Config.pulseLimit) &&
        (s.monitor.timeState == .acquiring || s.monitor.timeState == .locked ||
          s.monitor.timeState == .drift)) = true ↔ s.monitor.lastPulse.fits s.monitor.timeState := by
    cases s.monitor.lastPulse <;> simp [LastPulse.fits, or_assoc]
  have hheld : (!s.held || s.monitor.timeState == .acquiring) = true ↔
      (s.held = true → s.monitor.timeState = .acquiring) := by
    cases s.held <;> simp
  have hformed : s.monitorFormed = true ↔
      ((s.monitor.timeState.fits s.monitor.good s.monitor.elapsed ∧
        s.monitor.divider.fits s.held s.monitor.timeState) ∧ s.monitor.lastPulse.fits s.monitor.timeState) ∧
      (s.held = true → s.monitor.timeState = .acquiring) := by
    rw [← hcounts, ← hdivider, ← hpulse, ← hheld, ← Bool.and_eq_true, ← Bool.and_eq_true, ← Bool.and_eq_true]
    rfl
  rw [Bool.and_eq_true, Bool.and_eq_true, hsource, hformed]
  exact ⟨fun ⟨⟨hr, hs⟩, ⟨⟨hc, hd⟩, hp⟩, hh⟩ => ⟨hr, hs, hc, hp, hd, hh⟩,
    fun h => ⟨⟨h.range, h.source⟩, ⟨⟨h.counts, h.divider⟩, h.pulse⟩, h.held⟩⟩

theorem Legal.still {s t : State} (h : Legal s) (k : Still s t) : Legal t where
  range := by rw [k.settings]; exact h.range
  source := by rw [k.settings, k.timeState]; exact h.source
  counts := by rw [k.timeState, k.good, k.elapsed]; exact h.counts
  pulse := by rw [k.lastPulse, k.timeState]; exact h.pulse
  divider := by rw [k.divider, k.held, k.timeState]; exact h.divider
  held := by rw [k.held, k.timeState]; exact h.held

/-- A monitor written without a change of time state. -/
theorem Legal.setMonitor {s : State} (h : Legal s) {m : Monitor} (hts : m.timeState = s.monitor.timeState)
    (hcounts : m.timeState.fits m.good m.elapsed) (hpulse : m.lastPulse.fits m.timeState)
    (hdivider : m.divider.fits s.held m.timeState) : Legal (s.setMonitor m) where
  range := h.range
  source := by rw [State.setMonitor_monitor, hts]; exact h.source
  counts := hcounts
  pulse := hpulse
  divider := hdivider
  held := by rw [State.setMonitor_monitor, hts]; exact h.held

/-- R137: the divider of a time state out of reset. -/
theorem TimeState.divider_fits (ts : TimeState) : ts.divider.fits false ts := by
  cases ts <;> simp [TimeState.divider, Divider.fits]

/-- A change of time state out of reset: the divider follows of itself. -/
theorem Legal.changeTime {s : State} {m : Monitor} (hrange : s.settings.inRange = true) (hh : s.held = false)
    (hsource : s.settings.timeSource = .internal ↔ m.timeState = .freeRun)
    (hcounts : m.timeState.fits m.good m.elapsed) (hpulse : m.lastPulse.fits m.timeState) :
    Legal (s.changeTime m) := by
  have hwritten : Legal (s.setMonitor
      { m with divider := m.timeState.divider, agentFlags := s.flagsSet, managementFlag := true }) :=
    ⟨hrange, hsource, hcounts, hpulse, by rw [State.setMonitor_held, hh]; exact m.timeState.divider_fits,
      fun hheld => absurd (hh.symm.trans hheld) Bool.false_ne_true⟩
  exact hwritten.still (.of_tableOnly (changeTime_tableOnly s m))

/-! ### The events of the time base -/

theorem measuring_iff (s : State) : s.measuring = true ↔ s.held = false ∧ s.settings.timeSource = .reference := by
  simp [State.measuring]

/-- While TREF is measured, FREE_RUN is the state that TIME_SOURCE does not name. -/
theorem Legal.not_internal {s : State} (hm : s.measuring = true) {ts : TimeState} (hts : ts ≠ .freeRun) :
    s.settings.timeSource = .internal ↔ ts = .freeRun := by
  obtain ⟨-, hsource⟩ := (measuring_iff s).1 hm
  simp [hsource, hts]

theorem Legal.not_freeRun {s : State} (h : Legal s) (hm : s.measuring = true) : s.monitor.timeState ≠ .freeRun := by
  obtain ⟨-, hsource⟩ := (measuring_iff s).1 hm
  intro hts
  have := h.source.2 hts
  simp [hsource] at this

theorem LastPulse.fits_advance {p : LastPulse} {ts : TimeState} (h : p.fits ts) (ns : Nat) :
    (p.advance ns).fits ts := by
  cases p with
  | absent => exact h
  | present since => exact ⟨Nat.min_le_right _ _, h.2⟩

theorem Divider.fits_advance {d : Divider} {held : Bool} {ts : TimeState} (h : d.fits held ts) (ns : Nat) :
    (d.advance ns).fits held ts := by
  cases d with
  | stopped => exact h
  | running position =>
    obtain ⟨hheld, hts, -⟩ := h
    exact ⟨hheld, hts, Nat.min_le_right _ _⟩

theorem Legal.advance {s : State} (h : Legal s) (ns : Nat) : Legal (s.setMonitor (s.monitor.advance ns)) :=
  h.setMonitor rfl h.counts (LastPulse.fits_advance h.pulse ns) (Divider.fits_advance h.divider ns)

/-- R134: the change to UNSAFE comes from HOLDOVER, which no held reset has. -/
theorem Legal.reachLimit {s : State} (h : Legal s) (hd : s.limitDue = true) : Legal s.reachLimit := by
  simp only [State.limitDue, Bool.and_eq_true, beq_iff_eq] at hd
  obtain ⟨hts, -⟩ := hd
  have hcounts := h.counts
  have hpulse := h.pulse
  have hsource := h.source
  have hh : s.held = false := by
    by_contra hheld
    have := h.held (by simpa using hheld)
    simp [hts] at this
  rw [hts] at hcounts hpulse hsource
  refine .changeTime h.range hh ?_ hcounts ?_
  · simpa using hsource
  · show s.monitor.lastPulse.fits .unsafeTime
    cases hp : s.monitor.lastPulse with
    | absent => simp [LastPulse.fits]
    | present since => simp [hp, LastPulse.fits] at hpulse

/-- R130 to R133. -/
theorem Legal.missing {s : State} (h : Legal s) (hm : s.measuring = true) : Legal s.missing := by
  obtain ⟨hh, -⟩ := (measuring_iff s).1 hm
  have hdivider := Divider.fits_advance h.divider s.monitor.lastPulse.left
  have hcounts := h.counts
  have hlapse : Legal (s.changeTime { (s.monitor.advance s.monitor.lastPulse.left) with
      lastPulse := .absent, timeState := .holdover, good := 0, elapsed := 0 }) :=
    .changeTime h.range hh (Legal.not_internal hm (by simp)) ⟨rfl, by simp⟩ ⟨by simp, by simp⟩
  have hstay : ∀ good, s.monitor.timeState.fits good s.monitor.elapsed → s.monitor.timeState ≠ .locked →
      s.monitor.timeState ≠ .drift → Legal (s.setMonitor
        { (s.monitor.advance s.monitor.lastPulse.left) with lastPulse := .absent, good := good }) :=
    fun good hgood hl hd => h.setMonitor rfl hgood ⟨hl, hd⟩ hdivider
  unfold State.missing
  simp only
  split
  · rename_i hts
    change s.monitor.timeState = .acquiring at hts
    rw [hts] at hcounts
    refine hstay 0 ?_ (by simp [hts]) (by simp [hts])
    rw [hts]
    exact ⟨by simp, hcounts.2⟩
  · exact hlapse
  · exact hlapse
  · rename_i hl hd
    exact hstay _ hcounts hl hd

/-- R130, R134. -/
theorem Legal.firstPulse {s : State} (h : Legal s) (hm : s.measuring = true) : Legal s.firstPulse := by
  obtain ⟨hh, -⟩ := (measuring_iff s).1 hm
  have hacquire : Legal (s.changeTime
      { s.monitor with lastPulse := .present 0, timeState := .acquiring, good := 0, elapsed := 0 }) :=
    .changeTime h.range hh (Legal.not_internal hm (by simp)) ⟨by simp, rfl⟩ ⟨by simp, Or.inl rfl⟩
  unfold State.firstPulse
  simp only
  split
  · exact hacquire
  · exact hacquire
  · rename_i hholdover hunsafe
    refine h.setMonitor rfl h.counts ⟨by simp, ?_⟩ h.divider
    have hfree := h.not_freeRun hm
    revert hholdover hunsafe hfree
    show s.monitor.timeState ≠ .holdover → s.monitor.timeState ≠ .unsafeTime → s.monitor.timeState ≠ .freeRun →
      s.monitor.timeState = .acquiring ∨ s.monitor.timeState = .locked ∨ s.monitor.timeState = .drift
    cases s.monitor.timeState <;> simp

/-- A tick counts the holdover and touches nothing else of the monitor. -/
theorem Legal.tick {s : State} (h : Legal s) : Legal s.tick := by
  have hm : s.tick.monitor = { s.monitor with elapsed := s.tick.monitor.elapsed } := by
    rw [State.tick_monitor]
    unfold tickMonitor
    split <;> rfl
  have hcounts : s.monitor.timeState.fits s.monitor.good s.tick.monitor.elapsed := by
    have hc := h.counts
    rw [State.tick_monitor]
    unfold tickMonitor
    cases hts : s.monitor.timeState <;> simp_all [TimeState.fits]
  exact Legal.still (h.setMonitor (m := s.tick.monitor) (by rw [hm]) (by rw [hm]; exact hcounts)
    (by rw [hm]; exact h.pulse) (by rw [hm]; exact h.divider)) (.of_eq rfl rfl rfl rfl)

/-- R131 to R133. -/
theorem Legal.interval {s : State} (h : Legal s) (hm : s.measuring = true) (b : Band) : Legal (s.interval b) := by
  obtain ⟨hh, -⟩ := (measuring_iff s).1 hm
  have hcounts := h.counts
  have hstay : ∀ good, s.monitor.timeState.fits good s.monitor.elapsed →
      (s.monitor.timeState = .acquiring ∨ s.monitor.timeState = .locked ∨ s.monitor.timeState = .drift) →
      Legal (s.setMonitor { s.monitor with lastPulse := .present 0, good := good }) :=
    fun good hgood hts => h.setMonitor rfl hgood ⟨by simp, hts⟩ h.divider
  have hgood : (s.monitor.timeState = .acquiring ∨ s.monitor.timeState = .drift) →
      Legal (s.countGood { s.monitor with lastPulse := .present 0 }) := by
    intro hts
    have hfit : s.monitor.good < 8 ∧ s.monitor.elapsed = 0 := by
      rcases hts with hts | hts <;> rwa [hts] at hcounts
    unfold State.countGood
    split
    · exact .changeTime h.range hh (Legal.not_internal hm (by simp)) ⟨rfl, hfit.2⟩ ⟨by simp, Or.inr (Or.inl rfl)⟩
    · rename_i hne
      change s.monitor.good + 1 ≠ 8 at hne
      have hlt : s.monitor.good + 1 < 8 := by omega
      refine hstay _ ?_ (hts.imp id Or.inr)
      rcases hts with hts | hts <;> rw [hts] <;> exact ⟨hlt, hfit.2⟩
  have hreset : (s.monitor.timeState = .acquiring ∨ s.monitor.timeState = .drift) →
      Legal (s.setMonitor { s.monitor with lastPulse := .present 0, good := 0 }) := by
    intro hts
    refine hstay 0 ?_ (hts.imp id Or.inr)
    rcases hts with hts | hts <;> rw [hts] at hcounts ⊢ <;> exact ⟨by simp, hcounts.2⟩
  unfold State.interval
  simp only
  split
  · rename_i hts; exact hgood (Or.inl hts)
  · rename_i hts; exact hgood (Or.inr hts)
  · rename_i hts; exact hreset (Or.inl hts)
  · rename_i hts; exact hreset (Or.inr hts)
  · rename_i hts
    exact (hstay _ hcounts (Or.inr (Or.inl hts))).tick
  · rename_i hts
    change s.monitor.timeState = .locked at hts
    rw [hts] at hcounts
    exact .changeTime h.range hh (Legal.not_internal hm (by simp)) ⟨by simp, hcounts.2⟩
      ⟨by simp, Or.inr (Or.inr rfl)⟩
  · exact h

/-- R137: a running divider goes on from 0. -/
theorem Legal.dividerTick {s : State} {p : Nat} (h : Legal s) (hh : s.held = false)
    (hp : s.monitor.divider = .running p) : Legal (s.dividerTick p) := by
  have hdivider := h.divider
  rw [hp] at hdivider
  obtain ⟨-, hts, -⟩ := hdivider
  have hwritten : Legal (s.setMonitor { s.monitor with
      lastPulse := s.monitor.lastPulse.advance (Config.dividerSpan - p), divider := .running 0 }) :=
    h.setMonitor rfl h.counts (LastPulse.fits_advance h.pulse _) ⟨hh, hts, Nat.zero_le _⟩
  exact hwritten.tick

/-- R144: a held reset is in ACQUIRING, and its end starts the divider. -/
theorem Legal.endReset {s : State} (h : Legal s) (hh : s.held = true) : Legal s.endReset where
  range := h.range
  source := h.source
  counts := h.counts
  pulse := h.pulse
  divider := ⟨rfl, by rw [show s.endReset.monitor.timeState = .acquiring from h.held hh]; simp, Nat.zero_le _⟩
  held hheld := absurd hheld Bool.false_ne_true

theorem Legal.holdReset (s : State) : Legal s.holdReset where
  range := show Settings.reset.inRange = true by decide
  source := show TimeSource.reference = .internal ↔ TimeState.acquiring = .freeRun by decide
  counts := ⟨show 0 < 8 by decide, rfl⟩
  pulse := show TimeState.acquiring ≠ .locked ∧ TimeState.acquiring ≠ .drift by decide
  divider := Or.inl rfl
  held _ := rfl

/-- R171: what a performed SET leaves. -/
theorem Legal.afterSet {s : State} {k : Setting} {v : Nat} {st : Settings} (h : Legal s) (hh : s.held = false)
    (hc : s.settings.change k v = some st) : Legal (State.afterSet { s with settings := st } s.settings k) := by
  have hrange : st.inRange = true := change_inRange h.range hc
  have hsame : st.timeSource = s.settings.timeSource → Legal ({ s with settings := st } : State) := fun hsource =>
    ⟨hrange, by rw [show ({ s with settings := st } : State).settings = st from rfl, hsource]; exact h.source,
      h.counts, h.pulse, h.divider, h.held⟩
  cases k with
  | holdoverMax =>
    have hst := hsame (change_timeSource hc (by simp))
    show Legal (State.settleMonitor { s with settings := st })
    unfold State.settleMonitor
    split
    · rename_i hd; exact hst.reachLimit hd
    · exact hst
  | timeSource =>
    show Legal (if st.timeSource = s.settings.timeSource then _ else _)
    split
    · rename_i he; exact hsame he
    · refine .changeTime hrange hh ?_ ?_ ?_
      · show st.timeSource = .internal ↔ (s.monitor.sourced st.timeSource).timeState = .freeRun
        cases st.timeSource <;> simp [Monitor.sourced]
      · show (s.monitor.sourced st.timeSource).timeState.fits 0 0
        cases st.timeSource <;> simp [Monitor.sourced, TimeState.fits]
      · show LastPulse.absent.fits (s.monitor.sourced st.timeSource).timeState
        cases st.timeSource <;> simp [Monitor.sourced, LastPulse.fits]
  | _ => exact hsame (change_timeSource hc (by simp))

theorem legal_law : ClockLaw Legal where
  still := Legal.still
  limit := Legal.reachLimit
  setting := Legal.afterSet
  advance ns h := h.advance ns
  missing := Legal.missing
  firstPulse := Legal.firstPulse
  interval b h hm := h.interval hm b
  dividerTick := Legal.dividerTick
  endReset := Legal.endReset

/-- Settles O57: the law of a legal monitor over the front command, or over the settling of an empty queue. -/
theorem settingsAndMonitorStayLegal : Obligations.SettingsAndMonitorStayLegal := by
  intro s t h hx
  rw [legal_iff] at h ⊢
  cases hp : s.pending with
  | nil =>
    simp only [step, hp, Host.Outcome.next.injEq] at hx
    exact hx ▸ legal_law.settle h
  | cons c rest =>
    have hrest : Legal ({ s with pending := rest } : State) := ⟨h.range, h.source, h.counts, h.pulse, h.divider, h.held⟩
    obtain ⟨u, hu, hlegal⟩ := legal_law.exec c (fun _ => Legal.holdReset _) hrest
    simp only [step, hp] at hx
    rw [hx, Host.Outcome.next.injEq] at hu
    exact hu ▸ hlegal

end Sys2Proof.Machine
end

section
/-! The resets (R21, R144, R163, R176): a held power-on or pin reset, the reset's end and the sweep's, and SOFT_RESET
as a request and as a code byte written. -/

namespace Sys2Proof

/-- One function applied to each agent's value. -/
theorem PerAgent.get_each {α β : Type} (f : α → β) (p : PerAgent α) (n : Agent) :
    (⟨f p.a0, f p.a1, f p.a2, f p.a3⟩ : PerAgent β).get n = f (p.get n) := by
  fin_cases n <;> rfl

end Sys2Proof

namespace Sys2Proof.Machine

/-! ### Power-on and pin reset -/

theorem exec_powerOnReset (s : State) : exec .powerOnReset s = .next s.holdReset := rfl

theorem exec_pinReset (s : State) : exec .pinReset s = .next { s.holdReset with
    ports := ⟨s.ports.a0.pinReset, s.ports.a1.pinReset, s.ports.a2.pinReset, s.ports.a3.pinReset⟩ } := rfl

theorem holdReset_session (s : State) (n : Agent) : s.holdReset.session n = Session.reset := PerAgent.get_all _ n

theorem holdReset_port (s : State) (n : Agent) : s.holdReset.port n = Port.reset := PerAgent.get_all _ n

theorem holdReset_cells (s : State) (n : Agent) : s.holdReset.cells.get n = [] := PerAgent.get_all _ n

theorem holdReset_flag (s : State) (n : Agent) : s.holdReset.monitor.agentFlags.get n = false := PerAgent.get_all _ n

/-- R161: an IDLE port, no notice and no time-change flag leave ATTN_n released. -/
theorem attn_eq_false {s : State} {n : Agent} (hp : (s.port n).state = .idle) (hc : s.cells.get n = [])
    (hf : s.monitor.agentFlags.get n = false) : s.attn n = false := by
  have hp' : (s.ports.get n).state = .idle := hp
  simp [State.attn, State.pendingCount, PortState.isReady, hp', hc, hf]

/-- Settles O3: both resets are the held reset, whose every field is a constant; the pin reset's ports are the reset
port with the note of what it cut short. -/
theorem fullResetsHoldTheResetValues : Obligations.FullResetsHoldTheResetValues := by
  intro s
  refine ⟨_, _, exec_powerOnReset s, exec_pinReset s, rfl, fun n => ?_, rfl, rfl, rfl, rfl, rfl, rfl, fun n => ?_, rfl,
    rfl, rfl, rfl, rfl, holdReset_flag s, rfl, rfl, rfl, rfl, rfl, rfl, rfl, rfl⟩
  · have hpin : PerAgent.get ⟨s.ports.a0.pinReset, s.ports.a1.pinReset, s.ports.a2.pinReset, s.ports.a3.pinReset⟩ n =
        (s.port n).pinReset := PerAgent.get_each Port.pinReset s.ports n
    refine ⟨by rw [holdReset_port]; rfl, attn_eq_false ?_ (holdReset_cells s n) (holdReset_flag s n), ?_⟩
    · exact congrArg Port.state hpin
    · exact hpin.trans (by rw [holdReset_port]; rfl)
  · have hport := holdReset_port s n
    rw [holdReset_session, holdReset_cells]
    exact ⟨rfl, rfl, rfl, rfl, rfl, rfl, rfl, by rw [hport]; rfl, by rw [hport]; rfl,
      attn_eq_false (by rw [hport]; rfl) (holdReset_cells s n) (holdReset_flag s n)⟩

/-! ### The end of a reset and of the sweep -/

theorem exec_resetEnd {s : State} (hq : s.quiet = true) :
    exec .resetEnd s = .next (if s.held then s.endReset else s) := by
  show execResetEnd s = _
  rw [execResetEnd, State.settle_of_quiet hq]

theorem exec_sweepComplete {s : State} (hq : s.quiet = true) :
    exec .sweepComplete s = .next (if !s.held && s.table == .initializing then s.sweep else s) := by
  show execSweepComplete s = _
  rw [execSweepComplete, State.settle_of_quiet hq]

/-- Settles O4: the two conditions under which these events arise, and the state the model starts from. -/
theorem resetEndAndSweepOpenTheTable : Obligations.ResetEndAndSweepOpenTheTable := by
  refine ⟨⟨_, rfl, ?_⟩, fun s hq => ⟨fun hh => ?_, fun hh => ?_, fun hh ht => ?_, fun h => ?_⟩⟩
  · exact (exec_resetEnd (by decide)).trans rfl
  · rw [exec_resetEnd hq, if_pos hh]
    rfl
  · rw [exec_resetEnd hq, hh]
    rfl
  · rw [exec_sweepComplete hq, if_pos (by rw [hh, ht]; rfl)]
    rfl
  · rw [exec_sweepComplete hq, if_neg]
    rcases h with hh | ht
    · simp [hh]
    · simp [ht]

/-! ### SOFT_RESET -/

/-- R176: SOFT_RESET taken at once, from the state in which its code has been written. -/
def State.softResetDone (s : State) : State := (s.begun 0x08).softReset.completes .ok none

theorem exec_softReset {s : State} (ho : s.mailboxOpen = true) : exec .softReset s = .next s.softResetDone := by
  simp only [State.mailboxOpen, Bool.and_eq_true, Bool.not_eq_true', bne_iff_ne, ne_eq] at ho
  obtain ⟨⟨hq, hh⟩, hb⟩ := ho
  show execSoftReset s = _
  simp only [execSoftReset, State.settle_of_quiet hq, hh, Bool.false_eq_true, if_false]
  cases hm : s.management.mailbox with
  | busy => exact absurd hm hb
  | empty => rfl
  | done => rfl

theorem exec_softReset_busy {s : State} (hq : s.quiet = true) (hh : s.held = false)
    (hb : s.management.mailbox = .busy) :
    exec .softReset s = .next (s.setManagement s.management.codeIgnored) := by
  show execSoftReset s = _
  simp only [execSoftReset, State.settle_of_quiet hq, hh, hb, Bool.false_eq_true, if_false]

/-- R172: the code byte written at 73h starts the request; the code 08h is taken with it (R176). -/
theorem writeTake_code {u : State} {v : Byte} (hb : u.management.mailbox ≠ .busy)
    (hp : u.management.pointer = 0x73) :
    u.writeTake v = if v = 0x08 then (u.begun v).takeRequest softResetRule else u.begun v := by
  have ha : u.management.pointer.toNat = 0x73 := by rw [hp]; rfl
  simp only [State.writeTake, hb, ha, if_false]
  rfl

theorem mailboxOpen_iff (s : State) : s.mailboxOpen = true ↔
    s.quiet = true ∧ s.held = false ∧ s.management.mailbox ≠ .busy := by
  simp [State.mailboxOpen, and_assoc]

/-- The code byte 08h written at 73h is a SOFT_RESET: the write's own effect on the port is overwritten by the start of
the request. -/
theorem exec_registerWrite_softReset {s : State} {address : Option Byte} (ho : s.mailboxOpen = true)
    (hl : address.isSome = true ∨ s.management.listening = true)
    (hp : (s.management.addressed address).pointer = 0x73) :
    exec (.registerWrite address (some 0x08)) s = .next s.softResetDone := by
  obtain ⟨hq, hh, hb⟩ := (mailboxOpen_iff s).1 ho
  have hb' : (s.management.addressed address).mailbox ≠ .busy := by cases address <;> exact hb
  refine congrArg Host.Outcome.next ((writeRun_byte hq hh hl).trans ((writeTake_code hb' hp).trans ?_))
  cases address <;> rfl

theorem softReset_session (s : State) (n : Agent) : s.softReset.session n = Session.reset := PerAgent.get_all _ n

theorem softReset_cells (s : State) (n : Agent) : s.softReset.cells.get n = [] := PerAgent.get_all _ n

theorem softReset_port (s : State) (n : Agent) : s.softReset.port n = (s.port n).softReset :=
  PerAgent.get_each Port.softReset s.ports n

/-- Settles O5: the request, and the code byte written in a transfer of its own or in one under way, leave the one state
whose blocks R176 names. -/
theorem softResetKeepsEpochsSettingsAndTimeBase : Obligations.SoftResetKeepsEpochsSettingsAndTimeBase := by
  intro s hq hh
  refine ⟨fun hb => ?_, exec_softReset_busy hq hh⟩
  have ho : s.mailboxOpen = true := (mailboxOpen_iff s).2 ⟨hq, hh, hb⟩
  refine ⟨s.softResetDone, exec_softReset ho, exec_registerWrite_softReset ho (Or.inl rfl) rfl,
    fun hl hp => exec_registerWrite_softReset ho (Or.inr hl) hp, rfl, rfl, rfl, rfl, rfl, rfl, fun n => ?_, rfl, rfl,
    rfl, rfl, rfl, rfl, rfl, hh⟩
  have hsession : s.softResetDone.session n = Session.reset := softReset_session (s.begun 0x08) n
  have hcells : s.softResetDone.cells.get n = [] := softReset_cells (s.begun 0x08) n
  have hport : s.softResetDone.port n = (s.port n).softReset := softReset_port (s.begun 0x08) n
  rw [hsession, hcells, hport]
  refine ⟨rfl, rfl, rfl, rfl, rfl, rfl, rfl, ?_, rfl⟩
  have hstate : (s.softResetDone.ports.get n).state = .idle := congrArg Port.state hport
  simp only [State.attn, State.pendingCount, hstate, hcells]
  rfl

end Sys2Proof.Machine
end

section
/-! Bytes, checks and frames (R1 to R4, R11, R145, R154, R158, R179, R180, Tables 69 to 75): the two checks bit by
bit, the bytes of an answer's body, the frames that are read and those that are not, and the fields of a body. -/

namespace Sys2Proof.Machine

/-! ### Checks, buckets and handles -/

/-- R3: the key hash compares a key bit with its own top bit, bit 15. -/
theorem hashBit_eq (r : Half) (b : Bool) :
    hashBit r b = if b ≠ r.getLsbD 15 then (r <<< 1) ^^^ 0x1021 else r <<< 1 := by
  rw [hashBit, BitVec.msb_eq_getLsbD_last]
  simp only [bne_iff_ne]

/-- R154: the frame check compares a bit with its own top bit, bit 7. -/
theorem checkBit_eq (r : Byte) (b : Bool) :
    checkBit r b = if b ≠ r.getLsbD 7 then (r <<< 1) ^^^ 0x07 else r <<< 1 := by
  rw [checkBit, BitVec.msb_eq_getLsbD_last]
  simp only [bne_iff_ne]

theorem hashByte_eq (r : Half) (x : Byte) : hashByte r x = [7, 6, 5, 4, 3, 2, 1, 0].foldl
    (fun (r : Half) i => if x.getLsbD i ≠ r.getLsbD 15 then (r <<< 1) ^^^ 0x1021 else r <<< 1) r := by
  simp only [hashByte, hashBit_eq, bitPlaces]

theorem checkByte_eq (r x : Byte) : checkByte r x = [7, 6, 5, 4, 3, 2, 1, 0].foldl
    (fun (r : Byte) i => if x.getLsbD i ≠ r.getLsbD 7 then (r <<< 1) ^^^ 0x07 else r <<< 1) r := by
  simp only [checkByte, checkBit_eq, bitPlaces]

/-- R1, R4: a home bucket is four slots in a row, in the partition and the bucket that the hash names. -/
theorem homeSlots_bucket (key : List Byte) : ∃ first, homeSlots key = [first, first + 1, first + 2, first + 3] ∧
    first % 4 = 0 ∧ first + 3 < 2048 ∧ first / 256 = (keyHash key).toNat % 8 ∧
    first % 256 / 4 = (keyHash key).toNat / 8 % 64 := by
  refine ⟨homePartition key * 256 + homeBucket key * 4, rfl, ?_⟩
  have hp : homePartition key < 8 := Nat.mod_lt _ (by decide)
  have hb : homeBucket key < 64 := Nat.mod_lt _ (by decide)
  rw [← homePartition, ← homeBucket]
  omega

/-- R11: a handle's number is its generation's and its slot's. -/
theorem handleOf_toNat {gen slot : Nat} (hg : gen < 32) (hs : slot < 2048) :
    (handleOf gen slot).toNat = gen * 2048 + slot := by
  rw [handleOf, BitVec.toNat_ofNat]
  omega

/-- Settles O6: worked values by evaluation, the checks by their last byte, buckets and handles by arithmetic. -/
theorem keysHandlesAndFramesAreRead : Obligations.KeysHandlesAndFramesAreRead := by
  unfold Obligations.KeysHandlesAndFramesAreRead
  refine ⟨by decide +kernel, by decide +kernel, by decide, by decide +kernel, by decide +kernel, by decide +kernel,
    by decide +kernel, ⟨rfl, rfl, fun bytes b => ⟨?_, ?_⟩⟩, homeSlots_bucket, fun gen slot hg hs => ?_⟩
  · rw [keyHash_concat, hashByte_eq]
  · rw [frameCheck_concat, checkByte_eq]
  · rw [handleSlot, handleGen, handleOf_toNat hg hs]
    omega

/-! ### Responses -/

/-- R158, R180: the four flags of a response stand in bits 0 to 3 of its flags byte. -/
theorem flags_bits (r : Response) : r.flags.getLsbD 0 = r.notice ∧ r.flags.getLsbD 1 = r.timeChange ∧
    r.flags.getLsbD 2 = r.overrun ∧ r.flags.getLsbD 3 = r.lapsed ∧ r.flags.toNat < 16 := by
  have all : ∀ a b c d : Bool,
      let f := byteOf ((if a then 1 else 0) + (if b then 2 else 0) + (if c then 4 else 0) + (if d then 8 else 0))
      f.getLsbD 0 = a ∧ f.getLsbD 1 = b ∧ f.getLsbD 2 = c ∧ f.getLsbD 3 = d ∧ f.toNat < 16 := by decide
  exact all r.notice r.timeChange r.overrun r.lapsed

/-- R158, R180: a response frame is its five head bytes and its body, and its check over all of them is 0. -/
theorem responseFrame_parts (r : Response) : frameCheck r.frame = 0 ∧ r.frame.length = 5 + r.answer.body.length ∧
    r.frame.dropLast =
      [r.answer.code, r.flags, r.sessionLow, BitVec.ofNat 8 r.answer.body.length] ++ r.answer.body := by
  refine ⟨frameCheck_self _, ?_, List.dropLast_concat⟩
  rw [Response.frame]
  simp only [List.length_append, List.length_cons, List.length_nil]
  omega

theorem holding_bytes_length (x : Holding) : x.bytes.length = 10 := by
  simp [Holding.bytes, be16, count16, epochField, be32]

theorem noticeEntry_bytes_length (x : NoticeEntry) : x.bytes.length = 9 := by
  simp [NoticeEntry.bytes, be16, count16, epochField, be32]

/-- Settles O7: a check takes its own byte to 0; an answer's body is the bytes of its fields, case by case. -/
theorem checkOverAWholeFrameIsZero : Obligations.CheckOverAWholeFrameIsZero := by
  unfold Obligations.CheckOverAWholeFrameIsZero
  intro two four one
  refine ⟨fun _ _ => frameCheck_self _, fun r => ?_, by decide, by decide, by decide, by decide, by decide, by decide,
    by decide, by decide, by decide, by decide, fun _ => rfl, fun a => ?_⟩
  · obtain ⟨hcheck, hlength, hhead⟩ := responseFrame_parts r
    exact ⟨hcheck, hlength, hhead, flags_bits r⟩
  have h2 : ∀ v : Half, be16 v = two v.toNat := be16_eq
  have hc : ∀ v : Nat, count16 v = two v := count16_eq
  have h4 : be32 = four := funext be32_eq
  cases a with
  | ok => exact ⟨rfl, rfl⟩
  | okJoin number quota dl mn mx ts => exact ⟨rfl, rfl, by simp only [Answer.body, h2, hc]⟩
  | granted h m life e => exact ⟨rfl, rfl, by simp only [Answer.body, h2, hc, epochField, h4]⟩
  | queued h position wait => exact ⟨rfl, rfl, by simp only [Answer.body, h2, hc, byteOf]⟩
  | okRenew life => exact ⟨rfl, hc life⟩
  | okRenewSet life count => exact ⟨rfl, by simp only [Answer.body, hc]⟩
  | okLookup x =>
    refine ⟨rfl, rfl, ?_⟩
    rw [Answer.body, LookupAnswer.bytes, h2, h4]
    rfl
  | okRead h st e start count words =>
    refine ⟨rfl, ?_, by simp only [Answer.body, h2, h4, byteOf]⟩
    have hw := flatMap_length_const (f := be32) (k := 4) (fun _ => rfl) words
    simp only [Answer.body, List.length_append, hw, be16, be32, List.length_cons, List.length_nil]
  | okWrite remaining => exact ⟨rfl, hc remaining⟩
  | okHoldings next es =>
    have he := flatMap_length_const holding_bytes_length es
    refine ⟨rfl, ?_, ?_⟩
    · simp only [Answer.body, List.length_append, he, be16, List.length_cons, List.length_nil]
    · rw [Answer.body, h2, byteOf]
      simp only [funext fun x : Holding => Holding.bytes.eq_def x, h2, hc, epochField, h4]
  | okNotices more es =>
    have he := flatMap_length_const noticeEntry_bytes_length es
    refine ⟨rfl, ?_, ?_⟩
    · simp only [Answer.body, List.length_append, he, List.length_cons, List.length_nil]
    · rw [Answer.body, byteOf]
      simp only [funext fun x : NoticeEntry => NoticeEntry.bytes.eq_def x, h2, hc, epochField, h4, yesNo, one]
  | okTime ts d k good elapsed => exact ⟨rfl, rfl, by simp only [Answer.body, hc, byteOf, yesNo, one]⟩
  | okStandby kept left countdown => exact ⟨rfl, by simp only [Answer.body, hc]⟩
  | okWake resumed lapsed => exact ⟨rfl, by simp only [Answer.body, hc, yesNo, one]⟩
  | throttled ticks => exact ⟨rfl, hc ticks⟩
  | refused c => exact rfl

end Sys2Proof.Machine
end

section
/-! Reading frames and bodies (R145, R148, R153, R155, R156, R179, R180, Tables 70, 72, 73): what the whole bytes of a
transaction spell, and the fields that each request's body gives back. -/

namespace Sys2Proof.Machine

/-! ### What the bytes of a transaction spell -/

section
variable {n : Agent} {start : TransactionStart}

/-- R155: bytes that begin with a code and make no frame are a frame error. -/
theorem decodeTransaction_badFrame {code : Byte} {rest : List Byte} (h : code ≠ 0)
    (hp : parseFrame (code :: rest) = none) :
    decodeTransaction n start (code :: rest) = some (.badFrame n start (code :: rest)) := by
  rw [decodeTransaction, if_neg h, hp]

section
variable {code : Byte} {body : List Byte} (hc : code ≠ 0) (hb : body.length ≤ 48)
include hc hb

theorem decodeTransaction_known {k : Request} (hk : requestOfCode code = some k) (tail : List Byte) :
    decodeTransaction n start (requestFrame code body ++ tail) =
      some (requestCommand k n { start := start, extra := tail.length } body) := by
  have hp := parseFrame_requestFrame code body tail hb
  rw [requestFrame, List.cons_append, List.cons_append] at hp ⊢
  rw [decodeTransaction, if_neg hc, hp]
  simp only [hk]

theorem decodeTransaction_unknown (hk : requestOfCode code = none) (tail : List Byte) :
    decodeTransaction n start (requestFrame code body ++ tail) =
      some (.badRequest n { start := start, extra := tail.length } code body) := by
  have hp := parseFrame_requestFrame code body tail hb
  rw [requestFrame, List.cons_append, List.cons_append] at hp ⊢
  rw [decodeTransaction, if_neg hc, hp]
  simp only [hk]

end

end

/-- R153, Table 72: the frame of a request spells the request's command. -/
theorem decodeTransaction_request (k : Request) (n : Agent) (start : TransactionStart) (body tail : List Byte)
    (h : body.length ≤ 48) : decodeTransaction n start (requestFrame (requestCode k) body ++ tail) =
      some (requestCommand k n { start := start, extra := tail.length } body) :=
  decodeTransaction_known (requestCode_ne_zero k) h (requestOfCode_requestCode k) tail

/-- R156 check 2: a code that no request has names none. -/
theorem requestOfCode_eq_none {code : Byte} (h : code ∉ requests.map requestCode) : requestOfCode code = none := by
  rw [requestOfCode, List.find?_eq_none]
  intro k hk he
  exact h (List.mem_map.2 ⟨k, hk, eq_of_beq he⟩)

/-- Settles O8: the row of each request is the round trip of its code and the decoding of its frame. -/
theorem requestFramesDecodeToTheirCommands : Obligations.RequestFramesDecodeToTheirCommands := by
  unfold Obligations.RequestFramesDecodeToTheirCommands
  have row (k : Request) : requestCode k = requestCode k ∧ requestOfCode (requestCode k) = some k ∧
      (∀ (n : Agent) (t : Transfer) (body : List Byte), requestCommand k n t body = requestCommand k n t body) ∧
      ∀ (n : Agent) (start : TransactionStart) (body tail : List Byte), body.length ≤ 48 →
        decodeTransaction n start (requestFrame (requestCode k) body ++ tail) =
          some (requestCommand k n { start := start, extra := tail.length } body) :=
    ⟨rfl, requestOfCode_requestCode k, fun _ _ _ => rfl, decodeTransaction_request k⟩
  exact ⟨decodeTransaction_request, row .join, row .leave, row .claim, row .upgrade, row .downgrade, row .renew,
    row .renewSet, row .release, row .lookup, row .read, row .write, row .holdings, row .notices, row .time,
    row .standby, row .wake, fun code h => requestOfCode_eq_none h, fun _ _ => rfl⟩

/-! ### Bytes that make no frame (R153) -/

theorem parseFrame_short (code : Byte) : parseFrame [code] = none := rfl

/-- A length above 48, or fewer bytes than the length asks for. -/
theorem parseFrame_badLength {code len : Byte} {rest : List Byte} (h : 48 < len.toNat ∨ rest.length < len.toNat + 1) :
    parseFrame (code :: len :: rest) = none := by
  rw [parseFrame]
  split
  · rfl
  · exact if_pos (h.resolve_left ‹_›)

theorem parseFrame_badCheck {code check : Byte} {body : List Byte} (hb : body.length ≤ 48)
    (h : check ≠ frameCheck (code :: byteOf body.length :: body)) (tail : List Byte) :
    parseFrame (code :: byteOf body.length :: body ++ check :: tail) = none := by
  have hn : (byteOf body.length).toNat = body.length := byteOf_toNat (by omega)
  have hcheck : (body ++ check :: tail).getD body.length 0 = check := by simp
  have hbody : (body ++ check :: tail).take body.length = body := by simp
  have hlen : (body ++ check :: tail).length = body.length + (tail.length + 1) := by simp
  rw [List.cons_append, List.cons_append, parseFrame, hn, hcheck, hbody, if_neg (by omega), if_neg (by omega), if_neg h]

/-- Settles O9: each way bytes can fail to be a frame of a known code, and the round trip of bytes through bits. -/
theorem otherBytesDecodeToTheirEvents : Obligations.OtherBytesDecodeToTheirEvents := by
  unfold Obligations.OtherBytesDecodeToTheirEvents
  intro n start
  refine ⟨rfl, fun _ => rfl, fun code body tail hc hk hb => decodeTransaction_unknown hc hb hk tail, ?_, ?_, ?_, ?_⟩
  · intro code check body tail hc hb h
    exact decodeTransaction_badFrame hc (parseFrame_badCheck hb h tail)
  · intro code len rest hc h
    exact decodeTransaction_badFrame hc (parseFrame_badLength h)
  · intro code hc
    exact decodeTransaction_badFrame hc (parseFrame_short code)
  · intro bytes loose h
    exact congrArg (decodeTransaction n start) (wholeBytes_bits bytes h)

/-! ### The fields of a body -/

theorem modeOfCode_code (m : Mode) : Mode.ofCode m.code = some m := by cases m <;> rfl

section
variable {key pad : List Byte} (h1 : 1 ≤ key.length) (h2 : key.length + pad.length = 24)
include h1 h2

/-- R2: the length of a key that fits its field is one the part takes. -/
theorem keyLengthOk_byteOf : keyLengthOk (byteOf key.length).toNat = true := by
  rw [byteOf_toNat (by omega)]
  simp only [keyLengthOk, Bool.and_eq_true, decide_eq_true_eq]
  omega

/-- A key read back from its padded field. -/
theorem take_keyField : (key ++ pad).take (byteOf key.length).toNat = key := by
  rw [byteOf_toNat (by omega), List.take_left]

theorem parseClaim_fields (m : Mode) (x y : Half) :
    parseClaim ([m.code, 0] ++ be16 x ++ be16 y ++ [byteOf key.length] ++ key ++ pad) =
      some { mode := m, requested := x.toNat, wait := y.toNat, key := key } := by
  have hx : halfAt ([m.code, 0] ++ be16 x ++ be16 y ++ [byteOf key.length] ++ key ++ pad) 2 = x := half_split x
  have hy : halfAt ([m.code, 0] ++ be16 x ++ be16 y ++ [byteOf key.length] ++ key ++ pad) 4 = y := half_split y
  have hm : Mode.ofCode (([m.code, 0] ++ be16 x ++ be16 y ++ [byteOf key.length] ++ key ++ pad).getD 0 0) = some m :=
    modeOfCode_code m
  have hkey : (([m.code, 0] ++ be16 x ++ be16 y ++ [byteOf key.length] ++ key ++ pad).drop 7).take
      (byteOf key.length).toNat = key := take_keyField h1 h2
  have hlen : ([m.code, 0] ++ be16 x ++ be16 y ++ [byteOf key.length] ++ key ++ pad).length = 31 := by
    simp only [List.length_append, List.length_cons, List.length_nil, be16_length]
    omega
  rw [parseClaim, hm]
  refine (if_pos ⟨hlen, rfl, keyLengthOk_byteOf h1 h2⟩).trans ?_
  rw [hx, hy]
  exact congrArg (fun k => some (ClaimFields.mk m x.toNat y.toNat k)) hkey

theorem parseLookup_fields : parseLookup ([0, byteOf key.length] ++ key ++ pad) = some key := by
  have hlen : ([0, byteOf key.length] ++ key ++ pad).length = 26 := by
    simp only [List.length_append, List.length_cons, List.length_nil]
    omega
  refine (if_pos ⟨hlen, rfl, keyLengthOk_byteOf h1 h2⟩).trans ?_
  exact congrArg some (take_keyField h1 h2)

theorem parseRead_fields {start count : Byte} (hs : start.toNat ≤ 7) (hc : 1 ≤ count.toNat) (hc' : count.toNat ≤ 8) :
    parseRead ([start, count, 0, byteOf key.length] ++ key ++ pad) = some (start.toNat, count.toNat, key) := by
  have hlen : ([start, count, 0, byteOf key.length] ++ key ++ pad).length = 28 := by
    simp only [List.length_append, List.length_cons, List.length_nil]
    omega
  refine (if_pos ⟨hlen, hs, hc, hc', rfl, keyLengthOk_byteOf h1 h2⟩).trans ?_
  exact congrArg (fun k => some (start.toNat, count.toNat, k)) (take_keyField h1 h2)

end

theorem parseUpgrade_fields (h x y : Half) : parseUpgrade (be16 h ++ be16 x ++ be16 y ++ [0]) =
    some { handle := h, requested := x.toNat, wait := y.toNat } := by
  have hh : halfAt (be16 h ++ be16 x ++ be16 y ++ [0]) 0 = h := half_split h
  have hx : halfAt (be16 h ++ be16 x ++ be16 y ++ [0]) 2 = x := half_split x
  have hy : halfAt (be16 h ++ be16 x ++ be16 y ++ [0]) 4 = y := half_split y
  rw [parseUpgrade, if_pos ⟨rfl, rfl⟩, hh, hx, hy]

theorem parseHandle_field (h : Half) : parseHandle (be16 h) = some h :=
  (if_pos (be16_length h)).trans (congrArg some (half_split h))

theorem parseRenew_fields (h x : Half) : parseRenew (be16 h ++ be16 x ++ [0]) = some (h, x.toNat) := by
  have hh : halfAt (be16 h ++ be16 x ++ [0]) 0 = h := half_split h
  have hx : halfAt (be16 h ++ be16 x ++ [0]) 2 = x := half_split x
  rw [parseRenew, if_pos ⟨rfl, rfl⟩, hh, hx]

theorem parseRenewSet_fields {b : Byte} (hb : b ≠ 0) (x : Half) :
    parseRenewSet ([b, 0] ++ be16 x) = some (b, x.toNat) := by
  have hx : halfAt ([b, 0] ++ be16 x) 2 = x := half_split x
  rw [parseRenewSet, if_pos ⟨rfl, hb, rfl⟩, hx]
  rfl

theorem parseHoldings_fields {x : Half} (hx : x.toNat ≤ 2047) : parseHoldings (be16 x ++ [0]) = some x.toNat := by
  have e : halfAt (be16 x ++ [0]) 0 = x := half_split x
  rw [parseHoldings, e]
  exact if_pos ⟨rfl, hx, rfl⟩

theorem parseStandby_fields {b : Byte} {x : Half} (hb : b ≠ 0) (hx : x ≠ 0) :
    parseStandby ([b, 0] ++ be16 x) = some (b, x.toNat) := by
  have e : halfAt ([b, 0] ++ be16 x) 2 = x := half_split x
  rw [parseStandby, e]
  exact if_pos ⟨rfl, hb, rfl, fun h => hx (BitVec.eq_of_toNat_eq h)⟩

/-- R79, R180: eight words from their bytes, behind eight bytes. -/
theorem eightWords_flatMap (a0 a1 a2 a3 a4 a5 a6 a7 : Byte) (w0 w1 w2 w3 w4 w5 w6 w7 : Word) :
    eightWords ([a0, a1, a2, a3, a4, a5, a6, a7] ++ [w0, w1, w2, w3, w4, w5, w6, w7].flatMap be32) 8 =
      [w0, w1, w2, w3, w4, w5, w6, w7] := by
  have places : List.range 8 = [0, 1, 2, 3, 4, 5, 6, 7] := rfl
  simp only [eightWords, places, List.map_cons, List.map_nil, List.flatMap_cons, List.flatMap_nil, be32,
    List.cons_append, List.nil_append, wordAt, List.getD_cons_succ, List.getD_cons_zero, word_split]

/-- R79: a WRITE's eight words follow its handle, its epoch, its mask and a reserved byte. -/
theorem parseWrite_fields (h : Half) (e : Word) (b : Byte) (w0 w1 w2 w3 w4 w5 w6 w7 : Word) :
    parseWrite (be16 h ++ be32 e ++ [b, 0] ++ [w0, w1, w2, w3, w4, w5, w6, w7].flatMap be32) =
      some { handle := h, epoch := e, mask := b, words := [w0, w1, w2, w3, w4, w5, w6, w7] } := by
  have hlen : (be16 h ++ be32 e ++ [b, 0] ++ [w0, w1, w2, w3, w4, w5, w6, w7].flatMap be32).length = 40 := rfl
  have hh (l : List Byte) : halfAt (be16 h ++ be32 e ++ [b, 0] ++ l) 0 = h := half_split h
  have he (l : List Byte) : wordAt (be16 h ++ be32 e ++ [b, 0] ++ l) 2 = e := word_split e
  have hw : eightWords (be16 h ++ be32 e ++ [b, 0] ++ [w0, w1, w2, w3, w4, w5, w6, w7].flatMap be32) 8 =
      [w0, w1, w2, w3, w4, w5, w6, w7] := eightWords_flatMap ..
  rw [parseWrite, if_pos ⟨hlen, rfl⟩, hh, he, hw]
  rfl

/-- Settles O10: one lemma for each request's body, a field from its bytes by the two splits of a word. -/
theorem requestFieldsStandWhereTableSeventyThreePutsThem :
    Obligations.RequestFieldsStandWhereTableSeventyThreePutsThem := by
  unfold Obligations.RequestFieldsStandWhereTableSeventyThreePutsThem
  intro h x y e b key pad h1 h2
  exact ⟨fun m => parseClaim_fields h1 h2 m x y, parseUpgrade_fields h x y, parseHandle_field h, parseRenew_fields h x,
    fun hb => parseRenewSet_fields hb x, parseLookup_fields h1 h2,
    fun start count hs hc hc' => parseRead_fields h1 h2 hs hc hc', parseWrite_fields h e b,
    parseHoldings_fields, parseStandby_fields⟩

end Sys2Proof.Machine
end

section
/-! The agent ports (R145 to R164): the transaction of a port in each of its cases, what its bytes are bit by bit, and
the responses that the port makes. -/

namespace Sys2Proof.Machine

/-! ### Commands that are a transaction with a request in it -/

/-- R148: the commands that carry a request's bytes: the sixteen requests, BAD_REQUEST and BAD_FRAME. -/
theorem carries_cases {c : Instr} {n : Agent} {start : TransactionStart} {total : Nat}
    (h : c.carries = some (n, start, total)) :
    (∃ (k : Request) (t : Transfer) (body : List Byte), c = requestCommand k n t body ∧ start = t.start ∧
      total = requestLength body t.extra) ∨
    (∃ (t : Transfer) (code : Byte) (body : List Byte), c = .badRequest n t code body ∧ start = t.start ∧
      total = requestLength body t.extra) ∨
    ∃ bytes : List Byte, c = .badFrame n start bytes ∧ total = bytes.length := by
  have request (k : Request) (m : Agent) (t : Transfer) (body : List Byte)
      (hx : some (m, t.start, requestLength body t.extra) = some (n, start, total)) :
      ∃ (k' : Request) (t' : Transfer) (body' : List Byte), requestCommand k m t body = requestCommand k' n t' body' ∧
        start = t'.start ∧ total = requestLength body' t'.extra := by
    cases hx
    exact ⟨k, t, body, rfl, rfl, rfl⟩
  cases c
  case join m t b => exact .inl (request .join m t b h)
  case leave m t b => exact .inl (request .leave m t b h)
  case claim m t b => exact .inl (request .claim m t b h)
  case upgrade m t b => exact .inl (request .upgrade m t b h)
  case downgrade m t b => exact .inl (request .downgrade m t b h)
  case renew m t b => exact .inl (request .renew m t b h)
  case renewSet m t b => exact .inl (request .renewSet m t b h)
  case release m t b => exact .inl (request .release m t b h)
  case lookup m t b => exact .inl (request .lookup m t b h)
  case read m t b => exact .inl (request .read m t b h)
  case write m t b => exact .inl (request .write m t b h)
  case holdings m t b => exact .inl (request .holdings m t b h)
  case notices m t b => exact .inl (request .notices m t b h)
  case time m t b => exact .inl (request .time m t b h)
  case standby m t b => exact .inl (request .standby m t b h)
  case wake m t b => exact .inl (request .wake m t b h)
  case badRequest m t code b =>
    cases h
    exact .inr (.inl ⟨t, code, b, rfl, rfl, rfl⟩)
  case badFrame m st bytes =>
    cases h
    exact .inr (.inr ⟨bytes, rfl, rfl⟩)
  all_goals cases h

/-- Such a command is a transaction of its port, whatever the port then does with the bytes in. -/
theorem exec_carries {c : Instr} {n : Agent} {start : TransactionStart} {total : Nat} {s : State}
    (hq : s.quiet = true) (h : c.carries = some (n, start, total)) :
    ∃ take : State → State, exec c s = .next (s.transact n start total true take) := by
  obtain ⟨k, t, body, rfl, rfl, rfl⟩ | ⟨t, code, body, rfl, rfl, rfl⟩ | ⟨bytes, rfl, rfl⟩ := carries_cases h
  · refine ⟨fun u => u.accept k n (requestRule k n body), ?_⟩
    rw [exec_requestCommand, State.request, State.settleFor_of_quiet hq]
    rfl
  · refine ⟨fun u => u.answer n (.refused .badRequest), ?_⟩
    show execBadRequest n t code body s = _
    rw [execBadRequest, State.settle_of_quiet hq]
    rfl
  · refine ⟨fun u => u.answer n (.refused .badFrame), ?_⟩
    show execBadFrame n start bytes s = _
    rw [execBadFrame, State.settle_of_quiet hq]

theorem exec_fetchOnlyTransaction {s : State} (hq : s.quiet = true) (n : Agent) (start : TransactionStart)
    (total : Nat) : exec (.fetchOnlyTransaction n start total) s = .next (s.transact n start total false id) := by
  show execFetchOnlyTransaction n start total s = _
  rw [execFetchOnlyTransaction, State.settle_of_quiet hq]

/-! ### The transaction by its cases -/

section
variable {s : State} {n : Agent} {start : TransactionStart} {total : Nat} {isRequest : Bool} {take : State → State}

/-- R163: while a reset is held a transaction begun after it shifts filler and does nothing else. -/
theorem transact_held (hh : s.held = true) (hs : start = .atPresent ∨ start = .whileWorking) :
    s.transact n start total isRequest take =
      s.setPort n { s.port n with sdo := List.replicate total 0x00, cut := none } := by
  unfold State.transact
  rw [hh]
  obtain rfl | rfl := hs <;> rfl

/-- R164: a transaction begun before a reset shifts what was cut short and does nothing else. -/
theorem transact_cut (working : Bool) (bits : Nat) :
    s.transact n (.beforeReset working bits) total isRequest take = s.setPort n { s.port n with
      sdo := cutAfter bits ((s.port n).wasShifting working total), cut := none } := by
  unfold State.transact
  cases s.held <;> rfl

/-- R149, R150: a port that works, a transaction begun while it did, and one too short for the waiting response. -/
theorem drops_iff : s.drops n start total = true ↔ s.held = false ∧
    ((start = .atPresent ∧ ∃ r, (s.port n).state = .working r) ∨
      (start = .atPresent ∧ ∃ r, (s.port n).state = .ready r ∧ total < r.frame.length) ∨
      (start = .whileWorking ∧ (s.port n).state ≠ .idle)) := by
  unfold State.drops
  rw [Bool.and_eq_true, Bool.not_eq_true']
  cases start <;> cases (s.port n).state <;> simp

/-- R149, R150: the bytes in of a transaction that the port drops reach no rule; its bytes out stand as they are. -/
theorem transact_drops (h : s.drops n start total = true) : s.transact n start total isRequest take =
    (s.shifted n ((s.port n).shifts false start total)).dropped n isRequest := by
  obtain ⟨hh, ⟨rfl, r, hp⟩ | ⟨rfl, r, hp, hl⟩ | ⟨rfl, hi⟩⟩ := drops_iff.1 h
  · unfold State.transact
    rw [hh, hp]
    rfl
  · unfold State.transact
    rw [hh, hp]
    exact if_neg (Nat.not_le.2 hl)
  · unfold State.transact
    rw [hh]
    cases hp : (s.port n).state with
    | idle => exact absurd hp hi
    | working r => rfl
    | ready r => rfl

/-- A request's bytes that are dropped set OVERRUN; the bytes of a fetch-only transaction do not. -/
theorem shifted_dropped (bytes : List Byte) : (s.shifted n bytes).dropped n isRequest = s.setPort n
    { s.port n with overrun := isRequest || (s.port n).overrun, sdo := bytes, cut := none } := by
  cases isRequest with
  | false => rfl
  | true => simp only [State.dropped, State.shifted, if_true, State.setPort_port_same, State.setPort_setPort,
      Bool.true_or]

end

section
variable {s : State} {n : Agent} {start : TransactionStart} {total : Nat} {bytes : List Byte}
  (hq : s.quiet = true) (hd : s.drops n start total = true) (hb : (s.port n).shifts false start total = bytes)
include hq hd hb

/-- R149, R150, R152: a dropped request. -/
theorem exec_dropped {c : Instr} (hc : c.carries = some (n, start, total) ∨ c = .requestDropped n start total) :
    exec c s = .next (s.setPort n { s.port n with overrun := true, sdo := bytes, cut := none }) := by
  obtain hc | rfl := hc
  · obtain ⟨take, he⟩ := exec_carries hq hc
    rw [he, transact_drops hd, shifted_dropped, hb, Bool.true_or]
  · show execRequestDropped n start total s = _
    rw [execRequestDropped, State.settle_of_quiet hq, if_pos hd, transact_drops hd, shifted_dropped, hb, Bool.true_or]

/-- R149, R150: a fetch-only transaction that collects nothing. -/
theorem exec_fetchOnly_dropped : exec (.fetchOnlyTransaction n start total) s =
    .next (s.setPort n { s.port n with sdo := bytes, cut := none }) := by
  rw [exec_fetchOnlyTransaction hq, transact_drops hd, shifted_dropped, hb, Bool.false_or]

end

/-! ### What is shifted out -/

theorem shifts_working {p : Port} {start : TransactionStart} (h : (start = .atPresent ∧ ∃ r, p.state = .working r) ∨
    start = .whileWorking) (total : Nat) : p.shifts false start total = List.replicate total 0xFF := by
  obtain ⟨rfl, r, hr⟩ | rfl := h
  · show p.state.shifts total = _
    rw [hr, PortState.shifts]
  · rfl

/-- R146, R150: a transaction too short for the response shifts out its beginning. -/
theorem shifts_ready_short {r : Response} {total : Nat} (h : total ≤ r.frame.length) :
    (PortState.ready r).shifts total = r.frame.take total := List.take_append_of_le_length h

/-- R146, R150: a transaction with room for the response shifts it out whole, with filler behind it. -/
theorem shifts_ready_whole {r : Response} {total : Nat} (h : r.frame.length ≤ total) :
    (PortState.ready r).shifts total = r.frame ++ List.replicate (total - r.frame.length) 0x00 := by
  rw [PortState.shifts, List.take_append, List.take_of_length_le h, List.take_replicate, Nat.min_eq_left (by omega)]

theorem shifts_length (p : PortState) (total : Nat) : (p.shifts total).length = total := by
  cases p <;> simp [PortState.shifts]

theorem wasShifting_length (p : Port) (working : Bool) (total : Nat) :
    (p.wasShifting working total).length = total := by
  unfold Port.wasShifting
  split
  · exact List.length_replicate
  · exact shifts_length _ _
  · exact List.length_replicate

theorem driven_of_shifts {s : State} {n : Agent} {start : TransactionStart} {b : Bool} {i : Nat}
    (h : bitOf ((s.port n).shifts s.held start (i / 8 + 1)) i = b) : s.sdoLine n start false i = .driven b :=
  congrArg Line.driven h

theorem bit_lt_room (i : Nat) : i < 8 * (i / 8 + 1) := by omega

/-- Settles O11: the port in WORKING drops, the held part shifts filler, and a cut transaction ends in zeros. -/
theorem transactionsBegunInWorkingAreDropped : Obligations.TransactionsBegunInWorkingAreDropped := by
  unfold Obligations.TransactionsBegunInWorkingAreDropped
  intro bit was
  refine ⟨fun s n start total hq hh hw => ?_, fun s n start total hq hh hs => ?_, fun s n working bits total hq => ?_⟩
  · have hd : s.drops n start total = true := drops_iff.2 ⟨hh, hw.imp_right Or.inr⟩
    have hshift := shifts_working (p := s.port n) (hw.imp_right And.left)
    refine ⟨fun c hc => exec_dropped hq hd (hshift total) hc, exec_fetchOnly_dropped hq hd (hshift total),
      fun i => driven_of_shifts ?_⟩
    rw [hh, hshift]
    exact bitOf_replicate_ones (bit_lt_room i)
  · refine ⟨fun c hc => ?_, fun i => driven_of_shifts ?_⟩
    · obtain hc | rfl := hc
      · obtain ⟨take, he⟩ := exec_carries hq hc
        rw [he, transact_held hh hs]
      · rw [exec_fetchOnlyTransaction hq, transact_held hh hs]
    · rw [hh]
      obtain rfl | rfl := hs <;> exact bitOf_replicate_zero _ i
  · have hwas : ∀ k i, i < 8 * k → bitOf ((s.port n).wasShifting working k) i = was (s.port n) working i := by
      intro k i hi
      simp only [Port.wasShifting, was]
      cases (s.port n).cut with
      | none => exact bitOf_replicate_zero k i
      | some q =>
        cases q with
        | idle => cases working <;> exact bitOf_replicate_zero k i
        | working r => cases working <;> exact bitOf_replicate_ones hi
        | ready r =>
          cases working with
          | false => exact bitOf_shifts_ready hi
          | true => exact bitOf_replicate_ones hi
    have hcut : ∀ k i, i < 8 * k → bitOf (cutAfter bits ((s.port n).wasShifting working k)) i =
        (decide (i < bits) && was (s.port n) working i) := by
      intro k i hi
      rw [cutAfter_bit, hwas k i hi]
    refine ⟨⟨cutAfter bits ((s.port n).wasShifting working total), ?_, hcut total, fun c hc => ?_⟩,
      fun i => driven_of_shifts (hcut _ i (bit_lt_room i))⟩
    · rw [cutAfter_length, wasShifting_length]
    · obtain hc | rfl := hc
      · obtain ⟨take, he⟩ := exec_carries hq hc
        rw [he, transact_cut]
      · rw [exec_fetchOnlyTransaction hq, transact_cut]

/-! ### The open port -/

/-- R148, R150: the port takes a transaction when it is IDLE, or READY with room for the response. -/
theorem portOpen_iff {s : State} {n : Agent} {total : Nat} : s.portOpen n total = true ↔ s.held = false ∧
    ((s.port n).state = .idle ∨ ∃ r : Response, (s.port n).state = .ready r ∧ r.frame.length ≤ total) := by
  rw [State.portOpen, Bool.and_eq_true, Bool.not_eq_true']
  cases (s.port n).state <;> simp

section
variable {s : State} {n : Agent} {total : Nat}

theorem collected_idle (h : (s.port n).state = .idle) : s.collected n total =
    s.setPort n { s.port n with state := .idle, sdo := List.replicate total 0x00, cut := none } := by
  rw [State.collected, h]
  rfl

theorem collected_ready {r : Response} (h : (s.port n).state = .ready r) (hr : r.frame.length ≤ total) :
    s.collected n total = s.setPort n { s.port n with
      state := .idle, sdo := r.frame ++ List.replicate (total - r.frame.length) 0x00, cut := none } := by
  rw [State.collected, h, shifts_ready_whole hr]

theorem exec_fetchOnly_open (hq : s.quiet = true) (h : s.portOpen n total = true) :
    exec (.fetchOnlyTransaction n .atPresent total) s = .next (s.collected n total) := by
  rw [exec_fetchOnlyTransaction hq, State.transact_open h, id]

end

/-- Settles O12: the open port collects, the port whose response does not fit drops. -/
theorem transactionsCollectOnlyWholeResponses : Obligations.TransactionsCollectOnlyWholeResponses := by
  unfold Obligations.TransactionsCollectOnlyWholeResponses
  refine ⟨fun s n total hq hh => ⟨fun hi => ?_, fun r hr hl => ?_⟩, fun s n total r hq hh hr hl => ?_,
    fun _ _ _ _ => rfl, fun s n i hh => ⟨fun hi => driven_of_shifts ?_, fun r hr => driven_of_shifts ?_⟩⟩
  · rw [exec_fetchOnly_open hq (portOpen_iff.2 ⟨hh, .inl hi⟩), collected_idle hi, ← hi]
  · rw [exec_fetchOnly_open hq (portOpen_iff.2 ⟨hh, .inr ⟨r, hr, hl⟩⟩), collected_ready hr hl]
  · have hd : s.drops n .atPresent total = true := drops_iff.2 ⟨hh, .inr (.inl ⟨rfl, r, hr, hl⟩)⟩
    have hb : (s.port n).shifts false .atPresent total = r.frame.take total := by
      show (s.port n).state.shifts total = _
      rw [hr, shifts_ready_short hl.le]
    exact ⟨fun c hc => exec_dropped hq hd hb hc, exec_fetchOnly_dropped hq hd hb⟩
  · rw [hh]
    show bitOf ((s.port n).state.shifts _) i = false
    rw [hi]
    exact bitOf_replicate_zero _ i
  · rw [hh]
    show bitOf ((s.port n).state.shifts _) i = _
    rw [hr]
    exact bitOf_shifts_ready (bit_lt_room i)

/-! ### Bytes that are no request, and the making of responses -/

theorem exec_badFrame_open {s : State} {n : Agent} {bytes : List Byte} (hq : s.quiet = true)
    (h : s.portOpen n bytes.length = true) : exec (.badFrame n .atPresent bytes) s =
      .next ((s.collected n bytes.length).answer n (.refused .badFrame)) := by
  show execBadFrame n .atPresent bytes s = _
  rw [execBadFrame, State.settle_of_quiet hq, State.transact_open h]

theorem hears_iff {s : State} {n : Agent} {body : List Byte} {extra : Nat} :
    s.hears n body extra = true ↔ s.quiet = true ∧ s.portOpen n (3 + body.length + extra) = true := by
  rw [State.hears, Bool.and_eq_true]
  rfl

theorem serves_iff {s : State} {n : Agent} {body : List Byte} {extra : Nat} : s.serves n body extra = true ↔
    s.hears n body extra = true ∧ s.table = .ready ∧ (s.session n).state = .active := by
  rw [State.serves, Bool.and_eq_true, Bool.and_eq_true, beq_iff_eq, beq_iff_eq, and_assoc]

theorem exec_badRequest_open {s : State} {n : Agent} {body : List Byte} {extra : Nat}
    (h : s.hears n body extra = true) (code : Byte) : exec (.badRequest n (Transfer.now extra) code body) s =
      .next ((s.asked n body extra).answer n (.refused .badRequest)) := by
  obtain ⟨hq, ho⟩ := hears_iff.1 h
  show execBadRequest n (Transfer.now extra) code body s = _
  rw [execBadRequest, State.settle_of_quiet hq]
  exact congrArg _ (State.transact_open ho true _)

/-- Settles O13: both answers are given in the collected state; what collects is the open port. -/
theorem frameErrorsAndUnknownCodesAreAnswered : Obligations.FrameErrorsAndUnknownCodesAreAnswered := by
  unfold Obligations.FrameErrorsAndUnknownCodesAreAnswered
  intro s n
  exact ⟨fun bytes hq ho => exec_badFrame_open hq ho, fun extra code body h => exec_badRequest_open h code,
    fun body extra => ⟨rfl, hears_iff, serves_iff⟩,
    fun total => ⟨portOpen_iff, collected_idle, fun r hr hl => collected_ready hr hl⟩⟩

theorem exec_responseMade {s : State} (hq : s.quiet = true) (n : Agent) :
    exec (.responseMade n) s = .next (s.makeResponse n) := by
  show execResponseMade n s = _
  rw [execResponseMade, State.settle_of_quiet hq]

/-- R114: the session byte of a response header. -/
theorem session_low (a : Session) : a.low = (match a.state with
    | .active | .standby => BitVec.ofNat 8 a.number.toNat
    | .unjoined | .evicted => 0) := by
  have hlow : a.number.extractLsb' 0 8 = BitVec.ofNat 8 a.number.toNat := by
    apply BitVec.eq_of_toNat_eq
    simp
  rw [Session.low, hlow]
  cases a.state <;> rfl

theorem pendingCount_pos {s : State} {n : Agent} : 0 < s.pendingCount n ↔ s.cells.get n ≠ [] := List.length_pos_iff

/-- R161: the three things that assert ATTN_n. -/
theorem attn_iff {s : State} {n : Agent} : s.attn n = true ↔
    (∃ r, (s.port n).state = .ready r) ∨ s.cells.get n ≠ [] ∨ s.monitor.agentFlags.get n = true := by
  have hready : (s.ports.get n).state.isReady = true ↔ ∃ r, (s.port n).state = .ready r := by
    rw [State.port]
    cases (s.ports.get n).state <;> simp [PortState.isReady]
  rw [State.attn, Bool.or_eq_true, Bool.or_eq_true, decide_eq_true_eq, pendingCount_pos, hready, or_assoc]

/-- Settles O14: by the port's state, and the header field by field. -/
theorem makingAResponseReportsOverrun : Obligations.MakingAResponseReportsOverrun := by
  unfold Obligations.MakingAResponseReportsOverrun
  intro s n
  refine ⟨fun hq => ⟨fun r hr => ?_, fun hr => ?_⟩, fun a => ?_, attn_iff⟩
  · rw [exec_responseMade hq, State.makeResponse, hr]
  · rw [exec_responseMade hq, State.makeResponse]
    cases hp : (s.port n).state with
    | idle => rfl
    | working r => exact absurd hp (hr r)
    | ready r => rfl
  · intro header
    have hh : s.respond n a = header := by
      have hlow := session_low (s.sessions.get n)
      simp only [State.respond, hlow, pendingCount_pos]
      rfl
    rw [State.answer, hh]

end Sys2Proof.Machine
end

section
/-! What is decided before a request's rule (R22, R107, R156 checks 3 to 5, R180): the table state, the agent's state
and the fields of the body. -/

namespace Sys2Proof.Machine

/-! ### The table state and the agent's state -/

section
variable {s : State} {n : Agent} {body : List Byte} {extra : Nat} {k : Request}

/-- A request that is heard goes to the acceptance checks. -/
theorem exec_request_hears (h : s.hears n body extra = true) (k : Request) :
    exec (requestCommand k n (Transfer.now extra) body) s =
      .next ((s.asked n body extra).accept k n (requestRule k n body)) := by
  rw [exec_requestCommand, State.request_hears h]

theorem exec_request_notReady (h : s.hears n body extra = true) (ht : s.table = .initializing) (hk : k ≠ .time) :
    exec (requestCommand k n (Transfer.now extra) body) s =
      .next ((s.asked n body extra).answer n (.refused .notReady)) := by
  have ht' : (s.asked n body extra).table = .initializing := ht
  rw [exec_request_hears h, State.accept, if_pos ⟨ht', hk⟩]

theorem exec_request_notAdmitted (h : s.hears n body extra = true) (ht : s.table = .ready) {c : RefusalCode}
    (ha : admission k (s.session n).state = some c) : exec (requestCommand k n (Transfer.now extra) body) s =
      .next ((s.asked n body extra).answer n (.refused c)) := by
  have ha' : admission k ((s.asked n body extra).session n).state = some c := ha
  have ht' : ¬ ((s.asked n body extra).table = .initializing ∧ k ≠ .time) := by
    rintro ⟨hi, _⟩
    exact TableState.noConfusion (ht.symm.trans hi)
  rw [exec_request_hears h, State.accept, if_neg ht', ha']

/-- A request whose rule refuses, once the checks before the rule have passed. -/
theorem exec_request_refused (h : s.hears n body extra = true) (ht : s.table = .ready ∨ k = .time)
    (ha : admission k (s.session n).state = none) {c : RefusalCode}
    (hr : ∀ u, requestRule k n body u = (u, .refused c)) : exec (requestCommand k n (Transfer.now extra) body) s =
      .next ((s.asked n body extra).answer n (.refused c)) := by
  have ha' : admission k ((s.asked n body extra).session n).state = none := ha
  have ht' : ¬ ((s.asked n body extra).table = .initializing ∧ k ≠ .time) := by
    rintro ⟨hi, hk⟩
    exact TableState.noConfusion ((ht.resolve_right hk).symm.trans hi)
  rw [exec_request_hears h, State.accept, if_neg ht', ha', hr]

end

section
variable {k : Request} (hj : k ≠ .join) (ht : k ≠ .time)
include hj ht

theorem admission_unjoined : admission k .unjoined = some .notJoined := by
  cases k <;> first | rfl | contradiction

theorem admission_evicted : admission k .evicted = some .evicted := by
  cases k <;> first | rfl | contradiction

theorem admission_standby (hl : k ≠ .leave) (hn : k ≠ .notices) (hw : k ≠ .wake) :
    admission k .standby = some .inStandby := by
  cases k <;> first | rfl | contradiction

end

/-- Settles O15: the table state first, then the agent's state by Table 37. -/
theorem requestsAreRefusedBeforeTheirRule : Obligations.RequestsAreRefusedBeforeTheirRule := by
  unfold Obligations.RequestsAreRefusedBeforeTheirRule
  intro k s n body extra h
  refine ⟨fun ht hk => exec_request_notReady h ht hk, fun ht hj hk => ⟨fun hs => ?_, fun hs => ?_, ?_⟩⟩
  · exact exec_request_notAdmitted h ht (hs ▸ admission_unjoined hj hk)
  · exact exec_request_notAdmitted h ht (hs ▸ admission_evicted hj hk)
  · intro hs hl hn hw
    exact exec_request_notAdmitted h ht (hs ▸ admission_standby hj hk hl hn hw)

/-! ### Wrong fields -/

/-- R180: the fields of a request's body are wrong. -/
def WrongFields (body : List Byte) : Request → Prop
  | .join | .leave | .notices | .time | .wake => body ≠ []
  | .claim => parseClaim body = none
  | .upgrade => parseUpgrade body = none
  | .downgrade | .release => parseHandle body = none
  | .renew => parseRenew body = none
  | .renewSet => parseRenewSet body = none
  | .lookup => parseLookup body = none
  | .read => parseRead body = none
  | .write => parseWrite body = none
  | .holdings => parseHoldings body = none
  | .standby => parseStandby body = none

/-- R156 check 5: every rule answers BAD_FIELD first, and changes nothing. -/
theorem requestRule_badField {k : Request} {body : List Byte} (h : WrongFields body k) (n : Agent) (u : State) :
    requestRule k n body u = (u, .refused .badField) := by
  cases k with
  | join | leave | notices | time | wake => exact if_pos h
  | claim =>
    show claimRule n body u = _
    rw [claimRule, show parseClaim body = none from h]
  | upgrade =>
    show upgradeRule n body u = _
    rw [upgradeRule, show parseUpgrade body = none from h]
  | downgrade =>
    show downgradeRule n body u = _
    rw [downgradeRule, show parseHandle body = none from h]
  | release =>
    show releaseRule n body u = _
    rw [releaseRule, show parseHandle body = none from h]
  | renew => exact renewRule_badField h
  | renewSet => exact renewSetRule_badField h
  | lookup =>
    show lookupRule n body u = _
    rw [lookupRule, show parseLookup body = none from h]
  | read =>
    show readRule n body u = _
    rw [readRule, show parseRead body = none from h]
  | write => exact writeRule_badField h
  | holdings =>
    show holdingsRule n body u = _
    rw [holdingsRule, show parseHoldings body = none from h]
  | standby =>
    show standbyRule n body u = _
    rw [standbyRule, show parseStandby body = none from h]

/-! ### When a body's fields are wrong (Table 73) -/

theorem byte_eq_zero {b : Byte} : b = 0 ↔ b.toNat = 0 := (BitVec.toNat_inj (y := 0)).symm

theorem keyLengthOk_byte {b : Byte} : keyLengthOk b.toNat = true ↔ ¬ (b = 0 ∨ 24 < b.toNat) := by
  rw [keyLengthOk, Bool.and_eq_true, decide_eq_true_eq, decide_eq_true_eq, byte_eq_zero]
  omega

theorem modeOfCode_none {b : Byte} : Mode.ofCode b = none ↔ b ≠ 1 ∧ b ≠ 2 := by
  unfold Mode.ofCode
  split
  · rename_i h1
    exact ⟨nofun, fun h => absurd h1 h.1⟩
  · rename_i h1
    split
    · rename_i h2
      exact ⟨nofun, fun h => absurd h2 h.2⟩
    · rename_i h2
      exact ⟨fun _ => ⟨h1, h2⟩, fun _ => rfl⟩

/-- A parser that takes a body on a condition refuses it on the condition's negation. -/
theorem ite_some_eq_none_iff {α : Type} {p : Prop} [Decidable p] {a : α} :
    (if p then some a else none) = none ↔ ¬ p := by
  split <;> simp_all

section
variable {b : List Byte}

theorem parseClaim_none : parseClaim b = none ↔ b.length ≠ 31 ∨ (b.getD 0 0 ≠ 1 ∧ b.getD 0 0 ≠ 2) ∨ b.getD 1 0 ≠ 0 ∨
    (b.getD 6 0 = 0 ∨ 24 < (b.getD 6 0).toNat) := by
  unfold parseClaim
  rw [← modeOfCode_none]
  cases Mode.ofCode (b.getD 0 0) with
  | none => simp
  | some m =>
    simp only [ite_some_eq_none_iff, keyLengthOk_byte, reduceCtorEq, false_or]
    tauto

theorem parseUpgrade_none : parseUpgrade b = none ↔ b.length ≠ 7 ∨ b.getD 6 0 ≠ 0 := by
  rw [parseUpgrade, ite_some_eq_none_iff, not_and_or]

theorem parseHandle_none : parseHandle b = none ↔ b.length ≠ 2 := by
  rw [parseHandle, ite_some_eq_none_iff]

theorem parseRenew_none : parseRenew b = none ↔ b.length ≠ 5 ∨ b.getD 4 0 ≠ 0 := by
  rw [parseRenew, ite_some_eq_none_iff, not_and_or]

theorem parseRenewSet_none : parseRenewSet b = none ↔ b.length ≠ 4 ∨ b.getD 0 0 = 0 ∨ b.getD 1 0 ≠ 0 := by
  rw [parseRenewSet, ite_some_eq_none_iff, not_and_or, not_and_or, not_not]

theorem parseLookup_none : parseLookup b = none ↔
    b.length ≠ 26 ∨ b.getD 0 0 ≠ 0 ∨ (b.getD 1 0 = 0 ∨ 24 < (b.getD 1 0).toNat) := by
  simp only [parseLookup, ite_some_eq_none_iff, keyLengthOk_byte]
  tauto

theorem parseRead_none : parseRead b = none ↔ b.length ≠ 28 ∨ 7 < (b.getD 0 0).toNat ∨ b.getD 1 0 = 0 ∨
    8 < (b.getD 1 0).toNat ∨ b.getD 2 0 ≠ 0 ∨ (b.getD 3 0 = 0 ∨ 24 < (b.getD 3 0).toNat) := by
  have hz : b.getD 1 0 = 0 ↔ ¬ 1 ≤ (b.getD 1 0).toNat := by
    rw [byte_eq_zero]
    omega
  simp only [parseRead, ite_some_eq_none_iff, keyLengthOk_byte, hz, ← Nat.not_le]
  tauto

theorem parseWrite_none : parseWrite b = none ↔ b.length ≠ 40 ∨ b.getD 7 0 ≠ 0 := by
  rw [parseWrite, ite_some_eq_none_iff, not_and_or]

theorem parseHoldings_none : parseHoldings b = none ↔
    b.length ≠ 3 ∨ 2047 < 256 * (b.getD 0 0).toNat + (b.getD 1 0).toNat ∨ b.getD 2 0 ≠ 0 := by
  simp only [parseHoldings, ite_some_eq_none_iff, halfAt_toNat, not_and_or, Nat.not_le, Nat.zero_add, ne_eq]

theorem parseStandby_none : parseStandby b = none ↔
    b.length ≠ 4 ∨ b.getD 0 0 = 0 ∨ b.getD 1 0 ≠ 0 ∨ (b.getD 2 0 = 0 ∧ b.getD 3 0 = 0) := by
  have hz : (halfAt b 2).toNat = 0 ↔ b.getD 2 0 = 0 ∧ b.getD 3 0 = 0 := by
    rw [halfAt_toNat, byte_eq_zero, byte_eq_zero, show 2 + 1 = 3 from rfl]
    omega
  simp only [parseStandby, ite_some_eq_none_iff, ne_eq, hz]
  tauto

end

/-- Settles O16: each rule's first answer, behind the checks that let the request in; and Table 73 body by body. -/
theorem wrongFieldsAreAnsweredBadField : Obligations.WrongFieldsAreAnsweredBadField := by
  unfold Obligations.WrongFieldsAreAnsweredBadField
  refine ⟨fun k s n body extra hs hw => ?_, fun s n body extra k h hb hk => ?_, fun b => ?_⟩
  · obtain ⟨h, ht, ha⟩ := serves_iff.1 hs
    have hwrong : WrongFields body k := by cases k <;> exact hw
    refine exec_request_refused h (.inl ht) ?_ (requestRule_badField hwrong n)
    rw [ha]
    cases k <;> rfl
  · obtain rfl | ⟨rfl, ht⟩ | ⟨hk, ht, ha⟩ := hk
    · exact exec_request_refused h (.inr rfl) (by cases (s.session n).state <;> rfl)
        (requestRule_badField (show WrongFields body .time from hb) n)
    · exact exec_request_refused h (.inl ht) (by cases (s.session n).state <;> rfl)
        (requestRule_badField (show WrongFields body .join from hb) n)
    · have hadmit : admission k (s.session n).state = none := by
        obtain ha | ha := ha <;> rw [ha] <;> obtain rfl | rfl | rfl := hk <;> rfl
      refine exec_request_refused h (.inl ht) hadmit (requestRule_badField ?_ n)
      obtain rfl | rfl | rfl := hk <;> exact hb
  · exact ⟨parseClaim_none, parseUpgrade_none, parseHandle_none, parseRenew_none, parseRenewSet_none, parseLookup_none,
      parseRead_none, parseWrite_none, parseHoldings_none, parseStandby_none⟩

end Sys2Proof.Machine
end

section
/-! The agent requests that report: LOOKUP (R19, R7, Table 10), HOLDINGS (R112), NOTICES (R91, R92) and TIME (R143). -/

namespace Sys2Proof.Machine

/-! ### From a rule's answer to the command's -/

section
variable {s v : State} {a : Answer} {n : Agent} {body : List Byte} {extra : Nat} {k : Request}
  (hr : requestRule k n body (s.asked n body extra) = (v, a))
include hr

/-- The request of an ACTIVE agent. -/
theorem exec_request_of_rule (hs : s.serves n body extra = true) :
    exec (requestCommand k n (Transfer.now extra) body) s = .next (v.answer n a) := by
  rw [exec_requestCommand, State.request_of_rule hs k hr]

/-- A request that the agent's state admits, with the table READY. -/
theorem exec_request_of_admitted (hs : s.hears n body extra = true) (ht : s.table = .ready)
    (ha : admission k (s.session n).state = none) :
    exec (requestCommand k n (Transfer.now extra) body) s = .next (v.answer n a) := by
  rw [exec_requestCommand, State.request_admitted hs ht ha, hr]

end

/-! ### LOOKUP (R19, Tables 9 and 10) -/

section
variable {u : State} {n : Agent} {body key : List Byte} {slot : Nat} {r : Record}

theorem lookupRule_present (hp : parseLookup body = some key) (hk : u.findKey key = some (slot, r)) :
    lookupRule n body u = (u, .okLookup (u.lookupPresent slot r n)) := by
  simp only [lookupRule, hp, hk]

theorem lookupRule_absent (hp : parseLookup body = some key) (hk : u.findKey key = none) :
    lookupRule n body u = (u, .okLookup (u.lookupAbsent key)) := by
  simp only [lookupRule, hp, hk]

end

section
variable {r : Record}

theorem reported_shared_cons {c : Claim} {rest : List Claim} (hn : r.holders ≠ [])
    (h : ∀ x ∈ r.holders, x.mode = .shared) (hq : r.queue = c :: rest) :
    r.reported = if c.kind = .shared then .shared else .draining := by
  rw [reported_shared hn h, hq]
  exact if_congr beq_iff_eq rfl rfl

/-- Table 10: the standings of a holder. -/
theorem standing_of_mode {n : Agent} {h : Holder} (e : r.holder n = some h) :
    (h.mode = .exclusive → r.standing n = .exclusive) ∧
    (h.mode = .shared → r.waits n = false → r.standing n = .shared) ∧
    (h.mode = .shared → r.waits n = true → r.standing n = .upgrading) := by
  have hs := standing_holder e
  refine ⟨fun hm => ?_, fun hm hw => ?_, fun hm hw => ?_⟩ <;> rw [hs, hm]
  · exact if_neg (Bool.not_eq_true _ ▸ hw)
  · exact if_pos hw

end

/-- Settles O18: the two answers, then Tables 9 and 10 from the shared look-ups. -/
theorem lookupReportsAndChangesNothing : Obligations.LookupReportsAndChangesNothing := by
  unfold Obligations.LookupReportsAndChangesNothing
  refine ⟨fun s n body key extra hs hp => ⟨fun slot r hk => ?_, fun hk => ?_⟩, fun r n => ?_⟩
  · obtain ⟨-, rfl, -⟩ := findKey_record hk
    exact exec_request_of_rule (k := .lookup) (lookupRule_present hp ((s.asked_findKey n body extra r.key).trans hk)) hs
  · exact exec_request_of_rule (k := .lookup) (lookupRule_absent hp ((s.asked_findKey n body extra key).trans hk)) hs
  · refine ⟨reported_idle, reported_exclusive, fun hn hm => ⟨fun hq => ?_, fun c rest hq =>
      ⟨fun hc => ?_, fun hc => ?_⟩⟩,
      fun h e => ⟨(holder_some e).1, (holder_some e).2, standing_of_mode e⟩, holder_none_iff, fun c e => claim_some e,
      claim_none_iff, holds_iff, waits_iff, fun hh hw => ?_, fun hh hw => ?_⟩
    · rw [reported_shared hn hm, hq]
    · rw [reported_shared_cons hn hm hq, if_pos hc]
    · rw [reported_shared_cons hn hm hq, if_neg (by obtain hc | hc := hc <;> rw [hc] <;> decide)]
    · rw [standing_outsider hh, if_pos hw]
    · rw [standing_outsider hh, hw]
      rfl

/-! ### HOLDINGS (R112, Table 39) -/

/-- The records, from the cursor's slot on, in which the agent has a part. -/
def State.partsFrom (s : State) (n : Agent) (cursor : Nat) : List (Nat × Record) :=
  s.records.filter fun p => decide (cursor ≤ p.1) && p.2.hasPart n

theorem partsFrom_slots (s : State) (n : Agent) (cursor : Nat) :
    ((s.partSlots n).filter fun slot => decide (cursor ≤ slot)) = (s.partsFrom n cursor).map Prod.fst := by
  rw [State.partSlots, Sparse.keys, List.filter_map, List.filter_filter]
  rfl

theorem mem_partsFrom {s : State} {n : Agent} {cursor : Nat} {p : Nat × Record} (h : p ∈ s.partsFrom n cursor) :
    p ∈ s.records ∧ p.2.hasPart n = true := by
  obtain ⟨hm, hp⟩ := List.mem_filter.1 h
  exact ⟨hm, (Bool.and_eq_true _ _ ▸ hp).2⟩

/-- Table 39: the entry of a record in which the agent has a part. -/
theorem holding_of_part {s : State} {n : Agent} {p : Nat × Record} (h : p.2.hasPart n = true) :
    ∃ e, s.holding n p = some e ∧ e.handle = s.handle p.1 ∧
      (∀ x : Holder, p.2.holder n = some x → e.mode = x.mode.kind ∧ e.remaining = x.remaining ∧ e.epoch = x.epoch ∧
        (p.2.waits n = true → e.status = .upgrading) ∧
        (p.2.waits n = false → x.status = .running → e.status = .running)) ∧
      ∀ c : Claim, p.2.holder n = none → p.2.claim n = some c →
        e.mode = c.kind ∧ e.status = .queued ∧ e.remaining = c.wait ∧ e.epoch = none := by
  rw [Record.hasPart, Record.holds, Record.waits] at h
  rw [State.holding, Record.waits]
  cases hh : p.2.holder n with
  | some x =>
    cases hc : p.2.claim n with
    | none => exact ⟨_, rfl, rfl, fun y hy => by cases hy; exact ⟨rfl, rfl, rfl, nofun, fun _ hr => by rw [hr]⟩, nofun⟩
    | some c => exact ⟨_, rfl, rfl, fun y hy => by cases hy; exact ⟨rfl, rfl, rfl, fun _ => rfl, nofun⟩, nofun⟩
  | none =>
    cases hc : p.2.claim n with
    | none => simp [hh, hc] at h
    | some c => exact ⟨_, rfl, rfl, nofun, fun d _ hd => by cases hd; exact ⟨rfl, rfl, rfl, rfl⟩⟩

/-- Every record with a part gives one entry, so the entries' handles are the records'. -/
theorem holding_handles (s : State) (n : Agent) (l : List (Nat × Record)) (h : ∀ p ∈ l, p.2.hasPart n = true) :
    (l.filterMap (s.holding n)).map (fun e => e.handle) = l.map fun p => s.handle p.1 := by
  induction l with
  | nil => rfl
  | cons p l ih =>
    obtain ⟨e, he, hh, -⟩ := holding_of_part (s := s) (h p List.mem_cons_self)
    rw [List.filterMap_cons_some he, List.map_cons, List.map_cons, hh, ih fun q hq => h q (List.mem_cons_of_mem p hq)]

/-- R112: the answer of a HOLDINGS, with the cursor to go on from. -/
theorem holdingsRule_lists {u : State} {n : Agent} {body : List Byte} {cursor : Nat}
    (hp : parseHoldings body = some cursor) : ∃ next : Half,
      holdingsRule n body u = (u, .okHoldings next (((u.partsFrom n cursor).take 5).filterMap (u.holding n))) ∧
      ((u.partsFrom n cursor).length ≤ 5 → next = 0xFFFF) ∧
      ∀ p, 5 < (u.partsFrom n cursor).length → (u.partsFrom n cursor)[4]? = some p →
        next = BitVec.ofNat 16 (p.1 + 1) := by
  rw [holdingsRule, hp]
  refine ⟨_, rfl, fun hl => ?_, fun p hl h4 => ?_⟩
  · rw [← State.partsFrom, List.drop_eq_nil_of_le hl]
  · have hlast : ((u.partsFrom n cursor).take 5).getLast? = some p := by
      rw [List.getLast?_take, if_neg (by decide), h4]
      rfl
    obtain ⟨x, rest, hdrop⟩ := List.exists_cons_of_ne_nil (mt List.drop_eq_nil_iff.1 (Nat.not_le.2 hl))
    rw [← State.partsFrom, hdrop, hlast]

/-- Settles O20: the entries are those of the first five records at or above the cursor. -/
theorem holdingsListsTheCallersParts : Obligations.HoldingsListsTheCallersParts := by
  unfold Obligations.HoldingsListsTheCallersParts
  intro s n body extra cursor hs hp
  obtain ⟨next, hrule, hend, hmore⟩ := holdingsRule_lists (u := s.asked n body extra) (n := n) hp
  have hpart : ∀ p ∈ (s.partsFrom n cursor).take 5, p ∈ s.records ∧ p.2.hasPart n = true :=
    fun p h => mem_partsFrom (List.mem_of_mem_take h)
  rw [partsFrom_slots, List.length_map]
  refine ⟨next, ((s.partsFrom n cursor).take 5).filterMap (s.holding n), exec_request_of_rule (k := .holdings) hrule hs,
    ?_, fun e he => ?_, hend, fun slot hl h4 => ?_⟩
  · rw [holding_handles s n _ fun p h => (hpart p h).2, ← List.map_take, List.map_map]
    rfl
  · obtain ⟨p, hm, he⟩ := List.mem_filterMap.1 he
    obtain ⟨hrec, hhas⟩ := hpart p hm
    obtain ⟨e', he', hfields⟩ := holding_of_part (s := s) hhas
    cases he'.symm.trans he
    exact ⟨p, hrec, hfields⟩
  · rw [List.getElem?_map, Option.map_eq_some_iff] at h4
    obtain ⟨p, h4, rfl⟩ := h4
    exact hmore p hl h4

/-! ### NOTICES and TIME -/

theorem noticesRule_empties (n : Agent) (u : State) : noticesRule n [] u = (u.setCells n ((u.cells.get n).drop 6),
    .okNotices (decide (6 < (u.cells.get n).length)) (((u.cells.get n).take 6).map noticeEntry)) := by
  have hmore : (!((u.cells.get n).drop 6).isEmpty) = decide (6 < (u.cells.get n).length) := by
    rw [Bool.eq_iff_iff, Bool.not_eq_true', List.isEmpty_eq_false_iff, Ne, List.drop_eq_nil_iff, decide_eq_true_eq,
      Nat.not_le]
  rw [← hmore]
  exact if_neg fun h => h rfl

/-- R107: an agent that is joined may ask for its notices. -/
theorem admission_notices {st : AgentState} (h : st.joined = true) : admission .notices st = none := by
  cases st with
  | active | standby => rfl
  | unjoined | evicted => cases h

/-- Settles O21: the rule's equation, taken in ACTIVE and in STANDBY. -/
theorem noticesEmptiesTheSixLowestCells : Obligations.NoticesEmptiesTheSixLowestCells := by
  unfold Obligations.NoticesEmptiesTheSixLowestCells
  intro s n extra hs ht hj
  exact exec_request_of_admitted (k := .notices) (noticesRule_empties n _) hs ht (admission_notices hj)

theorem joined_iff {st : AgentState} : st.joined = true ↔ st = .active ∨ st = .standby := by
  cases st <;> simp [AgentState.joined]

theorem timeRule_answers (n : Agent) (u : State) : timeRule n [] u =
    (if (u.session n).state.joined = true then u.setMonitor { u.monitor with
        agentFlags := u.monitor.agentFlags.set n false } else u,
      .okTime u.monitor.timeState u.monitor.timeState.derates u.settings.derate u.monitor.good u.monitor.elapsed) := by
  rw [timeRule, if_neg (fun h => h rfl)]
  split <;> rfl

/-- R143: no check comes before TIME's rule. -/
theorem exec_time_hears {s : State} {n : Agent} {body : List Byte} {extra : Nat} (h : s.hears n body extra = true) :
    exec (.time n (Transfer.now extra) body) s = .next ((timeRule n body (s.asked n body extra)).1.answer n
      (timeRule n body (s.asked n body extra)).2) := by
  have hadmit : admission .time ((s.asked n body extra).session n).state = none := by
    cases ((s.asked n body extra).session n).state <;> rfl
  refine (exec_request_hears h .time).trans ?_
  rw [State.accept, if_neg (fun hc => hc.2 rfl), hadmit]
  rfl

theorem derates_eq (ts : TimeState) : ts.derates = (ts == .drift || ts == .holdover || ts == .freeRun) := by
  cases ts <;> rfl

/-- Settles O22: the rule's equation, with no check before it. -/
theorem timeAnswersInEveryState : Obligations.TimeAnswersInEveryState := by
  unfold Obligations.TimeAnswersInEveryState
  refine ⟨fun st => joined_iff, fun s n extra h => ?_⟩
  rw [exec_time_hears h, timeRule_answers, ← derates_eq]
  rfl

end Sys2Proof.Machine
end

section
/-! Lifetimes (R26, Table 13) and the grant check (R55 to R57): the lifetime in closed form, one grant, and what ends a
grant check. -/

namespace Sys2Proof.Machine

/-! ### Lifetimes (R26) -/

theorem clampLife_eq {st : Settings} (h : st.minLife ≤ st.maxLife) (v : Nat) :
    clampLife st v = min st.maxLife (max st.minLife v) := by
  rw [clampLife]
  split
  · omega
  · split <;> omega

/-- R26 steps 2 and 3: a lifetime before derating. -/
def beforeDerating (st : Settings) (requested : Nat) : Nat :=
  min st.maxLife (max st.minLife (if requested = 0 then st.defaultLife else requested))

section
variable {st : Settings} (h : st.minLife ≤ st.maxLife) (h1 : 1 ≤ st.minLife)
include h h1

theorem lifetime_underated {ts : TimeState} (hd : ts.derates = false) (requested : Nat) :
    lifetime st ts requested = beforeDerating st requested := by
  rw [lifetime, clampLife_eq h, hd, ← beforeDerating]
  have hpos : beforeDerating st requested ≠ 0 := by
    rw [beforeDerating]
    omega
  exact if_neg hpos

omit h1 in
theorem lifetime_derated {ts : TimeState} (hd : ts.derates = true) (requested : Nat) :
    lifetime st ts requested = max 1 (beforeDerating st requested * st.derate.eighths / 8) := by
  rw [lifetime, clampLife_eq h, hd, ← beforeDerating]
  have least : ∀ d : Nat, (if d = 0 then 1 else d) = max 1 d := by
    intro d
    split <;> omega
  exact least _

theorem lifetime_le (ts : TimeState) (requested : Nat) (h2 : st.maxLife ≤ 65535) :
    lifetime st ts requested ≤ 65535 := by
  have hle : beforeDerating st requested ≤ 65535 := le_trans (Nat.min_le_left ..) h2
  cases hd : ts.derates with
  | false => rwa [lifetime_underated h h1 hd]
  | true =>
    have he : st.derate.eighths ≤ 8 := by cases st.derate <;> decide
    have hm := Nat.mul_le_mul hle he
    rw [lifetime_derated h hd]
    omega

end

/-- Settles O23: clamping into the range, then derating by eighths with 1 as the least. -/
theorem lifetimesAreClampedAndDerated : Obligations.LifetimesAreClampedAndDerated := by
  unfold Obligations.LifetimesAreClampedAndDerated
  intro st ts requested hst
  obtain ⟨⟨hmin, hmd, hdm, hmax⟩, -⟩ := (inRange_iff st).1 hst
  have hr : st.minLife ≤ st.maxLife := hmd.trans hdm
  refine ⟨fun ht => ?_, fun ht => ?_, lifetime_pos st ts requested, lifetime_le hr hmin ts requested hmax⟩
  · exact lifetime_underated hr hmin (ht ▸ rfl) requested
  · have hd : ts.derates = true := by obtain rfl | rfl | rfl := ht <;> rfl
    exact (lifetime_derated hr hd requested).trans (by cases hderate : st.derate <;> rfl)

/-! ### Grants (R25, R31, R55 to R57) -/

section
variable {r : Record} {c : Claim}

theorem claimCompatible_shared (h : c.kind = .shared) :
    r.claimCompatible c = true ↔ ∀ x ∈ r.holders, x.mode = .shared := by
  rw [Record.claimCompatible, h]
  exact compatible_shared_iff

theorem claimCompatible_exclusive (h : c.kind = .exclusive) : r.claimCompatible c = true ↔ r.holders = [] := by
  rw [Record.claimCompatible, h]
  exact compatible_exclusive_iff

theorem claimCompatible_upgrade (h : c.kind = .upgrade) :
    r.claimCompatible c = true ↔ r.holders.map (fun x => x.agent) = [c.agent] := by
  rw [Record.claimCompatible, h]
  exact beq_iff_eq

end

/-- R29, R31: what withholds a grant. -/
theorem withheld_iff {ts : TimeState} {source : Epoch} {k : ClaimKind} : withheld ts source k.takesEpoch = true ↔
    ts = .acquiring ∨ ts = .unsafeTime ∨ (k ≠ .shared ∧ source = 0xFFFFFFFF) := by
  have hk : k.takesEpoch = true ↔ k ≠ .shared := by cases k <;> decide
  have ht : (!ts.permits) = true ↔ ts = .acquiring ∨ ts = .unsafeTime := by cases ts <;> decide
  rw [withheld, Bool.or_eq_true, Bool.and_eq_true, hk, ht, exhausted, beq_iff_eq, or_assoc]

theorem grantable_of_compatible {env : GrantEnv} {source : Epoch} {r : Record} {c : Claim}
    (hc : r.claimCompatible c = true) (hw : withheld env.timeState source c.kind.takesEpoch = false) :
    grantable env source r c = true := by
  rw [grantable, hc, hw]
  rfl

/-- R56: a first claim that conflicts or is withheld blocks its record. -/
theorem blocked_cons {r : Record} {c : Claim} {rest : List Claim} {ts : TimeState} {source : Epoch}
    (hq : r.queue = c :: rest) (h : r.claimCompatible c = false ∨ withheld ts source c.kind.takesEpoch = true) :
    r.blocked ts source = true := by
  rw [Record.blocked, hq]
  obtain h | h := h <;> simp [h]

/-- Settles O24: the run's laws, one grant for each kind of claim, and the slot's check by what is first. -/
theorem grantCheckEndsAtABlockedClaim : Obligations.GrantCheckEndsAtABlockedClaim := by
  unfold Obligations.GrantCheckEndsAtABlockedClaim
  refine ⟨fun env source r => ?_, fun env source r c rest => ⟨fun hk => ?_, fun hk => ?_, fun hk => ?_⟩,
    fun r c ts source => ⟨claimCompatible_shared, claimCompatible_exclusive, claimCompatible_upgrade, withheld_iff⟩,
    fun h holders hn ha => ⟨insertHolder_perm h holders, insertHolder_pairwise ha hn⟩,
    fun s slot => ⟨grantCheck_none, fun r hr => ⟨fun hcan hq => ?_, fun c rest hq => ⟨fun hcan hb => ?_, ?_⟩⟩⟩⟩
  · exact ⟨grantRun_blocked env _ source r le_rfl, grantRun_split env _ source r, grantRun_source_le env _ source r,
      grantRun_fixed env _ source r⟩
  · rw [grantFirst, hk]
    rfl
  · rw [grantFirst, hk]
    rfl
  · rw [grantFirst, hk]
    rfl
  · exact grantCheck_blocked ((canonical_iff s).1 hcan).records hr (blocked_nil hq _ _)
  · exact grantCheck_blocked ((canonical_iff s).1 hcan).records hr (blocked_cons hq hb)
  · intro hc hw
    exact grantCheck_grant hr hq (grantable_of_compatible hc hw)

end Sys2Proof.Machine
end

section
/-! The agent requests about leases (Chapters 2 and 3): CLAIM on an absent key (R36), the tests of UPGRADE
(R58), DOWNGRADE (R46); and the retirement of a record (R16). One equation for each case of a rule, then the orders of tests. -/

namespace Sys2Proof.Machine

/-! ### CLAIM on an absent key (R36) -/

theorem exhausted_iff {source : Epoch} : exhausted source = true ↔ source = 0xFFFFFFFF := beq_iff_eq

theorem permits_iff {ts : TimeState} :
    ts.permits = true ↔ ts = .locked ∨ ts = .drift ∨ ts = .holdover ∨ ts = .freeRun := by
  cases ts <;> simp [TimeState.permits]

/-- R31: with the time state permitting it, only an EXCLUSIVE claim at the last epoch is withheld. -/
theorem withheld_eq_false {ts : TimeState} {source : Epoch} {m : Mode} (ht : ts.permits = true)
    (h : m = .shared ∨ exhausted source = false) : withheld ts source m.takesEpoch = false := by
  rw [withheld, ht]
  obtain rfl | h := h
  · rfl
  · rw [h, Bool.and_false]
    rfl

section
variable {u : State} {n : Agent} {q : ClaimFields} {body : List Byte}

theorem claimRule_absent (hp : parseClaim body = some q) (hk : u.findKey q.key = none) :
    claimRule n body u = u.claimAbsent n q := by
  simp only [claimRule, hp, hk]

/-- R36 test 1, with grants not permitted. -/
theorem claimAbsent_timeUnsafe (ht : u.monitor.timeState.permits = false) :
    u.claimAbsent n q = (u, .refused .timeUnsafe) := by
  simp only [State.claimAbsent, withheld, withheldCode, ht, Bool.not_false, Bool.true_or, if_true, Bool.false_eq_true,
    if_false]

/-- R36 test 1, with the epochs exhausted. -/
theorem claimAbsent_epochExhausted (ht : u.monitor.timeState.permits = true) (hm : q.mode = .exclusive)
    (he : exhausted u.epochSource = true) : u.claimAbsent n q = (u, .refused .epochExhausted) := by
  simp only [State.claimAbsent, withheld, withheldCode, ht, hm, he, Mode.takesEpoch, Bool.and_self, Bool.or_true,
    if_true]

section
variable (hw : withheld u.monitor.timeState u.epochSource q.mode.takesEpoch = false)
include hw

/-- R36 test 2. -/
theorem claimAbsent_atQuota (hq : (u.session n).leaseCount = u.settings.quota.get n) :
    u.claimAbsent n q = (u, .refused .quota) := by
  simp only [State.claimAbsent, hw, hq, Bool.false_eq_true, if_false, if_true]

variable (hq : (u.session n).leaseCount ≠ u.settings.quota.get n)
include hq

/-- R36 test 3. -/
theorem claimAbsent_tableFull (hv : u.vacantWays q.key = []) : u.claimAbsent n q = (u, .refused .tableFull) := by
  simp only [State.claimAbsent, hw, hq, hv, Bool.false_eq_true, if_false]

variable {slot : Nat} {others : List Nat} (hv : u.vacantWays q.key = slot :: others)
include hv

/-- R36 test 4. -/
theorem claimAbsent_throttled (hb : (u.session n).window.length = u.settings.createBurst) :
    u.claimAbsent n q = (u, .throttled (u.settings.createSpan - (u.session n).window.headD 0)) := by
  simp only [State.claimAbsent, hw, hq, hv, hb, Bool.false_eq_true, if_false, if_true]

/-- R36: the creation, in the lowest VACANT way. -/
theorem claimAbsent_creates (hb : (u.session n).window.length ≠ u.settings.createBurst) :
    u.claimAbsent n q = (u.addCreation n).grantNow slot (newRecord q.key false) n q.mode q.requested := by
  simp only [State.claimAbsent, hw, hq, hv, hb, Bool.false_eq_true, if_false]

end

end

theorem exec_claim_of_absent {s v : State} {a : Answer} {n : Agent} {body : List Byte} {extra : Nat} {q : ClaimFields}
    (hs : s.serves n body extra = true) (hp : parseClaim body = some q) (hk : s.findKey q.key = none)
    (hc : (s.asked n body extra).claimAbsent n q = (v, a)) :
    exec (.claim n (Transfer.now extra) body) s = .next (v.answer n a) := by
  have hk' : (s.asked n body extra).findKey q.key = none := by rw [State.asked_findKey, hk]
  exact exec_claim_of_rule hs ((claimRule_absent hp hk').trans hc)

/-- Settles O26: the tests of R36 one after another, each branch by the equation of its case. -/
theorem claimOnAnAbsentKeyIsDecidedInOrder : Obligations.ClaimOnAnAbsentKeyIsDecidedInOrder := by
  unfold Obligations.ClaimOnAnAbsentKeyIsDecidedInOrder
  refine ⟨fun s key => ⟨vacantWays_pairwise s key, fun slot => mem_vacantWays_iff, rfl⟩, fun _ => exhausted_iff,
    fun _ => permits_iff, ?_⟩
  intro s n body extra q hs hp hk u life fresh refused
  have runs {v : State} {a : Answer} (h : u.claimAbsent n q = (v, a)) :
      exec (.claim n (Transfer.now extra) body) s = .next (v.answer n a) := exec_claim_of_absent hs hp hk h
  refine ⟨fun ht => runs (claimAbsent_timeUnsafe ht), fun ht hm he => runs (claimAbsent_epochExhausted ht hm he),
    fun ht hm => ?_⟩
  have hw : withheld u.monitor.timeState u.epochSource q.mode.takesEpoch = false := withheld_eq_false ht hm
  refine ⟨fun hq => runs (claimAbsent_atQuota hw hq), fun hq => ⟨fun hv => ?_, fun slot others hv => ?_⟩⟩
  · exact runs (claimAbsent_tableFull hw hq hv)
  refine ⟨fun hb => runs (claimAbsent_throttled (u := u) hw hq hv hb), fun hb => ?_⟩
  have hg := claimAbsent_creates (u := u) (n := n) hw hq hv hb
  constructor
  · intro hm
    rw [hm] at hg
    exact runs hg
  · intro hm
    rw [hm] at hg
    exact runs hg

/-! ### The tests of UPGRADE (R58) -/

section
variable {u : State} {slot : Nat} {r : Record} {n : Agent} {h : Holder} {q : UpgradeFields} {body : List Byte}

theorem upgradeRule_notHonoured (hp : parseUpgrade body = some q) (hh : u.honoured q.handle = none) :
    upgradeRule n body u = (u, .refused .noSuchLease) := by
  simp only [upgradeRule, hp, hh]

theorem upgradeRule_notHolder (hp : parseUpgrade body = some q) (hh : u.honoured q.handle = some (slot, r))
    (hn : r.holder n = none) : upgradeRule n body u = (u, .refused .noSuchLease) := by
  simp only [upgradeRule, hp, hh, hn]

/-- R58 test 4. -/
theorem upgradeHeld_notShared (hm : h.mode = .exclusive) : u.upgradeHeld slot r h n q = (u, .refused .notShared) :=
  if_pos hm

section
variable (hm : h.mode = .shared)
include hm

/-- R58 test 5. -/
theorem upgradeHeld_waits (hw : r.waits n = true) : u.upgradeHeld slot r h n q = (u, .refused .alreadyHeld) := by
  simp only [State.upgradeHeld, hm, hw, reduceCtorEq, if_false, if_true]

variable (hw : r.waits n = false)
include hw

/-- R58 test 6. -/
theorem upgradeHeld_conflict (hq : r.upgradeQueued = true) :
    u.upgradeHeld slot r h n q = (u, .refused .upgradeConflict) := by
  simp only [State.upgradeHeld, hm, hw, hq, reduceCtorEq, Bool.false_eq_true, if_false, if_true]

variable (hq : r.upgradeQueued = false)
  (hb : r.onlyHolder n = false ∨ withheld u.monitor.timeState u.epochSource true = true)
include hq hb

/-- R58 test 8: the refusal names the obstacle, another holder before withholding. -/
theorem upgradeHeld_noWait (h0 : q.wait = 0) : u.upgradeHeld slot r h n q =
    (u, .refused (if !r.onlyHolder n then .conflict else withheldCode u.monitor.timeState)) := by
  have hg : (r.onlyHolder n && !withheld u.monitor.timeState u.epochSource true) = false := by
    rwa [Bool.and_eq_false_iff, Bool.not_eq_false']
  simp only [State.upgradeHeld, hm, hw, hq, hg, h0, reduceCtorEq, Bool.false_eq_true, if_false, if_true]

/-- R60. -/
theorem upgradeHeld_enqueue (h0 : q.wait ≠ 0) : u.upgradeHeld slot r h n q = u.enqueueUpgrade slot r n q := by
  have hg : (r.onlyHolder n && !withheld u.monitor.timeState u.epochSource true) = false := by
    rwa [Bool.and_eq_false_iff, Bool.not_eq_false']
  simp only [State.upgradeHeld, hm, hw, hq, hg, h0, reduceCtorEq, Bool.false_eq_true, if_false]

end

end

theorem upgradeQueued_iff {r : Record} : r.upgradeQueued = true ↔ ∃ c ∈ r.queue, c.kind = .upgrade := by
  simp only [Record.upgradeQueued, List.any_eq_true, beq_iff_eq]

/-- Settles O27: handles by R11, then the tests of R58 one after another. -/
theorem upgradeIsDecidedInOrder : Obligations.UpgradeIsDecidedInOrder := by
  unfold Obligations.UpgradeIsDecidedInOrder
  refine ⟨fun s handle slot r => honoured_iff, fun s slot => ⟨rfl, fun hc => ?_⟩, fun r n => beq_iff_eq, ?_⟩
  · have hcan := (canonical_iff s).1 hc
    exact ⟨generation_lt hcan slot, fun gen hg => generation_iff hcan hg⟩
  intro s n body extra q hs hp u refused
  refine ⟨fun hh => exec_upgrade_of_rule hs (upgradeRule_notHonoured hp hh),
    fun slot r hh => ⟨fun hn => exec_upgrade_of_rule hs (upgradeRule_notHolder hp hh hn), fun h hn => ?_⟩⟩
  have runs {v : State} {a : Answer} (e : u.upgradeHeld slot r h n q = (v, a)) :
      exec (.upgrade n (Transfer.now extra) body) s = .next (v.answer n a) :=
    exec_upgrade_of_rule hs ((upgradeRule_held (u := u) hp hh hn).trans e)
  refine ⟨fun hm => runs (upgradeHeld_notShared hm), fun hm => ⟨fun hw => runs (upgradeHeld_waits hm hw), fun hw =>
    ⟨fun hq => runs (upgradeHeld_conflict hm hw (upgradeQueued_iff.2 hq)), fun hq hb => ?_⟩⟩⟩
  have hq' := upgradeQueued_eq_false_iff.2 hq
  refine ⟨fun h0 => ?_, fun h0 => runs (upgradeHeld_enqueue (u := u) hm hw hq' hb h0)⟩
  have hrun := runs (upgradeHeld_noWait (u := u) (slot := slot) hm hw hq' hb h0)
  refine ⟨fun ho => ?_, fun ho => ⟨fun ht => ?_, fun ht => ?_⟩⟩ <;> rw [ho] at hrun
  · exact hrun
  · have hcode : withheldCode u.monitor.timeState = .timeUnsafe := if_neg (Bool.not_eq_true _ ▸ ht)
    rwa [hcode] at hrun
  · have hcode : withheldCode u.monitor.timeState = .epochExhausted := if_pos ht
    rwa [hcode] at hrun

/-! ### DOWNGRADE (R46) -/

section
variable {u : State} {n : Agent} {body : List Byte} {handle : Half} {slot : Nat} {r : Record} {h : Holder}

theorem downgradeRule_notHonoured (hp : parseHandle body = some handle) (hh : u.honoured handle = none) :
    downgradeRule n body u = (u, .refused .noSuchLease) := by
  simp only [downgradeRule, hp, hh]

theorem downgradeRule_notHolder (hp : parseHandle body = some handle) (hh : u.honoured handle = some (slot, r))
    (hn : r.holder n = none) : downgradeRule n body u = (u, .refused .noSuchLease) := by
  simp only [downgradeRule, hp, hh, hn]

theorem downgradeRule_notExclusive (hp : parseHandle body = some handle) (hh : u.honoured handle = some (slot, r))
    (hn : r.holder n = some h) (hm : h.mode = .shared) : downgradeRule n body u = (u, .refused .notExclusive) := by
  simp only [downgradeRule, hp, hh, hn, hm, if_true]

theorem downgradeRule_downgrades (hp : parseHandle body = some handle) (hh : u.honoured handle = some (slot, r))
    (hn : r.holder n = some h) (hm : h.mode = .exclusive) : downgradeRule n body u =
      ((u.putRecord slot (r.mapHolder n downgraded)).grantCheck slot, .ok) := by
  simp only [downgradeRule, hp, hh, hn, hm, reduceCtorEq, if_false]

end

/-- Settles O29: each case of the rule. -/
theorem downgradeSharesAnExclusiveLease : Obligations.DowngradeSharesAnExclusiveLease := by
  unfold Obligations.DowngradeSharesAnExclusiveLease
  intro s n body extra handle hs hp u refused
  have runs {v : State} {a : Answer} (e : downgradeRule n body u = (v, a)) :
      exec (.downgrade n (Transfer.now extra) body) s = .next (v.answer n a) :=
    exec_request_of_rule (k := .downgrade) e hs
  exact ⟨fun hh => runs (downgradeRule_notHonoured hp hh), fun slot r hh =>
    ⟨fun hn => runs (downgradeRule_notHolder hp hh hn), fun h hn =>
      ⟨fun hm => runs (downgradeRule_notExclusive hp hh hn hm),
        fun hm => runs (downgradeRule_downgrades hp hh hn hm)⟩⟩⟩

/-! ### Retirement (R16) -/

/-- R16: retirement leaves the other slots' generations; its own slot's advances. -/
theorem generation_setGeneration {b : Nat} {gens : List (Nat × Nat)} (hw : Sparse.wf b gens = true) (slot gen i : Nat) :
    (Sparse.find i (setGeneration gens slot gen)).getD 0 = if i = slot then gen else (Sparse.find i gens).getD 0 := by
  rw [setGeneration]
  by_cases hg : gen = 0 <;> by_cases hi : i = slot
  · rw [if_pos hg, if_pos hi, hi, Sparse.find_drop_same hw, hg]
    rfl
  · rw [if_pos hg, if_neg hi, Sparse.find_drop_ne hi]
  · rw [if_neg hg, if_pos hi, hi, Sparse.find_put_same]
    rfl
  · rw [if_neg hg, if_neg hi, Sparse.find_put_ne hi]

/-- Settles O33: the fields of a retirement, slot by slot and agent by agent. -/
theorem retirementVacatesTheSlot : Obligations.RetirementVacatesTheSlot := by
  unfold Obligations.RetirementVacatesTheSlot
  intro s slot r hcan hr hasc t kept
  have hc := (canonical_iff s).1 hcan
  obtain ⟨hrecords, hgens, hcells, hsource⟩ := retire_fields hr
  obtain ⟨hheld, htable, hcounter, hmonitor, hports, hsettings, hmanagement, hchoices, hpending⟩ :=
    retire_tableOnly s slot
  have hgen : ∀ i, t.generation i = if i = slot then (s.generation slot + 1) % 32 else s.generation i := by
    intro i
    show (Sparse.find i t.generations).getD 0 = _
    rw [hgens]
    exact generation_setGeneration hc.generations slot _ i
  refine ⟨?_, ?_, fun i hi => ⟨retire_record_ne s hi, ?_⟩, fun n => retire_session_eq hr ((asc_iff r).1 hasc) n, ?_⟩
  · show Sparse.find slot t.records = none
    rw [hrecords]
    exact Sparse.find_drop_same hc.records
  · rw [hgen, if_pos rfl]
  · rw [hgen, if_neg hi]
  · show State.mk t.held t.table s.records s.generations t.epochSource s.sessions t.sessionCounter t.cells t.monitor
      t.ports t.settings t.management t.choices t.pending = s
    rw [hheld, htable, hsource, hcounter, hcells, hmonitor, hports, hsettings, hmanagement, hchoices, hpending]

end Sys2Proof.Machine
end

section
/-! Sessions and standby (Chapters 6 and 7): JOIN and LEAVE (R100 to R104) with the removal of an agent from the table,
the entry into standby (R117, R118) and WAKE (R122 to R124). -/

namespace Sys2Proof.Machine

/-! ### Starting a session (R100, R101) -/

/-- R98: the session of an agent that has just joined. -/
def Session.begun (number : Half) : Session :=
  { state := .active, number := number, leaseCount := 0, window := [], standby := none, lapsed := false }

/-- R101: the next session of an agent, begun in a state where the agent's cells are empty. -/
def State.joinedNext (t : State) (n : Agent) : State :=
  { t.setSession n (Session.begun (nextSession t.sessionCounter)) with
    sessionCounter := nextSession t.sessionCounter,
    monitor := { t.monitor with agentFlags := t.monitor.agentFlags.set n false } }

/-- R101 steps 3 to 5, after the agent's standing has been cleared. -/
theorem startSession_cleared (t : State) (n : Agent) {a : Session} (hl : a.leaseCount = 0) (hw : a.window = [])
    (hb : a.standby = none) : (t.setSession n a).startSession n = t.joinedNext n := by
  simp only [State.startSession, State.joinedNext, Session.begun, State.session, State.setSession,
    PerAgent.get_set_same, PerAgent.set_set, hl, hw, hb]

theorem nextSession_ne_zero (counter : Half) : nextSession counter ≠ 0 := by
  rw [nextSession]
  split
  · decide
  · rename_i h
    bv_omega

/-- R101: what a JOIN answers, once the session has started. -/
theorem joinAnswer_joinedNext (t : State) (n : Agent) : (t.joinedNext n).joinAnswer n =
    .okJoin (nextSession t.sessionCounter) (t.settings.quota.get n) t.settings.defaultLife t.settings.minLife
      t.settings.maxLife t.monitor.timeState := by
  have hs : (t.joinedNext n).session n = Session.begun (nextSession t.sessionCounter) := setSession_session_same t n _
  rw [State.joinAnswer, hs]
  rfl

section
variable {u : State} {n : Agent}

/-- R101: a JOIN out of UNJOINED or EVICTED. -/
theorem joinRule_starts (hj : (u.session n).state.joined = false) : joinRule n [] u =
    ((u.setCells n []).joinedNext n, ((u.setCells n []).joinedNext n).joinAnswer n) := by
  have hs : (u.clearStanding n).startSession n = (u.setCells n []).joinedNext n := startSession_cleared _ n rfl rfl rfl
  rw [joinRule, if_neg (fun h => h rfl)]
  simp only [hj, Bool.false_eq_true, if_false, hs]

/-- R102: a rejoin ends the session before it starts the next one. -/
theorem joinRule_rejoins (hj : (u.session n).state.joined = true) : joinRule n [] u =
    (((u.removeAgent n).setCells n []).joinedNext n,
      (((u.removeAgent n).setCells n []).joinedNext n).joinAnswer n) := by
  have hs : (u.endSession n).startSession n = ((u.removeAgent n).setCells n []).joinedNext n :=
    startSession_cleared _ n rfl rfl rfl
  rw [joinRule, if_neg (fun h => h rfl)]
  simp only [hj, if_true, hs]

/-- R103. -/
theorem leaveRule_leaves : leaveRule n [] u = (((u.removeAgent n).setCells n []).setSession n
    { state := .unjoined, number := 0, leaseCount := 0, window := [], standby := none, lapsed := false }, .ok) := by
  rw [leaveRule, if_neg (fun h => h rfl)]
  simp only [State.endSession, setSession_session_same, State.setSession_setSession]

end

/-- R107: JOIN is admitted in every agent state. -/
theorem admission_join (st : AgentState) : admission .join st = none := by cases st <;> rfl

theorem admission_leave {st : AgentState} (h : st.joined = true) : admission .leave st = none := by
  cases st with
  | active | standby => rfl
  | unjoined | evicted => cases h

/-- Settles O35: the rule's equation. -/
theorem joinStartsASession : Obligations.JoinStartsASession := by
  unfold Obligations.JoinStartsASession
  intro s n extra hs ht hj number
  have hrule := joinRule_starts (u := s.asked n [] extra) hj
  rw [joinAnswer_joinedNext] at hrule
  exact ⟨nextSession_ne_zero s.sessionCounter,
    exec_request_of_admitted (k := .join) hrule hs ht (admission_join _)⟩

/-! ### Leaving the table (R104) -/

theorem keys_pairwise {α : Type} {b : Nat} {t : List (Nat × α)} (h : Sparse.wf b t = true) :
    (Sparse.keys t).Pairwise (· < ·) := by
  induction t with
  | nil => exact List.Pairwise.nil
  | cons p t ih =>
    obtain ⟨-, hahead, htail⟩ := Sparse.wf_cons.1 h
    refine List.Pairwise.cons (fun k hk => ?_) (ih htail)
    obtain ⟨q, hq, rfl⟩ := List.mem_map.1 hk
    exact hahead q hq

/-- R88: posting to other agents leaves an agent's cells. -/
theorem foldl_post_cells (slot : Nat) {n : Agent} (l : List (Agent × Notice)) (s : State)
    (h : ∀ p ∈ l, p.1 ≠ n) : (l.foldl (fun t p => t.post slot p.1 p.2) s).cells.get n = s.cells.get n := by
  induction l generalizing s with
  | nil => rfl
  | cons p l ih =>
    rw [List.foldl_cons, ih _ fun q hq => h q (List.mem_cons_of_mem p hq), State.post_cells]
    exact PerAgent.get_set_ne _ (h p List.mem_cons_self).symm _

/-- R55: a grant check writes no cell of an agent that has no claim in the record. -/
theorem grantCheck_cells {s : State} {slot : Nat} {n : Agent}
    (h : ∀ r, s.record slot = some r → r.waits n = false) : (s.grantCheck slot).cells.get n = s.cells.get n := by
  cases hr : s.record slot with
  | none => rw [grantCheck_none hr]
  | some r =>
    obtain ⟨granted, hqueue, hagents⟩ := grantRun_split (s.grantEnv slot) r.queue.length s.epochSource r
    simp only [State.grantCheck, hr]
    refine foldl_post_cells slot _ _ fun p hp he => ?_
    have hmem : p.1 ∈ granted.map fun c => c.agent := hagents ▸ List.mem_map_of_mem hp
    obtain ⟨c, hc, hcp⟩ := List.mem_map.1 hmem
    have hw : r.waits n = true := waits_iff.2 ⟨c, hqueue ▸ List.mem_append_left _ hc, hcp.trans he⟩
    rw [h r hr] at hw
    cases hw

theorem retireIfEmpty_cells (s : State) (slot : Nat) : (s.retireIfEmpty slot).cells = s.cells := by
  cases hr : s.record slot with
  | none => rw [retireIfEmpty_vacant hr]
  | some r =>
    rw [retireIfEmpty_eq hr]
    split
    · exact (retire_fields hr).2.2.1
    · rfl

/-- R104: an agent that leaves a record without a notice has no cell written. -/
theorem leaveRecord_cells (s : State) (slot : Nat) (n : Agent) :
    (s.leaveRecord slot n none).cells.get n = s.cells.get n := by
  cases hr : s.record slot with
  | none => rw [State.leaveRecord, hr]
  | some r =>
    rw [leaveRecord_silent hr, retireIfEmpty_cells, grantCheck_cells]
    · rfl
    · intro x hx
      have hx' : (s.putRecord slot (r.dropAgent n)).record slot = some x := hx
      rw [putRecord_record_same] at hx'
      cases hx'
      rw [dropAgent_waits]
      simp

theorem removeAgent_cells (s : State) (n : Agent) : (s.removeAgent n).cells.get n = s.cells.get n :=
  foldl_keeps (fun s t => t.cells.get n = s.cells.get n) (fun _ => rfl) (fun _ _ _ h k => k.trans h) _
    (fun u slot => leaveRecord_cells u slot n) _ s

/-- R104: the records in which the agent had no part stand. -/
theorem removeAgent_record_ne {s : State} (hc : Canon s) {n : Agent} {slot : Nat} (h : slot ∉ s.partSlots n) :
    (s.removeAgent n).record slot = s.record slot :=
  (removal_fold (n := n) (s.partSlots n) (partSlots_nodup hc n) hc).1 slot h

/-- Settles O36: LEAVE and rejoin by their rules' equations, one removal by its steps, the whole by its fold. -/
theorem leaveAndRejoinEndTheSession : Obligations.LeaveAndRejoinEndTheSession := by
  unfold Obligations.LeaveAndRejoinEndTheSession
  refine ⟨fun s n extra hs ht hj => ⟨?_, ?_⟩, fun s n => ⟨fun slot r hr => ?_, rfl, fun hcan => ?_⟩⟩
  · exact exec_request_of_admitted (k := .leave) leaveRule_leaves hs ht (admission_leave hj)
  · obtain ⟨-, -, hcounter, hmonitor, -, hsettings, -⟩ := removeAgent_tableOnly (s.asked n [] extra) n
    have hrule := joinRule_rejoins (u := s.asked n [] extra) hj
    rw [joinAnswer_joinedNext, State.joinedNext, State.setCells_sessionCounter, State.setCells_settings,
      State.setCells_monitor, hcounter, hmonitor, hsettings] at hrule
    exact exec_request_of_admitted (k := .join) hrule hs ht (admission_join _)
  · intro u
    have hleave : s.leaveRecord slot n none = u.retireIfEmpty slot := leaveRecord_silent hr
    refine ⟨fun x hx hp hh hq => ?_, fun x hx hn => ?_⟩
    · rw [hleave, retireIfEmpty_eq hx, if_pos ⟨hp, hh, hq⟩]
    · rw [hleave, retireIfEmpty_eq hx, if_neg]
      rintro ⟨hp, hh, hq⟩
      obtain hn | hn | hn := hn
      · exact Bool.false_ne_true (hp.symm.trans hn)
      · exact hn hh
      · exact hn hq
  · have hc := (canonical_iff s).1 hcan
    intro t
    refine ⟨keys_pairwise (wf_sublist List.filter_sublist hc.records), fun slot => ?_, fun p hp => ?_,
      removeAgent_cells s n, fun slot r hr hh hw => ?_⟩
    · simp only [mem_partSlots hc, Record.hasPart, Bool.or_eq_true]
    · have hrec := (Sparse.mem_iff_find (hc.removeAgent n).records).1 hp
      have hgone := removeAgent_gone hc hrec
      rwa [Record.hasPart, Bool.or_eq_false_iff] at hgone
    · refine (removeAgent_record_ne hc fun hm => ?_).trans hr
      obtain ⟨x, hx, hpart⟩ := (mem_partSlots hc).1 hm
      cases hr.symm.trans hx
      rw [hasPart_eq_false hh hw] at hpart
      cases hpart

/-! ### Entering standby (R117, R118) -/

section
variable {u : State} {n : Agent} {body : List Byte} {mask : Byte} {duration : Nat}

theorem standbyRule_refuses (hp : parseStandby body = some (mask, duration))
    (h : u.settings.standbyMax = 0 ∨ u.settings.standbyMax < duration) :
    standbyRule n body u = (u, .refused .standbyRefused) := by
  simp only [standbyRule, hp]
  split
  · rfl
  · exact if_pos (h.resolve_left ‹_›)

theorem standbyRule_enters (hp : parseStandby body = some (mask, duration)) (h0 : u.settings.standbyMax ≠ 0)
    (hd : duration ≤ u.settings.standbyMax) : standbyRule n body u = ((u.enterStandby n mask duration).1,
      .okStandby (u.enterStandby n mask duration).2.kept (u.enterStandby n mask duration).2.left duration) := by
  simp only [standbyRule, hp, h0, Nat.not_lt.2 hd, if_false]

end

section
variable {s : State} {n : Agent} {mask : Byte} {slot : Nat} {r : Record} (hr : s.record slot = some r)
  (hh : r.holds n = true) (hm : maskSelects mask slot = true) (count : EntryCount)
include hr hh hm

/-- R118 step 5: a lease of a selected partition with no UPGRADE queued. -/
theorem enterStandbyAt_keep (hw : r.waits n = false) : State.enterStandbyAt n mask (s, count) slot =
    (s.putRecord slot (r.mapHolder n keepHolder), { count with kept := count.kept + 1 }) := by
  have hput : (s.putRecord slot r).putRecord slot (r.mapHolder n keepHolder) =
      s.putRecord slot (r.mapHolder n keepHolder) := by
    simp only [State.putRecord, Sparse.put_put]
  simp only [State.enterStandbyAt, hr, hh, hw, hm, dropClaim_eq hw, putRecord_record_same, hput, Bool.not_true,
    Bool.and_false, Bool.false_eq_true, if_false, Bool.or_false, if_true]

/-- R118 steps 1, 4 and 5: a lease of a selected partition whose UPGRADE is withdrawn first. -/
theorem enterStandbyAt_withdraw (hw : r.waits n = true) {x : Record}
    (hx : ((s.putRecord slot (r.dropClaim n)).grantCheck slot).record slot = some x) :
    State.enterStandbyAt n mask (s, count) slot = (((s.putRecord slot (r.dropClaim n)).grantCheck slot).putRecord slot
      (x.mapHolder n keepHolder), { count with kept := count.kept + 1 }) := by
  have hdrop : (r.dropClaim n).holds n = true := hh
  have hstays : ((s.putRecord slot (r.dropClaim n)).grantCheck slot).retireIfEmpty slot =
      (s.putRecord slot (r.dropClaim n)).grantCheck slot := by
    rw [retireIfEmpty_eq hx]
    refine if_neg ?_
    rintro ⟨-, hnone, hempty⟩
    have hpart : x.hasPart n = true := by
      have hrun := grantCheck_record_same (putRecord_record_same s slot (r.dropClaim n))
      cases hrun.symm.trans hx
      rw [grantRun_hasPart]
      exact hasPart_eq_true (.inl hdrop)
    simp [Record.hasPart, Record.holds, Record.waits, Record.holder, Record.claim, hnone, hempty] at hpart
  simp only [State.enterStandbyAt, hr, hh, hw, hm, hdrop, hstays, hx, Bool.not_true, Bool.and_false, Bool.false_eq_true,
    if_false, Bool.or_false, if_true]

end

/-- Settles O37: the rule's two equations, and each of the four kinds of record that an entry visits. -/
theorem standbyIsEnteredOrRefused : Obligations.StandbyIsEnteredOrRefused := by
  unfold Obligations.StandbyIsEnteredOrRefused
  refine ⟨fun s n body extra duration mask hs hp => ⟨fun h => ?_, fun h0 hd => ?_⟩,
    fun s n mask slot r count hr => ⟨fun hh hw => ?_, fun hh hm => ?_, fun hh hw hm => ?_, fun hh hw hm x hx => ?_⟩⟩
  · exact exec_request_of_rule (k := .standby) (standbyRule_refuses hp h) hs
  · exact exec_request_of_rule (k := .standby) (standbyRule_enters (u := s.asked n body extra) hp h0 hd) hs
  · exact enterStandbyAt_leaves hr (hasPart_eq_true (.inr hw)) (.inl hh)
  · exact enterStandbyAt_leaves hr (hasPart_eq_true (.inl hh)) (.inr hm)
  · exact enterStandbyAt_keep hr hh hm count hw
  · exact enterStandbyAt_withdraw hr hh hm count hw hx

/-! ### WAKE (R122 to R124) -/

theorem resumeHolder_eq (n : Agent) : resumeHolder n =
    fun h => if h.agent == n && h.status == .kept then { h with status := .running } else h := by
  funext h
  rw [resumeHolder]
  exact if_congr (by rw [Bool.and_eq_true, beq_iff_eq, beq_iff_eq]) rfl rfl

section
variable {u : State} {n : Agent}

theorem wakeRule_resumes {b : Standby} (hs : (u.session n).state = .standby) (hb : (u.session n).standby = some b) :
    wakeRule n [] u = (u.resumeStandby n, .okWake b.kept (u.session n).lapsed) := by
  rw [wakeRule, if_neg (fun h => h rfl)]
  simp only [hs, hb]

theorem wakeRule_acknowledges (hs : (u.session n).state = .active) :
    wakeRule n [] u = (u.setSession n { u.session n with lapsed := false }, .okWake 0 (u.session n).lapsed) := by
  rw [wakeRule, if_neg (fun h => h rfl)]
  simp only [hs]

end

/-- R124: a WAKE of a joined agent goes to its rule, its own standby expiry due or not. -/
theorem exec_wake_of_rule {s v : State} {a : Answer} {n : Agent} {body : List Byte} {extra : Nat}
    (hq : s.quietBut n = true) (ho : s.portOpen n (requestLength body extra) = true) (ht : s.table = .ready)
    (hj : (s.session n).state.joined = true) (hr : wakeRule n body (s.asked n body extra) = (v, a)) :
    exec (.wake n (Transfer.now extra) body) s = .next (v.answer n a) := by
  have ha : admission .wake ((s.asked n body extra).session n).state = none := by
    rw [State.asked_session]
    obtain h | h := joined_iff.1 hj <;> rw [h] <;> rfl
  have ht' : ¬ ((s.asked n body extra).table = .initializing ∧ Request.wake ≠ .time) := by
    rintro ⟨hi, -⟩
    exact TableState.noConfusion (ht.symm.trans hi)
  show Host.Outcome.next (s.request .wake n (Transfer.now extra) body (wakeRule n body)) = _
  rw [State.request_wake hq ho, State.accept, if_neg ht', ha, hr]

/-- Settles O38: the rule's two cases, behind the checks that a WAKE passes. -/
theorem wakeResumesOrAcknowledges : Obligations.WakeResumesOrAcknowledges := by
  unfold Obligations.WakeResumesOrAcknowledges
  intro s n extra hq ho ht
  refine ⟨fun b hs hb => ?_, fun hs => ?_⟩
  · have hrule := wakeRule_resumes (u := s.asked n [] extra) hs hb
    rw [State.resumeStandby, resumeHolder_eq] at hrule
    exact exec_wake_of_rule hq ho ht (hs ▸ rfl) hrule
  · exact exec_wake_of_rule hq ho ht (hs ▸ rfl) (wakeRule_acknowledges (u := s.asked n [] extra) hs)

end Sys2Proof.Machine
end

section
/-! The mailbox requests (Chapter 10): SET and the settings (R170, R171, Tables 62 and 78), the requests that name a key
(R15 to R18, R173, R175), and how a request started at 73h is taken (R172). -/

namespace Sys2Proof.Machine

/-! ### SET (R170, R171) -/

theorem exec_set_of_rule {s v : State} {result : MailboxResult} (ho : s.mailboxOpen = true)
    (hr : setRule (s.begun 0x01) = v.done result) : exec .set s = .next (v.completes result none) :=
  congrArg Host.Outcome.next (State.mailboxRequest_of_rule ho hr)

section
variable {u : State}

/-- R170 test 1. -/
theorem setRule_badId (h : Setting.ofId u.management.settingId = none) : setRule u = u.done .badValue := by
  simp only [setRule, h]

variable {k : Setting} (hk : Setting.ofId u.management.settingId = some k)
include hk

/-- R170 test 2. -/
theorem setRule_badValue (hv : u.settings.change k u.management.settingValue = none) :
    setRule u = u.done .badValue := by
  simp only [setRule, hk, hv]

variable {st : Settings} (hv : u.settings.change k u.management.settingValue = some st)
include hv

/-- R170 tests 3 and 4. -/
theorem setRule_locked (hl : u.settingLocked k = true) : setRule u = u.done .agentsActive := by
  simp only [setRule, hk, hv, hl, if_true]

/-- R171. -/
theorem setRule_performs (hl : u.settingLocked k = false) :
    setRule u = State.done (({ u with settings := st } : State).afterSet u.settings k) .ok := by
  simp only [setRule, hk, hv, hl, Bool.false_eq_true, if_false]

end

theorem anyJoined_iff {s : State} : s.anyJoined = true ↔ ∃ n : Agent, (s.session n).state.joined = true := by
  simp only [State.anyJoined, List.any_eq_true, mem_agents, true_and]

theorem anyJoined_eq_false {s : State} (h : ∀ n : Agent, (s.session n).state.joined = false) : s.anyJoined = false := by
  rw [← Bool.not_eq_true, anyJoined_iff]
  rintro ⟨n, hn⟩
  exact Bool.false_ne_true ((h n).symm.trans hn)

theorem limitDue_iff {s : State} : s.limitDue = true ↔
    s.monitor.timeState = .holdover ∧ s.settings.holdoverMax ≤ s.monitor.elapsed := by
  rw [State.limitDue, Bool.and_eq_true, beq_iff_eq, decide_eq_true_eq]

theorem settleMonitor_due {s : State} (h : s.limitDue = true) :
    s.settleMonitor = s.changeTime { s.monitor with timeState := .unsafeTime } := if_pos h

theorem settleMonitor_quiet {s : State} (h : s.limitDue = false) : s.settleMonitor = s :=
  if_neg (Bool.not_eq_true _ ▸ h)

/-- R171: a changed TIME_SOURCE takes the monitor to the state of R136. -/
theorem afterSet_timeSource {w : State} {old : Settings} (h : w.settings.timeSource ≠ old.timeSource) :
    w.afterSet old .timeSource = w.changeTime (w.monitor.sourced w.settings.timeSource) := if_neg h

theorem derateOfCode_iff {v : Nat} {d : Derate} : Derate.ofCode v = some d ↔ v = d.code := by
  unfold Derate.ofCode
  split <;> cases d <;> simp_all [Derate.code]

theorem timeSourceOfCode_iff {v : Nat} {x : TimeSource} : TimeSource.ofCode v = some x ↔ v = x.code := by
  unfold TimeSource.ofCode
  split <;> cases x <;> simp_all [TimeSource.code]

/-- Table 78: identifiers above 0Dh name no setting. -/
theorem ofId_above {id : Byte} (h : 0x0D < id.toNat) : Setting.ofId id = none := by
  unfold Setting.ofId
  split <;> first | rfl | omega

/-- Table 62: the factors that DERATE takes. -/
theorem change_derate {st st' : Settings} {v : Nat} : st.change .derate v = some st' ↔
    (v = 0 ∧ st' = { st with derate := .half }) ∨ (v = 1 ∧ st' = { st with derate := .fiveEighths }) ∨
    (v = 2 ∧ st' = { st with derate := .threeQuarters }) ∨ (v = 3 ∧ st' = { st with derate := .sevenEighths }) := by
  simp only [change_eq_some, derateOfCode_iff]
  constructor
  · rintro ⟨d, hv, hst⟩
    cases d with
    | half => exact .inl ⟨hv, hst⟩
    | fiveEighths => exact .inr (.inl ⟨hv, hst⟩)
    | threeQuarters => exact .inr (.inr (.inl ⟨hv, hst⟩))
    | sevenEighths => exact .inr (.inr (.inr ⟨hv, hst⟩))
  · rintro (⟨hv, hst⟩ | ⟨hv, hst⟩ | ⟨hv, hst⟩ | ⟨hv, hst⟩)
    exacts [⟨.half, hv, hst⟩, ⟨.fiveEighths, hv, hst⟩, ⟨.threeQuarters, hv, hst⟩, ⟨.sevenEighths, hv, hst⟩]

/-- Table 62: the values that TIME_SOURCE takes. -/
theorem change_timeSource_iff {st st' : Settings} {v : Nat} : st.change .timeSource v = some st' ↔
    (v = 0 ∧ st' = { st with timeSource := .reference }) ∨ (v = 1 ∧ st' = { st with timeSource := .internal }) := by
  simp only [change_eq_some, timeSourceOfCode_iff]
  constructor
  · rintro ⟨x, hv, hst⟩
    cases x with
    | reference => exact .inl ⟨hv, hst⟩
    | internal => exact .inr ⟨hv, hst⟩
  · rintro (⟨hv, hst⟩ | ⟨hv, hst⟩)
    exacts [⟨.reference, hv, hst⟩, ⟨.internal, hv, hst⟩]

/-- Settles O39: the tests of R170 in order, what R171 adds for each setting, then Tables 62 and 78. -/
theorem setIsDecidedInOrder : Obligations.SetIsDecidedInOrder := by
  unfold Obligations.SetIsDecidedInOrder
  refine ⟨?_, fun st st' k v h hc => change_inRange h hc, by decide, fun id h => ofId_above h,
    fun st st' v => ⟨change_eq_some, change_eq_some, change_eq_some, change_derate, change_eq_some, change_eq_some,
      change_eq_some, change_eq_some, change_timeSource_iff, fun n => change_eq_some⟩⟩
  intro s ho u gives
  refine ⟨fun hid => exec_set_of_rule ho (setRule_badId (u := u) hid), fun k hk =>
    ⟨fun hv => exec_set_of_rule ho (setRule_badValue (u := u) hk hv), ?_⟩⟩
  intro st hv w
  have locked (hl : u.settingLocked k = true) : gives u .agentsActive :=
    exec_set_of_rule ho (setRule_locked (u := u) hk hv hl)
  have performs (hl : u.settingLocked k = false) : gives (w.afterSet s.settings k) .ok :=
    exec_set_of_rule ho (setRule_performs (u := u) hk hv hl)
  refine ⟨fun hc hj => locked ?_, fun n hc hj => locked ?_, fun hc hj => ?_, fun n hc hj => ?_, fun hc => ?_,
    fun hc => ⟨fun ht he => ?_, fun hn => ?_⟩, fun hc => ⟨fun he => ?_, fun hi hr => ?_, fun hr hi => ?_⟩⟩
  · obtain rfl | rfl := hc <;> exact anyJoined_iff.2 hj
  · rw [hc]
    exact hj
  · obtain rfl | rfl := hc <;> exact performs (anyJoined_eq_false hj)
  · subst hc
    exact performs hj
  · obtain rfl | rfl | rfl | rfl | rfl := hc <;> exact performs rfl
  · subst hc
    have hdue : w.limitDue = true := limitDue_iff.2 ⟨ht, he⟩
    have hp : gives w.settleMonitor .ok := performs rfl
    rwa [settleMonitor_due hdue] at hp
  · subst hc
    have hdue : w.limitDue = false := by
      rw [← Bool.not_eq_true, limitDue_iff]
      rintro ⟨ht, he⟩
      exact hn.elim (fun h => h ht) (fun h => Nat.lt_irrefl _ (Nat.lt_of_lt_of_le h he))
    have hp : gives w.settleMonitor .ok := performs rfl
    rwa [settleMonitor_quiet hdue] at hp
  · subst hc
    have hp := performs rfl
    rwa [show w.afterSet s.settings .timeSource = w from if_pos he] at hp
  · subst hc
    have hne : w.settings.timeSource ≠ s.settings.timeSource := by
      show st.timeSource ≠ _
      rw [hi, hr]
      decide
    have hp := performs rfl
    rw [afterSet_timeSource hne, show w.settings.timeSource = .internal from hi] at hp
    exact hp
  · subst hc
    have hne : w.settings.timeSource ≠ s.settings.timeSource := by
      show st.timeSource ≠ _
      rw [hi, hr]
      decide
    have hp := performs rfl
    rw [afterSet_timeSource hne, show w.settings.timeSource = .reference from hr] at hp
    exact hp

/-! ### The requests that name a key (R2, R22, R173) -/

/-- The mailbox requests that have a rule, with their codes (Table 76). -/
def MailboxCommand (c : Instr) (code : Byte) (rule : State → Completion) : Prop :=
  ∀ s : State, exec c s = .next (s.mailboxRequest code rule)

theorem mailboxCommand_define : MailboxCommand .define 0x02 defineRule := fun _ => rfl
theorem mailboxCommand_retire : MailboxCommand .retire 0x03 retireRule := fun _ => rfl
theorem mailboxCommand_mark : MailboxCommand .mark 0x04 markRule := fun _ => rfl
theorem mailboxCommand_seed : MailboxCommand .seed 0x05 seedRule := fun _ => rfl
theorem mailboxCommand_inspect : MailboxCommand .inspect 0x06 inspectRule := fun _ => rfl
theorem mailboxCommand_badRequest (code : Byte) :
    MailboxCommand (.mailboxBadRequest code) code fun u => u.done .badRequest := fun _ => rfl

theorem MailboxCommand.completes {c : Instr} {code : Byte} {rule : State → Completion} (hc : MailboxCommand c code rule)
    {s v : State} {result : MailboxResult} (ho : s.mailboxOpen = true) (hr : rule (s.begun code) = v.done result) :
    exec c s = .next (v.completes result none) :=
  (hc s).trans (congrArg Host.Outcome.next (State.mailboxRequest_of_rule ho hr))

theorem persistent_on {m : Management} (h : m.persistence = 0x01) : m.persistent = some true := by
  rw [Management.persistent, h]
  rfl

theorem persistent_off {m : Management} (h : m.persistence = 0x00) : m.persistent = some false := if_pos h

theorem persistent_of_le {m : Management} (h : m.persistence.toNat ≤ 1) : ∃ on, m.persistent = some on := by
  have hcases : m.persistence = 0x01 ∨ m.persistence = 0x00 := by bv_omega
  obtain h | h := hcases
  · exact ⟨true, persistent_on h⟩
  · exact ⟨false, persistent_off h⟩

/-- R18: a MARK whose persistence is on or off goes on to its key, and there marks the record. -/
theorem markRule_keyed {u : State} {on : Bool} (h : u.management.persistent = some on) :
    ∃ rule : List Byte → Completion, markRule u = u.keyed rule ∧
      (∀ key, u.findKey key = none → rule key = u.done .noSuchKey) ∧
      ∀ key slot r, u.findKey key = some (slot, r) → rule key = State.done (u.markRecord slot r on) .ok := by
  simp only [markRule, h]
  exact ⟨_, rfl, fun key hk => by simp only [hk], fun key slot r hk => by simp only [hk]⟩

theorem markRule_badValue {u : State} (h : 1 < u.management.persistence.toNat) : markRule u = u.done .badValue := by
  have h0 : u.management.persistence ≠ 0x00 := by
    intro e
    rw [e] at h
    exact absurd h (by decide)
  have h1 : u.management.persistence ≠ 0x01 := by
    intro e
    rw [e] at h
    exact absurd h (by decide)
  simp only [markRule, Management.persistent, if_neg h0, if_neg h1]

section
variable {u : State} {key : List Byte} {slot : Nat} {r : Record} (hv : u.management.validKey = some key)
  (ht : u.table = .ready)
include hv ht

theorem inspectRule_noSuchKey (hk : u.findKey key = none) : inspectRule u = u.done .noSuchKey := by
  refine (keyed_ready hv ht).trans ?_
  simp only [hk]

theorem inspectRule_reports (hk : u.findKey key = some (slot, r)) : inspectRule u =
    { after := u, result := .ok,
      output := some { handle := u.handle slot, freeWays := u.freeWays key, record := r } } := by
  obtain ⟨-, rfl, -⟩ := findKey_record hk
  refine (keyed_ready hv ht).trans ?_
  simp only [hk]

end

/-- R182, Table 79: the number of a request field's two bytes. -/
theorem settingValue_eq (m : Management) :
    m.settingValue = 256 * (m.fields.getD 1 0).toNat + (m.fields.getD 2 0).toNat := halfAt_toNat m.fields 1

theorem words_toNat (m : Management) {w : Nat} (h : w < 8) : (m.words.getD w 0).toNat =
    16777216 * (m.fields.getD (0x53 + 4 * w - 0x34) 0).toNat + 65536 * (m.fields.getD (0x54 + 4 * w - 0x34) 0).toNat +
      256 * (m.fields.getD (0x55 + 4 * w - 0x34) 0).toNat + (m.fields.getD (0x56 + 4 * w - 0x34) 0).toNat := by
  have h0 : 0x53 + 4 * w - 0x34 = 31 + 4 * w := by omega
  have h1 : 0x54 + 4 * w - 0x34 = 31 + 4 * w + 1 := by omega
  have h2 : 0x55 + 4 * w - 0x34 = 31 + 4 * w + 2 := by omega
  have h3 : 0x56 + 4 * w - 0x34 = 31 + 4 * w + 3 := by omega
  rw [words_getD h, wordAt_toNat, h0, h1, h2, h3]

/-- Settles O40: the start, the completion and the fields; then the key's length, the table state and INSPECT. -/
theorem mailboxRequestsTestKeyThenTable : Obligations.MailboxRequestsTestKeyThenTable := by
  unfold Obligations.MailboxRequestsTestKeyThenTable
  refine ⟨fun _ _ => rfl, fun _ _ _ => rfl, mailboxOpen_iff, fun m => ⟨rfl, settingValue_eq m, rfl, rfl, rfl, rfl,
    fun key => validKey_iff.trans and_assoc, List.length_map _ |>.trans List.length_range, fun w h => words_toNat m h⟩,
    fun s ho => ⟨fun c code hc => ?_, fun hp => ?_, fun code => ?_⟩, fun s key ho ht hv => ⟨fun hk => ?_,
    fun slot r hk => ?_⟩⟩
  · have keyed : ∃ rule : State → Completion, MailboxCommand c code rule ∧
        ∃ inner, rule (s.begun code) = (s.begun code).keyed inner := by
      obtain ⟨rfl, rfl⟩ | ⟨rfl, rfl⟩ | ⟨rfl, rfl⟩ | ⟨rfl, rfl⟩ | ⟨rfl, rfl, hp⟩ := hc
      · exact ⟨_, mailboxCommand_define, _, rfl⟩
      · exact ⟨_, mailboxCommand_retire, _, rfl⟩
      · exact ⟨_, mailboxCommand_seed, _, rfl⟩
      · exact ⟨_, mailboxCommand_inspect, _, rfl⟩
      · obtain ⟨on, hon⟩ := persistent_of_le hp
        obtain ⟨inner, hinner, -⟩ := markRule_keyed (u := s.begun 0x04) hon
        exact ⟨_, mailboxCommand_mark, inner, hinner⟩
    obtain ⟨rule, hcommand, inner, hrule⟩ := keyed
    refine ⟨fun hl => hcommand.completes ho (hrule.trans (keyed_badValue hl)), fun h1 h24 ht => ?_⟩
    have hv : (s.begun code).management.validKey = some s.management.key := validKey_iff.2 ⟨⟨h1, h24⟩, rfl⟩
    exact hcommand.completes ho (hrule.trans (keyed_notReady hv ht))
  · exact mailboxCommand_mark.completes ho (markRule_badValue hp)
  · exact (mailboxCommand_badRequest code).completes ho rfl
  · exact mailboxCommand_inspect.completes ho
      (inspectRule_noSuchKey (u := s.begun 0x06) hv ht ((s.begun_findKey 0x06 key).trans hk))
  · have hrule := inspectRule_reports (u := s.begun 0x06) hv ht ((s.begun_findKey 0x06 key).trans hk)
    rw [mailboxCommand_inspect s, State.mailboxRequest_open ho, State.takeRequest_eq, hrule]
    rfl

end Sys2Proof.Machine
end

section
/-! The rest of the mailbox requests (R15 to R18, R172): the taking of a request that its code byte has started, DEFINE
and MARK, and RETIRE with its notices. -/

namespace Sys2Proof.Machine

/-! ### A request started at 73h (R172) -/

theorem mailboxCommand_set : MailboxCommand .set 0x01 setRule := fun _ => rfl
theorem mailboxCommand_evict : MailboxCommand .evict 0x07 evictRule := fun _ => rfl

section
variable {s : State} {code : Byte} {rule : State → Completion}

/-- R172: in BUSY with its code, the request is taken. -/
theorem mailboxRequest_busy (hq : s.quiet = true) (hh : s.held = false) (hb : s.management.mailbox = .busy)
    (hc : s.management.code = code) : s.mailboxRequest code rule = s.takeRequest rule := by
  simp only [State.mailboxRequest, State.settle_of_quiet hq, hh, hb, hc, Bool.false_eq_true, if_false, if_true]

/-- R172: a code written while the mailbox is BUSY with another is ignored. -/
theorem mailboxRequest_ignored (hq : s.quiet = true) (hh : s.held = false) (hb : s.management.mailbox = .busy)
    (hc : s.management.code ≠ code) :
    s.mailboxRequest code rule = s.setManagement s.management.codeIgnored := by
  simp only [State.mailboxRequest, State.settle_of_quiet hq, hh, hb, hc, Bool.false_eq_true, if_false]

/-- R165: while a reset is held nothing is acknowledged. -/
theorem mailboxRequest_held (hq : s.quiet = true) (hh : s.held = true) : s.mailboxRequest code rule = s := by
  simp only [State.mailboxRequest, State.settle_of_quiet hq, hh, if_true]

end

theorem exec_softReset_held {s : State} (hq : s.quiet = true) (hh : s.held = true) : exec .softReset s = .next s := by
  show execSoftReset s = _
  simp only [execSoftReset, State.settle_of_quiet hq, hh, if_true]

/-- R172: the code byte written at 73h starts its request. -/
theorem exec_registerWrite_starts {s : State} (ho : s.mailboxOpen = true) {code : Byte} (hc : code ≠ 0x08) :
    exec (.registerWrite (some 0x73) (some code)) s = .next (s.begun code) := by
  obtain ⟨hq, hh, hb⟩ := (mailboxOpen_iff s).1 ho
  have htake := writeTake_code (u := s.setManagement (s.management.addressed (some 0x73))) (v := code) hb rfl
  rw [if_neg hc] at htake
  exact congrArg Host.Outcome.next ((writeRun_byte hq hh (.inl rfl)).trans htake)

/-- A request that its code byte started comes to what the request started and taken at once comes to. -/
theorem MailboxCommand.begun {c : Instr} {code : Byte} {rule : State → Completion} (hc : MailboxCommand c code rule)
    {s : State} (ho : s.mailboxOpen = true) : exec c (s.begun code) = exec c s := by
  obtain ⟨hq, hh, -⟩ := (mailboxOpen_iff s).1 ho
  rw [hc, hc, State.mailboxRequest_open ho, mailboxRequest_busy (s := s.begun code) (code := code) hq hh rfl rfl]

/-- Settles O41: every mailbox request but SOFT_RESET is one kind of command; the three states of the mailbox. -/
theorem aStartedRequestIsTakenWhileBusy : Obligations.AStartedRequestIsTakenWhileBusy := by
  unfold Obligations.AStartedRequestIsTakenWhileBusy
  refine ⟨fun s t c code hc => ?_, fun s c hq hh hc => ?_⟩
  · have command : code ≠ 0x08 ∧ ∃ rule, MailboxCommand c code rule := by
      obtain ⟨rfl, rfl⟩ | ⟨rfl, rfl⟩ | ⟨rfl, rfl⟩ | ⟨rfl, rfl⟩ | ⟨rfl, rfl⟩ | ⟨rfl, rfl⟩ | ⟨rfl, rfl⟩ | ⟨rfl, h8⟩ := hc
      · exact ⟨by decide, _, mailboxCommand_set⟩
      · exact ⟨by decide, _, mailboxCommand_define⟩
      · exact ⟨by decide, _, mailboxCommand_retire⟩
      · exact ⟨by decide, _, mailboxCommand_mark⟩
      · exact ⟨by decide, _, mailboxCommand_seed⟩
      · exact ⟨by decide, _, mailboxCommand_inspect⟩
      · exact ⟨by decide, _, mailboxCommand_evict⟩
      · exact ⟨h8, _, mailboxCommand_badRequest code⟩
    obtain ⟨h8, rule, hcommand⟩ := command
    refine ⟨fun ho hx => ?_, fun hq hh hb hne => ?_⟩
    · rw [exec_registerWrite_starts ho h8, Host.Outcome.next.injEq] at hx
      subst hx
      exact ⟨rfl, rfl, hcommand.begun ho⟩
    · rw [hcommand, mailboxRequest_ignored hq hh hb hne]
      rfl
  · have held {code : Byte} {rule : State → Completion} (hcommand : MailboxCommand c code rule) :
        exec c s = .next s := by rw [hcommand, mailboxRequest_held hq hh]
    obtain rfl | rfl | rfl | rfl | rfl | rfl | rfl | rfl | ⟨code, rfl⟩ := hc
    · exact held mailboxCommand_set
    · exact held mailboxCommand_define
    · exact held mailboxCommand_retire
    · exact held mailboxCommand_mark
    · exact held mailboxCommand_seed
    · exact held mailboxCommand_inspect
    · exact held mailboxCommand_evict
    · exact exec_softReset_held hq hh
    · exact held (mailboxCommand_badRequest code)

/-! ### DEFINE and MARK (R15, R18) -/

section
variable {u : State} {key : List Byte} {slot : Nat} {r : Record} (hv : u.management.validKey = some key)
  (ht : u.table = .ready)
include hv ht

theorem defineRule_exists (hk : u.findKey key = some (slot, r)) : defineRule u = u.done .exists_ := by
  refine (keyed_ready hv ht).trans ?_
  simp only [hk]

theorem defineRule_tableFull (hk : u.findKey key = none) (hw : u.vacantWays key = []) :
    defineRule u = u.done .tableFull := by
  refine (keyed_ready hv ht).trans ?_
  simp only [hk, hw]

theorem defineRule_creates {others : List Nat} (hk : u.findKey key = none) (hw : u.vacantWays key = slot :: others) :
    defineRule u = (u.putRecord slot (newRecord key true)).done .ok := by
  refine (keyed_ready hv ht).trans ?_
  simp only [hk, hw]

variable {on : Bool} (hp : u.management.persistent = some on)
include hp

theorem markRule_marks (hk : u.findKey key = some (slot, r)) : markRule u = (u.markRecord slot r on).done .ok := by
  obtain ⟨rule, hrule, -, hmarks⟩ := markRule_keyed hp
  rw [hrule, keyed_ready hv ht, hmarks key slot r hk]

theorem markRule_noSuchKey (hk : u.findKey key = none) : markRule u = u.done .noSuchKey := by
  obtain ⟨rule, hrule, hnone, -⟩ := markRule_keyed hp
  rw [hrule, keyed_ready hv ht, hnone key hk]

end

section
variable {u : State} {slot : Nat} {r : Record}

theorem empty_eq_true_iff : r.empty = true ↔ r.holders = [] ∧ r.queue = [] := by
  rw [Record.empty, Bool.and_eq_true, List.isEmpty_iff, List.isEmpty_iff]

/-- R18: MARK off on an empty persistent record. -/
theorem markRecord_retires (hp : r.persistent = true) (hh : r.holders = []) (hq : r.queue = []) :
    u.markRecord slot r false = u.retire slot := by
  rw [State.markRecord, if_neg Bool.false_ne_true, hp, empty_eq_true_iff.2 ⟨hh, hq⟩]
  rfl

theorem markRecord_off (h : r.persistent = false ∨ r.holders ≠ [] ∨ r.queue ≠ []) :
    u.markRecord slot r false = u.putRecord slot { r with persistent := false } := by
  rw [State.markRecord, if_neg Bool.false_ne_true]
  refine if_neg ?_
  rw [Bool.and_eq_true, empty_eq_true_iff]
  rintro ⟨hp, hh, hq⟩
  obtain h | h | h := h
  · exact Bool.false_ne_true (h.symm.trans hp)
  · exact h hh
  · exact h hq

end

/-- Settles O42: each case of the two rules. -/
theorem defineAndMarkSetPersistence : Obligations.DefineAndMarkSetPersistence := by
  unfold Obligations.DefineAndMarkSetPersistence
  intro s key ho ht hv
  have found (code : Byte) {x : Option (Nat × Record)} (hk : s.findKey key = x) : (s.begun code).findKey key = x :=
    (s.begun_findKey code key).trans hk
  refine ⟨fun slot r hk => ⟨?_, fun hp => ?_, fun hp => ⟨fun hr hh hq => ?_, fun hn => ?_⟩⟩, fun hk =>
    ⟨fun hp => ?_, fun hw => ?_, fun slot others hw => ?_⟩⟩
  · exact mailboxCommand_define.completes ho (defineRule_exists (u := s.begun 0x02) hv ht (found 0x02 hk))
  · exact mailboxCommand_mark.completes ho
      (markRule_marks (u := s.begun 0x04) hv ht (persistent_on hp) (found 0x04 hk))
  · have hrule := markRule_marks (u := s.begun 0x04) hv ht (persistent_off hp) (found 0x04 hk)
    rw [markRecord_retires hr hh hq] at hrule
    exact mailboxCommand_mark.completes ho hrule
  · have hrule := markRule_marks (u := s.begun 0x04) hv ht (persistent_off hp) (found 0x04 hk)
    rw [markRecord_off hn] at hrule
    exact mailboxCommand_mark.completes ho hrule
  · obtain ⟨on, hon⟩ := persistent_of_le hp
    exact mailboxCommand_mark.completes ho (markRule_noSuchKey (u := s.begun 0x04) hv ht hon (found 0x04 hk))
  · exact mailboxCommand_define.completes ho (defineRule_tableFull (u := s.begun 0x02) hv ht (found 0x02 hk) hw)
  · exact mailboxCommand_define.completes ho (defineRule_creates (u := s.begun 0x02) hv ht (found 0x02 hk) hw)

/-! ### RETIRE (R16, R17) -/

/-- R17: the notices of a retirement, posted to every agent with a part in the record. -/
def State.notifyParts (s : State) (slot : Nat) (r : Record) : State :=
  (agents.filter r.hasPart).foldl (fun t n => t.postPlain slot n (retireNotice r n)) s

/-- A fold of plain notices to different agents: each gets its own, and nothing but the cells changes. -/
theorem foldl_postPlain (slot : Nat) (k : Agent → NoticeKind) (l : List Agent) (hl : l.Nodup) (s : State) :
    (∀ n, (l.foldl (fun t m => t.postPlain slot m (k m)) s).cells.get n = if n ∈ l then
      Sparse.put slot { kind := k n, gen := s.generation slot, lifetime := none, epoch := none } (s.cells.get n)
      else s.cells.get n) ∧
    { l.foldl (fun t m => t.postPlain slot m (k m)) s with cells := s.cells } = s := by
  induction l generalizing s with
  | nil => exact ⟨fun n => rfl, rfl⟩
  | cons m l ih =>
    obtain ⟨hm, hl⟩ := List.nodup_cons.1 hl
    obtain ⟨hcells, hrest⟩ := ih hl (s.postPlain slot m (k m))
    refine ⟨fun n => ?_, congrArg (fun t : State => { t with cells := s.cells }) hrest⟩
    rw [List.foldl_cons, hcells n]
    by_cases hn : n = m
    · subst hn
      rw [if_neg hm, if_pos List.mem_cons_self]
      exact PerAgent.get_set_same _ _ _
    · have hget : (s.postPlain slot m (k m)).cells.get n = s.cells.get n := PerAgent.get_set_ne _ hn _
      simp only [hget, List.mem_cons, hn, false_or]
      rfl

theorem notifyParts_cells (s : State) (slot : Nat) (r : Record) (n : Agent) : (s.notifyParts slot r).cells.get n =
    if r.hasPart n then Sparse.put slot
      { kind := retireNotice r n, gen := s.generation slot, lifetime := none, epoch := none } (s.cells.get n)
    else s.cells.get n := by
  have hnodup : (agents.filter r.hasPart).Nodup := List.Nodup.filter _ (by decide)
  rw [State.notifyParts, (foldl_postPlain slot (retireNotice r) _ hnodup s).1 n]
  simp only [List.mem_filter, mem_agents, true_and]

theorem retireRule_noSuchKey {u : State} {key : List Byte} (hv : u.management.validKey = some key)
    (ht : u.table = .ready) (hk : u.findKey key = none) : retireRule u = u.done .noSuchKey := by
  refine (keyed_ready hv ht).trans ?_
  simp only [hk]

theorem retireRule_retires {u : State} {key : List Byte} {slot : Nat} {r : Record}
    (hv : u.management.validKey = some key) (ht : u.table = .ready) (hk : u.findKey key = some (slot, r)) :
    retireRule u = ((u.notifyParts slot r).retire slot).done .ok := by
  refine (keyed_ready hv ht).trans ?_
  simp only [hk]
  rfl

/-- Settles O43: the notices first, to holders and to claimants, then the retirement. -/
theorem retireRevokesAndCancels : Obligations.RetireRevokesAndCancels := by
  unfold Obligations.RetireRevokesAndCancels
  intro s key ho ht hv
  refine ⟨fun hk => ?_, fun slot r hk => ⟨(s.begun 0x03).notifyParts slot r, ?_, fun n => ?_, ?_⟩⟩
  · exact mailboxCommand_retire.completes ho
      (retireRule_noSuchKey (u := s.begun 0x03) hv ht ((s.begun_findKey 0x03 key).trans hk))
  · exact mailboxCommand_retire.completes ho
      (retireRule_retires (u := s.begun 0x03) hv ht ((s.begun_findKey 0x03 key).trans hk))
  · have hcells := notifyParts_cells (s.begun 0x03) slot r n
    rw [Record.hasPart, retireNotice] at hcells
    rw [hcells]
    cases r.holds n with
    | true => rfl
    | false => cases r.waits n <;> rfl
  · exact (foldl_postPlain slot (retireNotice r) _ (List.Nodup.filter _ (by decide)) (s.begun 0x03)).2

end Sys2Proof.Machine
end

section
/-! Runs of bytes read (R165, R166, R168, R174): what a run takes from the STATUS byte and the mailbox, and what one
byte reads out of the window or a latch. -/

namespace Sys2Proof.Machine

/-! ### The effects of a run -/

/-- The pointer of a run stands at an address after some of its bytes. -/
theorem pointer_at_iff {p c : Byte} {k : Nat} : p + BitVec.ofNat 8 k = c ↔ (c - p).toNat = k % 256 := by
  bv_omega

/-- R165: a run of one byte more has passed an address when the run had, or now stands there. -/
theorem passed_succ (p c : Byte) (k : Nat) :
    (c - p).toNat < k + 1 ↔ (c - p).toNat < k ∨ p + BitVec.ofNat 8 k = c := by
  have hlt := (c - p).isLt
  rw [pointer_at_iff]
  omega

/-- What a run of `k` bytes leaves of the part, but for the latches and the bytes read. -/
structure ReadEffects (s : State) (k : Nat) (t : State) : Prop where
  pointer : t.management.pointer = s.management.pointer + BitVec.ofNat 8 k
  taken : t.management.readOut.length = s.management.readOut.length + k
  flag : t.monitor.managementFlag = (s.monitor.managementFlag &&
    !decide ((0x05 - s.management.pointer).toNat < k))
  mailbox : t.management.mailbox = if s.management.mailbox = .done ∧ (0x74 - s.management.pointer).toNat < k then .empty
    else s.management.mailbox
  request : t.management.fields = s.management.fields ∧ t.management.code = s.management.code ∧
    t.management.result = s.management.result ∧ t.management.output = s.management.output
  monitor : { t.monitor with managementFlag := s.monitor.managementFlag } = s.monitor
  rest : { t with management := s.management, monitor := s.monitor } = s

theorem ReadEffects.zero (s : State) : ReadEffects s 0 s := by
  refine ⟨?_, rfl, ?_, ?_, ⟨rfl, rfl, rfl, rfl⟩, rfl, rfl⟩
  · exact (BitVec.add_zero _).symm
  · rw [decide_eq_false (Nat.not_lt_zero _), Bool.not_false, Bool.and_true]
  · rw [if_neg fun h => Nat.not_lt_zero _ h.2]

/-- The STATUS byte's flag stays cleared once it has been read. -/
theorem flag_after_next (flag : Bool) (p : Byte) (k : Nat) :
    ((flag && !decide ((0x05 - p).toNat < k)) && !decide (p + BitVec.ofNat 8 k = 0x05)) =
      (flag && !decide ((0x05 - p).toNat < k + 1)) := by
  rw [decide_eq_decide.2 (passed_succ p 0x05 k), Bool.decide_or, Bool.not_or, Bool.and_assoc]

/-- A mailbox that a read has emptied stays EMPTY. -/
theorem mailbox_after_next {m m' : MailboxState} {p : Byte} {k : Nat}
    (h : m' = if m = .done ∧ (0x74 - p).toNat < k then .empty else m) :
    (if m' = .done ∧ p + BitVec.ofNat 8 k = 0x74 then .empty else m') =
      if m = .done ∧ (0x74 - p).toNat < k + 1 then .empty else m := by
  have hpassed := passed_succ p 0x74 k
  by_cases hm : m = .done
  · by_cases hk : (0x74 - p).toNat < k
    · rw [if_pos ⟨hm, hk⟩] at h
      rw [h, if_neg (fun h => MailboxState.noConfusion h.1), if_pos ⟨hm, hpassed.2 (.inl hk)⟩]
    · rw [if_neg fun h => hk h.2] at h
      rw [h]
      exact if_congr (and_congr_right fun _ => by rw [hpassed, or_iff_right hk]) rfl rfl
  · rw [if_neg fun h => hm h.1] at h
    rw [h, if_neg fun h => hm h.1, if_neg fun h => hm h.1]

theorem ReadEffects.next {s t : State} {k : Nat} (h : ReadEffects s k t) : ReadEffects s (k + 1) t.readTake := by
  rw [readTake_eq]
  refine ⟨?_, ?_, ?_, ?_, h.request, h.monitor, h.rest⟩
  · show t.management.pointer + 1 = _
    rw [h.pointer, BitVec.add_assoc, BitVec.ofNat_add]
    rfl
  · show (t.management.readOut ++ [_]).length = _
    rw [List.length_append, h.taken]
    rfl
  · show (t.monitor.managementFlag && !decide (t.management.pointer = 0x05)) = _
    rw [h.flag, h.pointer, flag_after_next]
  · show (if t.management.mailbox = .done ∧ t.management.pointer = 0x74 then .empty else t.management.mailbox) = _
    rw [h.pointer]
    exact mailbox_after_next h.mailbox

theorem readMany_effects (k : Nat) (s : State) : ReadEffects s k (State.readMany k s) := by
  induction k with
  | zero => exact ReadEffects.zero s
  | succ k ih =>
    rw [readMany_succ]
    exact ih.next

/-! ### Runs as commands -/

theorem exec_statusRead {s : State} {run : ReadRun} (hq : s.quiet = true) (hh : s.held = false)
    (hl : run.start.isNew = true ∨ s.management.listening = true) : exec (.statusRead run) s =
      .next (State.readMany run.count (s.setManagement (s.management.beginRead run.start))) :=
  congrArg Host.Outcome.next (readRun_takes hq hh hl)

/-- A run that goes on with a transfer under way. -/
theorem exec_statusRead_continued {s : State} (hq : s.quiet = true) (hh : s.held = false)
    (hl : s.management.listening = true) (count : Nat) :
    exec (.statusRead { start := .continued, count := count }) s =
      .next (State.readMany count (s.setManagement { s.management with readOut := [] })) :=
  exec_statusRead hq hh (.inr hl)

theorem isNew_iff {start : ReadStart} : start.isNew = true ↔ start ≠ .continued := by
  cases start <;> simp [ReadStart.isNew]

/-- R165: where a run begins. -/
theorem beginRead_pointer (m : Management) (start : ReadStart) : (m.beginRead start).pointer = (match start with
    | .addressed a => a
    | .standing | .continued => m.pointer) := by
  cases start <;> rfl

theorem mattn_iff {s : State} :
    s.mattn = true ↔ s.management.mailbox = .done ∨ s.monitor.managementFlag = true := by
  rw [State.mattn, Bool.or_eq_true, beq_iff_eq]

/-- The beginning of a run changes the pointer, the latches and the record of bytes read alone. -/
theorem beginRead_effects {s t : State} {start : ReadStart} {k : Nat}
    (h : ReadEffects (s.setManagement (s.management.beginRead start)) k t) :
    t.management.readOut.length = k ∧
    t.management.mailbox = (if s.management.mailbox = .done ∧
      (0x74 - (s.management.beginRead start).pointer).toNat < k then .empty else s.management.mailbox) ∧
    t.management.fields = s.management.fields ∧ t.management.code = s.management.code ∧
    t.management.result = s.management.result ∧ t.management.output = s.management.output ∧
    { t with management := s.management, monitor := s.monitor } = s := by
  obtain ⟨hfields, hcode, hresult, houtput⟩ := h.request
  have hrest := congrArg (fun u : State => { u with management := s.management }) h.rest
  have htaken := h.taken
  have hmailbox := h.mailbox
  cases start <;>
    exact ⟨htaken.trans (Nat.zero_add k), hmailbox, hfields, hcode, hresult, houtput, hrest⟩

/-! ### One byte -/

theorem latchedFields_eq : latchedFields = [(0x00, 2), (0x02, 2), (0x08, 3), (0x0C, 3), (0x10, 3), (0x14, 3), (0x18, 2),
    (0x1A, 2), (0x1C, 2), (0x1E, 2), (0x20, 2), (0x22, 2), (0x24, 2), (0x26, 2), (0x28, 2), (0x2A, 2), (0x2C, 2),
    (0x2E, 2), (0x30, 2), (0x35, 2), (0x3B, 24), (0x53, 4), (0x57, 4), (0x5B, 4), (0x5F, 4), (0x63, 4), (0x67, 4),
    (0x6B, 4), (0x6F, 4)] := by decide

/-- The state in which a run that goes on with its transfer reads its first byte. -/
def State.reading (s : State) : State := s.setManagement { s.management with readOut := [] }

/-- R166: the byte read and the latches after it. -/
theorem reading_readTake (s : State) :
    s.reading.readTake.management.readOut = [(s.reading.latchedByte s.management.pointer.toNat).1] ∧
    s.reading.readTake.management.fieldLatch = (s.reading.latchedByte s.management.pointer.toNat).2.fieldLatch ∧
    s.reading.readTake.management.outputLatch = (s.reading.latchedByte s.management.pointer.toNat).2.outputLatch := by
  rw [readTake_eq]
  exact ⟨rfl, rfl, rfl⟩

/-- A run of one byte more is the run and one byte more. -/
theorem readMany_succ_readOut (k : Nat) (s : State) : State.readMany (k + 1) s =
    (State.readMany k s).reading.readTake.setManagement { (State.readMany k s).reading.readTake.management with
      readOut := (State.readMany k s).management.readOut ++
        (State.readMany k s).reading.readTake.management.readOut } := by
  rw [readMany_succ]
  generalize State.readMany k s = t
  have hone := readTake_readOut t []
  rw [← State.reading] at hone
  rw [hone, readTake_eq]
  rfl

/-- R166: a byte below the output area leaves the area's latch. -/
theorem latchedByte_below (s : State) {a : Nat} (h : a < 0x78) :
    (s.latchedByte a).2.outputLatch = s.management.outputLatch := by
  cases hf : fieldOf a with
  | none => rw [latchedByte_single h (fieldOf_none.1 hf)]
  | some f =>
    obtain ⟨hmem, hle, hlt⟩ := fieldOf_some hf
    obtain he | hlt' := Nat.eq_or_lt_of_le hle
    · rw [← he, latchedByte_first hmem]
    · rw [(latchedByte_later hmem hlt' hlt).1]

/-- R166: a byte of the output area. -/
theorem reading_output {s : State} (hp : 0x78 ≤ s.management.pointer.toNat) :
    s.reading.latchedByte s.management.pointer.toNat =
      ((s.management.outputLatch.getD (s.window.drop 0x78)).getD (s.management.pointer.toNat - 0x78) 0,
        { s.reading.management with outputLatch := some (s.management.outputLatch.getD (s.window.drop 0x78)) }) := by
  rw [latchedByte_output (s := s.reading) hp, window_output]
  rfl

/-- Settles O46: a run by its effects byte after byte; the one byte by where its address lies. -/
theorem readRunsTakeStatusAndResult : Obligations.ReadRunsTakeStatusAndResult := by
  unfold Obligations.ReadRunsTakeStatusAndResult
  refine ⟨fun _ _ => rfl, fun s run hq hh hl => ?_, fun s run hq hl => ?_, fun _ => mattn_iff,
    fun s a count hq hh => ⟨?_, ?_⟩, fun s count hq hh hl => ?_, latchedFields_eq, fun s hq hh hl => ?_⟩
  · intro p
    have hp : (s.management.beginRead run.start).pointer = p := beginRead_pointer s.management run.start
    have heffects := readMany_effects run.count (s.setManagement (s.management.beginRead run.start))
    obtain ⟨htaken, hmailbox, hfields, hcode, hresult, houtput, hrest⟩ := beginRead_effects heffects
    rw [hp] at hmailbox
    exact ⟨_, exec_statusRead hq hh (hl.imp_left isNew_iff.2), hp ▸ heffects.pointer, htaken, hp ▸ heffects.flag,
      hmailbox, hfields, hcode, hresult, houtput, heffects.monitor, hrest⟩
  · refine congrArg Host.Outcome.next (readRun_apart hq (hl.imp_right fun ⟨hc, hn⟩ => ⟨?_, hn⟩))
    rw [hc]
    rfl
  · refine (exec_statusRead hq hh (.inl rfl)).trans (Eq.symm ?_)
    exact exec_statusRead_continued
      (s := s.setManagement { s.management.newTransfer with pointer := a }) hq hh rfl count
  · refine (exec_statusRead hq hh (.inl rfl)).trans (Eq.symm ?_)
    exact exec_statusRead_continued (s := s.setManagement s.management.newTransfer) hq hh rfl count
  · obtain ⟨htq, hth, htl⟩ := readMany_quiet count s.reading
    refine ⟨State.readMany count s.reading, (State.readMany count s.reading).reading.readTake,
      exec_statusRead_continued hq hh hl count,
      exec_statusRead_continued (htq.trans hq) (hth.trans hh) (htl.trans hl) 1, ?_⟩
    rw [exec_statusRead_continued hq hh hl (count + 1), ← State.reading, readMany_succ_readOut]
  · intro p m
    obtain ⟨hout, hfield, harea⟩ := reading_readTake s
    refine ⟨s.reading.readTake, (s.reading.latchedByte p).1, exec_statusRead_continued hq hh hl 1, hout,
      fun hp => ⟨?_, fun area ha => ?_, fun ha => ?_⟩, fun hp => ⟨?_, fun hf => ?_, fun f hf =>
        ⟨fun he => ?_, fun h1 h2 => ?_⟩⟩⟩
    · rw [hfield, reading_output hp]
      rfl
    · rw [harea, reading_output hp, ha]
      exact ⟨rfl, rfl⟩
    · rw [harea, reading_output hp, ha]
      refine ⟨?_, rfl⟩
      rw [windowByte_output s hp, ← window_output]
      rfl
    · exact harea.trans (latchedByte_below s.reading hp)
    · rw [hfield, latchedByte_single (s := s.reading) hp hf]
      exact ⟨rfl, rfl⟩
    · rw [hfield]
      show (s.reading.latchedByte p).1 = _ ∧ (s.reading.latchedByte p).2.fieldLatch = _
      rw [he, latchedByte_first (s := s.reading) hf]
      exact ⟨rfl, rfl⟩
    · obtain ⟨hkeep, hlatched, hfresh⟩ := latchedByte_later (s := s.reading) hf h1 h2
      have hsame : (s.reading.latchedByte p).2.fieldLatch = s.reading.management.fieldLatch :=
        congrArg Management.fieldLatch hkeep
      exact ⟨hfield.trans hsame, hlatched, hfresh⟩

end Sys2Proof.Machine
end

section
/-! The window byte by byte (R168, R174, R175, R179, Tables 78, 79, 80), and the bytes written into it (R165, R166,
R172). -/

namespace Sys2Proof.Machine

/-! ### The bytes of the window -/

/-- R179: the two bytes of a count. -/
theorem bytes_count16 : (fun v : Nat => [BitVec.ofNat 8 (v / 256), BitVec.ofNat 8 v]) = count16 :=
  funext fun v => (count16_eq v).symm

/-- R179: the four bytes of a word. -/
theorem bytes_be32 : (fun v : Word => [BitVec.ofNat 8 (v.toNat / 16777216), BitVec.ofNat 8 (v.toNat / 65536),
    BitVec.ofNat 8 (v.toNat / 256), BitVec.ofNat 8 v.toNat]) = be32 :=
  funext fun v => (be32_eq v).symm

theorem be16_eq_count16 (v : Half) : be16 v = count16 v.toNat := (be16_eq v).trans (count16_eq v.toNat).symm

/-- R179: a place of the request fields lies in the key field beyond the key. -/
theorem keyPadding_iff (length i : Nat) :
    7 + length ≤ i ∧ i < 31 ↔ 7 ≤ i ∧ length ≤ i - 7 ∧ i - 7 < 24 := by omega

theorem fieldsView_eq (m : Management) : m.fieldsView = (List.range 63).map fun i =>
    if 7 ≤ i ∧ m.keyLength ≤ i - 7 ∧ i - 7 < 24 then 0x00 else m.fields.getD i 0 :=
  List.map_congr_left fun i _ => if_congr (keyPadding_iff m.keyLength i) rfl rfl

/-- Table 79: the constants at the head of the window. -/
theorem identity_bytes : be16 Config.vendorCode = [0x5E, 0x7A] ∧ be16 Config.partCode = [0x41, 0x60] ∧
    Config.revision = 0x01 := by decide

/-- Table 79: the four agents' views. -/
theorem agentViews_eq (view : Agent → List Byte) :
    agents.flatMap view = view 0 ++ view 1 ++ view 2 ++ view 3 := by
  simp only [agents, List.flatMap_cons, List.flatMap_nil, List.append_nil, List.append_assoc]

theorem settingsView_eq (st : Settings) : settingsView st =
    count16 st.defaultLife ++ count16 st.minLife ++ count16 st.maxLife ++ count16 st.derate.code ++
      count16 st.createBurst ++ count16 st.createSpan ++ count16 st.standbyMax ++ count16 st.holdoverMax ++
      count16 st.timeSource.code ++ count16 (st.quota.get 0) ++ count16 (st.quota.get 1) ++
      count16 (st.quota.get 2) ++ count16 (st.quota.get 3) := by
  simp only [settingsView, List.flatMap_cons, List.flatMap_nil, List.append_nil, List.append_assoc]

/-- Table 80: the four places of the holders or of the queue. -/
theorem fourPlaces_eq (place : Nat → List Byte) :
    (List.range 4).flatMap place = place 0 ++ place 1 ++ place 2 ++ place 3 := by
  simp only [List.range_succ, List.range_zero, List.flatMap_append, List.flatMap_cons, List.flatMap_nil,
    List.append_nil, List.nil_append]

/-- Table 79: the STATUS byte of four conditions. -/
def statusOf (ready flag full : Bool) (mailbox : MailboxState) : Byte :=
  byteOf ((if ready then 1 else 0) + (if flag then 2 else 0) + (if full then 4 else 0)) ||| (mailbox.code <<< 4)

theorem statusOf_bits (ready flag full : Bool) (mailbox : MailboxState) :
    (statusOf ready flag full mailbox).getLsbD 0 = ready ∧ (statusOf ready flag full mailbox).getLsbD 1 = flag ∧
    (statusOf ready flag full mailbox).getLsbD 2 = full ∧ (statusOf ready flag full mailbox).getLsbD 3 = false ∧
    (statusOf ready flag full mailbox).toNat / 16 = mailbox.code.toNat := by
  revert ready flag full
  cases mailbox with
  | empty => decide
  | busy => decide
  | done => decide

theorem statusByte_eq (s : State) : s.statusByte =
    statusOf (decide (s.table = .ready)) s.monitor.managementFlag (exhausted s.epochSource) s.management.mailbox := by
  simp only [State.statusByte, statusOf, decide_eq_true_eq]

theorem exhausted_eq (e : Epoch) : exhausted e = decide (e = 0xFFFFFFFF) := by
  rw [Bool.eq_iff_iff, decide_eq_true_eq, exhausted_iff]

/-- A run with its register address sent, and one from where the pointer stands, read the window from there. -/
theorem readRun_reads {s : State} {start : ReadStart} {a : Byte} {count : Nat}
    (hstart : start = .addressed a ∨ start = .standing ∧ s.management.pointer = a) (hq : s.quiet = true)
    (hh : s.held = false) (hk : a.toNat + count ≤ 256) :
    ∃ t : State, exec (.statusRead { start := start, count := count }) s = .next t ∧
      t.management.readOut = (s.window.drop a.toNat).take count := by
  have hreading := (readMany_window (s := s) count hk).out.trans (window_run s hk)
  obtain rfl | ⟨rfl, rfl⟩ := hstart
  · exact ⟨_, exec_statusRead hq hh (.inl rfl), hreading⟩
  · exact ⟨_, exec_statusRead hq hh (.inl rfl), hreading⟩

/-- Settles O47: the window and the output area are the model's lists, written with the two and four bytes of each
field. -/
theorem aByteReadIsTheWindowsByte : Obligations.AByteReadIsTheWindowsByte := by
  unfold Obligations.AByteReadIsTheWindowsByte
  intro two four
  have htwo : two = count16 := bytes_count16
  have hfour : four = be32 := bytes_be32
  clear_value two four
  subst htwo hfour
  refine ⟨fun s a count c ⟨start, hstart, hc⟩ hq hh hk => ?_, fun s => ?_, rfl, rfl, rfl, rfl, fun x => ?_⟩
  · obtain ⟨t, ht, hout⟩ := readRun_reads hstart hq hh hk
    obtain rfl | rfl := hc
    · exact ⟨t, ht, hout⟩
    · exact ⟨t, ht, hout⟩
  · intro view key
    obtain ⟨hready, hflag, hfull, hspare, hhigh⟩ := statusOf_bits (decide (s.table = .ready)) s.monitor.managementFlag
      (exhausted s.epochSource) s.management.mailbox
    rw [← statusByte_eq] at hready hflag hfull hspare hhigh
    refine ⟨window_length s, ?_, hready, hflag, hfull.trans (exhausted_eq _), hspare, hhigh.trans ?_⟩
    · obtain ⟨hvendor, hpart, hrevision⟩ := identity_bytes
      rw [State.window, fieldsView_eq, agentViews_eq, settingsView_eq, hvendor, hpart, hrevision]
      simp only [List.append_assoc]
      rfl
    · cases s.management.mailbox <;> rfl
  · intro holder claim
    have hholder (k : Nat) : holderPlace x.record.holders[k]? = holder k := by
      show _ = (match x.record.holders[k]? with | some h => _ | none => _)
      cases x.record.holders[k]? <;> rfl
    have hclaim (k : Nat) : claimPlace x.record.queue[k]? = claim k := by
      show _ = (match x.record.queue[k]? with | some h => _ | none => _)
      cases x.record.queue[k]? <;> rfl
    rw [summaryBytes, fourPlaces_eq, fourPlaces_eq, be16_eq_count16]
    simp only [hholder, hclaim, List.append_assoc]
    rfl

/-! ### Bytes written -/

/-- The port's mailbox and request fields stand while an address byte is taken. -/
theorem addressed_keeps (m : Management) (address : Option Byte) :
    (m.addressed address).mailbox = m.mailbox ∧ (m.addressed address).fields = m.fields := by
  cases address <;> exact ⟨rfl, rfl⟩

/-- R165: a byte written where it has no effect. -/
theorem writeTake_ignored {u : State} {v : Byte}
    (h : u.management.mailbox = .busy ∨ u.management.pointer.toNat < 0x34 ∨ 0x73 < u.management.pointer.toNat) :
    u.writeTake v = u.setManagement { u.management with pointer := u.management.pointer + 1 } := by
  by_cases hb : u.management.mailbox = .busy
  · simp only [State.writeTake, hb, if_true]
  · have hp := h.resolve_left hb
    simp only [State.writeTake, if_neg hb]
    rw [if_neg (by omega), if_neg (by omega)]

/-- R172: a byte written to a request field. -/
theorem writeTake_field {u : State} {v : Byte} (hb : u.management.mailbox ≠ .busy)
    (hlow : 0x34 ≤ u.management.pointer.toNat) (hhigh : u.management.pointer.toNat ≤ 0x72) :
    u.writeTake v = u.setManagement { u.management with
      pointer := u.management.pointer + 1,
      fields := storeField u.management.fields u.management.pointer.toNat v } := by
  simp only [State.writeTake, if_neg hb]
  rw [if_pos ⟨hlow, hhigh⟩]

theorem storeField_length (fields : List Byte) (a : Nat) (v : Byte) : (storeField fields a v).length = 63 := by
  rw [storeField, List.length_map, List.length_range]

theorem storeField_getD (fields : List Byte) (a : Nat) (v : Byte) {i : Nat} (hi : i < 63) :
    (storeField fields a v).getD i 0 = if i = a - 0x34 then v else fields.getD i 0 := by
  rw [storeField, List.getD_eq_getElem?_getD, List.getElem?_map, List.getElem?_range hi]
  rfl

/-- R165: a byte written in a transfer the port takes part in, by what the port does with it. -/
theorem exec_registerWrite_byte {s t : State} {address : Option Byte} {m : Management} {v : Byte}
    (hq : s.quiet = true) (hh : s.held = false) (hl : address.isSome = true ∨ s.management.listening = true)
    (hm : s.management.addressed address = m) (ht : (s.setManagement m).writeTake v = t) :
    exec (.registerWrite address (some v)) s = .next t :=
  congrArg Host.Outcome.next ((writeRun_byte hq hh hl).trans (hm ▸ ht))

/-- R165, R172: the code byte written at 73h starts its request. -/
theorem writeTake_starts {u : State} {v : Byte} (hb : u.management.mailbox ≠ .busy)
    (hp : u.management.pointer = 0x73) (hv : v ≠ 0x08) : u.writeTake v = u.begun v := by
  rw [writeTake_code hb hp, if_neg hv]

/-- Settles O48: the byte by where the pointer stands. -/
theorem writesReachTheRequestFields : Obligations.WritesReachTheRequestFields := by
  unfold Obligations.WritesReachTheRequestFields
  refine ⟨fun s address data hq hl => congrArg Host.Outcome.next (writeRun_apart hq hl),
    fun s target newStart byte => acknowledges_iff, fun s address hq hh hl => ?_⟩
  intro m p
  have hm : s.management.addressed address = m := by cases address <;> rfl
  obtain ⟨hmailbox, hfields⟩ : m.mailbox = s.management.mailbox ∧ m.fields = s.management.fields :=
    hm ▸ addressed_keeps s.management address
  refine ⟨congrArg Host.Outcome.next (writeRun_address hq hh hl), fun v => ⟨fun hnone => ?_, fun hb hlow hhigh =>
    ?_, fun hb hp hv => ?_, fun hb hp hv => ?_⟩⟩
  · exact exec_registerWrite_byte hq hh hl hm (writeTake_ignored (hnone.imp_left hmailbox.trans))
  · refine ⟨storeField m.fields p v, storeField_length m.fields p v, fun i hi => ?_,
      exec_registerWrite_byte hq hh hl hm (writeTake_field (hmailbox ▸ hb) hlow hhigh)⟩
    rw [storeField_getD m.fields p v hi, hfields]
  · have hpointer : m.pointer = 0x73 := BitVec.eq_of_toNat_eq hp
    exact exec_registerWrite_byte hq hh hl hm (writeTake_starts (hmailbox ▸ hb) hpointer hv)
  · have ho : s.mailboxOpen = true := (mailboxOpen_iff s).2 ⟨hq, hh, hb⟩
    have hpointer : (s.management.addressed address).pointer = 0x73 := hm ▸ BitVec.eq_of_toNat_eq hp
    rw [hv, exec_registerWrite_softReset ho hl hpointer, exec_softReset ho]

end Sys2Proof.Machine
end

section
/-! The time base follows the reference (R130 to R134, Table 47): pulses and missing-pulse events in each reference
state. -/

namespace Sys2Proof.Machine

/-! ### The events as commands -/

theorem exec_trefPulse {s : State} (hq : s.quiet = true) (ns : Nat) :
    exec (.trefPulse ns) s = .next (if s.measuring then s.pulse ns else s) := by
  show execTrefPulse ns s = _
  simp only [execTrefPulse, State.settle_of_quiet hq]

theorem exec_missingPulse {s : State} (hq : s.quiet = true) :
    exec .missingPulse s = .next (if s.measuring && s.monitor.lastPulse.isPresent then s.missing else s) := by
  show execMissingPulse s = _
  simp only [execMissingPulse, State.settle_of_quiet hq]

/-! ### The parts of a pulse -/

/-- R130: the monitor after a pulse that changes no time state and no count. -/
def Monitor.pulsed (m : Monitor) (ns : Nat) : Monitor := { m.advance ns with lastPulse := .present 0 }

/-- The state in which a pulse is taken: the oscillator time since the monitor's latest event has passed. -/
def State.elapsed (s : State) (ns : Nat) : State := s.setMonitor (s.monitor.advance ns)

/-- R130: a pulse that ends no interval. -/
theorem pulse_first {s : State} (h : s.monitor.lastPulse = .absent ∨ s.monitor.timeState = .holdover ∨
    s.monitor.timeState = .unsafeTime) (ns : Nat) : s.pulse ns = (s.elapsed ns).firstPulse := by
  unfold State.pulse
  obtain hp | ht | ht := h
  · rw [hp]
    cases s.monitor.timeState <;> rfl
  · rw [ht]
    rfl
  · rw [ht]
    rfl

/-- R130: a pulse that ends an interval, or comes after the missing-pulse event. -/
theorem pulse_present {s : State} {since : Nat} (hp : s.monitor.lastPulse = .present since)
    (ht : s.monitor.timeState = .acquiring ∨ s.monitor.timeState = .locked ∨ s.monitor.timeState = .drift) (ns : Nat) :
    s.pulse ns = if 1500000 < since + ns then (s.elapsed ns).missing.firstPulse
      else (s.elapsed ns).interval (bandOf (since + ns)) := by
  unfold State.pulse
  rw [hp]
  obtain ht | ht | ht := ht
  · rw [ht]
    rfl
  · rw [ht]
    rfl
  · rw [ht]
    rfl

theorem bandOf_inBand {interval : Nat} (h : 990000 ≤ interval ∧ interval ≤ 1010000) : bandOf interval = .inBand :=
  if_pos h

theorem bandOf_drift {interval : Nat} (h : interval < 990000 ∨ 1010000 < interval) : bandOf interval = .drift :=
  if_neg fun ⟨hlow, hhigh⟩ => by
    have hlow : 990000 ≤ interval := hlow
    have hhigh : interval ≤ 1010000 := hhigh
    omega

section Interval

variable {s : State}

/-- R131, R133: an interval in band counts towards LOCKED. -/
theorem interval_counts (h : s.monitor.timeState = .acquiring ∨ s.monitor.timeState = .drift) :
    s.interval .inBand = s.countGood { s.monitor with lastPulse := .present 0 } := by
  unfold State.interval
  obtain h | h := h
  · simp only [h]
  · simp only [h]

/-- R131, R133: an interval out of band begins the count again. -/
theorem interval_restarts (h : s.monitor.timeState = .acquiring ∨ s.monitor.timeState = .drift) :
    s.interval .drift = s.setMonitor { s.monitor with lastPulse := .present 0, good := 0 } := by
  unfold State.interval
  obtain h | h := h
  · simp only [h]
  · simp only [h]

/-- R132: an interval in band is a tick in LOCKED. -/
theorem interval_ticks (h : s.monitor.timeState = .locked) :
    s.interval .inBand = (s.setMonitor { s.monitor with lastPulse := .present 0 }).tick := by
  unfold State.interval
  simp only [h]

/-- R132: an interval out of band ends LOCKED. -/
theorem interval_drifts (h : s.monitor.timeState = .locked) : s.interval .drift =
    s.changeTime { s.monitor with lastPulse := .present 0, timeState := .drift, good := 0 } := by
  unfold State.interval
  simp only [h]

/-- R131: a missing pulse in ACQUIRING begins the count again. -/
theorem missing_restarts (h : s.monitor.timeState = .acquiring) : s.missing = s.setMonitor { s.monitor with
    lastPulse := .absent, good := 0, divider := s.monitor.divider.advance s.monitor.lastPulse.left } := by
  unfold State.missing
  simp only [Monitor.advance, h]

/-- R132, R133: a missing pulse ends LOCKED and DRIFT. -/
theorem missing_loses (h : s.monitor.timeState = .locked ∨ s.monitor.timeState = .drift) : s.missing =
    s.changeTime { s.monitor with timeState := .holdover, lastPulse := .absent, good := 0, elapsed := 0 } := by
  unfold State.missing
  obtain h | h := h
  · simp only [Monitor.advance, h]
    rfl
  · simp only [Monitor.advance, h]
    rfl

/-- R134: a pulse in HOLDOVER and UNSAFE begins the acquisition. -/
theorem firstPulse_acquires (h : s.monitor.timeState = .holdover ∨ s.monitor.timeState = .unsafeTime) :
    s.firstPulse = s.changeTime
      { s.monitor with timeState := .acquiring, lastPulse := .present 0, good := 0, elapsed := 0 } := by
  unfold State.firstPulse
  obtain h | h := h
  · simp only [h]
  · simp only [h]

/-- R130: elsewhere it becomes the last pulse. -/
theorem firstPulse_stands (hh : s.monitor.timeState ≠ .holdover) (hu : s.monitor.timeState ≠ .unsafeTime) :
    s.firstPulse = s.setMonitor { s.monitor with lastPulse := .present 0 } := by
  unfold State.firstPulse
  cases ht : s.monitor.timeState with
  | holdover => exact absurd ht hh
  | unsafeTime => exact absurd ht hu
  | acquiring => simp only [ht]
  | locked => simp only [ht]
  | drift => simp only [ht]
  | freeRun => simp only [ht]

end Interval

/-! ### A pulse by the time state it finds -/

section Pulse

variable {s : State} {ns since : Nat}

/-- R131, R133: an interval in band short of the eighth. -/
theorem pulse_good (hp : s.monitor.lastPulse = .present since) (hle : since + ns ≤ 1500000)
    (hband : 990000 ≤ since + ns ∧ since + ns ≤ 1010000)
    (ht : s.monitor.timeState = .acquiring ∨ s.monitor.timeState = .drift) :
    s.pulse ns = (s.elapsed ns).countGood (s.monitor.pulsed ns) := by
  rw [pulse_present hp (ht.imp_right .inr), if_neg (Nat.not_lt.2 hle), bandOf_inBand hband,
    interval_counts (s := s.elapsed ns) ht]
  rfl

/-- R131, R133: an interval out of band. -/
theorem pulse_restarts (hp : s.monitor.lastPulse = .present since) (hle : since + ns ≤ 1500000)
    (hband : since + ns < 990000 ∨ 1010000 < since + ns)
    (ht : s.monitor.timeState = .acquiring ∨ s.monitor.timeState = .drift) :
    s.pulse ns = s.setMonitor { s.monitor.pulsed ns with good := 0 } := by
  rw [pulse_present hp (ht.imp_right .inr), if_neg (Nat.not_lt.2 hle), bandOf_drift hband,
    interval_restarts (s := s.elapsed ns) ht]
  rfl

/-- R132: an interval in band in LOCKED. -/
theorem pulse_ticks (hp : s.monitor.lastPulse = .present since) (hle : since + ns ≤ 1500000)
    (hband : 990000 ≤ since + ns ∧ since + ns ≤ 1010000) (ht : s.monitor.timeState = .locked) :
    s.pulse ns = (s.setMonitor (s.monitor.pulsed ns)).tick := by
  rw [pulse_present hp (.inr (.inl ht)), if_neg (Nat.not_lt.2 hle), bandOf_inBand hband,
    interval_ticks (s := s.elapsed ns) ht]
  rfl

/-- R132: an interval out of band in LOCKED. -/
theorem pulse_drifts (hp : s.monitor.lastPulse = .present since) (hle : since + ns ≤ 1500000)
    (hband : since + ns < 990000 ∨ 1010000 < since + ns) (ht : s.monitor.timeState = .locked) :
    s.pulse ns = s.changeTime { s.monitor.pulsed ns with timeState := .drift, good := 0 } := by
  rw [pulse_present hp (.inr (.inl ht)), if_neg (Nat.not_lt.2 hle), bandOf_drift hband,
    interval_drifts (s := s.elapsed ns) ht]
  rfl

/-- The last pulse of the state in which a late pulse is taken has reached its limit. -/
theorem elapsed_left (hp : s.monitor.lastPulse = .present since) (hlate : 1500000 < since + ns) :
    (s.elapsed ns).monitor.lastPulse.left = 0 := by
  show (s.monitor.lastPulse.advance ns).left = 0
  rw [hp]
  show 1500000 - min (since + ns) 1500000 = 0
  omega

theorem advance_zero (d : Divider) (ns : Nat) : (d.advance ns).advance 0 = d.advance ns := by
  cases d with
  | stopped => rfl
  | running p =>
    show Divider.running (min (min (p + ns) 1000000 + 0) 1000000) = Divider.running (min (p + ns) 1000000)
    rw [Nat.add_zero, Nat.min_assoc, Nat.min_self]

/-- R130, log 8: a late pulse in ACQUIRING. -/
theorem pulse_late (hp : s.monitor.lastPulse = .present since) (hlate : 1500000 < since + ns)
    (ht : s.monitor.timeState = .acquiring) :
    s.pulse ns = s.setMonitor { s.monitor.pulsed ns with good := 0 } := by
  have hmissing := missing_restarts (s := s.elapsed ns) ht
  rw [elapsed_left hp hlate] at hmissing
  have hdivider : (s.elapsed ns).monitor.divider.advance 0 = s.monitor.divider.advance ns := advance_zero _ ns
  rw [hdivider] at hmissing
  have hstate : (s.elapsed ns).missing.monitor.timeState = .acquiring := by
    rw [hmissing]
    exact ht
  rw [pulse_present hp (.inl ht), if_pos hlate, firstPulse_stands (hstate ▸ by decide) (hstate ▸ by decide), hmissing]
  rfl

/-- The monitor after a change of time state (R137, R141, R142). -/
theorem changeTime_monitor (s : State) (m : Monitor) : (s.changeTime m).monitor =
    { m with divider := m.timeState.divider, agentFlags := s.flagsSet, managementFlag := true } := by
  obtain ⟨-, -, -, hmonitor, -⟩ := changeTime_tableOnly s m
  exact hmonitor

/-- R130, log 8: a late pulse in LOCKED and DRIFT comes after the change to HOLDOVER. -/
theorem pulse_afterLoss (hp : s.monitor.lastPulse = .present since) (hlate : 1500000 < since + ns)
    (ht : s.monitor.timeState = .locked ∨ s.monitor.timeState = .drift) {late : State}
    (hl : late = s.changeTime
      { s.monitor with timeState := .holdover, lastPulse := .absent, good := 0, elapsed := 0 }) :
    s.pulse ns = late.changeTime
      { late.monitor with timeState := .acquiring, lastPulse := .present 0, good := 0, elapsed := 0 } := by
  have hmissing : (s.elapsed ns).missing = late := (missing_loses (s := s.elapsed ns) ht).trans hl.symm
  have hstate : late.monitor.timeState = .holdover := by
    rw [hl, changeTime_monitor]
  rw [pulse_present hp (.inr ht), if_pos hlate, hmissing, firstPulse_acquires (.inl hstate)]

end Pulse

/-- Settles O49: each clause is the pulse, or the missing-pulse event, in its time state. -/
theorem timeBaseFollowsTheReference : Obligations.TimeBaseFollowsTheReference := by
  unfold Obligations.TimeBaseFollowsTheReference
  intro s ns hq m advanced pulsed
  have hpulsed : pulsed = s.monitor.pulsed ns := rfl
  clear_value pulsed
  subst hpulsed
  refine ⟨fun hnot => ?_, fun hh hsource => ?_⟩
  · have hm : s.measuring = false := by
      rw [Bool.eq_false_iff, ne_eq, measuring_iff]
      rintro ⟨hheld, hreference⟩
      rw [hheld, hreference] at hnot
      simp at hnot
    rw [exec_trefPulse hq, exec_missingPulse hq, hm]
    exact ⟨rfl, rfl⟩
  have hm : s.measuring = true := (measuring_iff s).2 ⟨hh, hsource⟩
  rw [exec_trefPulse hq, exec_missingPulse hq, if_pos hm, hm, Bool.true_and]
  refine ⟨fun since hp hle => ⟨fun hband => ⟨fun ht hn => ?_, fun ht hn => ?_, fun ht => ?_⟩,
    fun hband => ⟨fun ht => ?_, fun ht => ?_⟩⟩, fun since hp hlate => ⟨fun ht => ?_, fun ht => ?_⟩,
    fun hp hho hun => ?_, fun ht => ?_, fun since hp ht => ?_, fun since hp ht => ?_, fun hp => ?_⟩
  · rw [pulse_good hp hle hband ht]
    exact congrArg Host.Outcome.next (if_neg hn)
  · rw [pulse_good hp hle hband ht]
    exact congrArg Host.Outcome.next (if_pos hn)
  · exact congrArg Host.Outcome.next (pulse_ticks hp hle hband ht)
  · exact congrArg Host.Outcome.next (pulse_restarts hp hle hband ht)
  · exact congrArg Host.Outcome.next (pulse_drifts hp hle hband ht)
  · exact congrArg Host.Outcome.next (pulse_late hp hlate ht)
  · exact congrArg Host.Outcome.next (pulse_afterLoss hp hlate ht rfl)
  · rw [pulse_first (.inl hp), firstPulse_stands (s := s.elapsed ns) hho hun]
    rfl
  · rw [pulse_first (.inr ht), firstPulse_acquires (s := s.elapsed ns) ht]
    rfl
  · rw [hp, missing_restarts ht, hp]
    rfl
  · rw [hp, missing_loses ht]
    rfl
  · rw [hp]
    rfl

end Sys2Proof.Machine
end

section
/-! A change of time state (R72, R137, R140 to R142), and the tick (R39, R63, R110, R121, R134, R137, R138). -/

namespace Sys2Proof.Machine

/-! ### A change of time state -/

theorem flagsSet_get (s : State) (n : Agent) :
    s.flagsSet.get n = (s.monitor.agentFlags.get n || (s.session n).state.joined) := by
  fin_cases n <;> rfl

theorem joined_eq (st : AgentState) : st.joined = (st == .active || st == .standby) := by cases st <;> rfl

theorem divider_eq (ts : TimeState) : ts.divider = if ts = .locked then .stopped else .running 0 := by
  cases ts <;> rfl

theorem changeTime_sessions (s : State) (m : Monitor) : (s.changeTime m).sessions = s.sessions := by
  unfold State.changeTime
  simp only
  split
  · exact grantAll_sessions _
  · rfl

theorem permits_eq_false_iff {ts : TimeState} : ts.permits = false ↔ ts = .acquiring ∨ ts = .unsafeTime := by
  cases ts <;> decide

/-- R140: a change resumes grants when it leaves a withholding state for a permitting one. -/
theorem resumes_iff {old new : TimeState} : old.resumes new = true ↔
    (old = .acquiring ∨ old = .unsafeTime) ∧ new ≠ .acquiring ∧ new ≠ .unsafeTime := by
  rw [TimeState.resumes, Bool.and_eq_true, Bool.not_eq_true', permits_eq_false_iff, ← not_or,
    ← permits_eq_false_iff (ts := new), Bool.not_eq_false]

/-- Settles O50: the change with its flags written out, and the grant checks by whether it resumes grants. -/
theorem changesOfTimeStateSetTheFlags : Obligations.ChangesOfTimeStateSetTheFlags := by
  unfold Obligations.ChangesOfTimeStateSetTheFlags
  intro s m t flagged
  have hmonitor : t.monitor =
      { m with divider := m.timeState.divider, agentFlags := s.flagsSet, managementFlag := true } :=
    changeTime_monitor s m
  have hflags : t.monitor.agentFlags = s.flagsSet := congrArg Monitor.agentFlags hmonitor
  have hflagged : flagged = s.setMonitor
      { m with divider := m.timeState.divider, agentFlags := s.flagsSet, managementFlag := true } := by
    rw [← hflags, divider_eq]
    rfl
  obtain ⟨-, -, -, -, hports, hsettings, hmanagement, -⟩ := changeTime_tableOnly s m
  refine ⟨fun n => ?_, fun hold hacq hun => ?_, fun hnot => ?_, ?_, changeTime_sessions s m, hports, hsettings,
    hmanagement⟩
  · rw [hflags, flagsSet_get, joined_eq, Bool.or_assoc]
  · rw [hflagged]
    exact if_pos (resumes_iff.2 ⟨hold, hacq, hun⟩)
  · rw [hflagged]
    refine if_neg fun hresumes => ?_
    obtain ⟨hold, hacq, hun⟩ := resumes_iff.1 hresumes
    obtain ⟨hacq', hun'⟩ | hacq' | hun' := hnot
    · exact hold.elim hacq' hun'
    · exact hacq hacq'
    · exact hun hun'
  · rw [hflagged, hmonitor]
    rfl

/-! ### The tick -/

theorem tickHolder_eq (h : Holder) :
    tickHolder h = if h.status = .running then { h with remaining := h.remaining - 1 } else h := by
  unfold tickHolder
  cases hs : h.status with
  | running => rfl
  | kept => rfl

/-- R134: the holdover count. -/
theorem tickMonitor_eq (m : Monitor) : tickMonitor m = { m with
    elapsed := if m.timeState = .holdover ∨ m.timeState = .unsafeTime then min (m.elapsed + 1) 65535
      else m.elapsed } := by
  obtain ⟨ts, lastPulse, good, elapsed, divider, agentFlags, managementFlag⟩ := m
  cases ts <;> rfl

theorem tick_session (s : State) (n : Agent) : s.tick.session n = tickSession (s.session n) := by
  fin_cases n <;> rfl

theorem exec_dividerTick {s : State} (hq : s.quiet = true) (hh : s.held = false) {p : Nat}
    (hd : s.monitor.divider = .running p) : exec .dividerTick s = .next (s.dividerTick p) := by
  show execDividerTick s = _
  simp only [execDividerTick, State.settle_of_quiet hq, hh, hd, Bool.false_eq_true, if_false]

theorem exec_dividerTick_none {s : State} (hq : s.quiet = true) (h : s.held = true ∨ s.monitor.divider = .stopped) :
    exec .dividerTick s = .next s := by
  show execDividerTick s = _
  obtain h | h := h
  · simp only [execDividerTick, State.settle_of_quiet hq, h, if_true]
  · simp only [execDividerTick, State.settle_of_quiet hq, h, ite_self]

/-- Settles O51: the tick field by field; the divider's tick by whether it runs. -/
theorem aTickCountsEverythingByOne : Obligations.ATickCountsEverythingByOne := by
  unfold Obligations.ATickCountsEverythingByOne
  intro s holder claim record session
  have hholder : holder = tickHolder := funext fun h => (tickHolder_eq h).symm
  refine ⟨?_, tick_session s, tickMonitor_eq s.monitor, rfl, fun hq =>
    ⟨fun hh p hd => ?_, exec_dividerTick_none hq⟩⟩
  · show _ = s.records.map fun p : Nat × Record =>
      (p.1, { p.2 with holders := p.2.holders.map holder, queue := p.2.queue.map claim })
    rw [hholder]
    rfl
  · rw [exec_dividerTick hq hh hd]
    cases hp : s.monitor.lastPulse with
    | absent => simp only [State.dividerTick, hp]; rfl
    | present since => simp only [State.dividerTick, hp]; rfl

end Sys2Proof.Machine
end

section
/-! The standby expiry, the creation window and the holdover limit as commands (R110, R124, R134). -/

namespace Sys2Proof.Machine

theorem exec_standbyExpiry (n : Agent) (s : State) :
    exec (.standbyExpiry n) s = .next (if s.standbyDue n then s.expireStandby n else s) := rfl

theorem exec_creationEntryLeaves (n : Agent) (s : State) : exec (.creationEntryLeaves n) s =
    .next (s.setSession n { s.session n with
      window := (s.session n).window.eraseP fun age => decide (s.settings.createSpan ≤ age) }) := rfl

theorem exec_holdoverLimitReached (s : State) : exec .holdoverLimitReached s = .next s.settleMonitor := rfl

/-- R124: a standby expiry is due when the countdown of a STANDBY agent has run out. -/
theorem standbyDue_iff {s : State} {n : Agent} {b : Standby} (hb : (s.session n).standby = some b) :
    s.standbyDue n = true ↔ (s.session n).state = .standby ∧ b.countdown = 0 := by
  simp only [State.standbyDue, hb, Bool.and_eq_true, beq_iff_eq]

/-- R124: the expiry resumes the agent's leases and notes that the standby has lapsed. -/
theorem expireStandby_eq (s : State) (n : Agent) : s.expireStandby n =
    ({ s with
        records := s.records.map fun p => (p.1, { p.2 with
          holders := p.2.holders.map fun h =>
            if h.agent == n && h.status == .kept then { h with status := .running } else h }) }
      : State).setSession n { s.session n with state := .active, standby := none, lapsed := true } := by
  rw [State.expireStandby, State.resumeStandby, resumeHolder_eq]
  simp only [setSession_session_same, State.setSession_setSession]
  rfl

theorem setSession_session_self (s : State) (n : Agent) : s.setSession n (s.session n) = s := by
  fin_cases n <;> rfl

/-- Settles O53: each command by whether its part is due. -/
theorem standbyWindowAndHoldoverRunOut : Obligations.StandbyWindowAndHoldoverRunOut := by
  unfold Obligations.StandbyWindowAndHoldoverRunOut
  intro s n
  refine ⟨fun b hs hb => ⟨fun hc => ?_, fun hc => ?_⟩, fun hs => ?_, fun age rest hw hage => ?_, fun hw => ?_,
    fun ht hmax => ?_, fun h => ?_⟩
  · rw [exec_standbyExpiry, if_pos ((standbyDue_iff hb).2 ⟨hs, hc⟩), expireStandby_eq]
  · rw [exec_standbyExpiry, if_neg fun hdue => hc ((standbyDue_iff hb).1 hdue).2]
  · rw [exec_standbyExpiry, if_neg fun hdue => hs (standbyDue_state hdue)]
  · have hleaves : (s.session n).window.eraseP (fun age => decide (s.settings.createSpan ≤ age)) = rest := by
      rw [hw]
      exact List.eraseP_cons_of_pos (decide_eq_true hage)
    rw [exec_creationEntryLeaves, hleaves]
  · have hstay : (s.session n).window.eraseP (fun age => decide (s.settings.createSpan ≤ age)) =
        (s.session n).window :=
      List.eraseP_of_forall_not fun age hage hdue => Nat.not_le.2 (hw age hage) (of_decide_eq_true hdue)
    rw [exec_creationEntryLeaves, hstay]
    exact congrArg Host.Outcome.next (setSession_session_self s n)
  · rw [exec_holdoverLimitReached, settleMonitor_due (limitDue_iff.2 ⟨ht, hmax⟩)]
  · have hnot : s.limitDue = false := by
      rw [Bool.eq_false_iff, ne_eq, limitDue_iff]
      rintro ⟨hholdover, hreached⟩
      exact h.elim (fun hne => hne hholdover) (Nat.not_lt.2 hreached)
    rw [exec_holdoverLimitReached, settleMonitor_quiet hnot]

end Sys2Proof.Machine
end

section
/-! The expiries of a tick as commands, and settling as their succession (R39, R40, R64 to R66, R110, R124, R134). -/

namespace Sys2Proof.Machine

/-! ### One expiry, with nothing due in a lower slot -/

section Lowest

variable {s : State} {slot : Nat} (hlow : ∀ i ∈ s.dueSlots, slot ≤ i) (n : Agent)
include hlow

theorem exec_leaseExpiry : exec (.leaseExpiry slot n) s =
    .next (if .lease n ∈ s.dueParts slot then s.expireLease slot n else s) := by
  show execLeaseExpiry slot n s = _
  simp only [execLeaseExpiry, settleBelow_of_none hlow]

theorem exec_waitExpiry : exec (.waitExpiry slot n) s =
    .next (if .wait n ∈ s.dueParts slot then s.expireWait slot n else s) := by
  show execWaitExpiry slot n s = _
  simp only [execWaitExpiry, settleBelow_of_none hlow]

theorem exec_upgradeWaitExpiry : exec (.upgradeWaitExpiry slot n) s =
    .next (if .upgradeWait n ∈ s.dueParts slot then s.expireUpgrade slot n else s) := by
  show execUpgradeWaitExpiry slot n s = _
  simp only [execUpgradeWaitExpiry, settleBelow_of_none hlow]

end Lowest

/-- The command that takes a part of a tick in a record. -/
def DuePart.command (slot : Nat) : DuePart → Instr
  | .lease n => .leaseExpiry slot n
  | .wait n => .waitExpiry slot n
  | .upgradeWait n => .upgradeWaitExpiry slot n

/-- R40, R64, R65: the command takes its part when it is due. -/
theorem exec_command {s : State} {slot : Nat} (hlow : ∀ i ∈ s.dueSlots, slot ≤ i) {p : DuePart}
    (hp : p ∈ s.dueParts slot) : exec (p.command slot) s = .next (s.takePart slot p) := by
  cases p with
  | lease n => exact (exec_leaseExpiry hlow n).trans (congrArg Host.Outcome.next (if_pos hp))
  | wait n => exact (exec_waitExpiry hlow n).trans (congrArg Host.Outcome.next (if_pos hp))
  | upgradeWait n => exact (exec_upgradeWaitExpiry hlow n).trans (congrArg Host.Outcome.next (if_pos hp))

/-- It changes nothing when its part is not due. -/
theorem exec_command_none {s : State} {slot : Nat} (hlow : ∀ i ∈ s.dueSlots, slot ≤ i) {p : DuePart}
    (hp : p ∉ s.dueParts slot) : exec (p.command slot) s = .next s := by
  cases p with
  | lease n => exact (exec_leaseExpiry hlow n).trans (congrArg Host.Outcome.next (if_neg hp))
  | wait n => exact (exec_waitExpiry hlow n).trans (congrArg Host.Outcome.next (if_neg hp))
  | upgradeWait n => exact (exec_upgradeWaitExpiry hlow n).trans (congrArg Host.Outcome.next (if_neg hp))

theorem not_mem_dueParts_of_none {s : State} {slot : Nat} (hr : s.record slot = none) (p : DuePart) :
    p ∉ s.dueParts slot := by
  rw [dueParts_none hr]
  exact List.not_mem_nil

/-- R40, R64: an agent's whole part leaves with a notice. -/
theorem leaveRecord_notice {s : State} {slot : Nat} {r : Record} (hr : s.record slot = some r) (n : Agent)
    (kind : NoticeKind) : s.leaveRecord slot n (some kind) =
      ((((s.putRecord slot (r.dropAgent n)).postPlain slot n kind).losePart n).grantCheck slot).retireIfEmpty slot := by
  unfold State.leaveRecord
  rw [hr]

/-- R65: an upgrade's claim leaves with a notice. -/
theorem expireUpgrade_notice {s : State} {slot : Nat} {r : Record} (hr : s.record slot = some r) (n : Agent) :
    s.expireUpgrade slot n = ((s.putRecord slot (r.dropClaim n)).postPlain slot n .waitExpired).grantCheck slot := by
  unfold State.expireUpgrade
  rw [hr]

/-! ### What is still due comes first -/

theorem settleFor_eq {k : Request} (hk : k ≠ .wake) (s : State) (n : Agent) : s.settleFor k n = s.settle := by
  cases k with
  | wake => exact absurd rfl hk
  | _ => rfl

theorem request_congr {s t : State} {k : Request} {n : Agent} (h : s.settleFor k n = t.settleFor k n) (x : Transfer)
    (body : List Byte) (rule : State → State × Answer) : s.request k n x body rule = t.request k n x body rule := by
  unfold State.request
  rw [h]

theorem mailboxRequest_congr {s t : State} (h : s.settle = t.settle) (code : Byte) (rule : State → Completion) :
    s.mailboxRequest code rule = t.mailboxRequest code rule := by
  unfold State.mailboxRequest
  rw [h]

theorem readRun_congr {s t : State} (h : s.settle = t.settle) (run : ReadRun) : s.readRun run = t.readRun run := by
  unfold State.readRun
  rw [h]

theorem writeRun_congr {s t : State} (h : s.settle = t.settle) (address data : Option Byte) :
    s.writeRun address data = t.writeRun address data := by
  unfold State.writeRun
  rw [h]

/-- Every command but a part of a tick, a full reset and a WAKE reads the settled state alone. -/
theorem exec_congr {s t : State} (h : s.settle = t.settle) {c : Instr} (hpart : c.tickPart = false)
    (hreset : c.fullReset = false) (hwake : ∀ n x b, c ≠ .wake n x b) : exec c s = exec c t := by
  have hrequest (k : Request) (hk : k ≠ .wake) (n : Agent) (x : Transfer) (b : List Byte)
      (rule : State → State × Answer) :
      Host.Outcome.next (s.request k n x b rule) =
        (.next (t.request k n x b rule) : Host.Outcome State Fault Refusal) :=
    congrArg Host.Outcome.next
      (request_congr (((settleFor_eq hk s n).trans h).trans (settleFor_eq hk t n).symm) x b rule)
  have hmailbox (code : Byte) (rule : State → Completion) :
      Host.Outcome.next (s.mailboxRequest code rule) =
        (.next (t.mailboxRequest code rule) : Host.Outcome State Fault Refusal) :=
    congrArg Host.Outcome.next (mailboxRequest_congr h code rule)
  have hsettled (f : State → State) :
      Host.Outcome.next (f s.settle) = (.next (f t.settle) : Host.Outcome State Fault Refusal) :=
    congrArg (fun u => Host.Outcome.next (f u)) h
  cases c with
  | join n x b => exact hrequest .join (by decide) n x b _
  | leave n x b => exact hrequest .leave (by decide) n x b _
  | claim n x b => exact hrequest .claim (by decide) n x b _
  | upgrade n x b => exact hrequest .upgrade (by decide) n x b _
  | downgrade n x b => exact hrequest .downgrade (by decide) n x b _
  | renew n x b => exact hrequest .renew (by decide) n x b _
  | renewSet n x b => exact hrequest .renewSet (by decide) n x b _
  | release n x b => exact hrequest .release (by decide) n x b _
  | lookup n x b => exact hrequest .lookup (by decide) n x b _
  | read n x b => exact hrequest .read (by decide) n x b _
  | write n x b => exact hrequest .write (by decide) n x b _
  | holdings n x b => exact hrequest .holdings (by decide) n x b _
  | notices n x b => exact hrequest .notices (by decide) n x b _
  | time n x b => exact hrequest .time (by decide) n x b _
  | standby n x b => exact hrequest .standby (by decide) n x b _
  | wake n x b => exact absurd rfl (hwake n x b)
  | set => exact hmailbox 0x01 setRule
  | define => exact hmailbox 0x02 defineRule
  | retire => exact hmailbox 0x03 retireRule
  | mark => exact hmailbox 0x04 markRule
  | seed => exact hmailbox 0x05 seedRule
  | inspect => exact hmailbox 0x06 inspectRule
  | evict => exact hmailbox 0x07 evictRule
  | mailboxBadRequest code => exact hmailbox code _
  | statusRead run => exact congrArg Host.Outcome.next (readRun_congr h run)
  | resultRead run => exact congrArg Host.Outcome.next (readRun_congr h run)
  | registerWrite address data => exact congrArg Host.Outcome.next (writeRun_congr h address data)
  | leaseExpiry slot n => cases hpart
  | waitExpiry slot n => cases hpart
  | upgradeWaitExpiry slot n => cases hpart
  | standbyExpiry n => cases hpart
  | creationEntryLeaves n => cases hpart
  | holdoverLimitReached => cases hpart
  | powerOnReset => cases hreset
  | pinReset => cases hreset
  | fetchOnlyTransaction n start total => exact hsettled fun u => u.transact n start total false id
  | requestDropped n start total =>
    exact hsettled fun u => if u.drops n start total then u.transact n start total true id else u
  | badFrame n start bytes =>
    exact hsettled fun u => u.transact n start bytes.length true fun v => v.answer n (.refused .badFrame)
  | badRequest n x code b =>
    exact hsettled fun u => u.transact n x.start (3 + b.length + x.extra) true fun v =>
      v.answer n (.refused .badRequest)
  | responseMade n => exact hsettled fun u => u.makeResponse n
  | softReset =>
    show execSoftReset s = execSoftReset t
    rw [execSoftReset, h, execSoftReset]
  | resetEnd => exact hsettled fun u => if u.held then u.endReset else u
  | sweepComplete => exact hsettled fun u => if !u.held && u.table == .initializing then u.sweep else u
  | trefPulse ns => exact hsettled fun u => if u.measuring then u.pulse ns else u
  | missingPulse => exact hsettled fun u => if u.measuring && u.monitor.lastPulse.isPresent then u.missing else u
  | dividerTick =>
    show execDividerTick s = execDividerTick t
    rw [execDividerTick, h, execDividerTick]

theorem exec_wake_congr {s t : State} {n : Agent} (h : s.settleForWake n = t.settleForWake n) (x : Transfer)
    (b : List Byte) : exec (.wake n x b) s = exec (.wake n x b) t :=
  congrArg Host.Outcome.next (request_congr (k := .wake) h x b _)

theorem exec_command_congr {s t : State} {slot : Nat} (h : s.settleBelow slot = t.settleBelow slot) (p : DuePart) :
    exec (p.command slot) s = exec (p.command slot) t := by
  cases p with
  | lease n =>
    show execLeaseExpiry slot n s = execLeaseExpiry slot n t
    simp only [execLeaseExpiry, h]
  | wait n =>
    show execWaitExpiry slot n s = execWaitExpiry slot n t
    simp only [execWaitExpiry, h]
  | upgradeWait n =>
    show execUpgradeWaitExpiry slot n s = execUpgradeWaitExpiry slot n t
    simp only [execUpgradeWaitExpiry, h]

/-! ### Settling, part after part -/

theorem settle_congr {s t : State} (h : s.settleCore = t.settleCore) : s.settle = t.settle := by
  rw [State.settle, State.settle, h]

theorem settleTable_limitDue (s : State) : s.settleTable.limitDue = s.limitDue := by
  obtain ⟨hmonitor, hsettings, -⟩ := settleSlots_monitor s s.dueSlots
  exact limitDue_congr hmonitor hsettings

/-- With the holdover limit not due, the table alone is settled. -/
theorem settleCore_of_noLimit {s : State} (h : s.limitDue = false) : s.settleCore = s.settleTable := by
  unfold State.settleCore
  rw [h, Bool.false_and, if_neg Bool.false_ne_true]
  exact settleMonitor_quiet ((settleTable_limitDue s).trans h)

theorem settleTable_of_none {s : State} (h : s.dueSlots = []) : s.settleTable = s := by
  rw [State.settleTable, h]
  rfl

theorem takePart_limitDue (s : State) (slot : Nat) (p : DuePart) : (s.takePart slot p).limitDue = s.limitDue := by
  obtain ⟨-, -, -, hmonitor, -, hsettings, -⟩ := takePart_tableOnly s slot p
  exact limitDue_congr hmonitor hsettings

/-- R39, R66: an expiry of the lowest slot that has one due, and then the rest of the tick. -/
theorem settle_head {s : State} (hc : Canon s) {slot : Nat} {others : List Nat} (hd : s.dueSlots = slot :: others)
    (hl : s.limitDue = false) : ∃ (u : State) (p : DuePart), (u = s ∨ u = { s with choices := s.choices + 1 }) ∧
      p ∈ s.dueParts slot ∧ exec (p.command slot) u = .next (u.takePart slot p) ∧
      s.settle = (u.takePart slot p).settle := by
  obtain ⟨u, p, hu, hp, htable⟩ := settleTable_head hc hd
  have hdue : u.dueSlots = slot :: others := by
    obtain rfl | rfl := hu
    · exact hd
    · exact hd
  have hlimit : u.limitDue = false := by
    obtain rfl | rfl := hu
    · exact hl
    · exact hl
  have hascending := dueSlots_pairwise hc
  rw [hd, List.pairwise_cons] at hascending
  have hlow : ∀ i ∈ u.dueSlots, slot ≤ i := by
    rw [hdue]
    intro i hi
    obtain rfl | hi := List.mem_cons.1 hi
    · exact Nat.le_refl _
    · exact Nat.le_of_lt (hascending.1 i hi)
  have hpu : p ∈ u.dueParts slot := by rw [dueParts_congr (record_chosen hu slot)]; exact hp
  refine ⟨u, p, hu, hp, exec_command hlow hpu, settle_congr ?_⟩
  rw [settleCore_of_noLimit hl, settleCore_of_noLimit ((takePart_limitDue u slot p).trans hlimit), htable]

/-- R134, log 4: the change to UNSAFE and then the rest of the tick, or the table's expiries and then the rest. -/
theorem settle_limit {s : State} (hc : Canon s) (hl : s.limitDue = true) : ∃ u : State,
    (u = s ∨ u = { s with choices := s.choices + 1 }) ∧
    (s.settle = u.settleMonitor.settle ∨ s.settle = u.settleTable.settle) := by
  have hafter (u : State) : u.settleMonitor.settleCore = u.settleMonitor.settleTable :=
    settleCore_of_noLimit (settleMonitor_none u)
  by_cases hd : s.dueSlots = []
  · refine ⟨s, .inl rfl, .inl (settle_congr ?_)⟩
    have hdm : s.settleMonitor.dueSlots = [] := (dueSlots_congr (settleMonitor_fields s).1).trans hd
    rw [hafter, settleTable_of_none hdm, State.settleCore, hd, List.isEmpty_nil, Bool.not_true, Bool.and_false,
      if_neg Bool.false_ne_true, settleTable_of_none hd]
  · have hboth : (s.limitDue && !s.dueSlots.isEmpty) = true := by
      rw [hl, Bool.true_and, Bool.not_eq_true', List.isEmpty_eq_false_iff]
      exact hd
    refine ⟨{ s with choices := s.choices + 1 }, .inr rfl, ?_⟩
    by_cases hfirst : Config.limitFirst s.choices = true
    · refine .inl (settle_congr ?_)
      rw [hafter, State.settleCore, if_pos hboth, if_pos hfirst]
    · refine .inr (settle_congr ?_)
      have hcu : Canon ({ s with choices := s.choices + 1 } : State) := hc.same rfl rfl rfl
      have hnone := settleTable_none hcu
      rw [State.settleCore, if_pos hboth, if_neg hfirst, State.settleCore, hnone, List.isEmpty_nil, Bool.not_true,
        Bool.and_false, if_neg Bool.false_ne_true, settleTable_of_none hnone]

/-- R110, R124: a session is settled by its standby expiry and the leaving of its aged entries. -/
theorem settleSession_eq (s : State) (n : Agent) : ∃ t : State, exec (.standbyExpiry n) s = .next t ∧
    s.settleSession n = t.setSession n { t.session n with
      window := (t.session n).window.filter fun age => decide (age < t.settings.createSpan) } := by
  refine ⟨_, exec_standbyExpiry n s, ?_⟩
  unfold State.settleSession
  generalize (if s.standbyDue n = true then s.expireStandby n else s) = t
  by_cases he : t.entryDue n = true
  · exact if_pos he
  · refine (if_neg he).trans ?_
    have hstay : (t.session n).window.filter (fun age => decide (age < t.settings.createSpan)) =
        (t.session n).window := by
      rw [State.entryDue, List.any_eq_true] at he
      exact List.filter_eq_self.2 fun age hage =>
        decide_eq_true (Nat.lt_of_not_le fun hle => he ⟨age, hage, decide_eq_true hle⟩)
    rw [hstay]
    exact (setSession_session_self t n).symm

/-- Settles O52: each expiry by its part; settling by its first part. -/
theorem expiriesAreTakenWhole : Obligations.ExpiriesAreTakenWhole := by
  unfold Obligations.ExpiriesAreTakenWhole
  refine ⟨fun s slot n hlow => ⟨fun hr => ?_, fun r hr => ?_⟩, fun s hs => ?_⟩
  · have hnone := not_mem_dueParts_of_none hr
    exact ⟨exec_command_none hlow (hnone (.lease n)), exec_command_none hlow (hnone (.wait n)),
      exec_command_none hlow (hnone (.upgradeWait n))⟩
  · intro plain dropped lease wait upgrade
    have hlease : DuePart.lease n ∈ s.dueParts slot ↔ lease := (due_of_record hr).trans lease_mem_dueParts
    have hwait : DuePart.wait n ∈ s.dueParts slot ↔ wait := (due_of_record hr).trans wait_mem_dueParts
    have hupgrade : DuePart.upgradeWait n ∈ s.dueParts slot ↔ upgrade := (due_of_record hr).trans upgrade_mem_dueParts
    refine ⟨fun h => (exec_command hlow (hlease.2 h)).trans ?_, fun h => (exec_command hlow (hwait.2 h)).trans ?_,
      fun h => (exec_command hlow (hupgrade.2 h)).trans ?_, fun h => exec_command_none hlow (hlease.not.2 h),
      fun h => exec_command_none hlow (hwait.not.2 h), fun h => exec_command_none hlow (hupgrade.not.2 h)⟩
    · exact congrArg Host.Outcome.next (leaveRecord_notice hr n .expired)
    · exact congrArg Host.Outcome.next (leaveRecord_notice hr n .waitExpired)
    · exact congrArg Host.Outcome.next (expireUpgrade_notice hr n)
  · obtain ⟨hcanonical, hkept⟩ := (Bool.and_eq_true _ _).mp hs
    have hc : Canon s := (canonical_iff s).1 hcanonical
    have hk : KeptAlive s := (keptAlive_iff s).1 hkept
    obtain ⟨hquiet, -, -⟩ := settle_spec hc hk
    refine ⟨fun c hpart hreset hwake => exec_congr (State.settle_of_quiet hquiet).symm hpart hreset hwake,
      fun n x b => exec_wake_congr (State.settleForWake_of_quietBut (settleForWake_spec hc hk n)).symm x b,
      fun slot n c hcommand => ?_, hquiet, settleForWake_spec hc hk, fun slot others hd hl => ?_, fun hl => ?_,
      fun hd hl => ?_, settleSession_eq s⟩
    · have hlow := (settleBelow_spec hc slot).1
      have hbelow := (settleBelow_of_none hlow).symm
      refine ⟨?_, hlow⟩
      obtain rfl | rfl | rfl := hcommand
      · exact exec_command_congr hbelow (.lease n)
      · exact exec_command_congr hbelow (.wait n)
      · exact exec_command_congr hbelow (.upgradeWait n)
    · obtain ⟨u, p, hu, hp, hexec, hrest⟩ := settle_head hc hd hl
      cases p with
      | lease n => exact ⟨u, _, n, _, hu, .inl ⟨rfl, hp⟩, hexec, hrest⟩
      | wait n => exact ⟨u, _, n, _, hu, .inr (.inl ⟨rfl, hp⟩), hexec, hrest⟩
      | upgradeWait n => exact ⟨u, _, n, _, hu, .inr (.inr ⟨rfl, hp⟩), hexec, hrest⟩
    · obtain ⟨u, hu, hrest⟩ := settle_limit hc hl
      exact ⟨u, _, hu, exec_holdoverLimitReached u, hrest⟩
    · rw [State.settle, State.settleCore_of_none hd hl, agents, List.foldl_cons, List.foldl_cons, List.foldl_cons,
        List.foldl_cons, List.foldl_nil]

end Sys2Proof.Machine
end
